-- ==== Sys2Proof/Word.lean ====
section
/-!
DEFINITION. The word types of the Dreber instruction set (R1, R2, R107) and nothing else: every
helper over them stands under Machine/.
-/
namespace Sys2Proof

/-- One byte of memory (R2). -/
abbrev Byte := BitVec 8
/-- A 32-bit register or lane (R78, R79). -/
abbrev Word32 := BitVec 32
/-- A 64-bit register pair, address or instruction word (R78, R105). -/
abbrev Word64 := BitVec 64
/-- One bit per lane of a weft (R47, R80). -/
abbrev Mask := BitVec 16
/-- The number of one of the sixteen symbol slots (R88). -/
abbrev SlotNo := Fin 16
/-- The number of a vector register (R78). -/
abbrev VecNo := Fin 256
/-- A table of values by key, the key of each row different. -/
abbrev Tab (κ α : Type) := List (κ × α)

end Sys2Proof
end

