-- ==== Sys2Proof/Machine/Bits.lean ====
section
/-!
DEFINITION. Tables, bit fields, byte order and integer arithmetic shared by the decoder and the meanings
(R2, R46, R164).
-/
namespace Sys2Proof.Machine

/-! ### Tables -/

/-- The value a table holds for a key. -/
def tget {κ α : Type} [DecidableEq κ] : Tab κ α → κ → Option α
  | [], _ => none
  | (k, v) :: t, x => if k = x then some v else tget t x

/-- The value a table holds for a key, or a default. -/
def tgetD {κ α : Type} [DecidableEq κ] (t : Tab κ α) (x : κ) (d : α) : α := (tget t x).getD d

/-- The table with the key's value replaced, or added at the end. -/
def tset {κ α : Type} [DecidableEq κ] : Tab κ α → κ → α → Tab κ α
  | [], x, a => [(x, a)]
  | (k, v) :: t, x, a => if k = x then (x, a) :: t else (k, v) :: tset t x a

/-- The table without the key. -/
def tdel {κ α : Type} [DecidableEq κ] : Tab κ α → κ → Tab κ α
  | [], _ => []
  | (k, v) :: t, x => if k = x then tdel t x else (k, v) :: tdel t x

/-- Element `i` of a list, `d` beyond its end. -/
def nth {α : Type} (l : List α) (i : Nat) (d : α) : α := l.getD i d

/-- The list with element `i` replaced. -/
def setNth {α : Type} : List α → Nat → α → List α
  | [], _, _ => []
  | _ :: t, 0, a => a :: t
  | h :: t, i + 1, a => h :: setNth t i a

/-- The first element that satisfies a test, replaced by a function of it. -/
def updFirst {α : Type} (p : α → Bool) (f : α → α) : List α → List α
  | [] => []
  | h :: t => if p h then f h :: t else h :: updFirst p f t

/-! ### Lanes and masks -/

/-- The sixteen lane numbers (R47). -/
def lanes16 : List Nat := [0, 1, 2, 3, 4, 5, 6, 7, 8, 9, 10, 11, 12, 13, 14, 15]

/-- The lanes of a mask, in ascending order. -/
def lanesOf (m : Mask) : List Nat := lanes16.filter fun l => m.getLsbD l

/-- The mask with one lane. -/
def laneBit (l : Nat) : Mask := (1#16) <<< l

/-- The mask of a list of lanes. -/
def maskOf : List Nat → Mask
  | [] => 0
  | l :: t => laneBit l ||| maskOf t

/-- The lowest-numbered lane of a mask, 0 for the empty one. -/
def lowest (m : Mask) : Nat := (lanesOf m).headD 0

/-- How many lanes a mask holds. -/
def countLanes (m : Mask) : Nat := (lanesOf m).length

/-! ### Bit fields -/

/-- Bits [hi:lo] of a number (R2). -/
def field (x : Nat) (hi lo : Nat) : Nat := (x >>> lo) % 2 ^ (hi + 1 - lo)

/-- Bit n of a number. -/
def bitOf (x n : Nat) : Bool := x.testBit n

/-- The number with bits [hi:lo] replaced. -/
def setField (x hi lo v : Nat) : Nat :=
  x - (field x hi lo) * 2 ^ lo + (v % 2 ^ (hi + 1 - lo)) * 2 ^ lo

/-- A w-bit number taken as two's complement (R29). -/
def toSigned (w : Nat) (x : Nat) : Int :=
  if x % 2 ^ w ≥ 2 ^ (w - 1) then (x % 2 ^ w : Int) - 2 ^ w else (x % 2 ^ w : Int)

/-- An integer modulo 2^w. -/
def wrap (w : Nat) (x : Int) : Nat := (x % (2 ^ w : Int)).toNat

/-! ### Byte order -/

/-- The n bytes of a number, the least significant first (R2). -/
def toBytes : Nat → Nat → List Byte
  | 0, _ => []
  | n + 1, x => BitVec.ofNat 8 x :: toBytes n (x / 256)

/-- The number of a list of bytes, the least significant first (R2). -/
def ofBytes : List Byte → Nat
  | [] => 0
  | b :: t => b.toNat + 256 * ofBytes t

/-- A number padded upward to a multiple of n. -/
def roundUp (x n : Nat) : Nat := (x + n - 1) / n * n

/-- n zero bytes. -/
def zeros (n : Nat) : List Byte := List.replicate n 0

/-- Bytes padded with zeros to a multiple of n. -/
def padTo (n : Nat) (l : List Byte) : List Byte := l ++ zeros (roundUp l.length n - l.length)

/-! ### Integer arithmetic -/

/-- Leading zero bits of an n-bit number (R170). -/
def clzNat (n x : Nat) : Nat := if x = 0 then n else n - 1 - Nat.log2 x

/-- One bits among the low n bits (R170). -/
def popcNat : Nat → Nat → Nat
  | 0, _ => 0
  | n + 1, x => x % 2 + popcNat n (x / 2)

/-- The low n bits in reverse order (R170). -/
def brevNat : Nat → Nat → Nat
  | 0, _ => 0
  | n + 1, x => (x % 2) * 2 ^ n + brevNat n (x / 2)

/-- Quotient and remainder rounded towards zero, with the edge cases of R46. -/
def divRem (n : Nat) (signed : Bool) (a b : Int) : Int × Int :=
  if b = 0 then (2 ^ n - 1, a)
  else if signed && a == -(2 ^ (n - 1)) && b == -1 then (a, 0)
  else (a.tdiv b, a - a.tdiv b * b)

/-- The integer square root of a number below 4^fuel. -/
def isqrtAux : Nat → Nat → Nat → Nat
  | 0, _, r => r
  | k + 1, n, r =>
    let c := r + 2 ^ k
    if c * c ≤ n then isqrtAux k n c else isqrtAux k n r

/-- The integer square root, rounded down. -/
def isqrt (n : Nat) : Nat := isqrtAux (Nat.log2 n / 2 + 1) n 0

end Sys2Proof.Machine
end

