-- ==== Sys2Proof/Machine/Float.lean ====
section
/-!
DEFINITION. The floating-point formats and their exact arithmetic (R25 to R39, R195 to R205). A value is
decoded to an exact dyadic number, computed with exactly, and rounded once.
-/
namespace Sys2Proof.Machine

/-- The formats of R25. -/
inductive Fmt
  | f64 | f32 | f16 | bf16 | e4m3 | e5m2 | e2m1 | e3m5
  deriving DecidableEq, Repr

namespace Fmt
/-- The width of a code. -/
def width : Fmt → Nat
  | f64 => 64 | f32 => 32 | f16 => 16 | bf16 => 16 | e4m3 => 8 | e5m2 => 8 | e2m1 => 4 | e3m5 => 8
/-- The width of the mantissa field M. -/
def mw : Fmt → Nat
  | f64 => 52 | f32 => 23 | f16 => 10 | bf16 => 7 | e4m3 => 3 | e5m2 => 2 | e2m1 => 1 | e3m5 => 5
/-- The width of the exponent field E. -/
def ew : Fmt → Nat
  | f64 => 11 | f32 => 8 | f16 => 5 | bf16 => 8 | e4m3 => 4 | e5m2 => 5 | e2m1 => 2 | e3m5 => 3
/-- The exponent bias. -/
def bias : Fmt → Nat
  | f64 => 1023 | f32 => 127 | f16 => 15 | bf16 => 127 | e4m3 => 7 | e5m2 => 15 | e2m1 => 1 | e3m5 => 3
/-- Whether the format has infinity and NaN codes as IEEE 754 lays down (R26, R27). -/
def ieee : Fmt → Bool
  | f64 | f32 | f16 | bf16 => true
  | _ => false
/-- The code of the largest finite magnitude (R25, R37). -/
def maxCode (f : Fmt) : Nat :=
  if f.ieee then (2 ^ f.ew - 1) * 2 ^ f.mw - 1
  else match f with
    | e3m5 => 0xFE
    | _ => 2 ^ (f.width - 1) - 1
/-- The code of infinity without its sign. -/
def infCode (f : Fmt) : Nat := (2 ^ f.ew - 1) * 2 ^ f.mw
/-- The sign bit as a number, 0 where the format has none. -/
def signBit (f : Fmt) : Nat := match f with | e3m5 => 0 | _ => 2 ^ (f.width - 1)
/-- The canonical NaN of R28, and of E3M5 (R25). -/
def nanCode (f : Fmt) : Nat := match f with
  | e3m5 => 0xFF
  | _ => f.infCode + 2 ^ (f.mw - 1)
/-- The format of a floating-point MOD or SFMT code (R113). -/
def ofCode : Nat → Option Fmt
  | 0 => some f64 | 1 => some f32 | 2 => some f16 | 3 => some bf16
  | 4 => some e4m3 | 5 => some e5m2 | 6 => some e2m1 | _ => none
end Fmt

/-- A decoded value: a NaN, an infinity or the exact number (−1)^neg × m × 2^e. -/
inductive FVal
  | nan (signalling : Bool)
  | inf (neg : Bool)
  | fin (neg : Bool) (m : Nat) (e : Int)
  deriving DecidableEq, Repr

/-- Exception flags in the bit places of $fpst (R40). -/
structure Flags where
  nx : Bool := false
  uf : Bool := false
  ov : Bool := false
  dz : Bool := false
  nv : Bool := false
  sat : Bool := false
  nn : Bool := false
  deriving DecidableEq, Repr

namespace Flags
/-- No flag. -/
def none : Flags := {}
/-- The OR of two sets of flags (R40). -/
def or (a b : Flags) : Flags :=
  ⟨a.nx || b.nx, a.uf || b.uf, a.ov || b.ov, a.dz || b.dz, a.nv || b.nv, a.sat || b.sat, a.nn || b.nn⟩
/-- The flags as the low bits of $fpst. -/
def bits (a : Flags) : Word32 :=
  (cond a.nx 1#32 0) ||| (cond a.uf 2#32 0) ||| (cond a.ov 4#32 0) ||| (cond a.dz 8#32 0) |||
  (cond a.nv 16#32 0) ||| (cond a.sat 32#32 0) ||| (cond a.nn 64#32 0)
end Flags

/-- The rounding modes of R33. -/
inductive Rnd
  | rne | rz | ru | rd | rs
  deriving DecidableEq, Repr

/-- The mode of a rounding code; codes 5 to 7 are reserved (R33). -/
def Rnd.ofCode : Nat → Option Rnd
  | 0 => some .rne | 1 => some .rz | 2 => some .ru | 3 => some .rd | 4 => some .rs | _ => none

/-- Decode a code of a format (R26, R27). -/
def decodeF (f : Fmt) (code : Nat) : FVal :=
  let c := code % 2 ^ f.width
  let s := f.signBit != 0 && c ≥ f.signBit
  let r := if s then c - f.signBit else c
  let e := r / 2 ^ f.mw
  let m := r % 2 ^ f.mw
  if f = .e3m5 ∧ c = 0xFF then .nan false
  else if f.ieee ∧ e = 2 ^ f.ew - 1 then
    if m = 0 then .inf s else .nan (m < 2 ^ (f.mw - 1))
  else if e = 0 then .fin s m (1 - (f.bias : Int) - f.mw)
  else .fin s (m + 2 ^ f.mw) ((e : Int) - f.bias - f.mw)

/-- Whether a code of the format is subnormal: E = 0 and M ≠ 0. -/
def isSubnormal (f : Fmt) (code : Nat) : Bool :=
  let r := code % (2 ^ f.width) % (if f.signBit = 0 then 2 ^ f.width else f.signBit)
  r != 0 && r < 2 ^ f.mw

/-- A magnitude m × 2^e; sticky says that the exact value lies strictly between m × 2^e and
(m + 1) × 2^e. -/
structure Mag where
  m : Nat
  e : Int
  sticky : Bool
  deriving DecidableEq, Repr

/-- Whether the truncated magnitude q is raised by one unit in the last place (R33, R34). -/
def roundUpBit (mode : Rnd) (neg : Bool) (q rem sh : Nat) (sticky : Bool) (rnd : Nat) : Bool :=
  let inexact := rem != 0 || sticky
  match mode with
  | .rz => false
  | .ru => inexact && !neg
  | .rd => inexact && neg
  | .rs => decide (rem * 2 ^ 16 / 2 ^ sh + rnd % 2 ^ 16 ≥ 2 ^ 16)
  | .rne =>
    if sh = 0 then false
    else
      let half := 2 ^ (sh - 1)
      decide (rem > half) || (rem == half && (sticky || q % 2 == 1))

/-- Round a magnitude to a multiple of 2^l: the rounded quotient, and whether it is inexact. -/
def roundAt (mode : Rnd) (neg : Bool) (g : Mag) (l : Int) (rnd : Nat) : Nat × Bool :=
  if l ≤ g.e then (g.m * 2 ^ (g.e - l).toNat, g.sticky)
  else
    let sh := (l - g.e).toNat
    let q := g.m / 2 ^ sh
    let rem := g.m % 2 ^ sh
    (if roundUpBit mode neg q rem sh g.sticky rnd then q + 1 else q, rem != 0 || g.sticky)

/-- What a finite result that lies above the largest finite value becomes (R35, R37). -/
def overflowCode (f : Fmt) (mode : Rnd) (neg : Bool) : Nat :=
  let s := if neg then f.signBit else 0
  if f.ieee then
    match mode with
    | .rne | .rs => s + f.infCode
    | .rz => s + f.maxCode
    | .ru => if neg then s + f.maxCode else f.infCode
    | .rd => if neg then s + f.infCode else f.maxCode
  else s + f.maxCode

/-- Round an exact nonzero magnitude to a format (R33 to R37). flush is `.ftz` (R36). -/
def roundMag (f : Fmt) (mode : Rnd) (flush : Bool) (rnd : Nat) (neg : Bool) (g : Mag) : Nat × Flags :=
  if g.m = 0 ∧ ¬g.sticky then (if neg then f.signBit else 0, Flags.none)
  else if f = .e3m5 ∧ neg then (0, { sat := true })
  else
    let s := if neg then f.signBit else 0
    let top : Int := g.e + Nat.log2 g.m
    let lmin : Int := 1 - (f.bias : Int) - f.mw
    let l := if g.m = 0 then lmin else max (top - f.mw) lmin
    let (q, inexact) := roundAt mode neg g l rnd
    let code := (l - lmin).toNat * 2 ^ f.mw + q
    -- tininess after rounding, with an unbounded exponent range (R35)
    let emin : Int := 1 - (f.bias : Int)
    let tiny :=
      if g.m = 0 then true
      else if top ≥ emin then false
      else if top + 1 < emin then true
      else (roundAt mode neg g (top - f.mw) rnd).1 < 2 ^ (f.mw + 1)
    if code > f.maxCode then
      if f.ieee then (overflowCode f mode neg, { ov := true, nx := true })
      else (overflowCode f mode neg, { sat := true, nx := true })
    else if flush && f.ieee && code != 0 && code < 2 ^ f.mw then (s, { uf := true, nx := true })
    else (s + code, { nx := inexact, uf := inexact && tiny })

/-- The sign bit and infinity of a result; narrow formats saturate (R37). -/
def infResult (f : Fmt) (neg : Bool) : Nat × Flags :=
  if f.ieee then ((if neg then f.signBit else 0) + f.infCode, Flags.none)
  else if f = .e3m5 ∧ neg then (0, { sat := true })
  else ((if neg then f.signBit else 0) + f.maxCode, { sat := true })

/-- The result of a conversion of a NaN (R28, R38). -/
def nanResult (f : Fmt) : Nat × Flags :=
  match f with
  | .e4m3 | .e5m2 | .e2m1 => (0, { nn := true })
  | _ => (f.nanCode, Flags.none)

/-- Write a value in a format, rounding it once. -/
def encodeF (f : Fmt) (mode : Rnd) (flush : Bool) (rnd : Nat) : FVal → Nat × Flags
  | .nan _ => nanResult f
  | .inf n => infResult f n
  | .fin n m e => roundMag f mode flush rnd n ⟨m, e, false⟩

/-- A value read under `.ftz`: a subnormal code of an IEEE format reads as a zero of its sign (R36). -/
def readF (f : Fmt) (flush : Bool) (code : Nat) : FVal :=
  match decodeF f code with
  | .fin n m e => if flush && f.ieee && isSubnormal f code then .fin n 0 e else .fin n m e
  | v => v

namespace FVal
/-- Whether a value is a NaN. -/
def isNan : FVal → Bool | nan _ => true | _ => false
/-- Whether a value is a signalling NaN. -/
def isSnan : FVal → Bool | nan s => s | _ => false
/-- Whether a value is zero. -/
def isZero : FVal → Bool | fin _ m _ => m == 0 | _ => false
/-- The sign of a value that is not a NaN. -/
def sign : FVal → Bool | nan _ => false | inf n => n | fin n _ _ => n
/-- The value with its sign reversed. -/
def negate : FVal → FVal | nan s => nan s | inf n => inf (!n) | fin n m e => fin (!n) m e
end FVal

/-- The signed integer of a sign and magnitude. -/
def signedOf (neg : Bool) (m : Nat) : Int := if neg then -(m : Int) else m

/-- An exact dyadic number i × 2^e. -/
structure Dy where
  i : Int
  e : Int
  deriving DecidableEq, Repr

namespace Dy
/-- Exact sum. -/
def add (a b : Dy) : Dy :=
  let e := min a.e b.e
  ⟨a.i * 2 ^ (a.e - e).toNat + b.i * 2 ^ (b.e - e).toNat, e⟩
/-- Exact product. -/
def mul (a b : Dy) : Dy := ⟨a.i * b.i, a.e + b.e⟩
end Dy

/-- A NaN result, with NV for an invalid case. -/
def fnan (f : Fmt) (nv : Bool) : Nat × Flags := (f.nanCode, { nv := nv })

/-- The result of an exact sum: zero signs under R195, else one rounding. -/
def sumResult (f : Fmt) (mode : Rnd) (flush : Bool) (negZeroBoth : Bool) (d : Dy) : Nat × Flags :=
  if d.i = 0 then
    (if negZeroBoth || mode == .rd then f.signBit else 0, Flags.none)
  else roundMag f mode flush 0 (d.i < 0) ⟨d.i.natAbs, d.e, false⟩

/-- FADD (R195). -/
def faddV (f : Fmt) (mode : Rnd) (flush : Bool) (a b : FVal) : Nat × Flags :=
  match a, b with
  | .nan x, y => fnan f (x || y.isSnan)
  | x, .nan y => fnan f (y || x.isSnan)
  | .inf x, .inf y => if x = y then infResult f x else fnan f true
  | .inf x, _ => infResult f x
  | _, .inf y => infResult f y
  | .fin sa ma ea, .fin sb mb eb =>
    if ma = 0 ∧ mb = 0 then
      (if sa == sb then (if sa then f.signBit else 0) else (if mode == .rd then f.signBit else 0), Flags.none)
    else sumResult f mode flush false (Dy.add ⟨signedOf sa ma, ea⟩ ⟨signedOf sb mb, eb⟩)

/-- FMUL (R195). -/
def fmulV (f : Fmt) (mode : Rnd) (flush : Bool) (a b : FVal) : Nat × Flags :=
  match a, b with
  | .nan x, y => fnan f (x || y.isSnan)
  | x, .nan y => fnan f (y || x.isSnan)
  | .inf x, y => if y.isZero then fnan f true else infResult f (x != y.sign)
  | x, .inf y => if x.isZero then fnan f true else infResult f (x.sign != y)
  | .fin sa ma ea, .fin sb mb eb => roundMag f mode flush 0 (sa != sb) ⟨ma * mb, ea + eb, false⟩

/-- FDIV (R195): the quotient to more bits than any format holds, with its sticky bit. -/
def fdivV (f : Fmt) (mode : Rnd) (flush : Bool) (a b : FVal) : Nat × Flags :=
  match a, b with
  | .nan x, y => fnan f (x || y.isSnan)
  | x, .nan y => fnan f (y || x.isSnan)
  | .inf _, .inf _ => fnan f true
  | .inf x, y => infResult f (x != y.sign)
  | x, .inf y => ((if x.sign != y then f.signBit else 0), Flags.none)
  | .fin sa ma ea, .fin sb mb eb =>
    if mb = 0 then
      if ma = 0 then fnan f true
      else ((if sa != sb then f.signBit else 0) + f.infCode, { dz := true })
    else
      let k := 140 + Nat.log2 mb
      roundMag f mode flush 0 (sa != sb) ⟨ma * 2 ^ k / mb, ea - eb - k, ma * 2 ^ k % mb != 0⟩

/-- FSQRT (R195). -/
def fsqrtV (f : Fmt) (mode : Rnd) (flush : Bool) (a : FVal) : Nat × Flags :=
  match a with
  | .nan x => fnan f x
  | .inf n => if n then fnan f true else infResult f false
  | .fin n m e =>
    if m = 0 then ((if n then f.signBit else 0), Flags.none)
    else if n then fnan f true
    else
      let k : Nat := if (e - 140) % 2 = 0 then 140 else 141
      let r := isqrt (m * 2 ^ k)
      roundMag f mode flush 0 false ⟨r, (e - (k : Int)) / 2, r * r != m * 2 ^ k⟩

/-- FMA (R196): one rounding of the exact a × b + c. -/
def fmaV (f : Fmt) (mode : Rnd) (a b c : FVal) : Nat × Flags :=
  let sn := a.isSnan || b.isSnan || c.isSnan
  let zeroInf := match a, b with
    | .inf _, y => y.isZero
    | x, .inf _ => x.isZero
    | _, _ => false
  if a.isNan || b.isNan || c.isNan then fnan f (sn || zeroInf)
  else if zeroInf then fnan f true
  else
    let ps := a.sign != b.sign
    match a, b, c with
    | .fin _ ma ea, .fin _ mb eb, .fin sc mc ec =>
      if ma * mb = 0 ∧ mc = 0 then
        (if ps == sc then (if ps then f.signBit else 0) else (if mode == .rd then f.signBit else 0), Flags.none)
      else sumResult f mode false false (Dy.add ⟨signedOf ps (ma * mb), ea + eb⟩ ⟨signedOf sc mc, ec⟩)
    | .fin _ _ _, .fin _ _ _, _ => infResult f c.sign
    | _, _, .inf sc => if ps = sc then infResult f ps else fnan f true
    | _, _, _ => infResult f ps

/-- a < b for two values that are not NaN; −0 counts below +0 when zeroSigns holds (R197, R198). -/
def fltV (zeroSigns : Bool) (a b : FVal) : Bool :=
  match a, b with
  | .nan _, _ => false
  | _, .nan _ => false
  | .inf x, .inf y => x && !y
  | .inf x, _ => x
  | _, .inf y => !y
  | .fin sa ma ea, .fin sb mb eb =>
    if ma = 0 ∧ mb = 0 then zeroSigns && sa && !sb
    else
      let e := min ea eb
      decide (signedOf sa ma * 2 ^ (ea - e).toNat < signedOf sb mb * 2 ^ (eb - e).toNat)

/-- A value back in its own format, exactly. -/
def exactCode (f : Fmt) (v : FVal) : Nat := (encodeF f .rne false 0 v).1

/-- An FP32 code widened exactly to FP64: a NaN keeps its sign, its quiet bit and its payload (R111). -/
def widenCode (e : Nat) : Nat :=
  if (decodeF .f32 e).isNan then field e 31 31 * 2 ^ 63 + Fmt.f64.infCode + field e 22 0 * 2 ^ 29
  else exactCode .f64 (decodeF .f32 e)

/-- FMIN and FMAX (R197). -/
def fminmaxV (f : Fmt) (isMax : Bool) (a b : FVal) : Nat × Flags :=
  let nv := a.isSnan || b.isSnan
  if a.isNan && b.isNan then fnan f nv
  else if a.isNan then (exactCode f b, { nv := nv })
  else if b.isNan then (exactCode f a, { nv := nv })
  else (exactCode f (if fltV true a b != isMax then a else b), { nv := nv })

/-- The value of an FCMP condition and its NV flag (R198). -/
def fcmpV (cc : Nat) (a b : FVal) : Bool × Flags :=
  let un := a.isNan || b.isNan
  let lt := fltV false a b
  let gt := fltV false b a
  let eq := !un && !lt && !gt
  let quiet : Flags := { nv := a.isSnan || b.isSnan }
  let ordered : Flags := { nv := un }
  match cc with
  | 0 => (eq, quiet)
  | 1 => (!eq, quiet)
  | 2 => (lt, ordered)
  | 3 => (lt || eq, ordered)
  | 4 => (gt, ordered)
  | 5 => (gt || eq, ordered)
  | 6 => (un, quiet)
  | _ => (!un, quiet)

/-- FCLASS (R199). -/
def fclassV (f : Fmt) (m : Nat) (code : Nat) : Bool :=
  let neg := bitOf code (f.width - 1)
  let cls := match decodeF f code with
    | .nan s => if s then 0 else 1
    | .inf _ => 2
    | .fin _ x _ => if x = 0 then 5 else if isSubnormal f code then 4 else 3
  bitOf m cls && bitOf m (if neg then 6 else 7)

/-- A value rounded to an integer (R39, R202): the integer and whether it differs. -/
def toIntegral (mode : Rnd) (neg : Bool) (m : Nat) (e : Int) : Int × Bool :=
  let (q, inexact) := roundAt mode neg ⟨m, e, false⟩ 0 0
  (signedOf neg q, inexact)

/-- FRND (R202). -/
def frndV (f : Fmt) (mode : Rnd) (a : FVal) : Nat × Flags :=
  match a with
  | .nan s => fnan f s
  | .inf n => infResult f n
  | .fin n m e =>
    if m = 0 then ((if n then f.signBit else 0), Flags.none)
    else
      let q := (toIntegral mode n m e).1
      if q = 0 then ((if n then f.signBit else 0), Flags.none)
      else ((roundMag f .rne false 0 n ⟨q.natAbs, 0, false⟩).1, Flags.none)

/-- CVTF (R203). -/
def cvtfV (dst src : Fmt) (mode : Rnd) (flush : Bool) (rnd : Nat) (code : Nat) : Nat × Flags :=
  match readF src flush code with
  | .nan s =>
    let (c, fl) := nanResult dst
    (c, fl.or { nv := s })
  | v => encodeF dst mode flush rnd v

/-- The integer range of a type of width n (R164). -/
def intBounds (n : Nat) (signed : Bool) : Int × Int :=
  if signed then (-(2 ^ (n - 1)), 2 ^ (n - 1) - 1) else (0, 2 ^ n - 1)

/-- CVTFI (R39, R204). -/
def cvtfiV (src : Fmt) (mode : Rnd) (flush : Bool) (n : Nat) (signed : Bool) (code : Nat) : Int × Flags :=
  let (lo, hi) := intBounds n signed
  match readF src flush code with
  | .nan _ => (0, { nv := true })
  | .inf s => (if s then lo else hi, { nv := true })
  | .fin s m e =>
    let (y, inexact) := toIntegral mode s m e
    if y < lo then (lo, { nv := true })
    else if y > hi then (hi, { nv := true })
    else (y, { nx := inexact })

/-- CVTIF (R205). -/
def cvtifV (dst : Fmt) (mode : Rnd) (x : Int) : Nat × Flags :=
  roundMag dst mode false 0 (x < 0) ⟨x.natAbs, 0, false⟩

/-! ### Exact sums of products (R41, R42, R210) -/

/-- The running exact sum of the terms of one K-block. -/
structure Acc where
  nan : Bool := false
  snan : Bool := false
  posInf : Bool := false
  negInf : Bool := false
  sum : Dy := ⟨0, 0⟩
  allNegZero : Bool := true
  any : Bool := false
  deriving DecidableEq, Repr

/-- One more term a × b of the block (R41). -/
def Acc.term (t : Acc) (a b : FVal) : Acc :=
  let t := { t with any := true }
  match a, b with
  | .nan x, y => { t with nan := true, snan := t.snan || x || y.isSnan, allNegZero := false }
  | x, .nan y => { t with nan := true, snan := t.snan || y || x.isSnan, allNegZero := false }
  | .inf x, y =>
    if y.isZero then { t with nan := true, snan := true, allNegZero := false }
    else if x != y.sign then { t with negInf := true, allNegZero := false }
    else { t with posInf := true, allNegZero := false }
  | x, .inf y =>
    if x.isZero then { t with nan := true, snan := true, allNegZero := false }
    else if x.sign != y then { t with negInf := true, allNegZero := false }
    else { t with posInf := true, allNegZero := false }
  | .fin sa ma ea, .fin sb mb eb =>
    { t with
      sum := t.sum.add ⟨signedOf (sa != sb) (ma * mb), ea + eb⟩
      allNegZero := t.allNegZero && ma * mb == 0 && (sa != sb) }

/-- A selvedge term: exact +0 (R42). -/
def Acc.selvedge (t : Acc) : Acc := { t with any := true, allNegZero := false }

/-- The exact value of the block's sum (R41). -/
def Acc.value (t : Acc) : FVal :=
  if t.nan || (t.posInf && t.negInf) then .nan (t.snan || (t.posInf && t.negInf))
  else if t.posInf then .inf false
  else if t.negInf then .inf true
  else if t.sum.i = 0 then .fin (t.any && t.allNegZero) 0 0
  else .fin (t.sum.i < 0) t.sum.i.natAbs t.sum.e

/-- The exact product of two values, infinities and NaN under IEEE 754. -/
def fmulExact (a b : FVal) : FVal :=
  match a, b with
  | .nan s, _ => .nan s
  | _, .nan s => .nan s
  | .inf x, y => if y.isZero then .nan true else .inf (x != y.sign)
  | x, .inf y => if x.isZero then .nan true else .inf (x.sign != y)
  | .fin sa ma ea, .fin sb mb eb => .fin (sa != sb) (ma * mb) (ea + eb)

/-- One step of a matrix product in a floating-point accumulator (R41):
acc + RoundTo(fmt, V), rounded again. -/
def accStep (f : Fmt) (acc : Nat) (v : FVal) : Nat × Flags :=
  let (vc, f1) := match v with
    | .nan s => fnan f s
    | _ => encodeF f .rne false 0 v
  let (r, f2) := faddV f .rne false (decodeF f acc) (decodeF f vc)
  (r, f1.or f2)

end Sys2Proof.Machine
end

