-- ==== Sys2Proof/Config.lean ====
section
/-!
DEFINITION. What the manual leaves open: free values without a body, so that no proof can rest on one,
and the fixed figures of the package (R11 to R21).
-/
namespace Sys2Proof.Config

/-- Cycles that pass beyond those the stall count of an issue asks for: the manual gives no latency
(R24, R64). Drawn from State.tick. DESIGN CHOICE, log entry 7. -/
opaque freeCycles : Nat → Nat

/-- Whether an add contribution on its way to its home waits in a router to be merged with others to its place (R20, R44,
R233). Drawn from State.tick. DESIGN CHOICE, log entry 9. -/
opaque freeMerge : Nat → Bool

/-- Whether a plain access reaches the home and is counted (R359: at most once for each line, and it may
count 0 times). Drawn from State.tick. DESIGN CHOICE, log entry 10. -/
opaque freeCount : Nat → Bool

/-- The slice of the LLC that a virtual line hashes to (R19): the manual does not give the hash. Log entry 10. -/
opaque sliceHash : Nat → Nat

/-- Which of the four translation fronts of a base die serves a virtual line (R24): the manual does not give the hash. Log
entry 10. -/
opaque frontHash : Nat → Nat

/-- Which line a full L1 data cache or LLC slice gives up (R359: allocation and replacement are the device's). Drawn from
State.tick. DESIGN CHOICE, log entry 10. -/
opaque freeVictim : Nat → Nat

/-- The 16 bytes of a packet's header as carried (R396): their layout is not in the manual. By the packet's
injection number. DESIGN CHOICE, log entry 6. -/
opaque packetHeader : Nat → List Byte

/-- The fixed-point value that a shadow takes from a code that is no number (a NaN or an infinity): R43 states no
value. By the code, with E5M2 codes from 256 upwards. DESIGN CHOICE, log entry 9. -/
opaque freeFix : Nat → Int

/-- A floor above the top position of an order domain (R244): the manual states none. Drawn from State.tick. DESIGN
CHOICE, log entry 19. -/
opaque freePos : Nat → Nat

/-- The value of TVAL after a fault or trap to which the manual gives neither an address nor a code (R289). Drawn from
State.tick. DESIGN CHOICE, log entry 20. -/
opaque freeTval : Nat → Nat

/-- The status that peers report for a message (R253): 0 to 3. By the message's number. Log entry 1. -/
opaque peerStatus : Nat → Nat

/-- SHAKE256 with a 64-byte output (R430): named by the manual, not defined in it. Log entry 11. -/
opaque shake256 : List Byte → List Byte

/-- The XMSS signature made with one-time index `n` over a message (R429). Log entry 11. -/
opaque xmssSign : Nat → List Byte → List Byte

/-- Whether a firmware image's XMSS signature holds under the vendor key (R429). Log entry 11. -/
opaque xmssVerify : List Byte → Bool

/-- The certificate chain and the capability and algorithm tables that SPDM replies carry (R431):
their bytes are not in the manual. Log entry 11. -/
opaque spdmBytes : Nat → List Byte

/-- The measurement image bytes of the firmware that a reset measures, by slot (R430, R436). Log entry 11. -/
opaque firmwareImage : Nat → List Byte

/-- An SPDM session key (R431): by the session's number. Log entry 11. -/
opaque ideKey : Nat → Word64

/-- Spemin cores of the package (R11). -/
abbrev spemCores : Nat := 256
/-- Supervisor cores of the package (R11). -/
abbrev supCores : Nat := 64
/-- Wefts on the court of one quarter (R15). -/
abbrev courtSlots : Nat := 8
/-- One-time signatures of the identity key (R429). -/
abbrev xmssLimit : Nat := 1048576

end Sys2Proof.Config
end

