-- ==== Sys2Proof/Syntax.lean ====
section
/-!
DEFINITION. The steps of the package as syntax: one constructor of Instr per row of the opcode table.
Word instructions carry the fields of their full word (R107) with the prefixes of their unit (R119);
the device's own steps carry what they act on.
-/
namespace Sys2Proof

/-- The special registers of R82, in the order of their numbers 0 to 21. -/
inductive SReg
  | lane | tid | weft | panel | core | die | quarter | role | scrum | task | index | cycle
  | rlo | rhi | rstat | uivec | uimask | uistat | ctl | fpst | symst | part
  deriving DecidableEq, Repr

/-- What an operand field names (R109). A reserved code names nothing. -/
inductive Operand
  | s (n : Fin 1024)
  | v (n : Fin 256)
  | o (n : Fin 8)
  | lat
  | zero
  | q (n : Fin 32)
  | qnb (n : Fin 32)
  | spec (r : SReg)
  | imm (i : BitVec 8)
  | p (n : Fin 8)
  deriving DecidableEq, Repr

/-- The guard of a full word: GN and GP (R107, R108). -/
structure Guard where
  neg : Bool
  p : Fin 8
  deriving DecidableEq, Repr

/-- The fields of an ATTR prefix (R118). -/
structure Attr where
  l1p : BitVec 2
  llcp : BitVec 2
  unc : Bool
  deriving DecidableEq, Repr

/-- The fields of a full word, with the EXT immediate and the ATTR of its unit. extFirst says which of two
prefixes stands first; it is false where there are not two. -/
structure Fields where
  guard : Guard
  stl : BitVec 4
  mod : BitVec 4
  d : Operand
  a : Operand
  b : Operand
  c : Operand
  ext : Option Word32
  attr : Option Attr
  extFirst : Bool
  deriving DecidableEq, Repr

/-- The slot operations of R115. -/
inductive Pop
  | addI32 | subI32 | mulI32 | andB32 | orB32 | xorB32 | andnB32 | shlB32 | shrN32 | sarI32
  | minI32 | maxI32 | minN32 | maxN32 | movB32
  | faddF32 | fsubF32 | fmulF32 | fminF32 | fmaxF32
  | faddFtz | fsubFtz | fmulFtz | fminFtz | fmaxFtz
  deriving DecidableEq, Repr

/-- The A operand of a slot (R114, Table 4). -/
inductive SlotA
  | v (n : Fin 256)
  | imm (i : BitVec 7)
  | o (n : Fin 8)
  | lat
  deriving DecidableEq, Repr

/-- One slot of a paired word (R114). -/
structure Slot where
  pop : Pop
  gp : Fin 8
  d : Fin 256
  a : SlotA
  deriving DecidableEq, Repr

/-- A resident weft's place: the agent number of its core (R369) and its resident slot (R243). -/
structure WId where
  core : Nat
  slot : Nat
  deriving DecidableEq, Repr

/-- A panel: its partition, none for a panel of no partition (R425), and its $panel. -/
structure PKey where
  part : Option Nat
  num : Word32
  deriving DecidableEq, Repr

/-- The four privilege levels (R401). -/
inductive Level
  | user | kernel | hyper | monitor
  deriving DecidableEq, Repr

/-- The engines of a core that run commands (R256, R409). -/
inductive Engine
  | copy | gather | coll | matrix
  deriving DecidableEq, Repr

/-- What the supervisor names when it starts a panel (R52, R61, R426), with the weft that starts it, where one does (R283). -/
structure StartArgs where
  key : PKey
  asid : BitVec 16
  record : Word64
  core : Nat
  straddle : Bool
  level : Level
  starter : Option WId
  deriving DecidableEq, Repr

/-- What a packet asks for or carries (R383): own is a read of a line that its sender will write. An atomic and a reduction have the operation of Table 3 of R230, its MOD and its
operand; a `.det` reduction also the key of R44 and R234: core, `$weft`, lane, partition and panel. -/
inductive PktOp
  | read | own | write (data : List Byte)
  | atom (op mod : Nat) (operand : Word64)
  | cas (wide : Bool) (expected new : Word64)
  | red (op mod : Nat) (operand : Word64) (key : Option (Nat × Nat × Nat × Nat × Nat))
  | aon (words : List (Nat × List Byte))
  | msg (part ep : Nat) (data : List Byte) (id : Nat)
  deriving DecidableEq, Repr

/-- A fabric packet: its target, source, offset, incarnations and job tag (R384, R388, R394). -/
structure Packet where
  target : BitVec 12
  src : BitVec 12
  offset : Nat
  bytes : Nat
  op : PktOp
  sinc : Word32
  dinc : Word32
  tag : Nat
  seq : Word32
  vc : Nat
  deriving DecidableEq, Repr

/-- A host client's request through a virtual function (R415). -/
inductive HostOp
  | read (n : Nat) | write (data : List Byte) | bar (off : Nat) | barWrite (off : Nat) (data : List Byte)
  deriving DecidableEq, Repr

/-- The coherence message that an uncorrectable flit loses (R381, R382). -/
inductive LostKind
  | ack (agent : Nat) | update (agent : Nat) | writeBack (agent : Nat) (mask : List Nat)
  | atomic (wid : WId) (lanes : Mask) (applied : Bool)
  deriving DecidableEq, Repr

/-- Every step of the opcode table. -/
inductive Instr
  -- integer, address and control (R164 to R190)
  | add (f : Fields) | sub (f : Fields) | addc (f : Fields) | subb (f : Fields) | mul (f : Fields)
  | mulh (f : Fields) | mad (f : Fields) | div (f : Fields) | rem (f : Fields) | min (f : Fields)
  | max (f : Fields) | abs (f : Fields) | neg (f : Fields) | and (f : Fields) | or (f : Fields)
  | xor (f : Fields) | andn (f : Fields) | shl (f : Fields) | shr (f : Fields) | sar (f : Fields)
  | rot (f : Fields) | bfx (f : Fields) | bfi (f : Fields) | clz (f : Fields) | popc (f : Fields)
  | brev (f : Fields) | lea (f : Fields) | sel (f : Fields) | cmp (f : Fields) | pset (f : Fields)
  | mov (f : Fields) | cvti (f : Fields) | bra (f : Fields) | brx (f : Fields) | call (f : Fields)
  | callx (f : Fields) | loop (f : Fields) | ret (f : Fields) | exit (f : Fields) | nop (f : Fields)
  | yieldWord (f : Fields) | reform (f : Fields) | split (f : Fields) | join (f : Fields)
  -- floating point, conversion and lanes (R191 to R217)
  | fadd (f : Fields) | fsub (f : Fields) | fmul (f : Fields) | fma (f : Fields) | fmin (f : Fields)
  | fmax (f : Fields) | fcmp (f : Fields) | fclass (f : Fields) | fdiv (f : Fields) | fsqrt (f : Fields)
  | frcp (f : Fields) | frsq (f : Fields) | fexp2 (f : Fields) | flog2 (f : Fields) | fsin (f : Fields)
  | fcos (f : Fields) | ftanh (f : Fields) | frnd (f : Fields) | cvtf (f : Fields) | cvtfi (f : Fields)
  | cvtif (f : Fields) | bspack (f : Fields) | bsunpk (f : Fields) | bscale (f : Fields) | dot4 (f : Fields)
  | shfl (f : Fields) | vote (f : Fields) | bcast (f : Fields) | scan (f : Fields) | wred (f : Fields)
  | matchLanes (f : Fields) | shapeq (f : Fields)
  | paired (stl : BitVec 4) (x y : Slot)
  -- memory, atomics, phases, barriers, regions, placement, messages (R218 to R253)
  | ld (f : Fields) | st (f : Fields) | lds (f : Fields) | sts (f : Fields) | ldt (f : Fields)
  | stt (f : Fields) | ldp (f : Fields) | stp (f : Fields) | prf (f : Fields) | cctlWb (f : Fields)
  | cctlInv (f : Fields) | cctlFlush (f : Fields) | cctlIc (f : Fields) | atom (f : Fields)
  | red (f : Fields) | cas (f : Fields) | phase (f : Fields) | bari (f : Fields) | bara (f : Fields)
  | barw (f : Fields) | barwNar (f : Fields) | arbegin (f : Fields) | arend (f : Fields)
  | arabort (f : Fields) | arbnd (f : Fields) | pin (f : Fields) | unpin (f : Fields) | hint (f : Fields)
  | msend (f : Fields) | mpost (f : Fields)
  -- engines, queues, tasks, symbols (R254 to R278)
  | qbind (f : Fields) | qunbind (f : Fields) | qstat (f : Fields) | qclose (f : Fields)
  | scrum (f : Fields) | scrumLeave (f : Fields) | swres (f : Fields) | swrel (f : Fields)
  | mma (f : Fields) | mmac (f : Fields) | aclr (f : Fields) | ald (f : Fields) | ast (f : Fields)
  | adrain (f : Fields) | cpy (f : Fields) | gath (f : Fields) | coll (f : Fields) | ownq (f : Fields)
  | ownqW (f : Fields) | tdeq (f : Fields) | tdeqPanel (f : Fields) | tdeqNb (f : Fields)
  | tenq (f : Fields) | tdone (f : Fields) | tarm (f : Fields) | symw (f : Fields) | symwAll (f : Fields)
  | symq (f : Fields)
  -- system, traps, debug (R279 to R302)
  | svc (f : Fields) | trap (f : Fields) | bkpt (f : Fields) | tret (f : Fields) | uiret (f : Fields)
  | uienOff (f : Fields) | uienOn (f : Fields) | uienPost (f : Fields) | csrr (f : Fields)
  | csrw (f : Fields) | svcpop (f : Fields) | ctxsv (f : Fields) | ctxld (f : Fields) | halt (f : Fields)
  | wake (f : Fields) | wakeSvc (f : Fields) | dbgrd (f : Fields) | dbgwr (f : Fields) | dstep (f : Fields)
  | tlbiPage (f : Fields) | tlbiAsid (f : Fields) | tlbiPart (f : Fields) | rflush (f : Fields)
  | rflushAsid (f : Fields) | partcfgNew (f : Fields) | partcfgMod (f : Fields) | partcfgDel (f : Fields)
  | freeze (f : Fields) | thaw (f : Fields) | gsub (f : Fields) | gres (f : Fields) | migr (f : Fields)
  -- the device's and the host's own steps
  | panelStart (r : StartArgs)
  | preemptionRequest (k : PKey)
  | translationFaultSave (k : PKey)
  | translationComplete (asid : BitVec 16) (vpage : Nat)
  | interlockedWriteLanding (id : Nat)
  | symbolArrival (w : WId) (slot : SlotNo)
  | symbolFault (w : WId)
  | benchSubstitution (w : WId)
  | promotion (core quarter : Nat)
  | rotation (core quarter : Nat)
  | reformBinTimeout (core bin : Nat)
  | reformBinSlotDraw (core bin : Nat)
  | queueWindowStore (port part q : Nat) (va : Word64) (bytes : Nat)
  | heldWindowStore (part q : Nat)
  | overflowPlacement (part : Nat)
  | queueEnginePageResume (part : Nat)
  | deviceAreaResume (part : Nat)
  | engineChunk (core : Nat) (e : Engine)
  | engineCompletion (core : Nat) (e : Engine)
  | serviceBatchTimeout (w : WId)
  | serviceBatchSend (w : WId)
  | userInterruptDelivery (w : WId)
  | regionConflict (access : WId) (owner : WId) (line : Nat) (write : Bool)
  | regionCommit (w : WId)
  | serialSlotGrant (part dom : Nat)
  | messageArrival (id : Nat)
  | stagedMessagePlacement (id : Nat)
  | stagingTimeout (id : Nat)
  | noBufferTimeout (id : Nat)
  | sendCompletion (id : Nat)
  | multicastForward (slot branch : Nat)
  | rds (agent line : Nat)
  | rdx (agent line : Nat)
  | upg (agent line : Nat)
  | prv (agent line : Nat) (mask : List Nat)
  | wb (agent line : Nat)
  | evc (agent line : Nat)
  | atm (agent line : Nat)
  | forward (line : Nat)
  | forwardData (line : Nat)
  | invalidation (agent line : Nat)
  | invalidationAck (agent line : Nat)
  | mergeRequest (agent line : Nat)
  | mergeResponse (agent line : Nat)
  | recall (agent line : Nat)
  | recallResponse (agent line : Nat)
  | lostMessage (line : Nat) (k : LostKind)
  | moveStart
  | moveLineCopy (asid : BitVec 16) (vpage : Nat)
  | migrationRegionWaitExpiry (asid : BitVec 16) (vpage : Nat)
  | moveSwitch (asid : BitVec 16) (vpage : Nat)
  | hostMemoryRequest (port part : Nat) (va : Word64) (op : HostOp)
  | bisnp (line : Nat) (data : List Byte)
  | devloadWindow (port load : Nat) (held : Bool)
  | fabricMemoryAccess (port : Nat) (p : Packet)
  | fabricRefusal (id : Nat)
  | postedWriteAck (id : Nat)
  | sysReleaseTimeout (w : WId)
  | fabricResponseTimeout (id : Nat)
  | incarnationNotice (src : BitVec 12) (inc : Word32)
  | substitutionRequest (job : Nat) (src : BitVec 12)
  | sweptPacketReturn (job port : Nat) (p : Packet)
  | sweepDoneMarker (job port : Nat)
  | sweepMarkerTimeout (job : Nat)
  | sealReport (job : Nat) (member : BitVec 12) (status : Nat)
  | resumeRequest (job : Nat)
  | dieReset (die : Nat)
  | dieQuiesceDeadline (die : Nat)
  | packageReset
  | setPowerLevel (die level : Nat)
  | thermalTrip (die : Nat)
  | firmwareUpdate (image : List Byte)
  | getVersion (req : Option Nat)
  | getCapabilities (req : Option Nat)
  | negotiateAlgorithms (req : Option Nat)
  | getDigests (req : Option Nat)
  | getCertificate (req : Option Nat)
  | challenge (req : Option Nat) (nonce : List Byte)
  | getMeasurements (req : Option Nat) (index : Nat)
  | keyExchange (req : Option Nat)
  | finish (req : Option Nat)
  | virtualChannelCredit (port vc : Nat)
  deriving DecidableEq, Repr

/-- The word instructions by name, without their fields: what OP and MOD select (R126, R127). -/
inductive Mnem
  | add | sub | addc | subb | mul | mulh | mad | div | rem | min | max | abs | neg | and | or | xor
  | andn | shl | shr | sar | rot | bfx | bfi | clz | popc | brev | lea | sel | cmp | pset | mov | cvti
  | bra | brx | call | callx | loop | ret | exit | nop | yieldWord | reform | split | join | fadd
  | fsub | fmul | fma | fmin | fmax | fcmp | fclass | fdiv | fsqrt | frcp | frsq | fexp2 | flog2 | fsin
  | fcos | ftanh | frnd | cvtf | cvtfi | cvtif | bspack | bsunpk | bscale | dot4 | shfl | vote | bcast
  | scan | wred | matchLanes | shapeq | ld | st | lds | sts | ldt | stt | ldp | stp | prf | cctlWb
  | cctlInv | cctlFlush | cctlIc | atom | red | cas | phase | bari | bara | barw | barwNar | arbegin
  | arend | arabort | arbnd | pin | unpin | hint | msend | mpost | qbind | qunbind | qstat | qclose
  | scrum | scrumLeave | swres | swrel | mma | mmac | aclr | ald | ast | adrain | cpy | gath | coll
  | ownq | ownqW | tdeq | tdeqPanel | tdeqNb | tenq | tdone | tarm | symw | symwAll | symq | svc | trap
  | bkpt | tret | uiret | uienOff | uienOn | uienPost | csrr | csrw | svcpop | ctxsv | ctxld | halt
  | wake | wakeSvc | dbgrd | dbgwr | dstep | tlbiPage | tlbiAsid | tlbiPart | rflush | rflushAsid
  | partcfgNew | partcfgMod | partcfgDel | freeze | thaw | gsub | gres | migr
  deriving DecidableEq, Repr

end Sys2Proof
end

