-- ==== Sys2Proof/Machine/Encoding.lean ====
section
/-!
DEFINITION. The encoding tables: the opcode map (R126, R127), the limits that each description sets on
MOD, on its modifier bits and on its operand fields (R110 to R113, R164 to R302), and the words of an
operand (R109). The decoder, the encoder and the well-formedness check all read these tables.
-/
namespace Sys2Proof.Machine

/-! ### Instructions and their mnemonics -/

/-- The instruction of a mnemonic and its fields. -/
def mkInstr : Mnem → Fields → Instr
  | .add, f => .add f
  | .sub, f => .sub f
  | .addc, f => .addc f
  | .subb, f => .subb f
  | .mul, f => .mul f
  | .mulh, f => .mulh f
  | .mad, f => .mad f
  | .div, f => .div f
  | .rem, f => .rem f
  | .min, f => .min f
  | .max, f => .max f
  | .abs, f => .abs f
  | .neg, f => .neg f
  | .and, f => .and f
  | .or, f => .or f
  | .xor, f => .xor f
  | .andn, f => .andn f
  | .shl, f => .shl f
  | .shr, f => .shr f
  | .sar, f => .sar f
  | .rot, f => .rot f
  | .bfx, f => .bfx f
  | .bfi, f => .bfi f
  | .clz, f => .clz f
  | .popc, f => .popc f
  | .brev, f => .brev f
  | .lea, f => .lea f
  | .sel, f => .sel f
  | .cmp, f => .cmp f
  | .pset, f => .pset f
  | .mov, f => .mov f
  | .cvti, f => .cvti f
  | .bra, f => .bra f
  | .brx, f => .brx f
  | .call, f => .call f
  | .callx, f => .callx f
  | .loop, f => .loop f
  | .ret, f => .ret f
  | .exit, f => .exit f
  | .nop, f => .nop f
  | .yieldWord, f => .yieldWord f
  | .reform, f => .reform f
  | .split, f => .split f
  | .join, f => .join f
  | .fadd, f => .fadd f
  | .fsub, f => .fsub f
  | .fmul, f => .fmul f
  | .fma, f => .fma f
  | .fmin, f => .fmin f
  | .fmax, f => .fmax f
  | .fcmp, f => .fcmp f
  | .fclass, f => .fclass f
  | .fdiv, f => .fdiv f
  | .fsqrt, f => .fsqrt f
  | .frcp, f => .frcp f
  | .frsq, f => .frsq f
  | .fexp2, f => .fexp2 f
  | .flog2, f => .flog2 f
  | .fsin, f => .fsin f
  | .fcos, f => .fcos f
  | .ftanh, f => .ftanh f
  | .frnd, f => .frnd f
  | .cvtf, f => .cvtf f
  | .cvtfi, f => .cvtfi f
  | .cvtif, f => .cvtif f
  | .bspack, f => .bspack f
  | .bsunpk, f => .bsunpk f
  | .bscale, f => .bscale f
  | .dot4, f => .dot4 f
  | .shfl, f => .shfl f
  | .vote, f => .vote f
  | .bcast, f => .bcast f
  | .scan, f => .scan f
  | .wred, f => .wred f
  | .matchLanes, f => .matchLanes f
  | .shapeq, f => .shapeq f
  | .ld, f => .ld f
  | .st, f => .st f
  | .lds, f => .lds f
  | .sts, f => .sts f
  | .ldt, f => .ldt f
  | .stt, f => .stt f
  | .ldp, f => .ldp f
  | .stp, f => .stp f
  | .prf, f => .prf f
  | .cctlWb, f => .cctlWb f
  | .cctlInv, f => .cctlInv f
  | .cctlFlush, f => .cctlFlush f
  | .cctlIc, f => .cctlIc f
  | .atom, f => .atom f
  | .red, f => .red f
  | .cas, f => .cas f
  | .phase, f => .phase f
  | .bari, f => .bari f
  | .bara, f => .bara f
  | .barw, f => .barw f
  | .barwNar, f => .barwNar f
  | .arbegin, f => .arbegin f
  | .arend, f => .arend f
  | .arabort, f => .arabort f
  | .arbnd, f => .arbnd f
  | .pin, f => .pin f
  | .unpin, f => .unpin f
  | .hint, f => .hint f
  | .msend, f => .msend f
  | .mpost, f => .mpost f
  | .qbind, f => .qbind f
  | .qunbind, f => .qunbind f
  | .qstat, f => .qstat f
  | .qclose, f => .qclose f
  | .scrum, f => .scrum f
  | .scrumLeave, f => .scrumLeave f
  | .swres, f => .swres f
  | .swrel, f => .swrel f
  | .mma, f => .mma f
  | .mmac, f => .mmac f
  | .aclr, f => .aclr f
  | .ald, f => .ald f
  | .ast, f => .ast f
  | .adrain, f => .adrain f
  | .cpy, f => .cpy f
  | .gath, f => .gath f
  | .coll, f => .coll f
  | .ownq, f => .ownq f
  | .ownqW, f => .ownqW f
  | .tdeq, f => .tdeq f
  | .tdeqPanel, f => .tdeqPanel f
  | .tdeqNb, f => .tdeqNb f
  | .tenq, f => .tenq f
  | .tdone, f => .tdone f
  | .tarm, f => .tarm f
  | .symw, f => .symw f
  | .symwAll, f => .symwAll f
  | .symq, f => .symq f
  | .svc, f => .svc f
  | .trap, f => .trap f
  | .bkpt, f => .bkpt f
  | .tret, f => .tret f
  | .uiret, f => .uiret f
  | .uienOff, f => .uienOff f
  | .uienOn, f => .uienOn f
  | .uienPost, f => .uienPost f
  | .csrr, f => .csrr f
  | .csrw, f => .csrw f
  | .svcpop, f => .svcpop f
  | .ctxsv, f => .ctxsv f
  | .ctxld, f => .ctxld f
  | .halt, f => .halt f
  | .wake, f => .wake f
  | .wakeSvc, f => .wakeSvc f
  | .dbgrd, f => .dbgrd f
  | .dbgwr, f => .dbgwr f
  | .dstep, f => .dstep f
  | .tlbiPage, f => .tlbiPage f
  | .tlbiAsid, f => .tlbiAsid f
  | .tlbiPart, f => .tlbiPart f
  | .rflush, f => .rflush f
  | .rflushAsid, f => .rflushAsid f
  | .partcfgNew, f => .partcfgNew f
  | .partcfgMod, f => .partcfgMod f
  | .partcfgDel, f => .partcfgDel f
  | .freeze, f => .freeze f
  | .thaw, f => .thaw f
  | .gsub, f => .gsub f
  | .gres, f => .gres f
  | .migr, f => .migr f

/-- The mnemonic and the fields of a word instruction; none for a paired word and for an event. -/
def viewInstr : Instr → Option (Mnem × Fields)
  | .add f => some (.add, f)
  | .sub f => some (.sub, f)
  | .addc f => some (.addc, f)
  | .subb f => some (.subb, f)
  | .mul f => some (.mul, f)
  | .mulh f => some (.mulh, f)
  | .mad f => some (.mad, f)
  | .div f => some (.div, f)
  | .rem f => some (.rem, f)
  | .min f => some (.min, f)
  | .max f => some (.max, f)
  | .abs f => some (.abs, f)
  | .neg f => some (.neg, f)
  | .and f => some (.and, f)
  | .or f => some (.or, f)
  | .xor f => some (.xor, f)
  | .andn f => some (.andn, f)
  | .shl f => some (.shl, f)
  | .shr f => some (.shr, f)
  | .sar f => some (.sar, f)
  | .rot f => some (.rot, f)
  | .bfx f => some (.bfx, f)
  | .bfi f => some (.bfi, f)
  | .clz f => some (.clz, f)
  | .popc f => some (.popc, f)
  | .brev f => some (.brev, f)
  | .lea f => some (.lea, f)
  | .sel f => some (.sel, f)
  | .cmp f => some (.cmp, f)
  | .pset f => some (.pset, f)
  | .mov f => some (.mov, f)
  | .cvti f => some (.cvti, f)
  | .bra f => some (.bra, f)
  | .brx f => some (.brx, f)
  | .call f => some (.call, f)
  | .callx f => some (.callx, f)
  | .loop f => some (.loop, f)
  | .ret f => some (.ret, f)
  | .exit f => some (.exit, f)
  | .nop f => some (.nop, f)
  | .yieldWord f => some (.yieldWord, f)
  | .reform f => some (.reform, f)
  | .split f => some (.split, f)
  | .join f => some (.join, f)
  | .fadd f => some (.fadd, f)
  | .fsub f => some (.fsub, f)
  | .fmul f => some (.fmul, f)
  | .fma f => some (.fma, f)
  | .fmin f => some (.fmin, f)
  | .fmax f => some (.fmax, f)
  | .fcmp f => some (.fcmp, f)
  | .fclass f => some (.fclass, f)
  | .fdiv f => some (.fdiv, f)
  | .fsqrt f => some (.fsqrt, f)
  | .frcp f => some (.frcp, f)
  | .frsq f => some (.frsq, f)
  | .fexp2 f => some (.fexp2, f)
  | .flog2 f => some (.flog2, f)
  | .fsin f => some (.fsin, f)
  | .fcos f => some (.fcos, f)
  | .ftanh f => some (.ftanh, f)
  | .frnd f => some (.frnd, f)
  | .cvtf f => some (.cvtf, f)
  | .cvtfi f => some (.cvtfi, f)
  | .cvtif f => some (.cvtif, f)
  | .bspack f => some (.bspack, f)
  | .bsunpk f => some (.bsunpk, f)
  | .bscale f => some (.bscale, f)
  | .dot4 f => some (.dot4, f)
  | .shfl f => some (.shfl, f)
  | .vote f => some (.vote, f)
  | .bcast f => some (.bcast, f)
  | .scan f => some (.scan, f)
  | .wred f => some (.wred, f)
  | .matchLanes f => some (.matchLanes, f)
  | .shapeq f => some (.shapeq, f)
  | .ld f => some (.ld, f)
  | .st f => some (.st, f)
  | .lds f => some (.lds, f)
  | .sts f => some (.sts, f)
  | .ldt f => some (.ldt, f)
  | .stt f => some (.stt, f)
  | .ldp f => some (.ldp, f)
  | .stp f => some (.stp, f)
  | .prf f => some (.prf, f)
  | .cctlWb f => some (.cctlWb, f)
  | .cctlInv f => some (.cctlInv, f)
  | .cctlFlush f => some (.cctlFlush, f)
  | .cctlIc f => some (.cctlIc, f)
  | .atom f => some (.atom, f)
  | .red f => some (.red, f)
  | .cas f => some (.cas, f)
  | .phase f => some (.phase, f)
  | .bari f => some (.bari, f)
  | .bara f => some (.bara, f)
  | .barw f => some (.barw, f)
  | .barwNar f => some (.barwNar, f)
  | .arbegin f => some (.arbegin, f)
  | .arend f => some (.arend, f)
  | .arabort f => some (.arabort, f)
  | .arbnd f => some (.arbnd, f)
  | .pin f => some (.pin, f)
  | .unpin f => some (.unpin, f)
  | .hint f => some (.hint, f)
  | .msend f => some (.msend, f)
  | .mpost f => some (.mpost, f)
  | .qbind f => some (.qbind, f)
  | .qunbind f => some (.qunbind, f)
  | .qstat f => some (.qstat, f)
  | .qclose f => some (.qclose, f)
  | .scrum f => some (.scrum, f)
  | .scrumLeave f => some (.scrumLeave, f)
  | .swres f => some (.swres, f)
  | .swrel f => some (.swrel, f)
  | .mma f => some (.mma, f)
  | .mmac f => some (.mmac, f)
  | .aclr f => some (.aclr, f)
  | .ald f => some (.ald, f)
  | .ast f => some (.ast, f)
  | .adrain f => some (.adrain, f)
  | .cpy f => some (.cpy, f)
  | .gath f => some (.gath, f)
  | .coll f => some (.coll, f)
  | .ownq f => some (.ownq, f)
  | .ownqW f => some (.ownqW, f)
  | .tdeq f => some (.tdeq, f)
  | .tdeqPanel f => some (.tdeqPanel, f)
  | .tdeqNb f => some (.tdeqNb, f)
  | .tenq f => some (.tenq, f)
  | .tdone f => some (.tdone, f)
  | .tarm f => some (.tarm, f)
  | .symw f => some (.symw, f)
  | .symwAll f => some (.symwAll, f)
  | .symq f => some (.symq, f)
  | .svc f => some (.svc, f)
  | .trap f => some (.trap, f)
  | .bkpt f => some (.bkpt, f)
  | .tret f => some (.tret, f)
  | .uiret f => some (.uiret, f)
  | .uienOff f => some (.uienOff, f)
  | .uienOn f => some (.uienOn, f)
  | .uienPost f => some (.uienPost, f)
  | .csrr f => some (.csrr, f)
  | .csrw f => some (.csrw, f)
  | .svcpop f => some (.svcpop, f)
  | .ctxsv f => some (.ctxsv, f)
  | .ctxld f => some (.ctxld, f)
  | .halt f => some (.halt, f)
  | .wake f => some (.wake, f)
  | .wakeSvc f => some (.wakeSvc, f)
  | .dbgrd f => some (.dbgrd, f)
  | .dbgwr f => some (.dbgwr, f)
  | .dstep f => some (.dstep, f)
  | .tlbiPage f => some (.tlbiPage, f)
  | .tlbiAsid f => some (.tlbiAsid, f)
  | .tlbiPart f => some (.tlbiPart, f)
  | .rflush f => some (.rflush, f)
  | .rflushAsid f => some (.rflushAsid, f)
  | .partcfgNew f => some (.partcfgNew, f)
  | .partcfgMod f => some (.partcfgMod, f)
  | .partcfgDel f => some (.partcfgDel, f)
  | .freeze f => some (.freeze, f)
  | .thaw f => some (.thaw, f)
  | .gsub f => some (.gsub, f)
  | .gres f => some (.gres, f)
  | .migr f => some (.migr, f)
  | _ => none

/-! ### The opcode map (R126, R127) -/

/-- The mnemonics that share an OP code. An unassigned code has none. -/
def opMnems : Nat → List Mnem
  | 0x01 => [.add] | 0x02 => [.sub] | 0x03 => [.addc] | 0x04 => [.subb] | 0x05 => [.mul]
  | 0x06 => [.mulh] | 0x07 => [.mad] | 0x08 => [.div] | 0x09 => [.rem] | 0x0A => [.min]
  | 0x0B => [.max] | 0x0C => [.abs] | 0x0D => [.neg] | 0x0E => [.and] | 0x0F => [.or]
  | 0x10 => [.xor] | 0x11 => [.andn] | 0x12 => [.shl] | 0x13 => [.shr, .sar] | 0x14 => [.rot]
  | 0x15 => [.bfx] | 0x16 => [.bfi] | 0x17 => [.clz] | 0x18 => [.popc] | 0x19 => [.brev]
  | 0x1A => [.lea] | 0x1B => [.sel] | 0x1C => [.cmp] | 0x1D => [.pset] | 0x1E => [.mov]
  | 0x1F => [.cvti] | 0x20 => [.bra] | 0x21 => [.brx] | 0x22 => [.call] | 0x23 => [.callx]
  | 0x24 => [.loop] | 0x25 => [.ret] | 0x26 => [.exit] | 0x27 => [.nop] | 0x28 => [.reform]
  | 0x29 => [.split] | 0x2A => [.join] | 0x2B => [.yieldWord]
  | 0x30 => [.fadd] | 0x31 => [.fsub] | 0x32 => [.fmul] | 0x33 => [.fma] | 0x34 => [.fmin]
  | 0x35 => [.fmax] | 0x36 => [.fcmp] | 0x37 => [.fclass] | 0x38 => [.fdiv] | 0x39 => [.fsqrt]
  | 0x3A => [.frcp] | 0x3B => [.frsq] | 0x3C => [.fexp2] | 0x3D => [.flog2] | 0x3E => [.fsin]
  | 0x3F => [.fcos] | 0x40 => [.ftanh] | 0x41 => [.frnd] | 0x42 => [.cvtf] | 0x43 => [.cvtfi]
  | 0x44 => [.cvtif] | 0x45 => [.bspack] | 0x46 => [.bsunpk] | 0x47 => [.bscale] | 0x48 => [.dot4]
  | 0x49 => [.shfl] | 0x4A => [.vote] | 0x4B => [.bcast] | 0x4C => [.scan] | 0x4D => [.wred]
  | 0x4E => [.matchLanes] | 0x4F => [.shapeq]
  | 0x50 => [.ld] | 0x51 => [.st] | 0x52 => [.lds] | 0x53 => [.sts] | 0x54 => [.ldt, .stt]
  | 0x55 => [.ldp, .stp] | 0x56 => [.prf, .cctlWb, .cctlInv, .cctlFlush, .cctlIc] | 0x57 => [.atom]
  | 0x58 => [.red] | 0x59 => [.cas] | 0x5A => [.phase] | 0x5B => [.bari, .bara, .barw, .barwNar]
  | 0x5C => [.arbegin, .arend, .arabort, .arbnd] | 0x5D => [.pin, .unpin, .hint]
  | 0x5E => [.msend, .mpost]
  | 0x60 => [.qbind, .qunbind] | 0x61 => [.qstat, .qclose] | 0x62 => [.scrum, .scrumLeave]
  | 0x63 => [.swres, .swrel] | 0x64 => [.mma] | 0x65 => [.mmac]
  | 0x66 => [.aclr, .ald, .ast, .adrain] | 0x67 => [.cpy] | 0x68 => [.gath] | 0x69 => [.coll]
  | 0x6A => [.ownq, .ownqW] | 0x6B => [.tdeq, .tdeqPanel, .tdeqNb] | 0x6C => [.tenq]
  | 0x6D => [.tdone, .tarm] | 0x6E => [.symw, .symwAll, .symq]
  | 0x70 => [.svc, .trap] | 0x71 => [.tret, .uiret] | 0x72 => [.uienOff, .uienOn, .uienPost]
  | 0x73 => [.csrr, .svcpop, .csrw] | 0x74 => [.ctxsv, .ctxld] | 0x75 => [.halt, .wake, .wakeSvc]
  | 0x76 => [.bkpt] | 0x77 => [.dbgrd, .dbgwr] | 0x78 => [.dstep]
  | 0x79 => [.tlbiPage, .tlbiAsid, .tlbiPart, .rflush, .rflushAsid]
  | 0x7A => [.partcfgNew, .partcfgMod, .partcfgDel] | 0x7B => [.freeze, .thaw]
  | 0x7C => [.gsub, .gres] | 0x7D => [.migr]
  | _ => []

/-- The MOD values of a mnemonic, as a set of bits. -/
def mnemMods : Mnem → Nat
  | .add | .sub | .cmp => 0x3FF
  | .addc | .subb => 0x00A
  | .mul | .min | .max | .neg | .cvti | .cvtfi => 0x0FF
  | .mulh | .mad | .div | .rem | .bfx => 0x00F
  | .abs | .sar => 0x055
  | .and | .or | .xor | .andn | .rot | .clz | .popc | .brev | .sel => 0x300
  | .shl => 0x30F
  | .shr => 0x3AA
  | .bfi => 0x30A
  | .lea => 0x407
  | .pset => 1
  | .mov => 0xF00
  | .bra | .brx | .call | .callx | .loop | .ret | .exit | .nop | .yieldWord | .reform | .split | .join => 1
  | .fadd | .fsub | .fmul | .fdiv | .fsqrt | .fmin | .fmax | .fcmp | .frnd => 0x00F
  | .fma => 0xFFFF
  | .fclass | .cvtf | .cvtif => 0x07F
  | .frcp | .frsq | .fexp2 | .flog2 | .fsin | .fcos | .ftanh => 0x00E
  | .bspack => 0x780
  | .bsunpk | .bscale => 0x180
  | .dot4 => 0x07C
  | .shfl | .bcast | .matchLanes => 0x300
  | .vote | .shapeq => 1
  | .scan | .wred => 0x30F
  | .ld | .st | .lds | .sts => 0xFFF
  | .ldt => 0x00FF
  | .stt => 0xFF00
  | .ldp => 0x003
  | .stp => 0x300
  | .prf => 0x003
  | .cctlWb => 0x100 | .cctlInv => 0x200 | .cctlFlush => 0x400 | .cctlIc => 0x800
  | .atom | .red => 0x33F
  | .cas => 0x0FFF
  | .phase => 0x00E
  | .bari => 0x001 | .bara => 0x010 | .barw => 0x100 | .barwNar => 0x200
  | .arbegin => 0x003 | .arend => 0x010 | .arabort => 0x100 | .arbnd => 0x3000
  | .pin => 0x00F | .unpin => 0x010 | .hint => 0xF00
  | .msend => 1 | .mpost => 0x100
  | .qbind => 0x07F | .qunbind => 0x100 | .qstat => 1 | .qclose => 0x100
  | .scrum => 1 | .scrumLeave => 2 | .swres => 1 | .swrel => 0x100
  | .mma | .mmac => 0x00F
  | .aclr => 1 | .ald => 0x010 | .ast => 0x100 | .adrain => 0x1000
  | .cpy | .gath | .coll => 1
  | .ownq => 1 | .ownqW => 2 | .tdeq => 1 | .tdeqPanel => 2 | .tdeqNb => 4
  | .tenq => 1 | .tdone => 1 | .tarm => 0x100 | .symw => 1 | .symwAll => 2 | .symq => 0x100
  | .svc => 1 | .trap => 0x100 | .bkpt => 1 | .tret => 1 | .uiret => 0x100
  | .uienOff => 1 | .uienOn => 2 | .uienPost => 4
  | .csrr => 1 | .svcpop => 1 | .csrw => 0x700
  | .ctxsv => 1 | .ctxld => 0x100 | .halt => 1 | .wake => 0x100 | .wakeSvc => 0x200
  | .dbgrd => 1 | .dbgwr => 0x100 | .dstep => 1
  | .tlbiPage => 1 | .tlbiAsid => 2 | .tlbiPart => 4 | .rflush => 0x100 | .rflushAsid => 0x200
  | .partcfgNew => 1 | .partcfgMod => 2 | .partcfgDel => 4 | .freeze => 1 | .thaw => 0x100
  | .gsub => 1 | .gres => 0x100 | .migr => 0x0EE

/-- The OP code of a mnemonic. -/
def mnemOp (m : Mnem) : Nat := ((List.range 128).find? fun n => (opMnems n).contains m).getD 0

/-- The mnemonic that OP and MOD select (R127). SVCPOP is chosen later, by the register that A names. -/
def selectMnem (op mod : Nat) : Option Mnem := (opMnems op).find? fun m => (mnemMods m).testBit mod

/-- Whether Table 7 of R126 marks the code as taking ATTR. -/
def takesAttr (op mod : Nat) : Bool :=
  [0x50, 0x51, 0x54, 0x55, 0x57, 0x58, 0x59, 0x67, 0x68].contains op ||
  ((op == 0x56 || op == 0x5E) && mod < 8)

/-! ### Types (R113, R164, R191) -/

/-- The width of an integer type code 0 to 9. -/
def intWidth (t : Nat) : Nat :=
  match t with
  | 2 | 3 | 9 => 64
  | 4 | 5 => 16
  | 6 | 7 => 8
  | _ => 32

/-- Whether an integer type code is signed. -/
def intSigned (t : Nat) : Bool := t == 0 || t == 2 || t == 4 || t == 6

/-- The bytes of a memory type (Table 1 of R224). -/
def memBytes (t : Nat) : Nat :=
  match t with
  | 2 | 3 | 9 | 11 => 8
  | 4 | 5 => 2
  | 6 | 7 => 1
  | _ => 4

/-- The value of a modifier field: the low byte of an immediate code. -/
def modByte : Operand → Nat
  | .imm i => i.toNat
  | _ => 0

/-- Whether an atomic's operation works on floating-point values (Table 3 of R230). -/
def atomFloat (c : Operand) : Bool := modByte c % 16 ≥ 10

/-- Whether the instruction's type T is 64 bits wide. -/
def wideT (m : Mnem) (f : Fields) : Bool :=
  let t := f.mod.toNat
  match m with
  | .fadd | .fsub | .fmul | .fdiv | .fsqrt | .fmin | .fmax | .fcmp | .fclass | .frnd | .cvtf | .cvtif => t == 0
  | .fma => t % 4 == 0
  | .ld | .st | .lds | .sts => memBytes t == 8
  | .ldp | .stp | .cas => t % 2 == 1
  | .atom | .red => if atomFloat f.c then t == 0 else intWidth t == 64
  | .scan | .wred => if bitOf (modByte f.c) 4 then t == 0 else intWidth t == 64
  | .mov => t % 2 == 1
  | .bspack => t == 8 || t == 10
  | .bsunpk => t == 8
  | _ => intWidth t == 64

/-- Whether the source type of a conversion is 64 bits wide. -/
def wideU (m : Mnem) (f : Fields) : Bool :=
  match m with
  | .cvtf | .cvtfi => field (modByte f.c) 6 4 == 0
  | .cvtif => intWidth (field (modByte f.c) 6 4) == 64
  | .cvti => intWidth (field (modByte f.c) 2 0) == 64
  | _ => false

/-! ### Operand classes (R109, R110) -/

/-- The classes of operand codes. -/
inductive OKind
  | s | v | o | lat | zero | q | qnb | spec | imm | p
  deriving DecidableEq, Repr

/-- The class of an operand. -/
def kindOf : Operand → OKind
  | .s _ => .s | .v _ => .v | .o _ => .o | .lat => .lat | .zero => .zero
  | .q _ => .q | .qnb _ => .qnb | .spec _ => .spec | .imm _ => .imm | .p _ => .p

/-- The width of an operand: 32 bits, 64 bits, that of T, or that of the source type. -/
inductive OWidth
  | w32 | w64 | wT | wU
  deriving DecidableEq, Repr

/-- What a field holds: an operand of some classes, modifier bits, or a tag of the immediate class. -/
inductive FSpec
  | opd (ks : List OKind) (w : OWidth)
  | modifier
  | tag
  deriving DecidableEq, Repr

namespace FSpec
/-- An unused field: `zero` (R110). -/
def none : FSpec := opd [.zero] .w32
/-- A destination of any class. -/
def dst (w : OWidth) : FSpec := opd [.s, .v, .o, .lat, .zero, .q, .spec] w
/-- A source of any class but predicates. -/
def src (w : OWidth) : FSpec := opd [.s, .v, .o, .lat, .zero, .q, .spec, .imm] w
/-- A number operand (R219, R254, R279). -/
def num : FSpec := opd [.s, .spec, .imm] .w32
/-- A predicate. -/
def pred : FSpec := opd [.p] .w32
/-- A predicate or `zero`. -/
def predZ : FSpec := opd [.p, .zero] .w32
/-- A scalar pair. -/
def pairS : FSpec := opd [.s] .w64
/-- A scalar or vector pair. -/
def pairSV : FSpec := opd [.s, .v] .w64
/-- A scalar or vector pair, or `zero`. -/
def pairSVZ : FSpec := opd [.s, .v, .zero] .w64
/-- A 32-bit offset that may differ by lane (R219). -/
def off : FSpec := opd [.s, .v, .spec, .imm, .zero] .w32
/-- A scalar register. -/
def reg : FSpec := opd [.s] .w32
/-- A word offset (R180). -/
def target : FSpec := opd [.imm] .w32
/-- A queue name (R255). -/
def queue : FSpec := opd [.q] .w32
/-- A completion queue name or `zero`. -/
def queueZ : FSpec := opd [.q, .zero] .w32
/-- The destination of a load or an atomic. -/
def load (w : OWidth) : FSpec := opd [.s, .v, .o, .lat, .zero] w
/-- The value of a store. -/
def value (w : OWidth) : FSpec := opd [.s, .v, .o, .lat, .zero, .spec, .imm] w
end FSpec

/-- What the four fields of a word hold. -/
structure Row where
  d : FSpec
  a : FSpec
  b : FSpec
  c : FSpec
  deriving DecidableEq, Repr

open FSpec in
/-- The fields of a mnemonic with a MOD value, from its description. -/
def mnemRow (m : Mnem) (mod : Nat) : Row :=
  match m with
  | .add | .sub | .mul | .mulh | .div | .rem | .min | .max | .and | .or | .xor | .andn =>
    ⟨dst .wT, src .wT, src .wT, none⟩
  | .mad | .fma => ⟨dst .wT, src .wT, src .wT, src .wT⟩
  | .abs | .neg | .clz | .popc | .brev => ⟨dst .wT, src .wT, none, none⟩
  | .addc | .subb | .sel => ⟨dst .wT, src .wT, src .wT, pred⟩
  | .shl | .shr | .sar | .rot | .bfx => ⟨dst .wT, src .wT, src .w32, none⟩
  | .bfi => ⟨dst .wT, src .wT, src .wT, src .w32⟩
  | .lea =>
    if mod = 10 then ⟨opd [.s, .v] .w64, none, target, none⟩
    else ⟨opd [.s, .v] .w64, opd [.s, .v, .zero, .imm] .w64,
      if mod = 2 then pairSV else src .w32, modifier⟩
  | .cmp => ⟨pred, src .wT, src .wT, modifier⟩
  | .pset => ⟨pred, opd [.p, .s, .spec, .imm] .w32, opd [.p, .zero] .w32, modifier⟩
  | .mov =>
    ⟨opd [.s, .v, .o, .lat, .zero, .q, .qnb] .wT,
      opd [.s, .v, .o, .lat, .zero, .q, .qnb, .spec, .imm] .wT, none, predZ⟩
  | .cvti => ⟨dst .wT, src .wU, none, modifier⟩
  | .bra => ⟨none, target, none, modifier⟩
  | .brx => ⟨none, pairSV, none, modifier⟩
  | .call => ⟨pairSVZ, target, none, none⟩
  | .callx => ⟨pairSVZ, pairSV, none, none⟩
  | .loop => ⟨reg, target, none, none⟩
  | .ret => ⟨none, pairSV, none, none⟩
  | .exit | .nop | .yieldWord | .join => ⟨none, none, none, none⟩
  | .reform => ⟨pred, none, none, none⟩
  | .split => ⟨none, pred, none, none⟩
  | .fadd | .fsub | .fmul | .fdiv | .fmin | .fmax => ⟨dst .wT, src .wT, src .wT, modifier⟩
  | .fsqrt | .frnd => ⟨dst .wT, src .wT, none, modifier⟩
  | .fcmp => ⟨pred, src .wT, src .wT, modifier⟩
  | .fclass => ⟨pred, src .wT, none, modifier⟩
  | .frcp | .frsq | .fexp2 | .flog2 | .fsin | .fcos | .ftanh => ⟨dst .w32, src .w32, none, modifier⟩
  | .cvtf => ⟨dst .wT, src .wU, src .w32, modifier⟩
  | .cvtfi | .cvtif => ⟨dst .wT, src .wU, none, modifier⟩
  | .bspack => ⟨opd [.v, .o, .lat] .w32, src .wT, num, if mod ≥ 9 then src .w32 else none⟩
  | .bsunpk => ⟨dst .wT, src .w32, src .w32, none⟩
  | .bscale => ⟨dst .w32, src .w32, src .w32, none⟩
  | .dot4 =>
    if mod ≤ 3 then ⟨dst .w32, pairSVZ, pairSVZ, src .w32⟩ else ⟨dst .w32, src .w32, src .w32, src .w32⟩
  | .shfl => ⟨dst .wT, src .wT, src .w32, modifier⟩
  | .vote => ⟨opd [.p, .s, .v, .o, .lat] .w32, pred, none, modifier⟩
  | .bcast => ⟨dst .wT, src .wT, num, none⟩
  | .scan | .wred => ⟨dst .wT, src .wT, none, modifier⟩
  | .matchLanes => ⟨dst .w32, src .wT, none, none⟩
  | .shapeq => ⟨opd [.s, .v, .o, .lat] .w32, opd [.v] .w32, none, none⟩
  | .ld => ⟨load .wT, pairSVZ, off, modifier⟩
  | .st => ⟨none, pairSVZ, off, value .wT⟩
  | .lds => ⟨load .wT, off, off, modifier⟩
  | .sts => ⟨none, off, off, value .wT⟩
  | .ldt => ⟨opd [.v] .w32, pairS, if mod ≥ 4 then pairS else none, none⟩
  | .stt => ⟨none, pairS, if mod ≥ 12 then pairS else none, opd [.v] .w32⟩
  | .ldp => ⟨opd [.v, .o, .lat, .zero] .wT, opd [.s, .v, .spec, .imm] .w32, none, none⟩
  | .stp => ⟨none, opd [.s, .v, .spec, .imm] .w32, value .wT, none⟩
  | .prf | .cctlWb | .cctlInv | .cctlFlush | .cctlIc => ⟨none, pairSVZ, off, none⟩
  | .atom => ⟨load .wT, pairSV, src .wT, modifier⟩
  | .red => ⟨none, pairSV, src .wT, modifier⟩
  | .cas => ⟨load .wT, pairSV, src .wT, src .wT⟩
  | .phase => ⟨none, none, none, modifier⟩
  | .bari => ⟨none, num, num, none⟩
  | .bara => ⟨opd [.s, .v, .zero] .w32, num, none, none⟩
  | .barw => ⟨none, num, none, none⟩
  | .barwNar => ⟨none, num, num, none⟩
  | .arbegin => ⟨none, target, none, modifier⟩
  | .arend => ⟨none, none, none, none⟩
  | .arabort => ⟨none, opd [.s, .imm] .w32, none, none⟩
  | .arbnd => ⟨none, opd [.s, .imm] .w64, none, none⟩
  | .pin | .unpin | .hint => ⟨none, pairS, num, none⟩
  | .msend => ⟨queueZ, pairS, none, none⟩
  | .mpost => ⟨queueZ, pairS, num, none⟩
  | .qbind => ⟨queue, num, if mod = 4 ∨ mod = 5 then modifier else none, none⟩
  | .qunbind => ⟨queue, none, none, none⟩
  | .qstat => ⟨reg, queue, none, none⟩
  | .qclose => ⟨none, queue, none, none⟩
  | .scrum => ⟨none, num, none, none⟩
  | .scrumLeave => ⟨none, none, none, none⟩
  | .swres => ⟨none, tag, reg, none⟩
  | .swrel => ⟨none, tag, none, none⟩
  | .mma => ⟨none, tag, tag, tag⟩
  | .mmac => ⟨none, num, tag, tag⟩
  | .aclr => ⟨none, num, none, tag⟩
  | .ald | .ast => ⟨none, num, num, tag⟩
  | .adrain => ⟨queueZ, pairS, none, tag⟩
  | .cpy | .gath | .coll => ⟨queueZ, pairS, queue, none⟩
  | .ownq | .ownqW => ⟨reg, num, none, none⟩
  | .tdeq | .tdeqPanel => ⟨opd [.s, .zero] .w64, queue, none, none⟩
  | .tdeqNb => ⟨opd [.s, .zero] .w64, queue, none, pred⟩
  | .tenq => ⟨none, pairS, none, none⟩
  | .tdone => ⟨none, none, none, none⟩
  | .tarm => ⟨none, pairS, num, none⟩
  | .symw => ⟨none, num, none, none⟩
  | .symwAll => ⟨none, none, none, none⟩
  | .symq => ⟨opd [.s, .v, .o, .lat] .w32, num, none, none⟩
  | .svc => ⟨pairSVZ, opd [.s, .v, .spec, .imm] .w32, pairSVZ, none⟩
  | .trap | .bkpt => ⟨none, num, none, none⟩
  | .tret | .uiret => ⟨none, none, none, none⟩
  | .uienOff | .uienOn => ⟨predZ, none, none, none⟩
  | .uienPost => ⟨predZ, num, num, none⟩
  | .csrr | .svcpop => ⟨reg, num, none, none⟩
  | .csrw => ⟨opd [.s, .zero] .w32, num, opd [.s, .imm] .w32, none⟩
  | .ctxsv => ⟨reg, pairS, num, num⟩
  | .ctxld => ⟨reg, pairS, num, none⟩
  | .halt | .wake | .wakeSvc => ⟨predZ, pairS, none, none⟩
  | .dbgrd => ⟨pairS, pairS, num, pred⟩
  | .dbgwr => ⟨pred, pairS, num, pairS⟩
  | .dstep => ⟨reg, pairS, num, none⟩
  | .tlbiPage | .rflush => ⟨none, pairS, num, none⟩
  | .tlbiAsid | .rflushAsid => ⟨none, none, num, none⟩
  | .tlbiPart => ⟨none, none, none, none⟩
  | .partcfgNew | .partcfgMod => ⟨reg, pairS, num, none⟩
  | .partcfgDel => ⟨reg, none, num, none⟩
  | .freeze | .thaw => ⟨predZ, num, none, none⟩
  | .gsub => ⟨reg, pairS, num, num⟩
  | .gres => ⟨reg, pairS, num, none⟩
  | .migr => ⟨none, pairS, num, none⟩

/-! ### Control registers named by an immediate (R288, R289) -/

/-- The width and the level of a control register of Table 3, or none for a number not in it. -/
def csrInfo : Nat → Option (Bool × Nat)
  | 0x00 | 0x01 | 0x03 => some (true, 0)
  | 0x02 => some (false, 0)
  | 0x20 | 0x21 | 0x23 | 0x24 | 0x25 | 0x26 | 0x27 => some (true, 1)
  | 0x22 => some (false, 1)
  | 0x50 | 0x51 | 0x53 | 0x54 => some (true, 2)
  | 0x52 | 0x55 => some (false, 2)
  | 0x70 | 0x71 | 0x73 => some (true, 3)
  | 0x72 => some (false, 3)
  | _ => none

/-! ### Immediates (R111) -/

/-- The operand fields that may take an EXT immediate. -/
inductive Fld
  | a | b | c
  deriving DecidableEq, Repr

/-- Whether a field's description makes an immediate code in it an operand. -/
def immOperand : FSpec → Bool
  | .opd ks _ => ks.contains .imm
  | _ => false

/-- Whether an operand is of the immediate class. -/
def isImm : Operand → Bool
  | .imm _ => true
  | _ => false

/-- The field that takes the EXT immediate: the first in the order A, B, C that holds an immediate operand. -/
def extField (r : Row) (a b c : Option Operand) : Option Fld :=
  let ok (s : FSpec) (x : Option Operand) : Bool := immOperand s && (x.map isImm).getD false
  if ok r.a a then some .a else if ok r.b b then some .b else if ok r.c c then some .c else none

/-- The floating-point format in which an immediate of a field is formed, or none for an integer type. -/
def immFmt (m : Mnem) (f : Fields) (x : Fld) : Option Fmt :=
  let t := f.mod.toNat
  let sf := field (modByte f.c) 6 4
  match m, x with
  | .fadd, _ | .fsub, _ | .fmul, _ | .fdiv, _ | .fsqrt, _ | .fmin, _ | .fmax, _ | .fcmp, _ | .fclass, _
  | .frnd, _ | .frcp, _ | .frsq, _ | .fexp2, _ | .flog2, _ | .fsin, _ | .fcos, _ | .ftanh, _ => Fmt.ofCode t
  | .fma, _ => Fmt.ofCode (t % 4)
  | .cvtf, .a | .cvtfi, .a => Fmt.ofCode sf
  | .bscale, .a | .bspack, .a | .dot4, .c => if m = .dot4 ∧ t = 6 then none else some .f32
  | .bscale, .b | .bspack, .b | .bsunpk, .b => some .bf16
  | .scan, .a | .wred, .a => if bitOf (modByte f.c) 4 then Fmt.ofCode t else none
  | .dot4, _ => if t = 4 then some .e4m3 else if t = 5 then some .e5m2 else none
  | .atom, .b | .red, .b => if atomFloat f.c then Fmt.ofCode t else none
  | _, _ => none

/-! ### Limits of the modifier bits (R130: ILLEGAL_OP) -/

/-- The atomic operations that a MOD value allows, with SYM or DET (R230, R233). -/
def atomModOk (red : Bool) (mod v : Nat) : Bool :=
  let op := v % 16
  let top := bitOf v 7
  let int := (0x00F).testBit mod
  let bits := (0x30F).testBit mod
  let okMod :=
    if op ≤ 2 then int
    else if op ≤ 8 then bits
    else if op = 9 then mod == 1 || mod == 3
    else if op = 10 then mod ≤ 5
    else if op ≤ 12 then mod ≤ 3
    else false
  okMod && field v 6 4 ≤ 5 &&
  (if red then (op ≤ 5 || op ≥ 9) && (!top || op == 10)
   else !top || (if op ≥ 10 then mod ≤ 1 else bits))

/-- The modifier byte of R192: the largest rounding code, whether FTZ is offered, the largest SFMT. -/
def fpModOk (rnd : Nat) (ftz : Bool) (sfmt v : Nat) : Bool :=
  !bitOf v 7 && field v 2 0 ≤ rnd && (ftz || !bitOf v 3) && field v 6 4 ≤ sfmt

/-- Whether the modifier byte of a mnemonic lies in its range. -/
def modifierOk (m : Mnem) (mod v : Nat) : Bool :=
  match m with
  | .lea => v ≤ 15
  | .cmp | .pset | .phase => v ≤ 5
  | .cvti => v ≤ 7 || (16 ≤ v && v ≤ 23)
  | .fadd | .fsub | .fmul | .fdiv | .fsqrt | .frnd => fpModOk 3 true 0 v
  | .fmin | .fmax | .frcp | .frsq | .fexp2 | .flog2 | .fsin | .fcos | .ftanh => fpModOk 0 true 0 v
  | .cvtf => fpModOk 4 true 6 v
  | .cvtfi => fpModOk 3 true 6 v
  | .cvtif => fpModOk 3 false 7 v
  | .fcmp | .shfl => v ≤ 15
  | .vote | .qbind => v ≤ 3
  | .scan | .wred =>
    v < 32 && field v 2 0 ≤ 5 && !(m = .wred && bitOf v 3) &&
    (if bitOf v 4 then field v 2 0 ≤ 2 && mod ≤ 3 else mod ≤ 3 || field v 2 0 ≥ 3)
  | .ld => v < 3
  | .lds => v ≤ 1
  | .atom => atomModOk false mod v
  | .red => atomModOk true mod v
  | .arbegin => 1 ≤ field v 7 4 && field v 7 4 ≤ 4
  | _ => true

/-- A field that carries modifier bits holds an immediate code in range. -/
def modifierField (m : Mnem) (mod : Nat) (s : FSpec) (x : Option Operand) : Bool :=
  match s with
  | .modifier =>
    match x with
    | some (.imm v) => modifierOk m mod v.toNat
    | _ => false
  | _ => true

/-! ### Limits of the operands (R130: ILLEGAL_OPERAND) -/

/-- Whether a special register is 64 bits wide (R82). -/
def specWide : SReg → Bool
  | .task | .cycle | .rlo | .rhi | .uivec => true
  | _ => false

/-- Whether an operand may stand in a field of that width: pairs are even, `lat` and `o` hold 32 bits, and a
64-bit special register needs a 64-bit place (R76, R78, R79, R83, R164). -/
def widthOk (wide : Bool) : Operand → Bool
  | .s n => !wide || n.val % 2 == 0
  | .v n => !wide || n.val % 2 == 0
  | .o _ => !wide
  | .lat => !wide
  | .spec r => wide || !specWide r
  | _ => true

/-- Whether an operand of a described width is a pair. -/
def pairWidth (m : Mnem) (f : Fields) : OWidth → Bool
  | .w32 => false
  | .w64 => true
  | .wT => wideT m f
  | .wU => wideU m f

/-- Whether an operand satisfies the description of its field. -/
def fieldOk (m : Mnem) (f : Fields) (s : FSpec) (x : Operand) : Bool :=
  match s with
  | .modifier => true
  | .tag => isImm x
  | .opd ks w =>
    ks.contains (kindOf x) &&
    widthOk (pairWidth m f w) x

/-- Whether an operand is a vector source. -/
def isVec : Operand → Bool
  | .v _ | .o _ | .lat => true
  | _ => false

/-- The lane instructions that take a vector source with a scalar destination (R211). -/
def crossesLanes : Mnem → Bool
  | .bcast | .vote | .wred | .matchLanes | .shapeq => true
  | _ => false

/-- A scalar destination takes no vector source (R110). -/
def scalarOk (m : Mnem) (f : Fields) : Bool :=
  match f.d with
  | .s _ | .spec _ => crossesLanes m || !(isVec f.a || isVec f.b || isVec f.c)
  | _ => true

/-- No integer or control instruction writes `$fpst` (R165). -/
def fpstOk (m : Mnem) (f : Fields) : Bool := f.d != .spec .fpst || decide (0x30 ≤ mnemOp m)

/-- An immediate of a narrow format is refused, and so is an EXT immediate with a nonzero field or, for
FP16 and BF16, with bits above 15 (R111, R191). -/
def immOk (m : Mnem) (f : Fields) (s : FSpec) (x : Operand) (fld : Fld) (ext : Bool) : Bool :=
  match x with
  | .imm i =>
    if immOperand s then
      (match immFmt m f fld with
       | some .e4m3 | some .e5m2 | some .e2m1 => false
       | some .f16 | some .bf16 => !ext || (f.ext.getD 0).toNat < 65536
       | _ => true) && (!ext || i == 0)
    else true
  | _ => true

/-- The control register that an immediate A names. -/
def csrImm (f : Fields) : Option Nat :=
  match f.a with
  | .imm i => some (match f.ext with | some e => e.toNat | none => (i.signExtend 32).toNat)
  | _ => none

/-- The limits that a description sets beyond the classes of its fields. -/
def argsOk (m : Mnem) (f : Fields) : Bool :=
  let v := modByte f.c
  let mod := f.mod.toNat
  match m with
  | .pset =>
    match f.a, f.b with
    | .p _, .p _ => v ≤ 3
    | .p _, .zero => v == 4
    | .p _, _ => false
    | _, .zero => v == 5
    | _, _ => false
  | .mov =>
    let k (x : Operand) := kindOf x
    if k f.d = .qnb ∨ k f.a = .qnb then k f.d ≠ .q && k f.a ≠ .q && k f.c = .p && mod < 10
    else k f.c = .zero && (mod < 10 || (k f.d = .v && k f.a = .q))
  | .vote => (kindOf f.d = .p) = (v < 3)
  | .cvtf => v % 8 = 4 || kindOf f.b = .zero
  | .ld => v = 0 || kindOf f.d = .v
  | .lds => v = 0 || kindOf f.d = .v
  | .atom =>
    (!bitOf v 7 || kindOf f.d = .v) && (v % 16 ≠ 7 || kindOf f.b = .zero) &&
    (v % 16 ≠ 8 || kindOf f.d = .zero)
  | .ldt =>
    match f.d with
    | .v k => k.val % 2 ^ (mod % 4) == 0 && k.val + 2 ^ (mod % 4) ≤ 256
    | _ => false
  | .stt =>
    match f.c with
    | .v k => k.val % 2 ^ (mod % 4) == 0 && k.val + 2 ^ (mod % 4) ≤ 256
    | _ => false
  | .swres =>
    modByte f.a ≤ 15 &&
    (match f.b with | .s n => n.val % 4 == 0 | _ => false)
  | .swrel => modByte f.a ≤ 15
  | .mma => modByte f.a ≤ 15 && modByte f.b ≤ 15
  | .mmac => modByte f.b ≤ 15
  | .csrr | .csrw | .svcpop =>
    match csrImm f with
    | none => true
    | some n =>
      match csrInfo n with
      | none => false
      | some (w, _) => (kindOf f.d = .zero || widthOk w f.d) && widthOk w f.b
  | _ => true

/-! ### The checks in the order of R131 -/

/-- The prefixes' own fields (R118): the reserved L1 policy. -/
def prefixesOk (f : Fields) : Bool :=
  (match f.attr with | some t => t.l1p ≠ 3 | none => true) &&
  (!f.extFirst || (f.ext.isSome && f.attr.isSome))

/-- ILLEGAL_PREFIX (R120): EXT needs an immediate operand, ATTR a code that takes it. -/
def unitOk (op mod : Nat) (r : Row) (a b c : Option Operand) (hasExt hasAttr : Bool) : Bool :=
  (!hasAttr || takesAttr op mod) && (!hasExt || (extField r a b c).isSome)

/-- ILLEGAL_OP: the guard, MOD and the modifier bits (R108, R113, R130). -/
def opOk (m : Mnem) (mod : Nat) (g : Guard) (b c : Option Operand) : Bool :=
  !(g.neg && g.p.val == 7) && (mnemMods m).testBit mod &&
  modifierField m mod (mnemRow m mod).b b && modifierField m mod (mnemRow m mod).c c

/-- ILLEGAL_OPERAND: classes, widths, immediates and the description's own limits. -/
def operandsOk (m : Mnem) (f : Fields) : Bool :=
  let r := mnemRow m f.mod.toNat
  let x := if f.ext.isSome then extField r (some f.a) (some f.b) (some f.c) else none
  fieldOk m f r.d f.d && fieldOk m f r.a f.a && fieldOk m f r.b f.b && fieldOk m f r.c f.c &&
  immOk m f r.a f.a .a (x = some .a) && immOk m f r.b f.b .b (x = some .b) &&
  immOk m f r.c f.c .c (x = some .c) && scalarOk m f && fpstOk m f && argsOk m f

/-- SVCPOP is the CSRR whose immediate A is 0x26. -/
def isSvcpop (f : Fields) : Bool := f.ext.isNone && f.a == .imm 0x26

/-- Every check of a full word's unit. -/
def fullOk (m : Mnem) (f : Fields) : Bool :=
  prefixesOk f &&
  unitOk (mnemOp m) f.mod.toNat (mnemRow m f.mod.toNat) (some f.a) (some f.b) (some f.c) f.ext.isSome f.attr.isSome &&
  opOk m f.mod.toNat f.guard (some f.b) (some f.c) && operandsOk m f &&
  (match m with | .csrr => !isSvcpop f | .svcpop => isSvcpop f | _ => true)

/-! ### Paired words (R114, R117) -/

/-- The bank of a vector register (R78). -/
def bankOf (n : Fin 256) : Nat := n.val % 4

/-- PAIRING: the bank rules of R117. -/
def pairOk (x y : Slot) : Bool :=
  bankOf x.d != bankOf y.d &&
  (match x.a, y.a with
   | .v i, .v j => bankOf i != bankOf j
   | _, _ => true)

/-! ### Privilege (R128) -/

/-- The level that a mnemonic needs. TRET, CSRR and CSRW check theirs when they execute. -/
def mnemLevel : Mnem → Nat
  | .partcfgNew | .partcfgMod | .partcfgDel | .freeze | .thaw | .gsub | .gres => 2
  | .ctxsv | .ctxld | .halt | .wake | .wakeSvc | .dbgrd | .dbgwr | .dstep | .tlbiPage | .tlbiAsid
  | .tlbiPart | .rflush | .rflushAsid | .migr => 1
  | _ => 0

/-! ### Fixed latencies (Table 6 of R123) -/

/-- The latency of a mnemonic, or none for an interlocked one (R125). -/
def mnemLatency (m : Mnem) (f : Fields) : Option Nat :=
  match m with
  | .add | .sub | .addc | .subb | .mul | .mulh | .mad | .min | .max | .abs | .neg | .and | .or | .xor | .andn
  | .shl | .shr | .sar | .rot | .bfx | .bfi | .clz | .popc | .brev | .lea | .sel | .cmp | .pset | .fcmp
  | .fclass => some 4
  | .mov =>
    let q (x : Operand) : Bool := kindOf x = .q || kindOf x = .qnb
    if q f.d || q f.a then none else some 4
  | .cvti | .frnd | .cvtf | .cvtfi | .cvtif => some 6
  | .fadd | .fsub | .fmul | .fmin | .fmax => if f.mod.toNat = 0 then some 8 else some 6
  | .fma => if f.mod.toNat % 4 = 0 then some 8 else some 6
  | .frcp | .frsq | .fexp2 | .flog2 | .fsin | .fcos | .ftanh => some 12
  | _ => none

end Sys2Proof.Machine
end

