-- ==== Sys2Proof/WellFormed.lean ====
section
/-!
DEFINITION. Which instruction terms are instructions of the manual: the checks of R117, R118, R120 and R130
on a term, in the order of R131. Checks that need the state (scalar budget, bound queue, supervisor core,
privilege) are made when the word executes.
-/
namespace Sys2Proof

/-- The term is an instruction of the manual. An event of the device is always one. -/
def Instr.wellFormed (i : Instr) : Bool :=
  match Machine.viewInstr i with
  | some (m, f) => Machine.fullOk m f
  | none =>
    match i with
    | .paired _ x y => Machine.pairOk x y
    | _ => true

/-- Whether the term is written in memory as words, and not an event of the device or its host. -/
def Instr.isWord (i : Instr) : Bool :=
  match Machine.viewInstr i with
  | some _ => true
  | none =>
    match i with
    | .paired _ _ _ => true
    | _ => false

end Sys2Proof
end

