-- ==== Sys2Proof/Decode.lean ====
section
/-!
DEFINITION. Decoding and encoding (R105 to R131): total on any words, rejecting by the fault that R130 names,
and an encoder written from the same tables.
-/
namespace Sys2Proof

open Machine

/-- Why words are not an instruction (R130), or that more words are needed. -/
inductive Reject
  | illegalOp | illegalOperand | illegalPrefix | pairing | short
  deriving DecidableEq, Repr

/-! ### Operand codes (R109) -/

/-- The special register of a number (R82). -/
def sregOf : Nat → Option SReg
  | 0 => some .lane | 1 => some .tid | 2 => some .weft | 3 => some .panel | 4 => some .core
  | 5 => some .die | 6 => some .quarter | 7 => some .role | 8 => some .scrum | 9 => some .task
  | 10 => some .index | 11 => some .cycle | 12 => some .rlo | 13 => some .rhi | 14 => some .rstat
  | 15 => some .uivec | 16 => some .uimask | 17 => some .uistat | 18 => some .ctl | 19 => some .fpst
  | 20 => some .symst | 21 => some .part | _ => none

/-- The number of a special register (R82). -/
def sregNum : SReg → Nat
  | .lane => 0 | .tid => 1 | .weft => 2 | .panel => 3 | .core => 4 | .die => 5 | .quarter => 6
  | .role => 7 | .scrum => 8 | .task => 9 | .index => 10 | .cycle => 11 | .rlo => 12 | .rhi => 13
  | .rstat => 14 | .uivec => 15 | .uimask => 16 | .uistat => 17 | .ctl => 18 | .fpst => 19
  | .symst => 20 | .part => 21

/-- The operand of a field code; none for a reserved code (Table 2 of R109). -/
def operandOf (c : BitVec 11) : Option Operand :=
  let n := c.toNat
  if n < 0x400 then some (.s (Fin.ofNat 1024 n))
  else if n < 0x500 then some (.v (Fin.ofNat 256 (n - 0x400)))
  else if n < 0x508 then some (.o (Fin.ofNat 8 (n - 0x500)))
  else if n = 0x508 then some .lat
  else if n = 0x509 then some .zero
  else if n < 0x540 then none
  else if n < 0x560 then some (.q (Fin.ofNat 32 (n - 0x540)))
  else if n < 0x580 then some (.qnb (Fin.ofNat 32 (n - 0x560)))
  else if n < 0x600 then (sregOf (n - 0x580)).map .spec
  else if n < 0x700 then some (.imm (BitVec.ofNat 8 (n - 0x600)))
  else if n < 0x708 then some (.p (Fin.ofNat 8 (n - 0x700)))
  else none

/-- The field code of an operand (Table 2 of R109). -/
def codeOf (x : Operand) : BitVec 11 :=
  BitVec.ofNat 11 (match x with
    | .s n => n.val
    | .v n => 0x400 + n.val
    | .o n => 0x500 + n.val
    | .lat => 0x508
    | .zero => 0x509
    | .q n => 0x540 + n.val
    | .qnb n => 0x560 + n.val
    | .spec r => 0x580 + sregNum r
    | .imm i => 0x600 + i.toNat
    | .p n => 0x700 + n.val)

/-! ### Prefixes (R118) -/

/-- Whether a word is a prefix: F = 0 and OP 0x7E or 0x7F. -/
def isPrefixWord (w : Word64) : Bool := w.extractLsb' 57 7 == 0x3F#7

/-- Whether a prefix is an ATTR. -/
def isAttrWord (w : Word64) : Bool := w.getLsbD 56

/-- The IMM of an EXT word with its fixed bits as R118 gives them. -/
def extOf (w : Word64) : Option Word32 :=
  if w.extractLsb' 44 12 = 0x700#12 ∧ w.extractLsb' 0 12 = 0#12 then some (w.extractLsb' 12 32) else none

/-- The fields of an ATTR word with its fixed bits as R118 gives them and a policy that is not reserved. -/
def attrOf (w : Word64) : Option Attr :=
  if w.extractLsb' 44 12 = 0x700#12 ∧ w.extractLsb' 12 32 = 0#32 ∧ w.extractLsb' 0 7 = 0#7 ∧
      w.extractLsb' 10 2 ≠ 3#2 then
    some ⟨w.extractLsb' 10 2, w.extractLsb' 8 2, w.getLsbD 7⟩
  else none

/-- Whether a prefix's own fields are right. -/
def prefixOk (w : Word64) : Bool := if isAttrWord w then (attrOf w).isSome else (extOf w).isSome

/-- The EXT word of an immediate. -/
def extWord (i : Word32) : Word64 := (0x7E#8 ++ 0x700#12 ++ i ++ 0#12 : BitVec 64)

/-- The ATTR word of its fields. -/
def attrWord (t : Attr) : Word64 :=
  (0x7F#8 ++ 0x700#12 ++ 0#32 ++ t.l1p ++ t.llcp ++ BitVec.ofBool t.unc ++ 0#7 : BitVec 64)

/-! ### Full words (R107) -/

/-- The mnemonic whose fields a word has where no description assigns its MOD: the one that the selector of Table 8 of
R127 names. DEDUCED, log entry 40. -/
def namedMnem (op mod : Nat) : Option Mnem :=
  let l := opMnems op
  let d := if [0x5B, 0x5C, 0x5D, 0x66].contains op then 4 else if op ≥ 0x54 then 8 else 16
  (l.find? fun m => (List.range 16).any fun k => (mnemMods m).testBit k && k / d == mod / d).orElse fun _ => l.head?

/-- A full word with the prefixes of its unit, after R131 steps 3 to 5. -/
def decodeFull (ext : Option Word32) (attr : Option Attr) (extFirst : Bool) (w : Word64) :
    Except Reject Instr :=
  let op := (w.extractLsb' 56 7).toNat
  let g : Guard := ⟨w.getLsbD 55, (w.extractLsb' 52 3).toFin⟩
  let mod := w.extractLsb' 44 4
  let d := operandOf (w.extractLsb' 33 11)
  let a := operandOf (w.extractLsb' 22 11)
  let b := operandOf (w.extractLsb' 11 11)
  let c := operandOf (w.extractLsb' 0 11)
  let sel := selectMnem op mod.toNat
  let row := match sel with
    | some m => mnemRow m mod.toNat
    | none =>
      match namedMnem op mod.toNat with
      | some m => mnemRow m mod.toNat
      | none => ⟨.none, .none, .none, .none⟩
  if !unitOk op mod.toNat row a b c ext.isSome attr.isSome then .error .illegalPrefix
  else
    match sel with
    | none => .error .illegalOp
    | some m =>
      if !opOk m mod.toNat g b c then .error .illegalOp
      else
        match d, a, b, c with
        | some d, some a, some b, some c =>
          let f : Fields := ⟨g, w.extractLsb' 48 4, mod, d, a, b, c, ext, attr, extFirst⟩
          if !operandsOk m f then .error .illegalOperand
          else if m = .csrr ∧ isSvcpop f then .ok (.svcpop f)
          else .ok (mkInstr m f)
        | _, _, _, _ => .error .illegalOperand

/-- The full word of a mnemonic and its fields. -/
def fullWord (m : Mnem) (f : Fields) : Word64 :=
  (0#1 ++ BitVec.ofNat 7 (mnemOp m) ++ BitVec.ofBool f.guard.neg ++ BitVec.ofNat 3 f.guard.p.val ++ f.stl ++ f.mod ++
    codeOf f.d ++ codeOf f.a ++ codeOf f.b ++ codeOf f.c : BitVec 64)

/-! ### Paired words (R114, R115) -/

/-- The operation of a POP code. -/
def popOf : Nat → Option Pop
  | 0x00 => some .addI32 | 0x01 => some .subI32 | 0x02 => some .mulI32 | 0x03 => some .andB32
  | 0x04 => some .orB32 | 0x05 => some .xorB32 | 0x06 => some .andnB32 | 0x07 => some .shlB32
  | 0x08 => some .shrN32 | 0x09 => some .sarI32 | 0x0A => some .minI32 | 0x0B => some .maxI32
  | 0x0C => some .minN32 | 0x0D => some .maxN32 | 0x0E => some .movB32
  | 0x10 => some .faddF32 | 0x11 => some .fsubF32 | 0x12 => some .fmulF32 | 0x13 => some .fminF32
  | 0x14 => some .fmaxF32
  | 0x18 => some .faddFtz | 0x19 => some .fsubFtz | 0x1A => some .fmulFtz | 0x1B => some .fminFtz
  | 0x1C => some .fmaxFtz
  | _ => none

/-- The POP code of an operation. -/
def popCode : Pop → Nat
  | .addI32 => 0x00 | .subI32 => 0x01 | .mulI32 => 0x02 | .andB32 => 0x03 | .orB32 => 0x04
  | .xorB32 => 0x05 | .andnB32 => 0x06 | .shlB32 => 0x07 | .shrN32 => 0x08 | .sarI32 => 0x09
  | .minI32 => 0x0A | .maxI32 => 0x0B | .minN32 => 0x0C | .maxN32 => 0x0D | .movB32 => 0x0E
  | .faddF32 => 0x10 | .fsubF32 => 0x11 | .fmulF32 => 0x12 | .fminF32 => 0x13 | .fmaxF32 => 0x14
  | .faddFtz => 0x18 | .fsubFtz => 0x19 | .fmulFtz => 0x1A | .fminFtz => 0x1B | .fmaxFtz => 0x1C

/-- The operand of a slot A code (Table 4). -/
def slotAOf (c : BitVec 9) : Option SlotA :=
  let n := c.toNat
  if n < 0x100 then some (.v (Fin.ofNat 256 n))
  else if n < 0x180 then some (.imm (BitVec.ofNat 7 (n - 0x100)))
  else if n < 0x188 then some (.o (Fin.ofNat 8 (n - 0x180)))
  else if n = 0x188 then some .lat
  else none

/-- The slot A code of an operand. -/
def slotACode (x : SlotA) : BitVec 9 :=
  BitVec.ofNat 9 (match x with
    | .v n => n.val
    | .imm i => 0x100 + i.toNat
    | .o n => 0x180 + n.val
    | .lat => 0x188)

/-- The 29 bits of a slot. -/
def slotBits (t : Slot) : BitVec 29 :=
  (BitVec.ofNat 6 (popCode t.pop) ++ BitVec.ofNat 3 t.gp.val ++ BitVec.ofNat 8 t.d.val ++ slotACode t.a ++ 0#3 : BitVec 29)

/-- A paired word after R131 steps 4 to 6. -/
def decodePaired (w : Word64) : Except Reject Instr :=
  let x := w.extractLsb' 30 29
  let y := w.extractLsb' 1 29
  let popX := popOf (x.extractLsb' 23 6).toNat
  let popY := popOf (y.extractLsb' 23 6).toNat
  if w.getLsbD 0 || x.extractLsb' 0 3 != 0#3 || y.extractLsb' 0 3 != 0#3 then .error .illegalOp
  else
    match popX, popY with
    | some px, some py =>
      match slotAOf (x.extractLsb' 3 9), slotAOf (y.extractLsb' 3 9) with
      | some ax, some ay =>
        let sx : Slot := ⟨px, (x.extractLsb' 20 3).toFin, (x.extractLsb' 12 8).toFin, ax⟩
        let sy : Slot := ⟨py, (y.extractLsb' 20 3).toFin, (y.extractLsb' 12 8).toFin, ay⟩
        if pairOk sx sy then .ok (.paired (w.extractLsb' 59 4) sx sy) else .error .pairing
      | _, _ => .error .illegalOperand
    | _, _ => .error .illegalOp

/-! ### Units (R119, R120) -/

/-- The instruction of a unit, given its prefixes in order. -/
def decodeBody (pre : List Word64) (w : Word64) : Except Reject Instr :=
  if !pre.all prefixOk then .error .illegalOp
  else if w.getLsbD 63 then
    if pre.isEmpty then decodePaired w else .error .illegalPrefix
  else
    match pre with
    | [] => decodeFull none none false w
    | [p] => if isAttrWord p then decodeFull none (attrOf p) false w else decodeFull (extOf p) none false w
    | p :: q :: _ =>
      if isAttrWord p then decodeFull (extOf q) (attrOf p) false w
      else decodeFull (extOf p) (attrOf q) true w

/-- Two prefixes of one kind before one instruction: their own fields come first (R131). -/
def decodeRepeated (pre : List Word64) : Reject :=
  if pre.all prefixOk then .illegalPrefix else .illegalOp

/-- The unit at the head of a list of words and how many words it has. -/
def decodeUnit (ws : List Word64) : Except Reject (Instr × Nat) :=
  let out (n : Nat) (r : Except Reject Instr) : Except Reject (Instr × Nat) :=
    match r with
    | .ok i => .ok (i, n)
    | .error e => .error e
  match ws with
  | [] => .error .short
  | w0 :: t0 =>
    if !isPrefixWord w0 then out 1 (decodeBody [] w0)
    else
      match t0 with
      | [] => .error .short
      | w1 :: t1 =>
        if !isPrefixWord w1 then out 2 (decodeBody [w0] w1)
        else if isAttrWord w0 == isAttrWord w1 then .error (decodeRepeated [w0, w1])
        else
          match t1 with
          | [] => .error .short
          | w2 :: _ =>
            if !isPrefixWord w2 then out 3 (decodeBody [w0, w1] w2)
            else .error (decodeRepeated [w0, w1, w2])

/-- The words of an instruction; an event has none. -/
def encode (i : Instr) : List Word64 :=
  match viewInstr i with
  | some (m, f) =>
    let e := match f.ext with | some x => [extWord x] | none => []
    let t := match f.attr with | some x => [attrWord x] | none => []
    (if f.extFirst then e ++ t else t ++ e) ++ [fullWord m f]
  | none =>
    match i with
    | .paired stl x y => [(1#1 ++ stl ++ slotBits x ++ slotBits y ++ 0#1 : BitVec 64)]
    | _ => []

/-! ### Bytes (R2, R105) -/

/-- The little-endian words at the head of a list of bytes, at most n. -/
def wordsOf : Nat → List Byte → List Word64
  | 0, _ => []
  | n + 1, bs => if bs.length < 8 then [] else BitVec.ofNat 64 (ofBytes (bs.take 8)) :: wordsOf n (bs.drop 8)

/-- The bytes of a list of words. -/
def bytesOf : List Word64 → List Byte
  | [] => []
  | w :: t => toBytes 8 w.toNat ++ bytesOf t

/-- The instruction at the head of a list of bytes, and the rest of the list. -/
def decode (bs : List Byte) : Except Reject (Instr × List Byte) :=
  match decodeUnit (wordsOf 3 bs) with
  | .ok (i, n) => .ok (i, bs.drop (8 * n))
  | .error e => .error e

/-- The words of an instruction given as one number, the first word lowest. -/
def tableWords (w : Nat) : List Word64 :=
  [BitVec.ofNat 64 w, BitVec.ofNat 64 (w / 2 ^ 64), BitVec.ofNat 64 (w / 2 ^ 128)]

/-- The instruction whose bits are w, the first word lowest: the bytes are laid out as the hardware stores
them and given to the decoder. -/
def decodeTableWord (_nbits w : Nat) : Option Instr :=
  match decode (bytesOf (tableWords w)) with
  | .ok (i, _) => some i
  | .error _ => none

end Sys2Proof
end

