-- ==== Sys2Proof/Machine/Special.lean ====
section
/-!
DEFINITION. The special functions (R200, R201): the exact value of f(x) rounded once to FP32. A
transcendental value is computed in fixed point with `qb` fraction bits, far beyond what any FP32 rounding
needs (DEDUCED, log entry 12), and the rounding takes it as lying strictly between two neighbours.
-/
namespace Sys2Proof.Machine

/-- Fraction bits of the fixed-point numbers. -/
abbrev qb : Nat := 900

/-- The special functions of R200. -/
inductive SpecialFn
  | rcp | rsq | exp2 | log2 | sin | cos | tanh
  deriving DecidableEq, Repr

/-- Sum of pw/k + pw·z²/(k+2) + …, the area tangent series. -/
def atanhSum : Nat → Nat → Nat → Nat → Nat
  | 0, _, _, _ => 0
  | n + 1, pw, z2, k => pw / k + atanhSum n (pw * z2 / 2 ^ qb) z2 (k + 2)

/-- 2·artanh z for a fixed-point z of at most 1/3. -/
def atanh2 (z : Nat) : Nat := 2 * atanhSum 300 z (z * z / 2 ^ qb) 1

/-- ln 2. -/
def ln2 : Nat := atanh2 (2 ^ qb / 3)

/-- The alternating series of arctan (1/n), times a factor already in pw. -/
def atanInv : Nat → Nat → Nat → Nat → Int
  | 0, _, _, _ => 0
  | f + 1, pw, n2, k => (pw / k : Nat) - atanInv f (pw / n2) n2 (k + 2)

/-- π by Machin's formula. -/
def piQ : Nat := (16 * atanInv 210 (2 ^ qb / 5) 25 1 - 4 * atanInv 210 (2 ^ qb / 239) (239 * 239) 1).toNat

/-- Sum of t + t·x/k + t·x²/(k(k+1)) + …, the exponential series. -/
def expSum : Nat → Nat → Nat → Nat → Nat
  | 0, _, _, _ => 0
  | n + 1, t, x, k => t + expSum n (t * x / 2 ^ qb / k) x (k + 1)

/-- 2^f for a fixed-point f below 1. -/
def exp2Frac (f : Nat) : Nat := expSum 200 (2 ^ qb) (f * ln2 / 2 ^ qb) 1

/-- t − t·x²/(k(k+1)) + …: the sine series from k = 2 with t = x, the cosine series from k = 1 with t = 1. -/
def trigSum : Nat → Nat → Nat → Nat → Int
  | 0, _, _, _ => 0
  | n + 1, t, x2, k => (t : Int) - trigSum n (t * x2 / 2 ^ qb / (k * (k + 1))) x2 (k + 2)

/-- A magnitude m × 2^e in fixed point, rounded down. -/
def toFix (m : Nat) (e : Int) : Nat :=
  let s := e + qb
  if 0 ≤ s then m * 2 ^ s.toNat else m / 2 ^ (-s).toNat

/-- A signed fixed-point number that is not exact, rounded to FP32. -/
def fixResult (flush : Bool) (neg : Bool) (x : Nat) : Nat × Flags :=
  roundMag .f32 .rne flush 0 neg ⟨x, -qb, true⟩

/-- 2^x for x = ±m × 2^e between −150 and 128. -/
def exp2V (flush neg : Bool) (m : Nat) (e : Int) : Nat × Flags :=
  let x : Int := signedOf neg (toFix m e)
  let k := x / (2 ^ qb : Int)
  let f := (x - k * 2 ^ qb).toNat
  if f = 0 then roundMag .f32 .rne flush 0 false ⟨1, k, false⟩
  else roundMag .f32 .rne flush 0 false ⟨exp2Frac f, k - qb, true⟩

/-- log2 of m × 2^e, m > 0. -/
def log2V (flush : Bool) (m : Nat) (e : Int) : Nat × Flags :=
  let k := e + Nat.log2 m
  if m = 2 ^ Nat.log2 m then roundMag .f32 .rne flush 0 (k < 0) ⟨k.natAbs, 0, false⟩
  else
    let y := m * 2 ^ (qb - Nat.log2 m)
    let z := (y - 2 ^ qb) * 2 ^ qb / (y + 2 ^ qb)
    let r : Int := k * 2 ^ qb + (atanh2 z * 2 ^ qb / ln2 : Nat)
    fixResult flush (r < 0) r.natAbs

/-- sin and cos of ±m × 2^e, after the reduction by 2π. -/
def trigV (flush isCos neg : Bool) (m : Nat) (e : Int) : Nat × Flags :=
  let x := toFix m e % (2 * piQ)
  let x2 := x * x / 2 ^ qb
  let r := if isCos then trigSum 200 (2 ^ qb) x2 1 else trigSum 200 x x2 2
  let n := if isCos then r < 0 else decide (r < 0) != neg
  fixResult flush n r.natAbs

/-- tanh of ±m × 2^e. -/
def tanhV (flush neg : Bool) (m : Nat) (e : Int) : Nat × Flags :=
  let x := toFix m e
  if x ≥ 256 * 2 ^ qb then fixResult flush neg (2 ^ qb - 1)
  else
    let t := 2 * x * 2 ^ qb / ln2
    let k := t / 2 ^ qb
    let y := exp2Frac (t % 2 ^ qb) * 2 ^ k
    fixResult flush neg ((y - 2 ^ qb) * 2 ^ qb / (y + 2 ^ qb))

/-- 1/√(m × 2^e), m > 0. -/
def rsqV (flush : Bool) (m : Nat) (e : Int) : Nat × Flags :=
  let n : Nat := if (e + 200) % 2 = 0 then 200 else 201
  let r := isqrt (2 ^ n / m)
  roundMag .f32 .rne flush 0 false ⟨r, (-(e + (n : Int))) / 2, r * r * m != 2 ^ n⟩

/-- g(x) of R200, with the inputs of Table 6 (R201). -/
def specialG (fn : SpecialFn) (flush : Bool) (x : FVal) : Nat × Flags :=
  let one := 0x3F80_0000
  let inf := 0x7F80_0000
  let neg := 0x8000_0000
  match x with
  | .nan s => fnan .f32 s
  | .inf n =>
    match fn with
    | .rcp => (if n then neg else 0, Flags.none)
    | .rsq => if n then fnan .f32 true else (0, Flags.none)
    | .exp2 => (if n then 0 else inf, Flags.none)
    | .log2 => if n then fnan .f32 true else (inf, Flags.none)
    | .sin | .cos => fnan .f32 true
    | .tanh => ((if n then neg else 0) + one, Flags.none)
  | .fin n m e =>
    if m = 0 then
      match fn with
      | .rcp | .rsq => ((if n then neg else 0) + inf, { dz := true })
      | .exp2 | .cos => (one, Flags.none)
      | .log2 => (neg + inf, { dz := true })
      | .sin | .tanh => (if n then neg else 0, Flags.none)
    else
      match fn with
      | .rcp => fdivV .f32 .rne flush (.fin false 1 0) (.fin n m e)
      | .rsq => if n then fnan .f32 true else rsqV flush m e
      | .exp2 =>
        if !n && toFix m e ≥ 128 * 2 ^ qb then (inf, { ov := true, nx := true })
        else if n && toFix m e > 150 * 2 ^ qb then (0, { uf := true, nx := true })
        else exp2V flush n m e
      | .log2 => if n then fnan .f32 true else log2V flush m e
      | .sin => trigV flush false n m e
      | .cos => trigV flush true n m e
      | .tanh => tanhV flush n m e

/-- A special function in a format of R200. -/
def specialV (fn : SpecialFn) (f : Fmt) (flush : Bool) (code : Nat) : Nat × Flags :=
  let x := readF f flush code
  match f with
  | .f32 => specialG fn flush x
  | _ =>
    let (y, f1) := specialG fn false x
    let (z, f2) := match decodeF .f32 y with
      | .nan _ => (f.nanCode, Flags.none)
      | v => encodeF f .rne flush 0 v
    (z, f1.or f2)

end Sys2Proof.Machine
end

