-- ==== Sys2Proof/Machine/State.lean ====
section
/-!
DEFINITION. The state of the package as plain data: every piece of state that the manual names, the model's
own agenda and counters, the reasons a step can stop, and the state after reset (R436).
-/
namespace Sys2Proof.Machine

/-! ### Registers of a weft -/

/-- The shapes of a known vector value (Table 3 of R85). -/
inductive Shape
  | u | a | g
  deriving DecidableEq, Repr

/-- A uniform value or one value per lane: a component of a symbolic value. -/
inductive Comp
  | uni (x : Word64)
  | per (xs : List Word64)
  deriving DecidableEq, Repr

/-- One deferred floating-point step (R90). -/
structure SymStep where
  op : Nat
  rnd : Nat
  ftz : Bool
  x : Comp
  deriving DecidableEq, Repr

/-- A symbolic value: slot, kind, scale, offset and the steps of its chain (R87 to R90). -/
structure SymVal where
  slot : Nat
  kind : Nat
  scale : Comp
  offset : Comp
  steps : List SymStep
  deriving DecidableEq, Repr

/-- The content of a vector register. symHi is the odd register of a 64-bit symbolic pair, with the pair's value. -/
inductive VReg
  | val (sh : Shape) (lanes : List Word32)
  | sym (v : SymVal)
  | symHi (v : SymVal)
  deriving DecidableEq, Repr

/-- The registers whose writes the stall window keeps (R123). -/
inductive RegId
  | v (n : Nat) | s (n : Nat) | o (n : Nat) | lat (y : Bool) | p (n : Nat)
  deriving DecidableEq, Repr

/-- A fixed-latency write whose latency has not passed for every lane of its path (R123): the register, the
lanes of the writing sub-weft, the lanes written, the content before, the latency and the count per lane. -/
structure WinEnt where
  reg : RegId
  path : Mask
  wrote : Mask
  old : VReg
  lat : Nat
  el : List Nat
  deriving DecidableEq, Repr

/-- The park reasons of R64. -/
inductive Park
  | queue | task | absent | owner | symbol | barrier | scrum | join | xlate | window | svc | late
  deriving DecidableEq, Repr

/-- What a parked sub-weft waits for, where the reason alone does not say it (R64): an entry or room in a channel, a record
of a completion queue, room at an engine or in an endpoint's list, a task record for the weft or for its panel, room in a
ready queue, a scratchpad line or tile, a symbol slot, every pending slot or every deferred chain, a barrier, a page, or the
window of a move. -/
inductive Wait
  | any
  | entry (ch : Nat) | room (ch : Nat) | record (cq : Nat)
  | engine (e : Engine) | endpoint (ep : Nat)
  | deq (q : Nat) | deqAll (q : Nat) | place (q : Nat)
  | line (core n : Nat) | tile (core n : Nat)
  | slot (k : Nat) | slots | chains
  | barrier (b : Nat)
  | page (asid vpage front : Nat)
  | window (move : Nat)
  deriving DecidableEq, Repr

/-- What a parked or waiting unit has already done, kept until it is issued again. -/
inductive Hold
  | none
  | barrier (b : Nat) (gen : Word32)
  | svc (lanes : Mask)
  | scrum (entry : Nat)
  | scrumFault (code : Nat)
  | deqWait (q : Nat)
  | deqPanel (q : Nat) (d : Operand) (words : Nat)
  | walkFault (code va : Nat)
  | remote (id : Nat) (olds : List (Nat × Nat))
  | remoteDone (olds : List (Nat × Nat))
  | tile (version : Nat) (again : Bool)
  | sysWait (lanes : Mask)
  | serialWait
  | serialGo
  | gang (job : Nat)
  | gangDone (status : Nat)
  | migrWait (ids : List Nat)
  | stepping
  | haltWait
  | joinBody
  | joined
  | arend
  | tdone
  deriving DecidableEq, Repr

/-- A sub-weft (R47): program counter, mask, park reason and what its unit has done. -/
structure Sub where
  pc : Word64
  mask : Mask
  park : Option Park
  hold : Hold
  deriving DecidableEq, Repr

/-- The record of a division: its reconvergence point and its threads (R181). -/
structure Division where
  point : Option Word64
  mask : Mask
  deriving DecidableEq, Repr

/-- A symbol slot: 0 free, 1 pending, 2 arrived; its kind and its value per lane (R88, R410). -/
structure SymSlot where
  state : Nat
  kind : Nat
  value : List Word64
  deriving DecidableEq, Repr

/-- A queue binding (R259): kind, object, entry format, SEEN. -/
structure Binding where
  kind : Nat
  obj : Nat
  fmt : Nat
  seen : Bool
  deriving DecidableEq, Repr

/-- An open region (R242): class, domain, scope, abort target, footprint, buffered bytes, dependences, the
version words that STT.aon has marked, and the order of opening. -/
structure Region where
  elastic : Bool
  serial : Bool
  dom : Nat
  scope : Nat
  target : Word64
  reads : List Nat
  writes : List Nat
  buf : List Host.Cell
  deps : List WId
  versions : List Nat
  opened : Nat
  deriving DecidableEq, Repr

/-- The registers that a trap writes at one level (R289). -/
structure TrapRegs where
  tvec : Word64
  epc : Word64
  cause : Word32
  tval : Word64
  deriving DecidableEq, Repr

/-- An active trap: the sub-weft that took it, the level before, and what the unit at its return address had done
already (R404). -/
structure ActiveTrap where
  mask : Mask
  before : Nat
  at_ : Word64
  hold : Hold
  deriving DecidableEq, Repr

/-- A service batch that is being filled or is in flight (R282 to R284). -/
structure Batch where
  mask : Mask
  svcno : List (Nat × Word32)
  arg : List (Nat × Word64)
  deriving DecidableEq, Repr

/-- An interlocked result on its way (R125): the registers, their lanes and values, the erring lanes, and
whether the sub-weft waits for it before its next word. -/
structure Landing where
  id : Nat
  w : WId
  d : Operand
  wide : Bool
  lanes : Mask
  vals : List Word64
  err : Mask
  applied : Mask
  atom : Bool
  split : Bool
  next : Word64
  va : List Nat
  deriving DecidableEq, Repr

/-- An entry that a unit has popped for one of its sources before it waits for a peer: the unit by its lane and its
address (R81, R389). -/
structure Popped where
  lane : Nat
  pc : Word64
  fld : Fld
  words : List Word32
  deriving DecidableEq, Repr

/-- A resident weft. lose says for which lanes the response of its next atomic or reduction is lost: those that the home
executes, and those that it does not. -/
structure Weft where
  id : WId
  quarter : Nat
  key : PKey
  num : Nat
  role : Nat
  level : Nat
  tids : List Nat
  subs : List Sub
  divs : List Division
  vregs : Tab Nat VReg
  sregs : Tab Nat Word32
  preds : List Mask
  oregs : Tab Nat (List Word32)
  latX : List Word32
  latY : List Word32
  shX : List Word32
  shY : List Word32
  window : List WinEnt
  syms : Tab Nat SymSlot
  popped : List Popped
  waits : Tab Nat Wait
  binds : Tab Nat Binding
  swatches : Tab Nat (BitVec 128)
  scrum : Word32
  task : Word64
  taskAsid : Nat
  index : Word32
  rlo : Word64
  rhi : Word64
  rstat : Word32
  region : Option Region
  uivec : Word64
  uimask : Word32
  uistat : Word32
  uiret : Word64
  uimaskHeld : Mask
  uiHold : Hold
  ctl : Word32
  fpst : Word32
  symstF : Word32
  ut : TrapRegs
  kt : TrapRegs
  ht : TrapRegs
  mt : TrapRegs
  kscratch : Word64
  active : Tab Nat ActiveTrap
  halted : Bool
  gangHeld : Bool
  plHeld : Bool
  stepping : Option Nat
  stepped : Option Nat
  batch : Option Batch
  batchAge : Nat
  flight : Option (Nat × Mask)
  answered : Bool
  owed : Mask
  results : Tab Nat Word64
  symFaults : List (Nat × Nat × Nat × Mask × Word64)
  lose : Option (Mask × Mask)
  prio : Nat
  age : Nat
  onCourt : Bool
  courtSince : Nat
  benchSince : Nat
  skipped : Nat
  lastIssue : Nat
  stall : Nat
  freshShape : Bool
  deriving DecidableEq, Repr

/-! ### Panels -/

/-- The fields of a task metadata record (R155). -/
structure Meta where
  entry : Word64
  pbase : Word64
  pwords : Nat
  scratch : Nat
  acc : Nat
  scrums : List (Nat × Nat)
  clines : Nat
  plines : Nat
  csregs : Nat
  psregs : Nat
  shape : Nat
  svcp : Bool
  reform : Bool
  deriving DecidableEq, Repr

/-- A barrier (R237). -/
structure Barrier where
  expect : Nat
  arrived : Nat
  gen : Word32
  deriving DecidableEq, Repr

/-- A channel (R260): entries, CL, producers. An entry is its 32-bit words. -/
structure Channel where
  entries : List (List Word32)
  closed : Bool
  producers : Nat
  deriving DecidableEq, Repr

/-- What a panel holds on one of its cores: scratchpad with the base of its allocation, absent lines and engine-owned
tiles each with the command concerned, and accumulator tiles (R95 to R98, R102). -/
structure PanelCore where
  core : Nat
  base : Nat
  pad : List Host.Cell
  absent : List (Nat × Nat)
  owned : List (Nat × Nat)
  acc : List Host.Cell
  deriving DecidableEq, Repr

/-- The rendezvous latch of a scrum entry: the address and the members arrived (R263). -/
structure Latch where
  entry : Nat
  pc : Word64
  members : List Nat
  deriving DecidableEq, Repr

/-- A resident panel. saveVa is the faulting address of a TRANSLATION fault that saves it, with the core and the lanes. -/
structure Panel where
  key : PKey
  asid : Nat
  record : Word64
  metaVa : Word64
  m : Meta
  level : Nat
  cores : List Nat
  prio : Nat
  parts : List PanelCore
  barriers : Tab Nat Barrier
  cqs : Tab Nat (List (BitVec 128))
  chans : Tab Nat Channel
  broken : List Nat
  latches : List Latch
  debug : Tab Nat Word64
  stopped : Bool
  saveVa : Option (Nat × Nat × Mask)
  deriving DecidableEq, Repr

/-! ### Engines and cores -/

/-- What a matrix-engine operation does (R266 to R269), with the swatch records of its lead member. -/
inductive MatOp
  | mma (z : Bool) (a b : BitVec 128) (tile : Nat)
  | mmac (z : Bool) (src m : Nat) (b : BitVec 128) (tile : Nat)
  | aclr (tile count : Nat)
  | ald (off : Word32) (tile count : Nat)
  | ast (off : Word32) (tile count : Nat)
  | drain (tile : Nat)
  deriving DecidableEq, Repr

/-- An accepted engine command (R256). prog counts tuples, rows or chunks; stage is 0 while it runs, 1 when its tiles
have returned, 2 when its decrement has been applied. -/
structure Cmd where
  id : Nat
  engine : Engine
  key : PKey
  num : Nat
  lane : Option Nat
  desc : Nat
  bytes : List Byte
  cq : Option Nat
  unc : Bool
  mat : Option MatOp
  word : Word64
  ext : Word32
  prog : Nat
  written : Nat
  status : Nat
  stage : Nat
  deriving DecidableEq, Repr

/-- A thread filed in a reform bin (R66, R409): its tid, predicates, U flags, registers and source. -/
structure BinThread where
  tid : Nat
  preds : BitVec 7
  uset : List Nat
  regs : Tab Nat Word32
  src : Nat
  deriving DecidableEq, Repr

/-- What a fresh weft takes from a source weft of a bin (R188, R409). -/
structure BinSource where
  num : Nat
  role : Nat
  prio : Nat
  fpst : Word32
  task : Word64
  index : Word32
  sregs : Tab Nat Word32
  budget : Nat
  deriving DecidableEq, Repr

/-- A reform bin in use (R66). since is the core's cycle in which it became non-empty; due says that it is to be drawn until it
is empty, whatever it holds (R68 steps 2 and 3). -/
structure Bin where
  id : Nat
  key : PKey
  pc : Word64
  role : Nat
  threads : List BinThread
  sources : List BinSource
  since : Nat
  due : Bool
  deriving DecidableEq, Repr

/-- A core: operand buffer with its absent units, engine queues, reform bins, cycle count. -/
structure CoreSt where
  num : Nat
  obuf : List Host.Cell
  obAbsent : List (Nat × Nat)
  cmds : List Cmd
  bins : List Bin
  cycle : Nat
  extra : Nat
  busyCourt : List (Nat × Nat)
  deriving DecidableEq, Repr

/-! ### Partitions -/

/-- A partition descriptor (R299), its bit sets as numbers. -/
structure PartDesc where
  cores : Nat
  hbmch : Nat
  supc : Nat
  lpch : Nat
  thresh : Nat
  asidHi : Nat
  asidLo : Nat
  nep : Nat
  ord : Bool
  uncen : Bool
  cxl : Bool
  nready : Nat
  errq : Nat
  mbox : Nat
  svcbase : Nat
  ovfl : Nat
  ovfcap : Nat
  deriving DecidableEq, Repr

/-- A record on a ready queue: its address, effective level, whether a bolt, and the next index (R58, R61). -/
structure Ready where
  addr : Nat
  level : Nat
  bolt : Bool
  next : Nat
  count : Nat
  ibase : Nat
  arg : Word64
  asid : Nat
  deriving DecidableEq, Repr

/-- A ready queue (R58): shape word, ceiling, records in the order of their placement. -/
structure ReadyQueue where
  shape : Nat
  ceiling : Nat
  recs : List Ready
  deriving DecidableEq, Repr

/-- Work of the queue engine that waits (R59, R440): the rest of a completion under the ASID of the panel that completes,
with the ASID of the record's placement, or FLAGS.Q to be cleared. -/
inductive QWork
  | complete (addr asid placed i agent : Nat)
  | clearQ (addr asid agent : Nat)
  deriving DecidableEq, Repr

/-- A completion entry (R62), with the ASID under which its record was placed. -/
structure CompEnt where
  addr : Nat
  asid : Nat
  left : Nat
  deriving DecidableEq, Repr

/-- A store to a queue window that waits at its port (R59). -/
structure HeldStore where
  port : Nat
  q : Nat
  va : Nat
  deriving DecidableEq, Repr

/-- A parked dequeue (R61). -/
structure DeqWait where
  w : WId
  lane : Nat
  q : Nat
  panel : Bool
  deriving DecidableEq, Repr

/-- An order domain (R239, R248). -/
structure Domain where
  floor : Nat
  slot : Option WId
  waiters : List WId
  deriving DecidableEq, Repr

/-- A posted receive buffer (R251). -/
structure PostedBuf where
  desc : Nat
  buf : Nat
  cap : Nat
  key : PKey
  cq : Option Nat
  asid : Nat
  deriving DecidableEq, Repr

/-- A device area access that waits for its translation (R439). -/
inductive AreaWork
  | errRec (bytes : List Byte)
  | ovfl (addr : Nat)
  | ovflHead
  | batch (addr : Nat) (bytes : List Byte) (w : WId) (queue : Nat)
  | event (bytes : List Byte)
  deriving DecidableEq, Repr

/-- A partition (R298 to R300). An overflow entry has its record's address, ASID and queue; ovfHeld is the queue on which
the decrement held for want of room needs it (R59). -/
structure Part where
  desc : PartDesc
  frozen : Bool
  ktvec : Word64
  redcnt : Nat
  queues : Tab Nat ReadyQueue
  comps : List CompEnt
  deqs : List DeqWait
  work : List QWork
  overflow : List (Nat × Nat × Nat)
  ovfHeld : Option Nat
  heldStores : List HeldStore
  doms : Tab Nat Domain
  eps : Tab Nat (List PostedBuf)
  svcq : Tab Nat (List Nat)
  areaWork : List AreaWork
  areaNoted : List Nat
  pageNoted : List Nat
  deriving DecidableEq, Repr

/-! ### Memory, homes and translation -/

/-- The agents of the memory model (R303), with the core they run on. -/
inductive AgentId
  | thread (k : PKey) (core tid : Nat)
  | scalar (k : PKey) (core num : Nat)
  deriving DecidableEq, Repr

/-- A lane of an agent's reduction whose response erred, with its address and whether its home executed it (R382). -/
structure ErredLane where
  agent : AgentId
  lane : Nat
  va : Nat
  applied : Bool
  deriving DecidableEq, Repr

/-- The baseline of one byte in the phase of an agent (R310). -/
structure Snap where
  agent : AgentId
  pa : Nat
  val : Byte
  deriving DecidableEq, Repr

/-- The cache states of R372. -/
inductive CState
  | m | o | e | s | p | i
  deriving DecidableEq, Repr

/-- The home states of R373. -/
inductive HState
  | stb | fwd | inv | mrg | rcl | mig | recov
  deriving DecidableEq, Repr

/-- The requests of R374 that can wait at a home. -/
inductive ReqKind
  | rds | rdx | upg | prv (mask : List Nat) | atm
  deriving DecidableEq, Repr

/-- A contribution of a `.det` reduction that its line gathers (R234): target, bytes, key and value. -/
structure Contribution where
  pa : Nat
  fmt : Fmt
  core : Nat
  num : Nat
  lane : Nat
  part : Nat
  panel : Nat
  order : Nat
  val : Nat
  deriving DecidableEq, Repr

/-- The shadow of one target (R43, R44): a fixed-point number, or an FP32 code for BF16. -/
structure Shadow where
  pa : Nat
  fmt : Fmt
  fix : Int
  f32 : Nat
  deriving DecidableEq, Repr

/-- A merged add contribution that is still in the routers (R20, R44, R233): target, format, code, whether the code is a BF16
partial sum in FP32, and the partition. -/
structure PendAdd where
  pa : Nat
  fmt : Fmt
  code : Nat
  wide : Bool
  part : Nat
  deriving DecidableEq, Repr

/-- What a cached copy of a line carries of the translation that filled it (R354): the cache, a core's L1 by its agent number or
512 for the LLC; the line's virtual tag, an ASID or 65536 and the partition for a G = 1 page, with its virtual page; the leaf
entry's bits; whether the copy goes first when room is needed, and the LLCP of the access (R118). -/
structure Fill where
  agent : Nat
  tag : Nat
  vpage : Nat
  leaf : Nat
  first : Bool
  llcp : Nat
  deriving DecidableEq, Repr

/-- A line of a DC or SC page at its home (R370 to R381), with its cache copies. In FWD an empty pending list says that the
holder's data is on its way; lost is the sender of the message whose loss is being recovered. Fills are the tags of the
copies that stand; retain exempts the LLC copy from eviction for room (R118). -/
structure LineRec where
  line : Nat
  home : HState
  owner : Option Nat
  sharers : List Nat
  remotes : List Nat
  overflow : Bool
  masks : List (Nat × List Nat)
  l1 : Tab Nat CState
  llc : CState
  fills : List Fill
  retain : Bool
  open_ : Option (Nat × ReqKind)
  pending : List Nat
  waiting : List (Nat × ReqKind)
  lost : Option Nat
  shadows : List Shadow
  shadowAge : Nat
  gather : List Contribution
  gatherAge : Nat
  gatherPart : Nat
  pend : List PendAdd
  commits : List (Nat × Nat × Nat)
  poison : List Nat
  part : Nat
  deriving DecidableEq, Repr

/-- What a home keeps for a frame (R250, R355, R358, R359). -/
structure PageRec where
  frame : Nat
  mode : Option Bool
  pins : Nat
  leader : Option (Nat × Nat)
  counts : Tab Nat Nat
  readDies : List Nat
  deriving DecidableEq, Repr

/-- A cached translation (R354): the leaf entry's bits, where the entry stands, its size in bits, and the front that holds it;
none where every front does. -/
structure TlbEnt where
  asid : Nat
  vpage : Nat
  bits : Nat
  part : Nat
  leaf : Nat
  leafPa : Nat
  front : Option Nat
  deriving DecidableEq, Repr

/-- A page walk under way at a front (R222): for whom it runs and for what access. -/
structure Walk where
  asid : Nat
  part : Option Nat
  vpage : Nat
  write : Bool
  w : Option WId
  front : Nat
  deriving DecidableEq, Repr

/-- Where a synonym has been learnt (R355): the remap filter of a front, or the synonym table of a core. -/
inductive SynAt
  | front (n : Nat)
  | core (n : Nat)
  deriving DecidableEq, Repr

/-- A synonym (R355): member and leader, each an ASID and a virtual page, and where it has been learnt. -/
structure Synonym where
  asid : Nat
  vpage : Nat
  leadAsid : Nat
  leadPage : Nat
  place : SynAt
  deriving DecidableEq, Repr

/-- A write, atomic or reduction that waits in a stall window (R362, R366): a plain write has no op. An atomic has its
scope, and the request, the weft and the lane that its old value goes to. -/
structure WinWrite where
  agent : AgentId
  pa : Nat
  data : List Byte
  op : Option PktOp
  scope : Nat
  ret : Option (Nat × WId × Nat)
  deriving DecidableEq, Repr

/-- The stages of a move (R361 to R366). -/
inductive MoveStage
  | copy | waitMarks | copying | back
  deriving DecidableEq, Repr

/-- A move, duplication or collapse in flight (R360 to R366). -/
structure Move where
  id : Nat
  part : Nat
  asid : Nat
  vpage : Nat
  leafPa : Nat
  expect : Nat
  oldF : Nat
  newF : Nat
  cause : Nat
  count : Nat
  c : Nat
  stage : MoveStage
  dup : Bool
  held : List WinWrite
  deriving DecidableEq, Repr

/-- A request for a move (R361): explicit requests wait, counter requests are dropped. -/
structure MoveReq where
  id : Nat
  part : Nat
  asid : Nat
  vpage : Nat
  tier : Nat
  cause : Nat
  count : Nat
  dup : Bool
  deriving DecidableEq, Repr

/-- A duplicated page (R365): its original frame and its duplicate. -/
structure DupPage where
  frame : Nat
  copy : Nat
  asid : Nat
  vpage : Nat
  part : Nat
  deriving DecidableEq, Repr

/-! ### Fabric, messages, substitution -/

/-- A packet in a buffer of a port or of the package switch (R383, R394, R396). -/
structure BufPkt where
  port : Option Nat
  p : Packet
  deriving DecidableEq, Repr

/-- A fabric port: its credits by virtual channel and its two counters (R21, R383, R387, R388). -/
structure Port where
  num : Nat
  credits : Tab Nat Nat
  drops : Nat
  refusals : Nat
  deriving DecidableEq, Repr

/-- A request to a peer without a response yet (R389), for a line or for a lane's atomic: the requests of one unit share a
number. -/
structure OutReq where
  id : Nat
  target : Nat
  w : WId
  lane : Nat
  va : Nat
  faddr : Nat
  pa : Nat
  op : PktOp
  deriving DecidableEq, Repr

/-- What asks a peer for a line without a unit of its own in the scoreboard: a core's instruction cache for an address space (an
ASID, or 65536 and the partition for a G = 1 page), the descriptor of a unit, an engine, message or move by its number, a
host-client port, a partition's queue engine, or a symbolic access. -/
inductive Fetcher
  | code (core tag : Nat)
  | unit (w : WId) (lane : Nat)
  | device (id : Nat)
  | port (n : Nat)
  | queue (part : Nat)
  | symbol (k : PKey) (num slot : Nat)
  deriving DecidableEq, Repr

/-- A line of 128 bytes asked for at a peer (R385), or an atomic there (R60, R88): its target and offset
there, its window address, the unit and the address for which it was asked, the operation, the bytes that the
answer brings as a number, whether it has been refused or lost, and whether its answer has arrived. -/
structure Fetch where
  id : Nat
  who : Fetcher
  target : Nat
  off : Nat
  pa : Nat
  unit : Option (WId × Nat)
  va : Nat
  part : Option Nat
  op : PktOp
  old : Nat
  bad : Bool
  done : Bool
  deriving DecidableEq, Repr

/-- A posted write or reduction (R331, R387): its line and target, whether it has left, what it carries, the engine
command that it serves, the agent in whose set of unperformed writes it stands (R332), and the words of a tile that
it writes beside its line (R227), at their window addresses. -/
structure PostedWrite where
  id : Nat
  line : Nat
  target : Nat
  offset : Nat
  op : PktOp
  sent : Bool
  part : Nat
  agent : Nat
  cmd : Option Nat
  owner : Option AgentId
  also : List (Nat × List Byte)
  deriving DecidableEq, Repr

/-- What receives the outcome of a message (R251 to R253). -/
structure Msg where
  id : Nat
  key : PKey
  cq : Option Nat
  desc : Nat
  src : Nat
  len : Nat
  dst : Nat
  asid : Nat
  data : Option (List Byte)
  members : Nat
  outcome : Nat
  done : Bool
  core : Nat
  user : Bool
  unc : Bool
  deriving DecidableEq, Repr

/-- A message that waits at its endpoint (R253): for a buffer, or in receive staging. sid is its number at the
sender. -/
structure InMsg where
  id : Nat
  sid : Nat
  part : Nat
  ep : Nat
  data : List Byte
  len : Nat
  src : Nat
  buf : Option PostedBuf
  deriving DecidableEq, Repr

/-- A retained multicast copy and the branches it still owes (R392). -/
structure Retained where
  slot : Nat
  p : Packet
  branches : List Nat
  deriving DecidableEq, Repr

/-- A gang substitution of a job on this package (R394 to R399). stage is 1 while it sweeps, 2 when it is sealed, 3 when
its save area was full, 4 when it has been resumed and reports are missing. swept holds the packets of the records in
their order, each with its origin and its port. -/
structure Subst where
  job : Nat
  save : Nat
  cap : Nat
  issuer : Option (WId × Nat)
  stage : Nat
  nrec : Nat
  used : Nat
  awaitPorts : List Nat
  reports : List (Nat × Nat)
  members : List Nat
  swept : List (Nat × Nat × Packet)
  remoteIssuer : Option Nat
  deriving DecidableEq, Repr

/-- The security processor (R429 to R431). -/
structure SecProc where
  index : Nat
  slots : Tab Nat (List Byte)
  session : Nat
  ideKeys : List Word64
  image : List Byte
  deriving DecidableEq, Repr

/-- What the package sends out of itself to hosts and managers (R415, R431, R432). -/
structure Reply where
  dest : Option Nat
  kind : Nat
  data : List Byte
  deriving DecidableEq, Repr

/-- The physical addresses that bring-up sets (R436). -/
structure Tables where
  root : Nat
  migration : Nat
  fabricMap : Nat
  fabricMmu : Nat
  mmuEntries : Nat
  jobs : Nat
  limits : Nat
  mcLog : Nat
  deriving DecidableEq, Repr

/-- A symbolic access whose value has not arrived (R88, R93): its panel, weft and slot, where its value comes
from, and what it needs to be issued again: its instruction m with its words f and its operands. A memory access that has
been issued has the physical addresses pas of its lanes; got holds the lanes whose values are known, and live the agents
whose phase has not ended since (R310). -/
structure SymAcc where
  key : PKey
  num : Nat
  slot : Nat
  kind : Nat
  value : Option (List Word64)
  queue : Option Nat
  vas : List Nat
  bytes : Nat
  signed : Bool
  va0 : Word64
  level : Nat
  core : Nat
  m : Mnem
  f : Fields
  opnd : List Word64
  pas : List Nat
  got : List (Nat × Nat)
  live : List AgentId
  deriving DecidableEq, Repr

/-- A panel that is saved in a frame: its frame and the ASID of the frame, for late arrivals (R411), and what the
panel, its wefts, its commands (each with its core) and its bins (each with its core) hold beside the fields of R409
and R410 (log entry 35). -/
structure Saved where
  key : PKey
  frame : Nat
  asid : Nat
  panel : Panel
  wefts : List Weft
  cmds : List (Nat × Cmd)
  bins : List (Nat × Bin)
  deriving DecidableEq, Repr

/-! ### The machine -/

/-- What the outside chooses where the manual leaves the order or the moment open, or where software that
the manual does not describe sets up the package (log entries 1 and 13). -/
inductive Action
  | event (i : Instr)
  | issue (w : WId) (lane : Nat)
  | makeQueue (part q shape ceiling : Nat)
  | bringUp (t : Tables) (pkgid : BitVec 12)
  | route (target mask : Nat)
  | group (n mask members : Nat)
  | credit (port vc n : Nat)
  | vector (level : Nat) (v : Word64)
  | place (pa : Nat) (data : List Byte)
  | cool (die : Nat)
  deriving DecidableEq, Repr

/-- The unit that is executing: its sub-weft, its address and its words. -/
structure Cur where
  w : WId
  lane : Nat
  pc : Word64
  words : Nat
  deriving DecidableEq, Repr

/-- The state of the package. -/
structure State where
  agenda : List Action
  cur : Option Cur
  tick : Nat
  nextId : Nat
  waiting : List (WId × Nat)
  mem : List Host.Cell
  wefts : List Weft
  panels : List Panel
  cores : List CoreSt
  parts : Tab Nat Part
  saved : List Saved
  landings : List Landing
  symAccs : List SymAcc
  snaps : List Snap
  erred : List ErredLane
  lines : List LineRec
  pages : List PageRec
  tlb : List TlbEnt
  walks : List Walk
  synonyms : List Synonym
  moves : List Move
  moveReqs : List MoveReq
  dups : List DupPage
  tables : Tables
  htvec : Word64
  mtvec : Word64
  incarn : Word32
  pkgid : BitVec 12
  peers : Tab Nat Word32
  routes : Tab Nat Nat
  groups : Tab Nat (Nat × Nat)
  ports : List Port
  buffers : List BufPkt
  outReqs : List OutReq
  fetches : List Fetch
  postedW : List PostedWrite
  seq : Word32
  msgs : List Msg
  inMsgs : List InMsg
  retained : List Retained
  mcWait : List BufPkt
  substs : List Subst
  power : Tab Nat Nat
  hot : List Nat
  quiescing : List Nat
  devload : Tab Nat Nat
  sec : SecProc
  outbox : List Reply
  atPorts : List Instr
  started : Bool
  deriving DecidableEq, Repr

/-- Why the machine stops. -/
inductive Fault
  /-- A word instruction was given to exec while no sub-weft of a resident weft is issuing. Raised by every
  word meaning; safe: in the hardware a word executes only when a sub-weft issues it. -/
  | noIssuer
  deriving DecidableEq, Repr

/-- Why a meaning is refused. -/
inductive Refusal
  /-- The instruction has no meaning in the model yet. Raised by exec's arms alone; safe. -/
  | notModelled (mnemonic : String)
  deriving DecidableEq, Repr

/-- The sixteen fabric ports of the hub (R11, R21): no credit has come yet, and nothing has been counted. -/
def resetPorts : List Port := (List.range 16).map fun n => ⟨n, [], 0, 0⟩

/-- The package after its reset (R436): no partition, no panel, no weft, every line invalid, every table base
and identity at the value its log entry names. -/
def State.reset : State where
  agenda := []
  cur := none
  tick := 0
  nextId := 0
  waiting := []
  mem := []
  wefts := []
  panels := []
  cores := []
  parts := []
  saved := []
  landings := []
  symAccs := []
  snaps := []
  erred := []
  lines := []
  pages := []
  tlb := []
  walks := []
  synonyms := []
  moves := []
  moveReqs := []
  dups := []
  tables := ⟨0, 0, 0, 0, 0, 0, 0, 0⟩
  htvec := 0
  mtvec := 0
  incarn := 0
  pkgid := 0
  peers := []
  routes := []
  groups := []
  ports := resetPorts
  buffers := []
  outReqs := []
  fetches := []
  postedW := []
  seq := 0
  msgs := []
  inMsgs := []
  retained := []
  mcWait := []
  substs := []
  power := []
  hot := []
  quiescing := []
  devload := []
  sec := ⟨0, [], 0, [], []⟩
  outbox := []
  atPorts := []
  started := false

end Sys2Proof.Machine
end

