-- ==== Sys2Proof/Machine/Mem.lean ====
section
/-!
DEFINITION. Byte storage in one canonical form (physical memory, scratchpads, operand buffers, accumulator
tiles, buffered region writes): addresses strictly rising, no entry equal to what an unlisted address reads as.
-/
namespace Sys2Proof.Machine

/-- What an unlisted address reads as: 0. The manual gives a memory no content at power-on; DESIGN CHOICE, log
entry 4. Scratchpads and accumulator tiles read 0 at a panel's start (R95, R102). -/
def unlisted : Byte := 0

/-- The byte at an address. -/
def mget : List Host.Cell → Nat → Byte
  | [], _ => unlisted
  | (k, b) :: t, a => if k = a then b else if a < k then unlisted else mget t a

/-- The storage with one byte replaced, in canonical form. -/
def mput : List Host.Cell → Nat → Byte → List Host.Cell
  | [], a, b => if b = unlisted then [] else [(a, b)]
  | (k, c) :: t, a, b =>
    if k < a then (k, c) :: mput t a b
    else if k = a then (if b = unlisted then t else (a, b) :: t)
    else if b = unlisted then (k, c) :: t
    else (a, b) :: (k, c) :: t

/-- n bytes from an address. -/
def mread (m : List Host.Cell) : Nat → Nat → List Byte
  | _, 0 => []
  | a, n + 1 => mget m a :: mread m (a + 1) n

/-- The storage with bytes written from an address. -/
def mwrite : List Host.Cell → Nat → List Byte → List Host.Cell
  | m, _, [] => m
  | m, a, b :: t => mwrite (mput m a b) (a + 1) t

/-- The little-endian number of n bytes from an address (R2). -/
def mnum (m : List Host.Cell) (a n : Nat) : Nat := ofBytes (mread m a n)

/-- Strictly rising addresses above a bound, and no entry that reads as an unlisted one. -/
def memWfFrom : Nat → List Host.Cell → Bool
  | _, [] => true
  | lo, (k, b) :: t => decide (lo ≤ k) && b != unlisted && memWfFrom (k + 1) t

/-- The canonical form of a storage. -/
def Memory.wf (m : List Host.Cell) : Bool := memWfFrom 0 m

/-! ### Look-up and replacement of the records of State -/

/-- The resident weft at a place. -/
def getWeft (s : State) (id : WId) : Option Weft := s.wefts.find? fun w => w.id == id

/-- The state with a weft replaced. -/
def setWeft (s : State) (w : Weft) : State :=
  { s with wefts := s.wefts.map fun x => if x.id = w.id then w else x }

/-- The state with a function applied to a weft. -/
def updWeft (s : State) (id : WId) (f : Weft → Weft) : State :=
  { s with wefts := s.wefts.map fun x => if x.id = id then f x else x }

/-- A resident panel. -/
def getPanel (s : State) (k : PKey) : Option Panel := s.panels.find? fun p => p.key == k

/-- The state with a function applied to a panel. -/
def updPanel (s : State) (k : PKey) (f : Panel → Panel) : State :=
  { s with panels := s.panels.map fun x => if x.key = k then f x else x }

/-- The wefts of a panel. -/
def weftsOf (s : State) (k : PKey) : List Weft := s.wefts.filter fun w => w.key == k

/-- A weft of a panel by its $weft. -/
def weftNum (s : State) (k : PKey) (n : Nat) : Option Weft :=
  s.wefts.find? fun w => w.key == k && w.num == n

/-- A partition. -/
def getPart (s : State) (p : Nat) : Option Part := tget s.parts p

/-- The state with a function applied to a partition. -/
def updPart (s : State) (p : Nat) (f : Part → Part) : State :=
  match tget s.parts p with
  | some x => { s with parts := tset s.parts p (f x) }
  | none => s

/-- A core that nothing has touched since its reset. -/
def freshCore (n : Nat) : CoreSt :=
  { num := n, obuf := [], obAbsent := [], cmds := [], bins := [], cycle := 0, extra := 0, busyCourt := [] }

/-- A core by its agent number (R369). -/
def getCore (s : State) (n : Nat) : CoreSt := (s.cores.find? fun c => c.num == n).getD (freshCore n)

/-- The state with a function applied to a core. -/
def updCore (s : State) (n : Nat) (f : CoreSt → CoreSt) : State :=
  let c := f (getCore s n)
  if s.cores.any fun x => x.num == n then
    { s with cores := s.cores.map fun x => if x.num = n then c else x }
  else { s with cores := s.cores ++ [c] }

/-- Whether an agent number is a supervisor core's (R369). -/
def isSup (core : Nat) : Bool := core ≥ 256

/-- The die of a core (R11, R13). -/
def dieOf (core : Nat) : Nat := if isSup core then 6 else core / 64

/-- What a panel holds on one of its cores. -/
def panelCore (p : Panel) (core : Nat) : PanelCore :=
  (p.parts.find? fun x => x.core == core).getD ⟨core, 0, [], [], [], []⟩

/-- The panel with a function applied to what it holds on a core. -/
def updPanelCore (p : Panel) (core : Nat) (f : PanelCore → PanelCore) : Panel :=
  { p with parts := p.parts.map fun x => if x.core = core then f x else x }

/-- The sub-weft that holds a lane. -/
def subAt (w : Weft) (lane : Nat) : Option Sub := w.subs.find? fun b => b.mask.getLsbD lane

/-- The weft with a function applied to the sub-weft that holds a lane. -/
def updSub (w : Weft) (lane : Nat) (f : Sub → Sub) : Weft :=
  { w with subs := w.subs.map fun b => if b.mask.getLsbD lane then f b else b }

/-- The lanes of a weft that have not exited. -/
def liveMask (w : Weft) : Mask := w.subs.foldl (fun m b => m ||| b.mask) 0

/-- The home state, or a fresh directory entry, of a line (R370). -/
def getLine (s : State) (line : Nat) : LineRec :=
  (s.lines.find? fun r => r.line == line).getD
    { line := line, home := .stb, owner := none, sharers := [], remotes := [], overflow := false, masks := [],
      l1 := [], llc := .i, fills := [], retain := false, open_ := none, pending := [], waiting := [], lost := none, shadows := [],
      shadowAge := 0, gather := [], gatherAge := 0, gatherPart := 0, pend := [], commits := [], poison := [], part := 0 }

/-- The state with a line's record replaced. -/
def setLine (s : State) (r : LineRec) : State :=
  if s.lines.any fun x => x.line == r.line then
    { s with lines := s.lines.map fun x => if x.line = r.line then r else x }
  else { s with lines := s.lines ++ [r] }

/-- What a home keeps for a frame. -/
def getPage (s : State) (frame : Nat) : PageRec :=
  (s.pages.find? fun p => p.frame == frame).getD
    { frame := frame, mode := none, pins := 0, leader := none, counts := [], readDies := [] }

/-- The state with a function applied to a frame's record. -/
def updPage (s : State) (frame : Nat) (f : PageRec → PageRec) : State :=
  let r := f (getPage s frame)
  if s.pages.any fun x => x.frame == frame then
    { s with pages := s.pages.map fun x => if x.frame = frame then r else x }
  else { s with pages := s.pages ++ [r] }

/-- The state with bytes written to physical memory; poison of those bytes ends (R381). -/
def writePhys (s : State) (pa : Nat) (bs : List Byte) : State :=
  { s with
    mem := mwrite s.mem pa bs
    lines := s.lines.map fun r =>
      if r.poison.isEmpty then r
      else { r with poison := r.poison.filter fun o => !(decide (pa ≤ r.line * 128 + o) && decide (r.line * 128 + o < pa + bs.length)) } }

/-- A number read from physical memory. -/
def physNum (s : State) (pa n : Nat) : Nat := mnum s.mem pa n

/-- A number written to physical memory. -/
def writeNum (s : State) (pa n v : Nat) : State := writePhys s pa (toBytes n v)

/-- A fresh number. -/
def freshId (s : State) : Nat × State := (s.nextId, { s with nextId := s.nextId + 1 })

/-- The next draw of a free value. -/
def draw (s : State) : Nat × State := (s.tick, { s with tick := s.tick + 1 })

end Sys2Proof.Machine
end

