-- ==== Sys2Proof/Machine/Flags.lean ====
section
/-!
DEFINITION. Status bits: $fpst (R40), $rstat (R240), CAUSE (R405), $uivec (R406), $symst (R94), and the fault
codes of R402 with their classes.
-/
namespace Sys2Proof.Machine

/-- The codes of Table 1 of R402. -/
abbrev cIllegalOp : Nat := 1
abbrev cIllegalOperand : Nat := 2
abbrev cIllegalPrefix : Nat := 3
abbrev cPairing : Nat := 4
abbrev cStallShort : Nat := 5
abbrev cShapeOver : Nat := 6
abbrev cPrivilege : Nat := 7
abbrev cTranslation : Nat := 8
abbrev cPermission : Nat := 9
abbrev cScope : Nat := 10
abbrev cAlign : Nat := 11
abbrev cAlias : Nat := 12
abbrev cChannelClosed : Nat := 13
abbrev cAtomicResponse : Nat := 14
abbrev cMigration : Nat := 15
abbrev cEngineDesc : Nat := 17
abbrev cScrum : Nat := 18
abbrev cFabricLate : Nat := 19
abbrev cPeerLost : Nat := 20
abbrev cBreak : Nat := 21
abbrev cWatch : Nat := 22
abbrev cStep : Nat := 23
abbrev cUserTrap : Nat := 25

/-- A PERMISSION fault that the PART check of R350 or the ASID check of R297 raises: a violation when it is
raised at kernel level (R416). -/
abbrev cViolation : Nat := 0x109

/-- Whether a code is of class K (Table 1 of R402). -/
def classK (code : Nat) : Bool := [cPrivilege, cPermission, cAlias, cBreak, cWatch, cStep].contains code

/-- CAUSE (R405). -/
def mkCause (code before : Nat) (lanes : Mask) (applied defer_ : Bool) : Word32 :=
  BitVec.ofNat 32 (lanes.toNat * 65536 + (if defer_ then 2048 else 0) + (if applied then 1024 else 0) +
    before % 4 * 256 + code % 256)

/-- The weft with flags ORed into $fpst (R40). -/
def orFpst (w : Weft) (f : Flags) : Weft := { w with fpst := w.fpst ||| f.bits }

/-- $rstat with its CAUSE, FCODE and UCODE replaced, OPEN cleared and NABORT raised (R246). -/
def rstatAbort (r : Word32) (cause fcode ucode : Nat) : Word32 :=
  let n := r.toNat
  let na := min 16 (field n 12 8 + 1)
  let n := setField n 3 0 cause
  let n := setField n 5 5 0
  let n := setField n 12 8 na
  let n := if cause = 5 then setField n 23 16 fcode else n
  let n := if cause = 4 then setField n 31 24 ucode else n
  BitVec.ofNat 32 n

/-- $rstat after ARBEGIN (R242, R248). -/
def rstatOpen (r : Word32) (serial : Bool) : Word32 :=
  BitVec.ofNat 32 (setField (setField r.toNat 5 5 1) 6 6 (if serial then 1 else 0))

/-- $rstat after a commit (R244). -/
def rstatCommit (r : Word32) : Word32 :=
  BitVec.ofNat 32 (setField (setField (setField r.toNat 3 0 0) 5 5 0) 12 8 0)

/-- NABORT (R240). -/
def nabort (r : Word32) : Nat := field r.toNat 12 8

/-- A user-interrupt handler is active: ACT (R406). -/
def uiAct (w : Weft) : Bool := w.uivec.getLsbD 1

/-- Delivery is enabled: EN (R406). -/
def uiEn (w : Weft) : Bool := w.uivec.getLsbD 0

/-- The weft with ACT and EN set. -/
def setUi (w : Weft) (act en : Bool) : Weft :=
  { w with uivec := BitVec.ofNat 64 (setField (setField w.uivec.toNat 1 1 act.toNat) 0 0 en.toNat) }

/-- $symst: FV and FSLOT, with PEND derived from the slots (R94). -/
def symstOf (w : Weft) : Word32 :=
  w.symstF ||| BitVec.ofNat 32 ((List.range 16).foldl
    (fun n i => match tget w.syms i with | some x => if x.state = 1 then n + 2 ^ i else n | none => n) 0)

/-- CHK of $ctl (R84). -/
def chk (w : Weft) : Bool := w.ctl.getLsbD 0

end Sys2Proof.Machine
end

