-- ==== Sys2Proof/Machine/Xlate.lean ====
section
/-!
DEFINITION. Translation (R347 to R358, R385): page tables in memory, the checks of R352, cached translations,
and the records that the device writes to a partition's error queue and to the machine-check log (R412 to R414).
-/
namespace Sys2Proof.Machine

/-! ### Physical addresses -/

/-- The tiers of R348: 1 HBM4E, 2 LPDDR, 3 CXL pool; 0 for an address that is no frame. -/
def tierOf (pa : Nat) : Nat :=
  if pa < 0x80_0000_0000 then 1
  else if 0x100_0000_0000 ≤ pa && pa < 0x200_0000_0000 then 2
  else if 0x8_0000_0000_0000 ≤ pa && pa < 0x10_0000_0000_0000 then 3
  else 0

/-- The base die of an HBM4E address, and 7 for the tiers of the hub die (R18, R349). -/
def homeDie (pa : Nat) : Nat := if tierOf pa = 1 then (if pa / 0x8000_0000 < 128 then 4 else 5) else 7

/-- Whether a frame lies in a channel of the partition (R349). The CXL pool has no channel. -/
def channelOk (s : State) (part : Option Nat) (pa : Nat) : Bool :=
  match part.bind (getPart s) with
  | none => true
  | some p =>
    if tierOf pa = 1 then p.desc.hbmch.testBit (pa / 0x8000_0000)
    else if tierOf pa = 2 then p.desc.lpch.testBit ((pa - 0x100_0000_0000) / 0x10_0000_0000)
    else true

/-- The fabric map entry of a window address (R385). -/
def fmapEntry (s : State) (pa : Nat) : Nat :=
  physNum s (s.tables.fabricMap + 8 * ((pa - 0x8_0000_0000_0000) / 2 ^ 40)) 8

/-- Whether a fabric map entry can be used (R385). -/
def fmapOk (e : Nat) : Bool := bitOf e 0 && field e 3 1 == 0 && field e 63 23 == 0 && field e 15 4 ≤ 0xEFF

/-- The target and the fabric offset of a window address (R385). -/
def fabricOf (s : State) (pa : Nat) : Nat × Nat :=
  let e := fmapEntry s pa
  (field e 15 4, field e 22 16 * 2 ^ 40 + (pa - 0x8_0000_0000_0000) % 2 ^ 40)

/-! ### Leaf entries (R351) -/

/-- The frame's physical address. -/
def leafPa (l : Nat) : Nat := field l 57 18 * 4096
def leafV (l : Nat) : Bool := bitOf l 0
def leafR (l : Nat) : Bool := bitOf l 1
def leafW (l : Nat) : Bool := bitOf l 2
def leafX (l : Nat) : Bool := bitOf l 3
def leafU (l : Nat) : Bool := bitOf l 4
def leafG (l : Nat) : Bool := bitOf l 5
def leafCC (l : Nat) : Nat := field l 7 6
def leafT (l : Nat) : Bool := bitOf l 8
def leafAff (l : Nat) : Nat := field l 11 9
def leafPin (l : Nat) : Bool := bitOf l 12
def leafDup (l : Nat) : Bool := bitOf l 13
def leafS64 (l : Nat) : Bool := bitOf l 16
def leafBusy (l : Nat) : Bool := bitOf l 17

/-- The bits that the members of a 64-KiB group may differ in: A, D and BUSY (R352). -/
def groupMask (l : Nat) : Nat := setField (setField (setField l 15 14 0) 17 17 0) 57 18 0

/-- Whether the level-0 table holds an aligned, alike group of 16 around an index (R352). -/
def groupOk (s : State) (table idx : Nat) : Bool :=
  let base := idx / 16 * 16
  let e (i : Nat) := physNum s (table + 8 * (base + i)) 8
  leafPa (e 0) % 65536 == 0 &&
  (List.range 16).all fun i => leafPa (e i) == leafPa (e 0) + 4096 * i && groupMask (e i) == groupMask (e 0)

/-- What a walk finds. A leaf comes with its place and the bits of its page; noRoot is the root entry of another partition. -/
inductive WalkRes
  | leaf (l at_ bits : Nat)
  | absent
  | bad
  | noRoot
  deriving DecidableEq, Repr

/-- The walk from a table at a level (R350, R352). -/
def walkFrom (s : State) (va : Nat) : Nat → Nat → WalkRes
  | level, table =>
    let idx := field va (20 + 9 * level) (12 + 9 * level)
    let at_ := table + 8 * idx
    let e := physNum s at_ 8
    if !leafV e then .absent
    else if field e 63 58 != 0 || tierOf (leafPa e) == 0 then .bad
    else if !leafR e && !leafW e && !leafX e then
      match level with
      | 0 => .bad
      | l + 1 => walkFrom s va l (leafPa e)
    else if leafCC e == 3 || (leafW e && !leafR e) || leafAff e == 0 then .bad
    else
      match level with
      | 0 => if leafS64 e then (if groupOk s table idx then .leaf e at_ 16 else .bad) else .leaf e at_ 12
      | 1 => if leafS64 e || leafPa e % 0x20_0000 != 0 then .bad else .leaf e at_ 21
      | _ => .bad

/-- The root entry of an ASID. -/
def rootEntry (s : State) (asid : Nat) : Nat := physNum s (s.tables.root + 8 * (asid % 65536)) 8

/-- The walk of an address space. The PART check applies to an agent of a partition (log entry 14). -/
def walk (s : State) (asid : Nat) (part : Option Nat) (va : Nat) : WalkRes :=
  let e := rootEntry s asid
  let partOk := match part with | some p => field e 6 1 == p | none => true
  if !bitOf e 0 then .bad else if !partOk then .noRoot else walkFrom s va 4 (field e 51 12 * 4096)

/-- The physical address in a page of 2^bits bytes: for a 64-KiB page each entry names its own frame. -/
def paIn (l bits va : Nat) : Nat :=
  if bits = 21 then leafPa l + va % 2 ^ 21 else leafPa l + va % 4096

/-- An atomic OR of bits into a leaf entry at its home (R353). -/
def orLeaf (s : State) (at_ bits : Nat) : State := writeNum s at_ 8 (physNum s at_ 8 ||| bits)

/-! ### Cached translations (R354) -/

/-- The LLC slice that serves a virtual line, one of 128, 64 to each base die (R19). -/
def sliceAt (vline : Nat) : Nat := Config.sliceHash vline % 128

/-- The translation front that serves a virtual address: one of the four of its slice's base die (R19, R24). -/
def frontAt (va : Nat) : Nat := sliceAt (va / 128) / 64 * 4 + Config.frontHash (va / 128) % 4

/-- The tag of a page's lines: its ASID, or the partition's for a G = 1 leaf (R354). -/
def tagOf (asid part leaf : Nat) : Nat := if leafG leaf then 65536 + part else asid

/-- Whether a cached translation serves an access: it covers the page, and the address's own front holds it. -/
def tlbHit (t : TlbEnt) (asid : Nat) (part : Option Nat) (va : Nat) : Bool :=
  t.vpage == va / 4096 && (t.asid == asid || (leafG t.leaf && part == some t.part)) && t.front.all (· == frontAt va)

/-- The cached translation of an access at its front. Pages are cached by their 4-KiB virtual page. -/
def tlbFind (s : State) (asid : Nat) (part : Option Nat) (va : Nat) : Option TlbEnt :=
  s.tlb.find? fun t => tlbHit t asid part va

/-- Whether a copy of a line stands in the cache of a fill: a core's L1, or the LLC, where a shadow or a gather stands too. -/
def filled (r : LineRec) (f : Fill) : Bool :=
  if f.agent = 512 then r.llc != .i || !r.shadows.isEmpty || !r.gather.isEmpty || !r.pend.isEmpty
  else tgetD r.l1 f.agent .i != .i

/-- The tags under which the lines of a virtual page may stand in a core's caches: its ASID's, its partition's, and those of the
leaders that the core's synonym table gives for them (R354, R355). -/
def tagsAt (s : State) (core asid : Nat) (part : Option Nat) (va : Nat) : List (Nat × Nat) :=
  let own := [(asid, va / 4096), (65536 + part.getD 64, va / 4096)]
  own ++ s.synonyms.filterMap fun y =>
    if own.contains (y.asid, y.vpage) && y.place == .core core then some (y.leadAsid, y.leadPage) else none

/-- The line that a virtual address names by tag in a core's L1 or in the LLC, with the leaf that filled the copy: it needs no
translation (R229, R354). -/
def tagFind (s : State) (core asid : Nat) (part : Option Nat) (va : Nat) : Option (Nat × Nat) :=
  let tags := tagsAt s core asid part va
  s.lines.findSome? fun r =>
    if r.line % 32 == va / 128 % 32 then
      (r.fills.find? fun f => (f.agent == core || f.agent == 512) && filled r f && tags.contains (f.tag, f.vpage)).map
        fun f => (r.line, f.leaf)
    else none

/-- The page moves that concern a physical address of the old frame. -/
def moveOf (s : State) (pa : Nat) : Option Move := s.moves.find? fun m => m.oldF == pa / 4096

/-- The physical address that serves a line during a move (R362, R364). -/
def redirect (s : State) (pa : Nat) : Nat :=
  match moveOf s pa with
  | none => pa
  | some m =>
    let i := pa % 4096 / 128
    if m.dup then pa
    else
      match m.stage with
      | .back => if i < m.c then pa else m.newF * 4096 + pa % 4096
      | _ => if i < m.c then m.newF * 4096 + pa % 4096 else pa

/-- The outcome of a translation. -/
inductive Xl
  | ok (pa leaf : Nat)
  | fault (code : Nat)
  | miss
  deriving DecidableEq, Repr

/-- What an access asks of a page; none for an instruction that names a page and does not access it (R302). -/
inductive AccKind
  | read | write | exec | none
  deriving DecidableEq, Repr

/-- The permission of R220 step 4 and R221 for a leaf. -/
def leafAllows (l : Nat) (user : Bool) (k : AccKind) : Bool :=
  match k with
  | .read => leafR l && (!user || leafU l)
  | .write => leafW l && (!user || leafU l)
  | .exec => leafX l && (!user || leafU l)
  | .none => true

/-- Whether a scope is legal for the page's class (R221). -/
def scopeOk (cc scope : Nat) : Bool :=
  match cc with
  | 0 => scope ≤ 1
  | 1 => scope ≤ 4
  | _ => true

/-- Whether a leaf's T differs from the tracking mode of its frame (R358). -/
def aliasAt (s : State) (pa leaf : Nat) : Bool :=
  match (getPage s (pa / 4096)).mode with
  | some m => m != leafT leaf
  | none => false

/-- The checks of R220 on one address, with the cached translations of the fronts (R353, R358). -/
def checkAccess (s : State) (asid : Nat) (part : Option Nat) (user : Bool) (k : AccKind) (scope : Nat)
    (va align : Nat) : Xl :=
  if va ≥ 2 ^ 57 then .fault cPermission
  else if align ≠ 0 && va % align ≠ 0 then .fault cAlign
  else
    match tlbFind s asid part va with
    | none => .miss
    | some t =>
      if !leafAllows t.leaf user k then .fault cPermission
      else if !scopeOk (leafCC t.leaf) scope then .fault cScope
      else
        let pa := paIn t.leaf t.bits va
        if aliasAt s pa t.leaf then .fault cAlias else .ok pa t.leaf

/-- D is set at the first write through an entry (R353). -/
def markDirty (s : State) (asid : Nat) (part : Option Nat) (va : Nat) : State :=
  match tlbFind s asid part va with
  | none => s
  | some t =>
    if bitOf t.leaf 15 then s
    else
      let s := orLeaf s t.leafPa (2 ^ 15)
      { s with tlb := s.tlb.map fun x => if x = t then { x with leaf := x.leaf ||| 2 ^ 15 } else x }

/-- The end of a walk at a front under R348 to R353: a cached translation, or the fault that the access will take. -/
def finishAt (s : State) (front asid : Nat) (part : Option Nat) (va : Nat) : Except Nat State :=
  match walk s asid part va with
  | .noRoot => .error cViolation
  | .absent => .error cTranslation
  | .bad => .error cPermission
  | .leaf l at_ bits =>
    let pa := paIn l bits va
    if !channelOk s part pa then .error cPermission
    else if tierOf pa == 3 && !fmapOk (fmapEntry s pa) then .error cPermission
    else
      let s := if bitOf l 14 then s else orLeaf s at_ (2 ^ 14)
      let l := l ||| 2 ^ 14
      let ent : TlbEnt := ⟨asid, va / 4096, bits, part.getD 64, l, at_, some front⟩
      let s := updPage s (pa / 4096) fun p => { p with mode := p.mode.orElse fun _ => some (leafT l) }
      .ok { s with tlb := ent :: s.tlb.filter fun t => !(t.asid == asid && t.vpage == va / 4096 && t.front == some front) }

/-- The end of an address's walk at its own front. -/
def finishWalk (s : State) (asid : Nat) (part : Option Nat) (va : Nat) : Except Nat State := finishAt s (frontAt va) asid part va

/-- What the front of an address holds of its page, or finds in the tables. -/
def frontLeaf (s : State) (asid : Nat) (part : Option Nat) (va : Nat) : WalkRes :=
  match tlbFind s asid part va with
  | some t => .leaf t.leaf t.leafPa t.bits
  | none => walk s asid part va

/-- The front of an address holds its translation, with A set, and D where the access writes (R353). -/
def warmFront (s : State) (asid : Nat) (part : Option Nat) (write : Bool) (va : Nat) : State :=
  let s := match tlbFind s asid part va with
    | some _ => s
    | none => match finishWalk s asid part va with | .ok t => t | .error _ => s
  if write then markDirty s asid part va else s

/-- Cached translations dropped; a frame that no front translates loses its tracking mode (R358). -/
def dropTlb (s : State) (p : TlbEnt → Bool) : State :=
  let keep := s.tlb.filter fun t => !p t
  let live (f : Nat) := keep.any fun t => paIn t.leaf t.bits (t.vpage * 4096) / 4096 == f
  { s with
    tlb := keep
    pages := s.pages.map fun r => if live r.frame then r else { r with mode := none } }

/-! ### The device's own accesses (R439, R440) -/

/-- A translation for an access of the device, which ignores U. The walk is made at once. -/
def deviceXlate (s : State) (asid : Nat) (part : Option Nat) (k : AccKind) (va : Nat) : Xl :=
  if va ≥ 2 ^ 57 then .fault cPermission
  else
    match walk s asid part va with
    | .leaf l _ bits =>
      if !leafAllows l false k then .fault cPermission
      else if !channelOk s part (paIn l bits va) then .fault cPermission
      else .ok (redirect s (paIn l bits va)) l
    | .absent => .fault cTranslation
    | _ => .fault cPermission

/-- The bytes at a virtual address, read by the device byte by byte. -/
def deviceRead (s : State) (asid : Nat) (part : Option Nat) : Nat → Nat → Except Nat (List Byte)
  | _, 0 => .ok []
  | va, n + 1 =>
    match deviceXlate s asid part .read va with
    | .ok pa _ =>
      match deviceRead s asid part (va + 1) n with
      | .ok bs => .ok (mget s.mem pa :: bs)
      | .error e => .error e
    | .fault c => .error c
    | .miss => .error cTranslation

/-- A little-endian number read by the device. -/
def deviceNum (s : State) (asid : Nat) (part : Option Nat) (va n : Nat) : Except Nat Nat :=
  match deviceRead s asid part va n with
  | .ok bs => .ok (ofBytes bs)
  | .error e => .error e

/-- The bits A and D of the leaf entry of a page that the device writes (R353). -/
def deviceDirty (s : State) (asid : Nat) (part : Option Nat) (va : Nat) : State :=
  match walk s asid part va with
  | .leaf l at_ _ => if bitOf l 14 && bitOf l 15 then s else orLeaf s at_ 0xC000
  | _ => s

/-- The bit A of the leaf entries of the pages that the device reads (R353). -/
def deviceTouch (s : State) (asid : Nat) (part : Option Nat) (va n : Nat) : State :=
  ((List.range n).filterMap fun i => if i = 0 ∨ (va + i) % 4096 = 0 then some (va + i) else none).foldl (fun s a =>
    match deviceXlate s asid part .read a, walk s asid part a with
    | .ok _ _, .leaf l at_ _ => if bitOf l 14 then s else orLeaf s at_ 0x4000
    | _, _ => s) s

/-- Bytes written by the device; nothing is written where some byte's page refuses. -/
def deviceWrite (s : State) (asid : Nat) (part : Option Nat) (va : Nat) (bs : List Byte) : Except Nat State :=
  let rec go : Nat → List Byte → State → Except Nat State
    | _, [], t => .ok t
    | a, b :: r, t =>
      match deviceXlate s asid part .write a with
      | .ok pa _ => go (a + 1) r (writePhys (deviceDirty t asid part a) pa [b])
      | .fault c => .error c
      | .miss => .error cTranslation
  go va bs s

/-! ### Records -/

/-- A 32-byte record of Table 9 of R413. -/
def mkRecord (kind code lanes agent aux addr addr2 : Nat) : List Byte :=
  toBytes 1 kind ++ toBytes 1 0 ++ toBytes 2 code ++ toBytes 2 lanes ++ toBytes 2 agent ++ toBytes 8 aux ++
    toBytes 8 addr ++ toBytes 8 addr2

/-- A record appended to the machine-check log (R414). A log at address 0 has not been set up: nothing is
written. -/
def machineCheck (s : State) (code agent addr addr2 aux : Nat) : State :=
  let q := s.tables.mcLog
  if q = 0 then s
  else
    let head := physNum s q 4
    let tail := physNum s (q + 4) 4
    let cap := physNum s (q + 8) 4
    if cap = 0 || (head + 2 ^ 32 - tail) % 2 ^ 32 ≥ cap then
      writeNum s (q + 12) 4 (min (2 ^ 32 - 1) (physNum s (q + 12) 4 + 1))
    else
      let s := writePhys s (q + 64 + 32 * (head % cap)) (mkRecord 12 code 0 agent aux addr addr2)
      writeNum s q 4 (head + 1)

/-- One error record put into a partition's queue (R412); the error is that of the area's translation. -/
def putErr (s : State) (p : Nat) (bytes : List Byte) : Except Nat State :=
  match getPart s p with
  | none => .ok s
  | some pt =>
    let q := pt.desc.errq
    let asid := pt.desc.asidLo
    match deviceNum s asid (some p) q 4, deviceNum s asid (some p) (q + 4) 4, deviceNum s asid (some p) (q + 8) 4,
      deviceNum s asid (some p) (q + 12) 4 with
    | .ok head, .ok tail, .ok cap, .ok drops =>
      if cap = 0 || (head + 2 ^ 32 - tail) % 2 ^ 32 ≥ cap then
        deviceWrite s asid (some p) (q + 12) (toBytes 4 (min (2 ^ 32 - 1) (drops + 1)))
      else
        match deviceWrite s asid (some p) (q + 64 + 32 * (head % cap)) bytes with
        | .ok s => deviceWrite s asid (some p) q (toBytes 4 (head + 1))
        | .error e => .error e
    | .error e, _, _, _ | _, .error e, _, _ | _, _, .error e, _ | _, _, _, .error e => .error e

/-- A wait for a device area that does not translate: one machine-check record of event 7 when it begins (R439). -/
def noteArea (s : State) (p : Nat) (va : Nat) : State :=
  match getPart s p with
  | none => s
  | some pt =>
    if pt.areaNoted.contains va then s
    else updPart (machineCheck s 26 0 va 0 (7 + p * 65536)) p fun x => { x with areaNoted := va :: x.areaNoted }

/-- Work on a device area that waits. -/
def deferArea (s : State) (p : Nat) (va : Nat) (w : AreaWork) : State :=
  updPart (noteArea s p va) p fun x => { x with areaWork := x.areaWork ++ [w] }

/-- An error record for a partition (R412, R413). It waits while earlier records of the area wait. -/
def errRecord (s : State) (part : Option Nat) (kind code lanes agent aux addr addr2 : Nat) : State :=
  match part with
  | none => s
  | some p =>
    let bytes := mkRecord kind code lanes agent aux addr addr2
    match getPart s p with
    | none => s
    | some pt =>
      if pt.areaWork.any fun x => match x with | .errRec _ => true | _ => false then
        deferArea s p pt.desc.errq (.errRec bytes)
      else
        match putErr s p bytes with
        | .ok s => s
        | .error _ => deferArea s p pt.desc.errq (.errRec bytes)

end Sys2Proof.Machine
end

