-- ==== Sys2Proof/Machine/Ops.lean ====
section
/-!
DEFINITION. Operations on wefts, panels and partitions that several instructions and events share: parking and
waking, aborting regions, halting, freezing, taking an exception and returning from it (R64, R71, R243 to R248,
R286, R293, R300, R403 to R408).
-/
namespace Sys2Proof.Machine

/-! ### Waiting and waking -/

/-- Sub-wefts that wait in the scoreboard may be issued again. -/
def progress (s : State) : State := { s with waiting := [] }

/-- A weft after some of its sub-wefts have woken: on the bench it is ready from now on (R65). -/
def wokeAt (t : Nat) (w : Weft) (subs : List Sub) : Weft :=
  if !w.onCourt && w.subs.all (fun b => b.park.isSome) && subs.any (fun b => b.park.isNone) then
    { w with subs := subs, benchSince := t }
  else { w with subs := subs }

/-- What a parked sub-weft waits for. -/
def waitOf (w : Weft) (b : Sub) : Wait := tgetD w.waits (lowest b.mask) .any

/-- The sub-wefts parked for a reason whose event has occurred become ready (R64). -/
def wakeFor (s : State) (r : Park) (hit : Weft → Sub → Wait → Bool) : State :=
  let go (w : Weft) : Weft :=
    wokeAt s.tick w (w.subs.map fun b => if b.park = some r && hit w b (waitOf w b) then { b with park := none } else b)
  { s with waiting := [], wefts := s.wefts.map go }

/-- The sub-wefts of a panel parked for a reason that wait for one thing become ready. -/
def wakeIn (s : State) (k : PKey) (r : Park) (what : Wait) : State := wakeFor s r fun w _ x => w.key == k && x == what

/-- The sub-weft of a lane becomes ready, with what its unit has done. -/
def wakeSub (s : State) (id : WId) (lane : Nat) (h : Hold) : State :=
  let go (w : Weft) : Weft :=
    wokeAt s.tick w (updSub w lane fun b => { b with park := none, hold := h }).subs
  { updWeft s id go with waiting := [] }

/-- Every sub-weft that waits with a hold gets another hold and becomes ready. -/
def rehold (s : State) (p : Hold → Bool) (h : Hold) : State :=
  let go (w : Weft) : Weft :=
    wokeAt s.tick w (w.subs.map fun b => if p b.hold then { b with park := none, hold := h } else b)
  { s with waiting := [], wefts := s.wefts.map go }

/-! ### What holds a weft, and parked dequeues (R61, R300, R408) -/

/-- Whether a trap is active at a level. -/
def trapActive (w : Weft) (l : Nat) : Bool := (tget w.active l).isSome

/-- Whether a partition's freeze holds a weft (R300). -/
def frozenWeft (s : State) (w : Weft) : Bool :=
  match w.key.part.bind (getPart s) with
  | some p => p.frozen
  | none => false

/-- Whether a hypervisor or monitor trap keeps a stopped weft running until it returns (R408). -/
def highTrap (w : Weft) : Bool := trapActive w 2 || trapActive w 3

/-- Whether the weft's panel is stopped for a save (R71). -/
def stoppedWeft (s : State) (w : Weft) : Bool :=
  match getPanel s w.key with
  | some p => p.stopped && !highTrap w
  | none => true

/-- Whether something holds every sub-weft of a weft. -/
def weftHeld (s : State) (w : Weft) : Bool :=
  w.halted || w.gangHeld || w.plHeld || frozenWeft s w || stoppedWeft s w

/-- Whether a sub-weft stands at a dequeue of a queue, of the panel form or not. -/
def atDequeue (b : Sub) (q : Nat) (panel : Bool) : Bool :=
  match b.hold with
  | .deqWait k => !panel && k == q
  | .deqPanel k _ _ => panel && k == q
  | _ => false

/-- Whether a parked dequeue still waits and can be served. -/
def deqValid (s : State) (d : DeqWait) : Bool :=
  match getWeft s d.w with
  | none => false
  | some w => !weftHeld s w && w.subs.any fun b => atDequeue b d.q d.panel && (d.panel || b.mask.getLsbD d.lane)

/-- The parked dequeues of a queue that can be served, in the order in which they reached the queue engine. -/
def deqLine (s : State) (part q : Nat) : List DeqWait :=
  match getPart s part with
  | some p => p.deqs.filter fun d => d.q == q && deqValid s d
  | none => []

/-- The queue engine hands a queue's record to the dequeue that comes first (R61, R64). -/
def wakeDeq (s : State) (part q : Nat) : State :=
  match (getPart s part).bind fun p => tget p.queues q, deqLine s part q with
  | some rq, d :: _ =>
    if rq.recs.isEmpty then s
    else wakeFor s .task fun w b x => w.id == d.w && atDequeue b q d.panel && (x == .deq q || x == .deqAll q)
  | _, _ => s

/-- The same for every queue, once a dequeue can no longer be served or can be served again. -/
def wakeLines (s : State) : State :=
  s.parts.foldl (fun s e => ((e.2.deqs.map (·.q)).eraseDups).foldl (fun s q => wakeDeq s e.1 q) s) s

/-- Whether a queue has room for a record, and the partition a completion entry (R58, R62). -/
def queueRoom (p : Part) (qid : Nat) : Bool :=
  !p.frozen && decide (p.comps.length < 1048576) &&
  match tget p.queues qid with | some q => decide (q.recs.length < 65536) | none => false

/-- The TENQ that wait for room go on where there is room (R64). -/
def wakePlace (s : State) (part : Nat) : State :=
  match getPart s part with
  | none => s
  | some p => wakeFor s .task fun w _ x => w.key.part == some part && match x with | .place q => queueRoom p q | _ => false

/-! ### Phases (R306, R310, R319) -/

/-- Whether an agent is one of a weft's: its scalar agent, or a thread of it that has not exited (R303). -/
def agentOf (w : Weft) : AgentId → Bool
  | .thread k c t => k == w.key && c == w.id.core && (lanesOf (liveMask w)).any fun l => nth w.tids l 0 == t
  | .scalar k c n => k == w.key && c == w.id.core && n == w.num

/-- Whether an agent still runs on its core: in a weft, or filed in a bin. -/
def agentLives (s : State) : AgentId → Bool
  | .thread k c t =>
    (s.wefts.any fun w => agentOf w (.thread k c t)) ||
      (getCore s c).bins.any fun b => b.key == k && b.threads.any fun x => x.tid == t
  | .scalar k c n => s.wefts.any fun w => agentOf w (.scalar k c n)

/-- Whether an agent is one of a panel's. -/
def agentPanel (k : PKey) : AgentId → Bool
  | .thread p _ _ => p == k
  | .scalar p _ _ => p == k

/-- The agent of a lane, or the scalar agent. -/
def agentAt (w : Weft) (scalar : Bool) (lane : Nat) : AgentId :=
  if scalar then .scalar w.key w.id.core w.num else .thread w.key w.id.core (nth w.tids lane 0)

/-- Whether some agent's write waits in a stall window (R362). -/
def heldWrites (s : State) (p : AgentId → Bool) : Bool := s.moves.any fun m => m.held.any fun h => p h.agent

/-- Whether a trap or an interrupt of a weft must wait: its entry is a release boundary for every agent of the weft, whose
writes a stall window still holds (R306). -/
def entryHeld (s : State) (id : WId) : Bool :=
  match getWeft s id with | some w => heldWrites s (agentOf w) | none => false

/-- An acquire boundary for the agents that a test names: their baselines end, and no access that is on its way fixes one in
the new phase (R310). -/
def acquireFor (s : State) (p : AgentId → Bool) : State :=
  { s with
    snaps := s.snaps.filter fun x => !p x.agent
    symAccs := s.symAccs.map fun a => { a with live := a.live.filter fun g => !p g } }

/-- An acquire boundary for the lanes of a mask and, when it is not empty, the weft's scalar agent. -/
def acquireLanes (s : State) (w : Weft) (m : Mask) : State :=
  if m = 0 then s
  else acquireFor s fun a => a == agentAt w true 0 || (lanesOf m).any fun l => a == agentAt w false l

/-! ### Scrums, serial slots and regions -/

/-- A weft's arrival at a scrum latch is withdrawn (R71, R263). -/
def withdrawScrum (s : State) (id : WId) : State :=
  match getWeft s id with
  | none => s
  | some w =>
    let s := updPanel s w.key fun p =>
      { p with latches :=
          (p.latches.map fun l => { l with members := l.members.filter (· ≠ w.num) }).filter (fun l => !l.members.isEmpty) }
    updWeft s id fun w =>
      { w with subs := w.subs.map fun b =>
          match b.hold with
          | .scrum _ => { b with park := none, hold := .none }
          | _ => b }

/-- The order domain of a partition (R239). -/
def getDom (s : State) (part dom : Nat) : Domain :=
  match getPart s part with
  | some p => tgetD p.doms dom ⟨0, none, []⟩
  | none => ⟨0, none, []⟩

/-- The state with an order domain replaced. -/
def setDom (s : State) (part dom : Nat) (d : Domain) : State :=
  updPart s part fun p => { p with doms := tset p.doms dom d }

/-- The partition number of a panel; 64 for a panel of no partition. -/
def partNum (k : PKey) : Nat := k.part.getD 64

/-- The serial slot of a region's domain is free again (R248). -/
def freeSerial (s : State) (w : Weft) (r : Region) : State :=
  let d := getDom s (partNum w.key) r.dom
  if d.slot = some w.id then setDom s (partNum w.key) r.dom { d with slot := none } else s

/-- Abort one weft's open region (R246): buffered writes and footprint are discarded, CAUSE is written, OPEN is
cleared, NABORT counts, and control passes to the abort target. -/
def abortOne (s : State) (id : WId) (cause fcode ucode : Nat) : State :=
  match getWeft s id with
  | none => s
  | some w =>
    match w.region with
    | none => s
    | some r =>
      let s := freeSerial s w r
      updWeft s id fun w =>
        { w with
          region := none
          rstat := rstatAbort w.rstat cause fcode ucode
          divs := []
          subs := [{ pc := r.target, mask := liveMask w, park := none, hold := .none }] }

/-- The open regions that depend on a weft's region. -/
def dependents (s : State) (id : WId) : List WId :=
  (s.wefts.filter fun w => match w.region with | some r => r.deps.contains id | none => false).map (·.id)

/-- Abort the regions of a list of wefts with CAUSE 1, and every region that depends on them (R244, R246). -/
def abortAll : Nat → List WId → State → State
  | 0, _, s => s
  | _, [], s => s
  | n + 1, id :: t, s => abortAll n (t ++ dependents s id) (abortOne s id 1 0 0)

/-- Abort a region and the regions that depend on it. -/
def abortRegion (s : State) (id : WId) (cause fcode ucode : Nat) : State :=
  match (getWeft s id).bind (·.region) with
  | none => s
  | some _ => progress (abortAll (s.wefts.length + 1) (dependents s id) (abortOne s id cause fcode ucode))

/-- What halting does to a weft at an instruction boundary (R71, R293). -/
def quiesceWeft (s : State) (id : WId) : State := withdrawScrum (abortRegion s id 5 0 0) id

/-- HALT's effect on a weft (R293). -/
def haltWeft (s : State) (id : WId) : State :=
  wakeLines (updWeft (quiesceWeft s id) id fun w => { w with halted := true })

/-- Apply an operation to a list of wefts in order. -/
def forWefts (s : State) (ids : List WId) (f : State → WId → State) : State := ids.foldl f s

/-- Every weft of a panel is halted at an instruction boundary (R71). -/
def stopPanel (s : State) (k : PKey) : State :=
  wakeLines (updPanel (forWefts s ((weftsOf s k).map (·.id)) quiesceWeft) k fun p => { p with stopped := true })

/-- FREEZE's effect on a partition (R300). -/
def freezePart (s : State) (p : Nat) : State :=
  let ids := (s.wefts.filter fun w => w.key.part == some p).map (·.id)
  updPart (forWefts s ids quiesceWeft) p fun x => { x with frozen := true }

/-- A violating master's partition is frozen and recorded (R416). -/
def violate (s : State) (part : Option Nat) (agent addr : Nat) : State :=
  let s := match part with | some p => freezePart s p | none => s
  machineCheck s 9 agent addr 0 5

/-! ### Taking an exception (R403, R404) -/

/-- The trap registers of a level. -/
def trapRegs (w : Weft) : Nat → TrapRegs
  | 0 => w.ut
  | 1 => w.kt
  | 2 => w.ht
  | _ => w.mt

/-- The weft with the trap registers of a level replaced. -/
def setTrapRegs (w : Weft) (l : Nat) (t : TrapRegs) : Weft :=
  match l with
  | 0 => { w with ut := t }
  | 1 => { w with kt := t }
  | 2 => { w with ht := t }
  | _ => { w with mt := t }

/-- The vector of a level for a weft (R289). -/
def vectorOf (s : State) (w : Weft) : Nat → Word64
  | 0 => w.ut.tvec
  | 1 => match w.key.part.bind (getPart s) with | some p => p.ktvec | none => 0
  | 2 => s.htvec
  | _ => s.mtvec

/-- The level at which R403 begins. -/
def firstLevel (w : Weft) (code : Nat) : Nat :=
  if !classK code && w.level = 0 && w.ut.tvec ≠ 0 && !trapActive w 0 then 0
  else if w.level ≤ 1 then 1 else w.level

/-- The first level from l upwards whose trap is not active and whose vector is not 0. -/
def climb (s : State) (w : Weft) : Nat → Nat → Option Nat
  | 0, _ => none
  | n + 1, l => if l > 3 then none else if trapActive w l || vectorOf s w l = 0 then climb s w n (l + 1) else some l

/-- The level that takes a trap, or none when it passes monitor level or is unhandled. -/
def takingLevel (s : State) (w : Weft) (code : Nat) : Option Nat := climb s w 4 (firstLevel w code)

/-- The records of a trap that no level takes (R403). -/
def unhandled (s : State) (w : Weft) (epc tval : Nat) (cause : Word32) : State :=
  if trapActive w 3 || w.key.part.isNone then machineCheck s 26 w.id.core 0 epc 4
  else errRecord s w.key.part 11 (cause.toNat % 256) (cause.toNat / 65536) w.id.core cause.toNat epc tval

/-- Whether a sub-weft between units can be sent to a handler: none of its unit's actions is under way outside it. -/
def holdFree : Hold → Bool
  | .gang _ => false
  | .stepping => false
  | .remote _ _ => false
  | _ => true

/-- What a unit that will be issued again has already done, kept over a handler; a wait that has done nothing starts
again. -/
def keptHold : Hold → Hold
  | .barrier b g => .barrier b g
  | .svc m => .svc m
  | .remoteDone l => .remoteDone l
  | .gangDone c => .gangDone c
  | .migrWait l => .migrWait l
  | .serialGo => .serialGo
  | .joined => .joined
  | .tdone => .tdone
  | _ => .none

/-- The mark of a fault that has neither an address nor a code to record. -/
abbrev noTval : Nat := 2 ^ 64

/-- A sub-weft leaves its unit for a handler: a dequeue that it leaves waiting is passed over. -/
def leaveUnit (b : Sub) (s : State) : State :=
  match b.hold with
  | .deqWait _ | .deqPanel _ _ _ => wakeLines s
  | _ => s

/-- Trap entry (R403, R404): the one operation by which every exception is taken. `lane` names the sub-weft that
takes it, `epc` the return address. -/
def takeTrap (s : State) (id : WId) (lane : Nat) (code tval : Nat) (lanes : Mask) (applied deferred : Bool)
    (epc : Word64) : State :=
  match getWeft s id with
  | none => s
  | some w =>
    match subAt w lane with
    | none => s
    | some b =>
      let tval := if tval ≥ noTval then Config.freeTval s.tick % 2 ^ 64 else tval
      let cause := mkCause code w.level lanes applied deferred
      let s := withdrawScrum (acquireFor s (agentOf w)) id
      match takingLevel s w code with
      | none => haltWeft (unhandled s w epc.toNat tval cause) id
      | some l =>
        leaveUnit b <| updWeft s id fun w =>
          let w := setTrapRegs w l { trapRegs w l with epc := epc, cause := cause, tval := BitVec.ofNat 64 tval }
          let w := { w with
            active := tset w.active l ⟨b.mask, w.level, b.pc, keptHold b.hold⟩
            level := l
            shX := w.latX
            shY := w.latY
            window := [] }
          updSub w lane fun b => { b with pc := vectorOf s w l, park := none, hold := .none }

/-- The end of a unit in a fault or a trap: inside a region the region aborts and only a trap is delivered
(R246); TRANSLATION saves the panel (R407); a violation freezes the partition (R416). -/
def deliver (s : State) (c : Cur) (isTrap : Bool) (code tval : Nat) (lanes : Mask) (applied deferred : Bool) : State :=
  match getWeft s c.w with
  | none => s
  | some w =>
    let next := c.pc + BitVec.ofNat 64 (8 * c.words)
    match w.region with
    | some r =>
      let s := abortRegion s c.w 5 (code % 256) 0
      if isTrap then takeTrap s c.w c.lane code tval lanes applied deferred r.target
      else if code = cTranslation then
        updPanel (stopPanel s w.key) w.key fun p => { p with saveVa := some (tval, w.id.core, lanes) }
      else if code = cViolation ∧ w.level = 1 then violate (haltWeft s c.w) w.key.part w.id.core tval
      else s
    | none =>
      if code = cTranslation then updPanel (stopPanel s w.key) w.key fun p => { p with saveVa := some (tval, w.id.core, lanes) }
      else if code = cViolation ∧ w.level = 1 then violate (haltWeft s c.w) w.key.part w.id.core tval
      else takeTrap s c.w c.lane (code % 256) tval lanes applied deferred (if isTrap then next else c.pc)

/-! ### Returning (R286) -/

/-- The sub-weft that a handler's mask holds goes on at an address, and every other sub-weft is released. -/
def resumeAt (w : Weft) (lane : Nat) (pc : Word64) (h : Hold) : Weft :=
  updSub { w with latX := w.shX, latY := w.shY, window := [] } lane
    fun b => { b with pc := pc, park := none, hold := h }

/-- The effect of TRET at level l, whose trap is active. -/
def returnTrap (s : State) (id : WId) (lane l : Nat) : State :=
  match getWeft s id with
  | none => s
  | some w =>
    match tget w.active l with
    | none => s
    | some a =>
      let s := acquireFor s (agentOf w)
      updWeft s id fun w =>
        let pc := (trapRegs w l).epc
        resumeAt { w with active := tdel w.active l, level := a.before } lane pc (if pc = a.at_ then a.hold else .none)

/-- The effect of UIRET, with a handler active. -/
def returnUi (s : State) (id : WId) (lane : Nat) : State :=
  match getWeft s id with
  | none => s
  | some w =>
    let s := acquireFor s (agentOf w)
    updWeft s id fun w => resumeAt { setUi w false true with uiHold := .none } lane w.uiret w.uiHold

/-! ### User interrupts (R406) -/

/-- Whether a user interrupt is due for a weft at its next boundary. -/
def uiDue (w : Weft) : Bool := uiEn w && !uiAct w && w.uistat &&& w.uimask != 0 && w.active.isEmpty

/-- The delivery of a user interrupt to a sub-weft that stands at a boundary: an open region aborts, an arrival at a
scrum latch is withdrawn, and the sub-weft goes on at the handler. -/
def takeUi (s : State) (id : WId) (lane : Nat) : State :=
  let s := withdrawScrum (abortRegion s id 5 0 0) id
  match getWeft s id with
  | none => s
  | some w =>
    match subAt w lane with
    | none => s
    | some b =>
      let s := acquireFor s (agentOf w)
      leaveUnit b <| updWeft s id fun w =>
        let w := { w with uiret := b.pc, uimaskHeld := b.mask, uiHold := keptHold b.hold, shX := w.latX, shY := w.latY,
                          window := [] }
        let w := setUi w true (uiEn w)
        updSub w lane fun b => { b with pc := 8 * BitVec.ofNat 64 (field w.uivec.toNat 56 3), park := none, hold := .none }

/-! ### Channels, bindings and retirement (R73, R259, R260) -/

/-- A channel of a panel. -/
def getChan (p : Panel) (n : Nat) : Channel := tgetD p.chans n ⟨[], false, 0⟩

/-- The panel with a function applied to a channel. -/
def updChan (n : Nat) (f : Channel → Channel) (p : Panel) : Panel := { p with chans := tset p.chans n (f (getChan p n)) }

/-- A symbolic access ends in a fault that waits for its weft's next boundary (R93). -/
def failSym (s : State) (a : SymAcc) (code tval : Nat) (lanes : Mask) : State :=
  let note (w : Weft) : Weft :=
    if w.key = a.key ∧ w.num = a.num then { w with symFaults := w.symFaults ++ [(a.slot, code, tval, lanes, a.va0)] }
    else w
  { s with
    symAccs := s.symAccs.erase a
    wefts := s.wefts.map note
    saved := s.saved.map fun v => { v with wefts := v.wefts.map note }
    fetches := s.fetches.filter fun f => f.who != .symbol a.key a.num a.slot }

/-- A channel is closed (R260): every parked pop is issued again, and symbolic pops without an entry end in
CHANNEL_CLOSED (R93). -/
def closeChan (s : State) (k : PKey) (n : Nat) : State :=
  let s := wakeFor (updPanel s k (updChan n fun c => { c with closed := true })) .queue fun w _ x =>
    w.key == k && (x == .entry n || x == .room n)
  (s.symAccs.filter fun a => a.key == k && a.queue == some n && a.value.isNone).foldl
    (fun s a => failSym s a cChannelClosed n 0) s

/-- A binding ends: a producer end lowers the producer count, and closes the channel at 0 (R260). -/
def unbind (s : State) (id : WId) (q : Nat) : State :=
  match getWeft s id with
  | none => s
  | some w =>
    match tget w.binds q with
    | none => s
    | some b =>
      let s := updWeft s id fun w => { w with binds := tdel w.binds q }
      if b.kind = 4 then
        match getPanel s w.key with
        | none => s
        | some p =>
          let c := getChan p b.obj
          let s := updPanel s w.key fun p =>
            { p with chans := tset p.chans b.obj { getChan p b.obj with producers := c.producers - 1 } }
          if c.producers = 1 then closeChan s w.key b.obj else s
      else s

/-- A scrum entry is broken: every waiting member faults SCRUM (R263). -/
def breakScrum (s : State) (k : PKey) (e : Nat) : State :=
  let s := updPanel s k fun p =>
    { p with broken := if p.broken.contains e then p.broken else e :: p.broken,
             latches := p.latches.filter fun l => l.entry ≠ e }
  { s with
    waiting := []
    wefts := s.wefts.map fun w =>
      if w.key = k then
        wokeAt s.tick w (w.subs.map fun b =>
          if b.hold = .scrum e then { b with park := none, hold := .scrumFault cScrum } else b)
      else w }

/-- Whether a weft is a member of a scrum, and of which entry (R262). -/
def scrumOf (w : Weft) : Option Nat := if bitOf w.scrum.toNat 20 then some (field w.scrum.toNat 19 16) else none

/-- A panel none of whose wefts, filed threads or commands remain ends (R73). -/
def endPanel (s : State) (k : PKey) : State :=
  if (s.wefts.any fun w => w.key == k) || (s.cores.any fun c => c.bins.any fun b => b.key == k) ||
      (s.cores.any fun c => c.cmds.any fun x => x.key == k) then s
  else { s with panels := s.panels.filter fun p => p.key ≠ k }

/-- The retirement of the last weft missing from a `tdeq.panel` completes the rendezvous of the others (R275). -/
def endRendezvous (s : State) (k : PKey) : State :=
  let stands (w : Weft) : Bool := w.subs.any fun b => match b.hold with | .deqPanel _ _ _ => true | _ => false
  if (weftsOf s k).all stands then
    wakeFor s .task fun w _ x => w.key == k && match x with | .deqAll _ => true | _ => false
  else s

/-- A weft whose threads have all exited or been filed frees its slot (R66, R73, R74). -/
def freeWeft (s : State) (id : WId) : State :=
  match getWeft s id with
  | none => s
  | some w =>
    let s := w.binds.foldl (fun s b => unbind s id b.1) s
    let s := match scrumOf w with | some e => breakScrum s w.key e | none => s
    let s := { s with
      wefts := s.wefts.filter fun x => x.id ≠ id
      landings := s.landings.filter fun l => l.w ≠ id
      symAccs := s.symAccs.filter fun a => !(a.key == w.key && a.num == w.num)
      fetches := s.fetches.filter fun f => !(match f.unit with | some u => u.1 == id | none => false) &&
        !(match f.who with | .symbol k n _ => k == w.key && n == w.num | _ => false)
      parts := s.parts.map fun e => (e.1, { e.2 with deqs := e.2.deqs.filter fun d => d.w ≠ id }) }
    let gone (a : AgentId) : Bool := agentPanel w.key a && !agentLives s a
    let s := { s with
      snaps := s.snaps.filter fun x => !gone x.agent
      erred := s.erred.filter fun x => !gone x.agent
      postedW := s.postedW.map fun x => if x.owner.any gone then { x with owner := none } else x }
    wakeLines (endRendezvous s w.key)

end Sys2Proof.Machine
end

