-- ==== Sys2Proof/Machine/Packets.lean ====
section
/-!
DEFINITION. Packets of the fabric (R383 to R391, R394): where a window address leads, the fabric MMU, job tags,
injection and credits, and lines asked for at a peer.
-/
namespace Sys2Proof.Machine

/-! ### The fabric MMU (R386) -/

/-- The frame address, the class and the partition of an admitted access; none for a refused one. -/
def mmuFrame (s : State) (off src : Nat) (write : Bool) : Option (Nat × Nat × Nat) :=
  let k := off / 2 ^ 21
  if k ≥ s.tables.mmuEntries then none
  else
    let e := physNum s (s.tables.fabricMmu + 16 * k) 16
    let pa := field e 51 21 * 2 ^ 21 + off % 2 ^ 21
    let clean := field e 127 76 == 0 && field e 63 52 == 0 && field e 20 11 == 0
    let ok := bitOf e 0 && clean && field e 10 9 != 3 && (field e 75 64 == 0xFFF || field e 75 64 == src) &&
      (if write then bitOf e 2 else bitOf e 1) && (tierOf pa == 1 || tierOf pa == 2)
    if ok then some (pa, field e 10 9, field e 8 3) else none

/-- Where a physical address leads: memory of this package, a peer, or a refusal (R385, R387, R390). -/
inductive Place
  | here (pa : Nat)
  | peer (target off : Nat)
  | refused (faddr : Nat)
  deriving DecidableEq, Repr

/-- The place of a frame's address. A packet for the package's own number needs no route (R387, R390). -/
def framePlace (s : State) (pa : Nat) : Place :=
  if tierOf pa ≠ 3 then .here pa
  else
    let (t, off) := fabricOf s pa
    if t ≠ s.pkgid.toNat ∧ tgetD s.routes t 0 = 0 then .refused (t * 2 ^ 48 + off) else .peer t off

/-- The place of an access, after moves (R362). -/
def placeOf (s : State) (pa : Nat) : Place := framePlace s (redirect s pa)

/-- The physical address at which an access finds its bytes in this package, after moves: for a peer's line the window
address. -/
def localPa (s : State) (pa : Nat) : Nat := redirect s pa

/-! ### Job tags (R394) -/

/-- The address of a job's table entry. -/
def jobEntry (s : State) (job : Nat) : Nat := s.tables.jobs + 64 * job

/-- The PARTS field of a job's entry. -/
def jobParts (s : State) (job : Nat) : Nat := physNum s (jobEntry s job) 8

/-- The job whose entry marks a partition; 0 for none. -/
def jobTag (s : State) (part : Option Nat) : Nat :=
  match part with
  | none => 0
  | some p =>
    if s.tables.jobs = 0 then 0
    else (((List.range 4096).drop 1).find? fun j => bitOf (jobParts s j) p).getD 0

/-- Whether injection of a job's packets is frozen (R395 step 2). -/
def frozenTag (s : State) (tag : Nat) : Bool := tag != 0 && s.substs.any fun x => x.job == tag && decide (1 ≤ x.stage) && decide (x.stage ≤ 3)

/-! ### Injection (R383, R387, R388, R390) -/

/-- The incarnation recorded for a package (R388); its own for this one. -/
def recordedInc (s : State) (t : Nat) : Word32 := if t = s.pkgid.toNat then s.incarn else tgetD s.peers t 0

/-- A packet for a target, with the next injection number. -/
def makePacket (s : State) (target off bytes : Nat) (op : PktOp) (vc : Nat) (part : Option Nat) : Packet × State :=
  (⟨BitVec.ofNat 12 target, s.pkgid, off, bytes, op, s.incarn, recordedInc s target, jobTag s part, s.seq, vc⟩,
   { s with seq := s.seq + 1 })

/-- The bytes of an atomic's location, by its operation and MOD (R230). -/
def atomWidth (op mod : Nat) : Nat := if op ≥ 10 then ((Fmt.ofCode mod).getD .f32).width / 8 else memBytes mod

/-- The bytes that a packet reads or writes at its target, where its operation tells. -/
def opLen : PktOp → Nat
  | .write d => d.length
  | .atom op mod _ => atomWidth op mod
  | .cas wide _ _ => if wide then 8 else 4
  | .red op mod _ _ => atomWidth op mod
  | .aon ws => ws.foldl (fun n e => n + e.2.length) 8
  | _ => 0

/-- Whether a request is for an atomic, and not for a line. -/
def asksAtom (r : OutReq) : Bool := r.op != .read

/-- The payload bytes of a packet. -/
def payload : PktOp → List Byte
  | .read | .own => []
  | .write d => d
  | .atom _ _ v => toBytes 8 v.toNat
  | .cas _ v w => toBytes 8 v.toNat ++ toBytes 8 w.toNat
  | .red _ _ v _ => toBytes 8 v.toNat
  | .aon ws => ws.flatMap (·.2)
  | .msg _ _ d _ => d

/-- The ports of a target's route mask. -/
def portsTo (s : State) (target : Nat) : List Nat :=
  (List.range 16).filter fun p => bitOf (tgetD s.routes target 0) p

/-- The credits of a port on a virtual channel. -/
def creditsOf (s : State) (port vc : Nat) : Nat :=
  match s.ports.find? fun p => p.num == port with
  | some p => tgetD p.credits vc 0
  | none => 0

/-- The state with a function applied to a port. -/
def updPort (s : State) (port : Nat) (f : Port → Port) : State :=
  { s with ports := s.ports.map fun p => if p.num = port then f p else p }

/-- A packet leaves by a port: one credit less, and the packet is on its way (Reply kind 2). -/
def leavePort (s : State) (port : Nat) (p : Packet) : State :=
  let s := updPort s port fun x => { x with credits := tset x.credits p.vc (tgetD x.credits p.vc 0 - 1) }
  { s with outbox := s.outbox ++ [⟨some (4096 + p.target.toNat), 2, payload p.op⟩] }

/-- A unicast packet is injected: it leaves by a port with credit, or waits in a buffer. One for the package itself is
delivered by the package switch as one that has arrived by port 0 (R390). -/
def injectPacket (s : State) (p : Packet) : State :=
  if frozenTag s p.tag then { s with buffers := s.buffers ++ [⟨none, p⟩] }
  else if p.target = s.pkgid then { s with atPorts := s.atPorts ++ [.fabricMemoryAccess 0 p] }
  else
    let ports := portsTo s p.target.toNat
    match ports.find? fun n => decide (creditsOf s n p.vc > 0) with
    | some n => leavePort s n p
    | none => { s with buffers := s.buffers ++ [⟨ports.head?, p⟩] }

/-- A fabric refusal's error record at the source (R387, KIND 7). CODE and LANES are those of the fault, where the access
has one. -/
def refusalRecord (s : State) (part : Option Nat) (code lanes agent va faddr : Nat) : State :=
  errRecord s part 7 code lanes agent 0 va faddr

/-! ### Posted writes (R331) -/

/-- The bytes that a posted write leaves at window addresses here while it has not left. -/
def postBytes (w : PostedWrite) : List (Nat × List Byte) :=
  match w.op with
  | .write d => [(w.line * 128 + w.offset % 128, d)]
  | _ => w.also

/-- The lines of a posted write or reduction. -/
def postLines (w : PostedWrite) : List Nat := w.line :: w.also.map fun e => e.1 / 128

/-- Whether a load or an atomic of a peer's line is on its way. -/
def readsOut (s : State) (line : Nat) : Bool :=
  (s.outReqs.any fun r => r.pa / 128 == line) || s.fetches.any fun f => !f.done && f.pa / 128 == line

/-- Whether a posted write or reduction to a line is unacknowledged. A load or an atomic of the line waits for it, so that it
follows the stores before it (R308, R311, R337). -/
def postsOut (s : State) (line : Nat) : Bool := s.postedW.any fun w => (postLines w).contains line

/-- Posted writes leave in order: one waits while an earlier one to a line of it is unacknowledged, or a load or an atomic
issued before it has no answer yet. -/
def sendPosts (s : State) : State :=
  (List.range s.postedW.length).foldl (fun s i =>
    match s.postedW[i]? with
    | none => s
    | some w =>
      let before := s.postedW.take i
      let free (l : Nat) : Bool := !readsOut s l && !before.any fun x => (postLines x).contains l
      if w.sent || !(postLines w).all free then s
      else
        let s := { s with postedW := s.postedW.map fun y => if y.id = w.id then { y with sent := true } else y }
        let (p, s) := makePacket s w.target w.offset (opLen w.op) w.op 1 (if w.part < 64 then some w.part else none)
        injectPacket s p) s

/-- A posted write or reduction of an agent to a peer, with its number. -/
def postAt (s : State) (core : Nat) (cmd : Option Nat) (owner : Option AgentId) (part : Option Nat) (target off pa : Nat)
    (op : PktOp) (also : List (Nat × List Byte) := []) : Nat × State :=
  let (id, s) := freshId s
  (id, sendPosts { s with postedW := s.postedW ++
    [⟨id, pa / 128, target, off, op, false, partNum ⟨part, 0⟩, core, cmd, owner, also⟩] })

/-- The bytes of posted writes that have not left stand over a line that has come from its peer. -/
def overlayPosts (s : State) (line : Nat) : State :=
  ((s.postedW.filter fun w => !w.sent).flatMap postBytes).foldl
    (fun s e => if e.1 / 128 = line then writePhys s e.1 e.2 else s) s

/-! ### Lines asked for at a peer (R385) -/

/-- Whether a fetch is of a virtual line, where one is asked for: the instruction caches hold lines by virtual tag (R354). -/
def ofLine (f : Fetch) (va : Option Nat) : Bool := va.all fun a => f.va / 128 == a / 128

/-- Whether the line of a window address has arrived for a fetcher. -/
def fetched (s : State) (who : Fetcher) (pa : Nat) (va : Option Nat := none) : Bool :=
  s.fetches.any fun f => f.who == who && f.pa == localPa s pa / 128 * 128 && f.op == .read && f.done && ofLine f va

/-- Room for a line in a core's instruction cache, which holds 1,024 (R15): the oldest that has arrived leaves it. -/
def roomCode (s : State) : Fetcher → State
  | .code core _ =>
    let mine := s.fetches.filter fun f => f.done && match f.who with | .code c _ => c == core | _ => false
    match mine with
    | f :: _ => if mine.length < 1024 then s else { s with fetches := s.fetches.filter fun g => g.id ≠ f.id }
    | [] => s
  | _ => s

/-- A fetcher asks for the line of a window address, once and after every posted write to it. -/
def askLine (who : Fetcher) (unit : Option (WId × Nat)) (part : Option Nat) (s : State) (va pa : Nat) : State :=
  let tag : Option Nat := match who with | .code _ _ => some va | _ => none
  match placeOf s pa with
  | .peer t off =>
    let pa := localPa s pa
    if postsOut s (pa / 128) || s.fetches.any fun f => f.who == who && f.pa == pa / 128 * 128 && f.op == .read && ofLine f tag then s
    else
      let (id, s) := freshId (roomCode s who)
      let (p, s) := makePacket s t (off / 128 * 128) 128 .read 0 part
      injectPacket { s with fetches := s.fetches ++ [⟨id, who, t, off / 128 * 128, pa / 128 * 128, unit, va, part, .read, 0, false, false⟩] } p
  | _ => s

/-- A fetcher asks for an atomic at a peer, after every posted write to its line. -/
def askAtomic (who : Fetcher) (part : Option Nat) (s : State) (va pa : Nat) (op : PktOp) : State :=
  match placeOf s pa with
  | .peer t off =>
    let pa := localPa s pa
    if postsOut s (pa / 128) then s
    else
      let (id, s) := freshId s
      let (p, s) := makePacket s t off (opLen op) op 0 part
      injectPacket { s with fetches := s.fetches ++ [⟨id, who, t, off, pa, none, va, part, op, 0, false, false⟩] } p
  | _ => s

/-- The lines of a fetcher have served. -/
def dropFetches (s : State) (who : Fetcher) : State := sendPosts { s with fetches := s.fetches.filter fun f => f.who ≠ who }

/-- The package's own port counts a refusal (R387). -/
def countRefusal (s : State) (port : Nat) : State := updPort s port fun p => { p with refusals := p.refusals + 1 }

end Sys2Proof.Machine
end

