-- ==== Sys2Proof/Machine/Frames.lean ====
section
/-!
DEFINITION. Frame stacks and the move log of a partition (R360, R367), and the collapse of a duplicated page (R366).
-/
namespace Sys2Proof.Machine

/-- A partition's block of the migration table. -/
def migBlock (s : State) (part : Nat) : Nat := s.tables.migration + 64 * part

/-- The frame stack of a partition for a tier 1 to 3. -/
def stackOf (s : State) (part tier : Nat) : Nat := physNum s (migBlock s part + 8 * (tier - 1)) 8

/-- Whether a stack's LOCK word is held. -/
def stackLocked (s : State) (stack : Nat) : Bool := physNum s (stack + 8) 4 != 0

/-- A record appended to a partition's move log (R367): its bytes, then HEAD. A log of no capacity takes none. -/
def moveRecord (s : State) (part count cause asid vpage newF oldF : Nat) : State :=
  let log := physNum s (migBlock s part + 24) 8
  let head := physNum s log 4
  let cap := physNum s (log + 4) 4
  if log = 0 ∨ cap = 0 then s
  else
    let r := oldF % 2 ^ 40 + newF % 2 ^ 40 * 2 ^ 40 + vpage % 2 ^ 45 * 2 ^ 80 + asid % 65536 * 2 ^ 160 +
      cause * 2 ^ 184 + count % 65536 * 2 ^ 192
    writeNum (writeNum s (log + 16 + 32 * (head % cap)) 32 r) log 4 (head + 1)

/-- A frame pushed onto the stack of its tier; with the stack full the move log receives it (CAUSE 6). -/
def pushFrame (s : State) (part asid vpage frame : Nat) : State :=
  let stack := stackOf s part (tierOf (frame * 4096))
  let count := physNum s stack 4
  let cap := physNum s (stack + 4) 4
  if count ≥ cap then moveRecord s part 0 6 asid vpage 0 frame
  else writeNum (writeNum s (stack + 16 + 8 * count) 8 (frame * 4096)) stack 4 (count + 1)

/-- The frame at index COUNT − 1 of a stack, popped. -/
def popFrame (s : State) (stack : Nat) : Option (Nat × State) :=
  let count := physNum s stack 4
  if count = 0 then none
  else some (physNum s (stack + 16 + 8 * (count - 1)) 8 / 4096, writeNum s stack 4 (count - 1))

/-- The duplicate of a page, or the duplication of it that is in progress. -/
def dupOf (s : State) (frame : Nat) : Option DupPage :=
  match s.dups.find? fun d => d.frame == frame with
  | some d => some d
  | none => (s.moves.find? fun m => m.dup && m.oldF == frame).map fun m => ⟨m.oldF, m.newF, m.asid, m.vpage, m.part⟩

/-- Whether a write to a page must wait: its duplicate's frame stack is held. -/
def collapseWaits (s : State) (frame : Nat) : Bool :=
  match dupOf s frame with
  | some d => stackLocked s (stackOf s d.part 1)
  | none => false

/-- The collapse of a page's duplicate, before a write is applied (R366): the duplicate's frame goes to its stack and
the log receives the record. A duplication in progress ends with it. -/
def collapsePage (s : State) (frame : Nat) : State :=
  match dupOf s frame with
  | none => s
  | some d =>
    let s := match s.moves.find? fun m => m.dup && m.oldF == frame with
      | some m => writeNum s m.leafPa 8 (setField (physNum s m.leafPa 8) 17 17 0)
      | none => s
    let idle (r : LineRec) : LineRec := if r.home = .mig ∧ r.line / 32 = frame then { r with home := .stb } else r
    let s := { s with
      lines := s.lines.map idle
      dups := s.dups.filter fun x => x.frame ≠ frame
      moves := s.moves.filter fun m => !(m.dup && m.oldF == frame) }
    moveRecord (pushFrame s d.part d.asid d.vpage d.copy) d.part 0 5 d.asid d.vpage d.copy frame

end Sys2Proof.Machine
end

