-- ==== Sys2Proof/Machine/Operands.lean ====
section
/-!
DEFINITION. Reading and writing operands (R76 to R86, R109 to R112, R123 to R125): registers with their shapes
and latches, predicates, special registers, immediates, queue registers, and the stall window.
-/
namespace Sys2Proof.Machine

/-- How a unit stops before it has any effect. late is a fault that an earlier instruction left (R382); xlate
parks the sub-weft while its front walks for an address (R222); away waits for lines of a peer, each with its virtual and
its window address. A park names what it waits for. -/
inductive Stop
  | fault (code tval : Nat) (lanes : Mask)
  | late (code tval : Nat) (lanes : Mask) (applied : Bool)
  | trap (code tval : Nat)
  | park (r : Park) (k : Wait := .any)
  | xlate (va : Nat) (write : Bool)
  | away (who : Fetcher) (l : List (Nat × Nat))
  | wait
  deriving DecidableEq, Repr

/-- A value, or the reason why the unit stops. -/
abbrev R (α : Type) := Except Stop α

/-- A fault with no address. -/
def oops {α : Type} (code : Nat) : R α := .error (.fault code noTval 0)

/-- The unit that executes: the state, its weft, panel and sub-weft, its fields, the active lanes, whether it is
scalar, the prefix words before it, and the entries popped for its queue sources. -/
structure Ctx where
  s : State
  c : Cur
  w : Weft
  p : Panel
  b : Sub
  f : Fields
  m : Mnem
  act : Mask
  scalar : Bool
  pre : Nat
  pops : List (Fld × List Word32)
  deriving DecidableEq, Repr

/-! ### Values of registers -/

/-- Lane l of a list of lanes. -/
def lane (xs : List Word32) (l : Nat) : Word32 := xs.getD l 0

/-- The lanes of a known register. -/
def regLanes : VReg → List Word32
  | .val _ xs => xs
  | _ => []

/-- Whether a register holds a symbol. -/
def isSym : VReg → Bool
  | .val _ _ => false
  | _ => true

/-- Sixteen lanes. -/
def full16 (xs : List Word32) : List Word32 := lanes16.map fun l => lane xs l

/-- The shape of sixteen lanes (R85). -/
def shapeOf (xs : List Word32) : Shape :=
  let x0 := lane xs 0
  let st := lane xs 1 - x0
  if lanes16.all fun l => lane xs l == x0 then .u
  else if lanes16.all fun l => lane xs l == x0 + BitVec.ofNat 32 l * st then .a
  else .g

/-- A known register with its shape (R85). -/
def mkReg (xs : List Word32) : VReg := .val (shapeOf xs) (full16 xs)

/-- The content of a register of the window (R123). -/
def regNow (w : Weft) : RegId → VReg
  | .v n => tgetD w.vregs n (.val .u [])
  | .s n => .val .u [tgetD w.sregs n 0]
  | .o n => .val .g (tgetD w.oregs n [])
  | .lat y => .val .g (if y then w.latY else w.latX)
  | .p n => .val .u [if n = 7 then 0xFFFF else ((nth w.preds n 0).setWidth 32)]

/-- The seven predicates that a weft writes. -/
def sevenPreds (l : List Mask) : List Mask := l ++ List.replicate (7 - l.length) 0

/-- The weft with a register's content replaced. -/
def setReg (w : Weft) (r : RegId) (x : VReg) : Weft :=
  match r with
  | .v n => { w with vregs := tset w.vregs n x }
  | .s n => { w with sregs := tset w.sregs n (lane (regLanes x) 0) }
  | .o n => { w with oregs := tset w.oregs n (regLanes x) }
  | .lat y => if y then { w with latY := regLanes x } else { w with latX := regLanes x }
  | .p n => if n = 7 then w else { w with preds := setNth (sevenPreds w.preds) n ((lane (regLanes x) 0).setWidth 16) }

/-- Whether a register keeps one value for each lane. -/
def perLane : RegId → Bool
  | .v _ | .o _ | .lat _ => true
  | _ => false

/-- Whether an outstanding interlocked result is aimed at a register (R125). -/
def outstanding (s : State) (w : Weft) (r : RegId) (use : Mask) : Bool :=
  s.landings.any fun l =>
    l.w == w.id && (l.lanes &&& use != 0 || !perLane r) &&
    (match l.d, r with
     | .v n, .v k => k == n.val || (l.wide && k == n.val + 1)
     | .s n, .s k => k == n.val || (l.wide && k == n.val + 1)
     | .o n, .o k => k == n.val
     | .lat, .lat false => true
     | .zero, .lat false => true
     | .v _, .lat false => true
     | .o _, .lat false => true
     | _, _ => false)

/-- The words of the window that a read of some lanes is judged against, newest first, on the path of one lane: those
that wrote the register in a lane that the read uses (R123). -/
def judge (w : Weft) (r : RegId) (use : Mask) (pathLane : Nat) : List WinEnt :=
  w.window.filter fun e => e.reg == r && e.wrote &&& use != 0 && e.path.getLsbD pathLane

/-- The content that a read returns on the path of one lane (R124): the current one, or that before the undersized
writes. The flag says that the read is undersized: the last word that wrote a lane it uses decides. -/
def walkBack (pre pathLane : Nat) : List WinEnt → VReg → VReg × Bool
  | [], x => (x, false)
  | e :: t, x => if e.el.getD pathLane 0 + pre < e.lat then ((walkBack pre pathLane t e.old).1, true) else (x, false)

/-- Read a register over the lanes that the read uses, for a sub-weft (R123 to R125). -/
def readReg (s : State) (w : Weft) (b : Sub) (pre : Nat) (r : RegId) (use : Mask) : R VReg :=
  if outstanding s w r use then .error .wait
  else
    let now := regNow w r
    if w.window.isEmpty then .ok now
    else
      let pl (l : Nat) := if perLane r && b.mask.getLsbD l then l else lowest b.mask
      let got := (lanesOf use).map fun l => (l, walkBack pre (pl l) (judge w r use (pl l)) now)
      if got.all fun x => !x.2.2 then .ok now
      else if chk w then .error (.fault cStallShort noTval 0)
      else
        match got.find? fun x => isSym x.2.1 with
        | some x => .ok x.2.1
        | none =>
          if perLane r then
            .ok (mkReg (lanes16.map fun l =>
              match got.find? fun x => x.1 == l with
              | some x => lane (regLanes x.2.1) l
              | none => lane (regLanes now) l))
          else match got with
            | x :: _ => .ok x.2.1
            | [] => .ok now

/-- A use of a symbol that cannot be deferred waits for its slot (R91). -/
def slotPark {α : Type} : VReg → R α
  | .sym v | .symHi v => .error (.park .symbol (.slot v.slot))
  | .val _ _ => .error (.park .symbol)

/-- The lanes of a register, where a symbolic one is a use that cannot be deferred (R91). -/
def readLanes (s : State) (w : Weft) (b : Sub) (pre : Nat) (r : RegId) (use : Mask) : R (List Word32) := do
  match ← readReg s w b pre r use with
  | .val _ xs => .ok xs
  | x => slotPark x

/-- The bits of a predicate register (R80). -/
def readPred (_s : State) (w : Weft) (b : Sub) (pre n : Nat) : R Mask := do
  if n = 7 then .ok 0xFFFF
  else
    -- a predicate is one register of sixteen bits, judged on the path of each lane
    let now := nth w.preds n 0
    let got ← (lanesOf b.mask).mapM fun l =>
      let (x, u) := walkBack pre l (judge w (.p n) b.mask l) (regNow w (.p n))
      if u && chk w then .error (.fault cStallShort noTval 0)
      else (.ok (l, (lane (regLanes x) 0).getLsbD l) : R (Nat × Bool))
    .ok (maskOf ((lanes16.filter fun l =>
      match got.find? fun x => x.1 == l with
      | some x => x.2
      | none => now.getLsbD l)))

/-! ### Special registers (R82 to R84) -/

/-- Whether a chain with at least one step is pending in the weft (R91). -/
def chainPending (w : Weft) : Bool :=
  w.vregs.any fun x => match x.2 with | .sym v => !v.steps.isEmpty | _ => false

/-- The value of a special register for a lane (R82, R83). -/
def specRead (s : State) (w : Weft) (l : Nat) : SReg → Nat
  | .lane => if isSup w.id.core then 0 else l
  | .tid => nth w.tids l 0
  | .weft => w.num
  | .panel => w.key.num.toNat
  | .core => if isSup w.id.core then w.id.core - 256 else w.id.core
  | .die => dieOf w.id.core
  | .quarter => if isSup w.id.core then 0 else w.quarter
  | .role => w.role
  | .scrum => w.scrum.toNat
  | .task => w.task.toNat
  | .index => w.index.toNat
  | .cycle => (getCore s w.id.core).cycle + (getCore s w.id.core).extra
  | .rlo => w.rlo.toNat
  | .rhi => w.rhi.toNat
  | .rstat => w.rstat.toNat
  | .uivec => w.uivec.toNat
  | .uimask => w.uimask.toNat
  | .uistat => w.uistat.toNat
  | .ctl => w.ctl.toNat
  | .fpst => w.fpst.toNat
  | .symst => (symstOf w).toNat
  | .part => w.key.part.getD 0

/-- A write of a special register under its Access (R6, R84, R406). A write of $symst clears its W1C field FV although Table 1
of R82 calls the register RO (R94, log entry 69). -/
def specWrite (w : Weft) (r : SReg) (v : Word64) : Weft :=
  let v32 : Word32 := v.setWidth 32
  match r with
  | .uivec => { w with uivec := BitVec.ofNat 64 (setField w.uivec.toNat 56 3 (field v.toNat 56 3)) }
  | .uimask => { w with uimask := v32 }
  | .uistat => { w with uistat := w.uistat &&& ~~~v32 }
  | .ctl => { w with ctl := v32 &&& 1 }
  | .fpst => { w with fpst := w.fpst &&& ~~~(v32 &&& 0x7F) }
  | .symst => { w with symstF := w.symstF &&& ~~~(v32 &&& 0x10_0000) }
  | _ => w

/-! ### Immediates (R111) -/

/-- An immediate operand of a field: the bits of its format, or a sign-extended integer. -/
def immValue (m : Mnem) (f : Fields) (fld : Fld) (i : BitVec 8) : Word64 :=
  let r := mnemRow m f.mod.toNat
  let isExt := f.ext.isSome && extField r (some f.a) (some f.b) (some f.c) == some fld
  match immFmt m f fld with
  | none => if isExt then (f.ext.getD 0).signExtend 64 else i.signExtend 64
  | some fm =>
    if isExt then
      let e := f.ext.getD 0
      match fm with
      | .f64 => BitVec.ofNat 64 (widenCode e.toNat)
      | .f16 | .bf16 => (e.setWidth 16).setWidth 64
      | _ => e.setWidth 64
    else
      let x := i.toInt
      if x = 0 then 0 else BitVec.ofNat 64 (cvtifV fm .rne x).1

/-! ### Reading an operand -/

/-- A list of one value for every lane. -/
def splat (v : Word64) : List Word64 := lanes16.map fun _ => v

/-- Two registers' lanes as 64-bit values. -/
def joinLanes (lo hi : List Word32) : List Word64 :=
  lanes16.map fun l => (lane hi l ++ lane lo l : BitVec 64)

/-- One register's lanes as values. -/
def wideLanes (xs : List Word32) : List Word64 := lanes16.map fun l => (lane xs l).setWidth 64

/-- The value of an operand for each lane, over the lanes that the read uses (R109, R110). -/
def readVals (x : Ctx) (fld : Fld) (op : Operand) (wide : Bool) (use : Mask) : R (List Word64) := do
  match op with
  | .zero => .ok (splat 0)
  | .imm i => .ok (splat (immValue x.m x.f fld i))
  | .spec r =>
    if r = .fpst && chainPending x.w then .error (.park .symbol .chains)
    else
      let lo := lowest x.act
      .ok (lanes16.map fun l => BitVec.ofNat 64 (specRead x.s x.w (if x.scalar then lo else l) r))
  | .s n =>
    let a ← readLanes x.s x.w x.b x.pre (.s n.val) use
    if wide then
      let h ← readLanes x.s x.w x.b x.pre (.s (n.val + 1)) use
      .ok (splat (lane h 0 ++ lane a 0 : BitVec 64))
    else .ok (splat ((lane a 0).setWidth 64))
  | .v n =>
    let a ← readLanes x.s x.w x.b x.pre (.v n.val) use
    if wide then
      let h ← readLanes x.s x.w x.b x.pre (.v (n.val + 1)) use
      .ok (joinLanes a h)
    else .ok (wideLanes a)
  | .o n => do
    let a ← readLanes x.s x.w x.b x.pre (.o n.val) use
    .ok (wideLanes a)
  | .lat => do
    let a ← readLanes x.s x.w x.b x.pre (.lat false) use
    .ok (wideLanes a)
  | .p n => do
    let m ← readPred x.s x.w x.b x.pre n.val
    .ok (splat (m.setWidth 64))
  | .q _ | .qnb _ =>
    match x.pops.find? fun e => e.1 == fld with
    | some (_, ws) =>
      if ws.length ≤ 2 then
        .ok (splat (if wide then (lane ws 1 ++ lane ws 0 : BitVec 64) else (lane ws 0).setWidth 64))
      else if wide then .ok (lanes16.map fun l => (lane ws (2 * l + 1) ++ lane ws (2 * l) : BitVec 64))
      else .ok (wideLanes ws)
    | none => .ok (splat 0)

/-- The operand in a field. -/
def opOf (f : Fields) : Fld → Operand
  | .a => f.a
  | .b => f.b
  | .c => f.c

/-- The value of a field for each lane. -/
def rd (x : Ctx) (fld : Fld) (wide : Bool) : R (List Word64) := readVals x fld (opOf x.f fld) wide x.act

/-- The one value of a scalar field: that of the lowest-numbered active lane. -/
def rd1 (x : Ctx) (fld : Fld) (wide : Bool) : R Word64 := do
  let v ← rd x fld wide
  .ok (v.getD (lowest x.act) 0)

/-- The one 32-bit number in a field. -/
def num1 (x : Ctx) (fld : Fld) : R Nat := do
  let v ← rd1 x fld false
  .ok (v.toNat % 2 ^ 32)

/-! ### Line charges (R85, R86) -/

/-- The line charge of a symbolic value (Table 3 of R85). -/
def symCharge (v : SymVal) : Nat :=
  let comp (c : Comp) (n : Nat) : Nat := match c with | .per _ => n | .uni _ => 0
  max 1 (comp v.scale 1 + comp v.offset 1 + v.steps.foldl (fun k t => k + comp t.x (if v.kind = 3 then 2 else 1)) 0)

/-- The line charge of a register: a symbolic pair takes 2 in all (R86). -/
def chargeOf : VReg → Nat
  | .val .g _ => 1
  | .val _ _ => 0
  | .sym v => symCharge v
  | .symHi v => 2 - symCharge v

/-- The vector registers of a weft at which outstanding results are aimed, each once (R86). -/
def aimedAt (s : State) (w : Weft) : List Nat :=
  (s.landings.flatMap fun l =>
    match l.d with
    | .v n => if l.w = w.id then n.val :: (if l.wide then [n.val + 1] else []) else []
    | _ => []).eraseDups

/-- The charge of a weft: its registers, each that an outstanding result will write counted as shape G (R86). -/
def chargeAll (s : State) (w : Weft) : Nat :=
  (w.vregs.map fun e => chargeOf e.2).foldl (· + ·) 0 +
    ((aimedAt s w).map fun n => 1 - chargeOf (tgetD w.vregs n (.val .u []))).foldl (· + ·) 0

/-- The line budget of a weft's role (R51). -/
def lineBudget (p : Panel) (w : Weft) : Nat := if w.role = 0 then p.m.plines else p.m.clines

/-- The scalar budget of a weft's role (R51). -/
def scalarBudget (p : Panel) (w : Weft) : Nat := if w.role = 0 then p.m.psregs else p.m.csregs

/-- SHAPE_OVER for a weft after its writes (R86). -/
def overCharge (s : State) (p : Panel) (before after : Weft) : Bool :=
  chargeAll s after > chargeAll s before && chargeAll s after > lineBudget p before

/-! ### Writing registers -/

/-- The window after a write. An interlocked one is recorded with latency 0, where an earlier fixed-latency one still
stands: no read that it decides is undersized (R125). -/
def winWrite (w : Weft) (b : Sub) (r : RegId) (lanes : Mask) (lat : Option Nat) : List WinEnt :=
  match lat with
  | some l => ⟨r, b.mask, lanes, regNow w r, l, []⟩ :: w.window
  | none =>
    if w.window.any fun e => e.reg == r then ⟨r, b.mask, lanes, regNow w r, 0, []⟩ :: w.window else w.window

/-- A register's content with some lanes replaced. On a supervisor core every lane reads as lane 0 (R424). -/
def mergeLanes (sup : Bool) (lanes : Mask) (vals : List Word32) (old : VReg) : VReg :=
  let new := lanes16.map fun l => if lanes.getLsbD l then lane vals l else lane (regLanes old) l
  mkReg (if sup then lanes16.map (fun _ => lane new 0) else new)

/-- A register written in some lanes. -/
def putReg (w : Weft) (b : Sub) (r : RegId) (lanes : Mask) (vals : List Word32) (lat : Option Nat) : Weft :=
  setReg { w with window := winWrite w b r lanes lat } r (mergeLanes (isSup w.id.core) lanes vals (regNow w r))

/-- A register that an interlocked result reaches: its content, and the contents that the words issued since then have
found there. The window has held the write since its issue. -/
def landReg (w : Weft) (r : RegId) (lanes : Mask) (vals : List Word32) : Weft :=
  let put (old : VReg) : VReg := if isSym old then old else mergeLanes (isSup w.id.core) lanes vals old
  setReg { w with window := w.window.map fun e => if e.reg = r then { e with old := put e.old } else e } r
    (mergeLanes (isSup w.id.core) lanes vals (regNow w r))

/-- The mask of every lane of a weft's registers: lane 0 alone on a supervisor core. -/
def allLanes (w : Weft) : Mask := if isSup w.id.core then 1 else 0xFFFF

/-- A vector register. -/
def vregOf (w : Weft) (n : Nat) : VReg := tgetD w.vregs n (.val .u [])

/-- The vector registers that hold one symbolic value with a register: itself, and the other half of a pair. -/
def symMates (w : Weft) (n : Nat) : List Nat :=
  match vregOf w n with
  | .val _ _ => []
  | .sym v => if v.kind = 1 ∨ v.kind = 3 then [n, n + 1] else [n]
  | .symHi _ => [n - 1, n]

/-- A write of some lanes of registers that leaves a part of a symbol, or of a symbol's pair, standing parks (R91). -/
def cutSym (w : Weft) (ns : List Nat) (lanes : Mask) : R Unit :=
  match ns.find? fun n => isSym (vregOf w n) && (lanes &&& allLanes w != allLanes w || !(symMates w n).all ns.contains) with
  | some n => slotPark (vregOf w n)
  | none => .ok ()

/-- The registers of a vector register operand or pair. -/
def pairRegs (n : Nat) (wide : Bool) : List Nat := if wide then [n, n + 1] else [n]

/-- Low and high halves of values. -/
def lows (vs : List Word64) : List Word32 := vs.map fun v => v.setWidth 32
def highs (vs : List Word64) : List Word32 := vs.map fun v => v.extractLsb' 32 32

/-- Whether an instruction is scalar by its operands (R165). -/
def scalarKind (f : Fields) : Bool :=
  match f.d with
  | .s _ | .spec _ => true
  | .v _ | .o _ | .lat => false
  | _ => !(isVec f.a || isVec f.b || isVec f.c)

/-- Every result register is free of an outstanding interlocked write (R125: writes land in program order). -/
def dstFree (x : Ctx) (rs : List RegId) : R Unit :=
  if rs.any fun r => outstanding x.s x.w r x.act then .error .wait else .ok ()

/-- The weft with a vector register or pair written. -/
def putVec (x : Ctx) (w : Weft) (n : Nat) (wide : Bool) (lanes : Mask) (vs : List Word64) (lat : Option Nat) : Weft :=
  let w := putReg w x.b (.v n) lanes (lows vs) lat
  if wide then putReg w x.b (.v (n + 1)) lanes (highs vs) lat else w

/-- The weft as its line charge counts it when a result is issued: an interlocked result counts as shape G (R86). -/
def countVec (w : Weft) (d : Operand) (wide : Bool) (lat : Option Nat) : Weft :=
  if lat.isSome then w
  else
    match d with
    | .v n =>
      let g (k : Nat) (w : Weft) : Weft := { w with vregs := tset w.vregs k (.val .g []) }
      let c := g n.val w
      if wide then g (n.val + 1) c else c
    | _ => w

/-- The weft with the register of a vector D written: no outstanding write may be aimed at it or at the latch, and a
symbol may not be written in part. -/
def vecDest (x : Ctx) (w : Weft) (d : Operand) (wide : Bool) (lanes : Mask) (vs : List Word64) (lat : Option Nat) :
    R Weft :=
  match d with
  | .v n => do
    dstFree x (.lat false :: .v n.val :: if wide then [.v (n.val + 1)] else [])
    cutSym w (pairRegs n.val wide) lanes
    .ok (putVec x w n.val wide lanes vs lat)
  | .o n => do
    dstFree x [.lat false, .o n.val]
    .ok (putReg w x.b (.o n.val) lanes (lows vs) lat)
  | _ => do
    dstFree x [.lat false]
    .ok w

/-- Write a vector result to D, with its latch, shape and window (R76, R85, R86). -/
def writeVec (x : Ctx) (w : Weft) (d : Operand) (wide : Bool) (lanes : Mask) (vs : List Word64)
    (lat : Option Nat) : R Weft := do
  let w1 ← vecDest x w d wide lanes vs lat
  let w2 := putReg w1 x.b (.lat false) lanes (lows vs) lat
  if overCharge x.s x.p w (countVec w2 d wide lat) then oops cShapeOver else .ok w2

/-- Write a scalar register or pair. -/
def writeScalar (x : Ctx) (w : Weft) (n : Nat) (wide : Bool) (v : Word64) (lat : Option Nat) : R Weft := do
  dstFree x (.s n :: if wide then [.s (n + 1)] else [])
  let w := putReg w x.b (.s n) 0xFFFF [v.setWidth 32] lat
  .ok (if wide then putReg w x.b (.s (n + 1)) 0xFFFF [v.extractLsb' 32 32] lat else w)

/-- Write bits of a predicate: those of some lanes, or all sixteen for a scalar instruction (R80). -/
def writePred (x : Ctx) (w : Weft) (n : Nat) (lanes : Mask) (bits : Mask) (lat : Option Nat) : Weft :=
  if n = 7 then w
  else
    let old := nth w.preds n 0
    let new := (old &&& ~~~lanes) ||| (bits &&& lanes)
    setReg { w with window := winWrite w x.b (.p n) lanes lat } (.p n) (.val .u [new.setWidth 32])

/-! ### Symbols (R88 to R90) -/

/-- The lowest free symbol slot. -/
def freeSlot (w : Weft) : Option Nat :=
  lanes16.find? fun i => match tget w.syms i with | some x => x.state == 0 | none => true

/-- Write a symbolic value to a vector register, or to a pair for a 64-bit kind. The latch is unchanged (R76). -/
def writeSym (x : Ctx) (w : Weft) (n : Nat) (v : SymVal) (lat : Option Nat) : R Weft := do
  let wide := v.kind = 1 ∨ v.kind = 3
  dstFree x ((pairRegs n wide).map .v)
  cutSym w (pairRegs n wide) 0xFFFF
  let put (w : Weft) (k : Nat) (r : VReg) : Weft :=
    setReg { w with window := winWrite w x.b (.v k) 0xFFFF lat } (.v k) r
  let w1 := put w n (.sym v)
  let w1 := if wide then put w1 (n + 1) (.symHi v) else w1
  if overCharge x.s x.p w w1 then oops cShapeOver else .ok w1

/-- A slot allocated for a symbolic access (R88): D becomes 1·x + 0 of the kind. -/
def allocSym (x : Ctx) (w : Weft) (n slot kind : Nat) : R Weft := do
  let w1 ← writeSym x w n ⟨slot, kind, .uni 1, .uni 0, []⟩ none
  .ok { w1 with syms := tset w1.syms slot ⟨1, kind, []⟩ }

/-- The symbolic value that a field names. -/
def symAt (x : Ctx) (fld : Fld) : R (Option SymVal) :=
  match opOf x.f fld with
  | .v n => do
    match ← readReg x.s x.w x.b x.pre (.v n.val) x.act with
    | .sym v => .ok (some v)
    | .symHi v => slotPark (.symHi v)
    | .val _ _ => .ok none
  | _ => .ok none

/-- Whether every lane of the weft is active. -/
def fullAct (x : Ctx) : Bool := x.act &&& allLanes x.w == allLanes x.w

/-- A known operand as a component: uniform where its register is of shape U or it has one value. -/
def knownComp (x : Ctx) (fld : Fld) (wide : Bool) : R Comp := do
  let vs ← rd x fld wide
  let u (n : Nat) : R Bool := do
    match ← readReg x.s x.w x.b x.pre (.v n) x.act with
    | .val .u _ => .ok true
    | _ => .ok false
  match opOf x.f fld with
  | .v n =>
    let a ← u n.val
    let b ← if wide then u (n.val + 1) else .ok true
    .ok (if a && b then .uni (vs.getD 0 0) else .per vs)
  | .o _ | .lat | .spec .lane | .spec .tid => .ok (.per vs)
  | .q _ => .ok (if x.scalar then .uni (vs.getD 0 0) else .per vs)
  | _ => .ok (.uni (vs.getD 0 0))

/-- One lane of a component. -/
def compLane : Comp → Nat → Word64
  | .uni v, _ => v
  | .per vs, l => vs.getD l 0

/-- Two components combined, modulo the width of the kind. -/
def compOp (wide : Bool) (f : Word64 → Word64 → Word64) (a b : Comp) : Comp :=
  let cut (v : Word64) : Word64 := if wide then v else (v.setWidth 32).setWidth 64
  match a, b with
  | .uni x, .uni y => .uni (cut (f x y))
  | _, _ => .per (lanes16.map fun l => cut (f (compLane a l) (compLane b l)))

/-- Whether a component is held per lane. -/
def isPer : Comp → Bool
  | .per _ => true
  | .uni _ => false

/-! ### Queue registers (R81, R177, R259, R260) -/

/-- How many 32-bit words an entry of a format has. -/
def fmtWords : Nat → Nat
  | 0 => 1 | 1 => 2 | 2 => 16 | _ => 32

/-- The symbolic pops of a channel that have no entry yet (R177). -/
def pendingPops (s : State) (k : PKey) (ch : Nat) : Nat :=
  (s.symAccs.filter fun a => a.key == k && a.queue == some ch && a.value.isNone).length

/-- One pop of a channel end: the entry, or why not. `taken` entries of the same channel have gone to earlier
fields of the unit. -/
def popChan (x : Ctx) (ch taken : Nat) : R (List Word32) :=
  let c := getChan x.p ch
  let k := pendingPops x.s x.w.key ch + taken
  match c.entries[k]? with
  | some e => .ok e
  | none => if c.closed then .error (.trap cChannelClosed ch) else .error (.park .queue (.entry ch))

/-- Remove the entry that a pop took. -/
def dropEntry (s : State) (k : PKey) (ch i : Nat) : State :=
  wakeIn (updPanel s k (updChan ch fun c => { c with entries := c.entries.eraseIdx i })) k .queue (.room ch)

/-- The lanes of a vector entry as values. -/
def entryLanes (e : List Word32) : List Word64 :=
  if e.length ≤ 16 then wideLanes e else lanes16.map fun l => (lane e (2 * l + 1) ++ lane e (2 * l) : BitVec 64)

/-- Append an entry to a channel. The oldest symbolic pop that waits for one takes it (R177). -/
def pushEntry (s : State) (k : PKey) (ch : Nat) (e : List Word32) : State :=
  if pendingPops s k ch > 0 then
    let waits (a : SymAcc) : Bool := a.key == k && a.queue == some ch && a.value.isNone
    let give (a : SymAcc) : SymAcc := { a with value := some (entryLanes e) }
    progress { s with symAccs := updFirst waits give s.symAccs }
  else
    wakeIn (updPanel s k (updChan ch fun c => { c with entries := c.entries ++ [e] })) k .queue (.entry ch)

/-- Whether a push to a channel can be made now (R260). -/
def canPush (x : Ctx) (ch : Nat) : R Unit :=
  let c := getChan x.p ch
  if c.closed then .error (.trap cChannelClosed ch)
  else if c.entries.length ≥ 64 then .error (.park .queue (.room ch))
  else .ok ()

/-- Whether a source field is 64 bits wide, as its description says. -/
def popWide (x : Ctx) (fld : Fld) : Bool :=
  let r := mnemRow x.m x.f.mod.toNat
  match (match fld with | .a => r.a | .b => r.b | .c => r.c) with
  | .opd _ w => pairWidth x.m x.f w
  | _ => false

/-- How many entries of a channel the fields before have popped. -/
def takenOf (x : Ctx) (obj : Nat) : Nat :=
  (x.pops.filter fun e =>
    match opOf x.f e.1 with
    | .q k => (tget x.w.binds k.val).map (·.obj) == some obj
    | _ => false).length

/-- The entries that the unit has popped already, before it waited for a peer. -/
def poppedOf (x : Ctx) : List Popped := x.w.popped.filter fun e => e.lane == x.c.lane && e.pc == x.c.pc

/-- A source that names a queue register pops it, after the sources before it. -/
def popSource (acc : R Ctx) (fld : Fld) : R Ctx := do
  let x ← acc
  match opOf x.f fld, (poppedOf x).find? fun e => e.fld == fld with
  | .q _, some e => .ok { x with pops := x.pops ++ [(fld, e.words)] }
  | .q n, none =>
    match tget x.w.binds n.val with
    | none => oops cIllegalOperand
    | some b =>
      if b.kind != 5 || (decide (b.fmt ≥ 2) && x.scalar) || (b.fmt % 2 == 1) != popWide x fld then oops cIllegalOperand
      else
        let e ← popChan x b.obj (takenOf x b.obj)
        .ok { x with pops := x.pops ++ [(fld, e)] }
  | _, _ => .ok x

/-- The sources of an instruction other than MOV that name queue registers pop in the order A, B, C (R81). -/
def popSources (x : Ctx) : R Ctx := [Fld.a, Fld.b, Fld.c].foldl popSource (.ok x)

/-- The state after one pop of a unit. -/
def popOne (x : Ctx) (s : State) (e : Fld × List Word32) : State :=
  match opOf x.f e.1 with
  | .q n =>
    match tget x.w.binds n.val with
    | some b => dropEntry s x.w.key b.obj (pendingPops s x.w.key b.obj)
    | none => s
  | _ => s

/-- The state after the pops of a unit. -/
def commitPops (x : Ctx) (s : State) : State := if (poppedOf x).isEmpty then x.pops.foldl (popOne x) s else s

/-- The pops of a unit that goes on to wait for a peer: the entries are taken, and kept for its next issue. -/
def keepPops (x : Ctx) (s : State) : State :=
  updWeft (commitPops x s) x.w.id fun w =>
    { w with popped := w.popped ++ if (poppedOf x).isEmpty then x.pops.map fun e => ⟨x.c.lane, x.c.pc, e.1, e.2⟩ else [] }

/-- The channel to which D pushes, when D names a queue register (R81). -/
def pushTarget (x : Ctx) (wide : Bool) : R (Option Nat) :=
  match x.f.d with
  | .q n =>
    match tget x.w.binds n.val with
    | none => oops cIllegalOperand
    | some b =>
      if b.kind != 4 || decide (b.fmt ≥ 2) == x.scalar || (b.fmt % 2 == 1) != wide then oops cIllegalOperand
      else do
        canPush x b.obj
        .ok (some b.obj)
  | _ => .ok none

/-- The entry that holds a result: the lanes written hold it and the others 0 (R81). -/
def entryOf (scalar wide : Bool) (lanes : Mask) (vs : List Word64) : List Word32 :=
  let v (l : Nat) : Word64 := if lanes.getLsbD l then vs.getD l 0 else 0
  if scalar then
    let y := vs.getD (lowest lanes) 0
    y.setWidth 32 :: if wide then [y.extractLsb' 32 32] else []
  else if wide then lanes16.flatMap fun l => [(v l).setWidth 32, (v l).extractLsb' 32 32]
  else lanes16.map fun l => (v l).setWidth 32

/-! ### Writing a result (R76, R80, R81, R165) -/

/-- The weft with the result of an instruction written to the registers and the latch that its D names. -/
def writeDest (x : Ctx) (wide : Bool) (vs : List Word64) (lat : Option Nat) : R Weft :=
  let one := vs.getD (lowest x.act) 0
  match x.f.d with
  | .s n => writeScalar x x.w n.val wide one lat
  | .spec r => .ok (specWrite x.w r one)
  | .v _ | .o _ | .lat => writeVec x x.w x.f.d wide x.act vs lat
  | .zero => if x.scalar then .ok x.w else writeVec x x.w .zero wide x.act vs lat
  | _ => .ok x.w

/-- Write the result of an instruction to its D: registers, latch, queue or nothing; `extra` is applied to the
weft in the same step. The operands have been read and the queue sources popped in the context. -/
def writeRes (x : Ctx) (wide : Bool) (vs : List Word64) (lat : Option Nat) (extra : Weft → Weft) : R State := do
  let target ← pushTarget x wide
  let w ← writeDest x wide vs lat
  let s := commitPops x (setWeft x.s (extra w))
  match target with
  | some ch => .ok (pushEntry s x.w.key ch (entryOf x.scalar wide x.act vs))
  | none => .ok s

end Sys2Proof.Machine
end

