-- ==== Sys2Proof/Machine/Unit.lean ====
section
/-!
DEFINITION. How one unit of an issuing sub-weft is carried out: the checks before it executes (R131, R108, R242),
its end as a next word, a transfer, a fault, a trap, a park or a wait (R134), the stall window (R123), reconvergence
(R181), debug matches (R417 to R423) and DSTEP (R296).
-/
namespace Sys2Proof.Machine

/-! ### What a unit's body gives -/

/-- An access that watchpoints compare (R419): scratchpad accesses after placement. -/
structure Touch where
  lane : Nat
  pad : Bool
  core : Nat
  addr : Nat
  bytes : Nat
  rd : Bool
  wr : Bool
  deriving DecidableEq, Repr

/-- How a body ends. After `jumped` the body has set the program counters. -/
inductive Fin
  | next
  | jumped
  | trap (code tval : Nat) (lanes : Mask) (applied : Bool)
  | fault (code tval : Nat) (lanes : Mask) (applied late : Bool)
  | park (r : Park) (k : Wait := .any)
  | wait
  deriving DecidableEq, Repr

/-- The state after a body, its end, and the accesses it made. -/
structure Out where
  s : State
  fin : Fin
  touches : List Touch
  deriving DecidableEq, Repr

/-- A body that ends at the next word. -/
def Out.step (s : State) : R Out := .ok ⟨s, .next, []⟩

/-- How a guard is evaluated (R80, R108): for each lane, once, or as the operands decide (R165). -/
inductive GuardKind
  | lanes | once | auto
  deriving DecidableEq, Repr

/-! ### Scratchpad placement (R95, R96, R424) -/

/-- The least power of two not below a number, from a lower bound. -/
def pow2At (x : Nat) : Nat := if x ≤ 1 then 1 else 2 ^ (Nat.log2 (x - 1) + 1)

/-- The rounded scratchpad allocation of a panel on each of its cores (R95). -/
def padBytes (p : Panel) : Nat := pow2At p.m.scratch

/-- Whether a panel's core set straddles two dies (R48). -/
def straddles (p : Panel) : Bool :=
  match p.cores with
  | a :: t => t.any fun c => dieOf c != dieOf a
  | [] => false

/-- The core and the local byte of a scratchpad offset (Table 7 of R96). -/
def placeOff (p : Panel) (off bytes : Nat) : Nat × Nat :=
  let n := p.cores.length
  let b (i : Nat) : Nat := if bitOf off i then 1 else 0
  let i := if n = 2 then (if straddles p then b 22 else b 20)
    else if n = 4 then (if straddles p then 2 * b 22 + b 20 else 2 * b 21 + b 20)
    else 0
  let a := field off 19 0 % padBytes p
  (nth p.cores i 0, a / bytes * bytes)

/-! ### Divisions and merging (R181) -/

/-- The most recently opened division whose point is an address and that holds some of the threads. -/
def divAt (w : Weft) (pc : Word64) (m : Mask) : Option Division :=
  w.divs.find? fun d => d.point == some pc && d.mask &&& m != 0

/-- Whether a parked sub-weft waits at a JOIN instruction and not at a reconvergence point. -/
def atJoin (w : Weft) (b : Sub) : Bool := b.park == some .join && (divAt w b.pc b.mask).isNone

/-- Whether a sub-weft stands at an address. -/
def standsAt (x : Word64) (b : Sub) : Bool := b.pc == x && (b.park == none || b.park == some .join)

/-- Whether every thread of a division stands at its point or is parked at a JOIN. -/
def joinReady (w : Weft) (d : Division) (x : Word64) : Bool :=
  w.subs.all fun b => b.mask &&& d.mask == 0 || standsAt x b || atJoin w b

/-- Merge the sub-wefts that satisfy a test into one sub-weft at an address. -/
def mergeSubs (w : Weft) (p : Sub → Bool) (pc : Word64) : Weft :=
  let m := (w.subs.filter p).foldl (fun m b => m ||| b.mask) 0
  if m = 0 then w
  else { w with subs := (w.subs.filter fun b => !p b) ++ [⟨pc, m, none, .none⟩] }

/-- A sub-weft about to issue (R181 step 1): it merges at reconvergence points whose threads all stand there, or
parks under JOIN. After a merge the next most recent division counts. The flag says that it may issue. -/
def arrive : Nat → Weft → Nat → Weft × Bool
  | 0, w, _ => (w, true)
  | n + 1, w, lane =>
    match subAt w lane with
    | none => (w, false)
    | some b =>
      match divAt w b.pc b.mask with
      | none => (w, true)
      | some d =>
        if joinReady w d b.pc then
          let w := mergeSubs w (fun x => standsAt b.pc x && x.mask &&& d.mask != 0) b.pc
          arrive n { w with divs := w.divs.erase d } lane
        else (updSub w lane fun x => { x with park := some .join }, false)

/-- Threads leave every division record (R181). -/
def dropThreads (w : Weft) (m : Mask) : Weft :=
  { w with divs := (w.divs.map fun d => { d with mask := d.mask &&& ~~~m }).filter fun d => d.mask != 0 }

/-- The addresses at which sub-wefts stand, each once. -/
def subPcs (w : Weft) : List Word64 := (w.subs.map (·.pc)).eraseDups

/-- A sub-weft that waits under JOIN at a point whose threads have all arrived may issue again (R181 step 1). -/
def freeJoin (w : Weft) (b : Sub) : Sub :=
  match divAt w b.pc b.mask with
  | some d => if b.park == some .join && joinReady w d b.pc then { b with park := none } else b
  | none => b

/-- The waits under JOIN after a change of the sub-wefts: those whose division is complete may issue again, and
when every thread is parked under JOIN each address releases its threads (R181 steps 1 to 3), those at a JOIN there apart from
those that reconverge there (log entry 77). -/
def settle (w : Weft) : Weft :=
  let w1 := { w with subs := w.subs.map (freeJoin w) }
  if !w1.subs.isEmpty && w1.subs.all (fun b => b.park == some .join) then
    let joins := w1.subs.filter fun b => atJoin w1 b
    let points := w1.subs.filter fun b => !atJoin w1 b
    let again (l : List Sub) (x : Word64) : Bool := l.any fun b => b.pc == x && b.hold == .joinBody
    let group (l : List Sub) (k : Word64) : List Sub :=
      (l.map (·.pc)).eraseDups.map fun x =>
        ⟨if again l x then x else x + k, (l.filter fun b => b.pc == x).foldl (fun m b => m ||| b.mask) 0, none,
          if again l x then .joined else .none⟩
    { w1 with subs := group joins 8 ++ group points 0, divs := [] }
  else w1

/-! ### The stall window (R123) -/

/-- The entries of the window after a unit of a sub-weft: those written earlier age by its prefix words and its
stall count, its own by the stall count. An entry whose latency has passed goes when no older one is left. -/
def ageWindow (w : Weft) (m : Mask) (pre n : Nat) : Weft :=
  let aged := w.window.map fun e =>
    { e with el := lanes16.map fun l =>
        let x := e.el.getD l 0
        if m.getLsbD l then x + n + (if e.el.isEmpty then 0 else pre) else x }
  let live := liveMask w
  let keep := aged.foldr (fun e t =>
    let past := (lanesOf (e.path &&& live)).all fun l => e.el.getD l 0 ≥ e.lat
    if past && !(t.any fun x => x.reg == e.reg) then t else e :: t) []
  { w with window := keep }

/-! ### Debug matches (R418 to R423) -/

/-- Debug register i of a panel. -/
def debugReg (p : Panel) (i : Nat) : Nat := (tgetD p.debug i 0).toNat

/-- Whether a thread is selected by a control register (R418). -/
def selects (ctl tid : Nat) : Bool :=
  field ctl 29 16 ≤ tid && tid ≤ field ctl 45 32 && bitOf (field ctl 63 48) (tid % 16)

/-- The active selected lanes of an enabled control register. -/
def selected (w : Weft) (ctl : Nat) (act : Mask) : Mask :=
  if bitOf ctl 0 then maskOf ((lanesOf act).filter fun l => selects ctl (nth w.tids l 0)) else 0

/-- A match: kind 1 to 3, register, address, lanes, and whether it halts. -/
structure Match where
  kind : Nat
  reg : Nat
  addr : Nat
  lanes : Mask
  halt : Bool
  deriving DecidableEq, Repr

/-- The first breakpoint that matches a unit. -/
def breakMatch (p : Panel) (w : Weft) (pc : Word64) (act : Mask) : Option Match :=
  ((List.range 8).map fun k =>
    let ctl := debugReg p (8 + k)
    let m := selected w ctl act
    (if m != 0 && debugReg p k == pc.toNat then some ⟨1, k, debugReg p k, m, bitOf ctl 1⟩ else none :
      Option Match)).findSome? id

/-- The lowest byte of an access inside a watched range. -/
def touched (p : Panel) (base lg : Nat) (t : Touch) : Option Nat :=
  let n := 2 ^ lg
  if bitOf base 63 then
    let (c, a) := placeOff p (field base 31 0) 1
    let lo := a / n * n
    if t.pad && t.core == c && decide (t.addr < lo + n) && decide (lo < t.addr + t.bytes) then
      some (setField (field base 31 0) 19 0 (max lo t.addr))
    else none
  else
    let lo := field base 56 0 / n * n
    if !t.pad && decide (t.addr < lo + n) && decide (lo < t.addr + t.bytes) then some (max lo t.addr) else none

/-- The first watchpoint that matches a unit's accesses. -/
def watchMatch (p : Panel) (w : Weft) (act : Mask) (ts : List Touch) : Option Match :=
  ((List.range 4).map fun k =>
    let ctl := debugReg p (20 + k)
    let m := selected w ctl act
    let hits := ts.filterMap fun t =>
      if m.getLsbD t.lane && ((t.rd && bitOf ctl 2) || (t.wr && bitOf ctl 3)) then
        (touched p (debugReg p (16 + k)) (min 20 (field ctl 12 8)) t).map fun a => (t.lane, a)
      else none
    (match hits with
     | [] => none
     | (_, a) :: t =>
       some ⟨2, k, t.foldl (fun x y => min x y.2) a, maskOf (hits.map (·.1)), bitOf ctl 1⟩ : Option Match)).findSome? id

/-- The step match of a unit. -/
def stepMatch (p : Panel) (w : Weft) (act : Mask) : Option Match :=
  let ctl := debugReg p 24
  let m := selected w ctl act
  if m != 0 then some ⟨3, 0, 0, m, bitOf ctl 1⟩ else none

/-- The one match of a user-level unit that is acted on (R420). -/
def debugMatch (p : Panel) (w : Weft) (pc : Word64) (act : Mask) (ts : List Touch) : Option Match :=
  if w.level ≠ 0 || p.debug == [] then none
  else
    match breakMatch p w pc act with
    | some m => some m
    | none =>
      match watchMatch p w act ts with
      | some m => some m
      | none => stepMatch p w act

/-- The weft handle of R280. -/
def handleOf (w : Weft) : Nat := w.key.part.getD 0 * 2 ^ 42 + w.key.num.toNat * 2 ^ 10 + w.num

/-- The bytes of a mailbox event record (Table 5 of R423). -/
def eventBytes (w : Weft) (next : Nat) (m : Match) : List Byte :=
  toBytes 8 (handleOf w) ++ toBytes 8 next ++ toBytes 8 m.addr ++ toBytes 1 m.kind ++ toBytes 1 m.reg ++
    toBytes 2 m.lanes.toNat ++ zeros 36

/-- An event record written to a partition's mailbox (R422, R423). -/
def putEvent (s : State) (p : Nat) (bytes : List Byte) : Except Nat State :=
  match getPart s p with
  | none => .ok s
  | some pt =>
    let q := pt.desc.mbox
    let asid := pt.desc.asidLo
    match deviceNum s asid (some p) q 4, deviceNum s asid (some p) (q + 4) 4, deviceNum s asid (some p) (q + 8) 4 with
    | .ok head, .ok tail, .ok ovf =>
      if (head + 2 ^ 32 - tail) % 2 ^ 32 < 31 then
        match deviceWrite s asid (some p) (q + 64 + 64 * (head % 31)) bytes with
        | .ok s => deviceWrite s asid (some p) q (toBytes 4 (head + 1))
        | .error e => .error e
      else deviceWrite s asid (some p) (q + 8) (toBytes 4 (min (2 ^ 32 - 1) (ovf + 1)))
    | .error e, _, _ | _, .error e, _ | _, _, .error e => .error e

/-- What a match does after its unit (R420, R421, R423). -/
def applyMatch (s : State) (c : Cur) (m : Match) : State :=
  match getWeft s c.w with
  | none => s
  | some w =>
    let next := c.pc + BitVec.ofNat 64 (8 * c.words)
    if m.halt then
      let s := haltWeft s c.w
      if w.stepping.isSome then s
      else
        match w.key.part with
        | none => s
        | some p =>
          let bytes := eventBytes w next.toNat m
          match putEvent s p bytes with
          | .ok s => s
          | .error _ =>
            match getPart s p with
            | some pt => deferArea s p pt.desc.mbox (.event bytes)
            | none => s
    else
      let code := if m.kind = 1 then cBreak else if m.kind = 2 then cWatch else cStep
      deliver s c true code (if m.kind = 3 then noTval else m.addr) m.lanes false false

/-! ### Translations of a unit's accesses (R220, R222) -/

/-- A walk for an address of a weft, once (R222). -/
def addWalk (s : State) (w : Weft) (p : Panel) (va : Nat) (write : Bool) : State :=
  let k : Walk := ⟨p.asid, w.key.part, va / 4096, write, some w.id, frontAt va⟩
  if s.walks.contains k then s else { s with walks := s.walks ++ [k] }

/-- A read that no front translates hits a cached copy of its line, and is checked against the bits of the translation that
filled it (R354). -/
def hitCheck (s : State) (w : Weft) (p : Panel) (k : AccKind) (scope va : Nat) : Option Xl :=
  if k != .read then none
  else
    (tagFind s w.id.core p.asid w.key.part va).map fun h =>
      if !leafAllows h.2 (w.level = 0) k then .fault cPermission
      else if !scopeOk (leafCC h.2) scope then .fault cScope
      else .ok (h.1 * 128 + va % 128) h.2

/-- The checks of R220 on one address of a sub-weft. A page whose walk has failed gives that fault. -/
def xlCheck (s : State) (w : Weft) (p : Panel) (b : Sub) (k : AccKind) (scope va align : Nat) : Xl :=
  match checkAccess s p.asid w.key.part (w.level = 0) k scope va align with
  | .miss =>
    match hitCheck s w p k scope va, b.hold with
    | some r, _ => r
    | none, .walkFault code v => if v / 4096 = va / 4096 then .fault code else .miss
    | none, _ => .miss
  | r => r

/-! ### The end of a unit -/

/-- The end of a DSTEP step (R296): the weft halts again and its status is kept for the DSTEP that waits. -/
def endStep (s : State) (id : WId) (status : Nat) : State :=
  match getWeft s id with
  | some w =>
    if w.stepping.isSome then
      progress (updWeft (haltWeft s id) id fun w => { w with stepping := none, stepped := some status })
    else s
  | none => s

/-- The status of a step at whose end the sub-weft has parked: 0 where it merges there (R296). -/
def parkStatus (s : State) (id : WId) (lane : Nat) : Nat :=
  match (getWeft s id).bind fun w => subAt w lane with
  | some b => if b.park.isSome then 1 else 0
  | none => 1

/-- The issuing sub-weft with a function applied. -/
def updCur (s : State) (c : Cur) (f : Sub → Sub) : State := updWeft s c.w fun w => updSub w c.lane f

/-- The lanes that CAUSE names: the lowest lane of the sub-weft where a fault names none. -/
def causeLanes (b : Sub) (lanes : Mask) : Mask := if lanes = 0 then laneBit (lowest b.mask) else lanes

/-- The state after a unit. One that would end in an exception while a stall window holds a write of its weft waits, and
nothing of it has happened: trap entry is a release boundary (R306). -/
def finishUnit (s : State) (c : Cur) (w : Weft) (p : Panel) (b : Sub) (stl : BitVec 4) (act : Mask) (r : R Out) :
    State :=
  let clear (t : State) : State := updWeft t c.w fun x =>
    updSub { x with popped := x.popped.filter fun e => !(e.lane == c.lane && e.pc == c.pc) } c.lane fun b => { b with hold := .none, park := none }
  let close (t : State) : State := { updWeft t c.w settle with cur := none }
  let age (t : State) : State := updWeft t c.w fun x => ageWindow x b.mask (c.words - 1) (max stl.toNat 1)
  let next := c.pc + BitVec.ofNat 64 (8 * c.words)
  let advance (t : State) : State := updCur t c fun x => { x with pc := next }
  let parkAt (t : State) (q : Park) (k : Wait) : State :=
    let t := updWeft t c.w fun x => { x with waits := tset x.waits (lowest b.mask) k }
    let t := updWeft (updCur t c fun x => { x with park := some q }) c.w settle
    close (endStep t c.w (parkStatus t c.w c.lane))
  let waits (t : State) : State :=
    close { t with waiting := if t.waiting.contains (c.w, c.lane) then t.waiting else (c.w, c.lane) :: t.waiting }
  let alias_ (t : State) (tval : Nat) (lanes : Mask) : State :=
    match tlbFind t p.asid w.key.part tval with
    | some e => errRecord t w.key.part 5 cAlias lanes.toNat w.id.core 0 tval (paIn e.leaf e.bits tval / 4096 * 4096)
    | none => t
  let entry (t : State) (u : State) : State := if heldWrites t (agentOf w) then waits s else u
  let fail (t : State) (code tval : Nat) (lanes : Mask) (applied late : Bool) : State :=
    entry t <|
    let t := if code = cAlias then alias_ t tval lanes else t
    progress (close (endStep (deliver (clear t) c false code tval (causeLanes b lanes) applied late) c.w 2))
  let trapped (t : State) (code tval : Nat) (lanes : Mask) (applied : Bool) : State :=
    entry t <| progress (close (endStep
      (deliver (age (advance (clear t))) c true code tval (causeLanes b lanes) applied false) c.w 2))
  let ended (t : State) (ts : List Touch) : State :=
    match debugMatch p w c.pc act ts with
    | none => progress (close (endStep t c.w 0))
    | some m => (if m.halt then id else entry t) (progress (close (endStep (applyMatch t c m) c.w (if m.halt then 0 else 2))))
  match r with
  | .error (.park q k) => parkAt s q k
  | .error (.xlate va wr) => parkAt (addWalk s w p va wr) .xlate (.page p.asid (va / 4096) (frontAt va))
  | .error (.away who l) =>
    match l.findSome? fun e => match placeOf s e.2 with | .refused f => some (e.1, f) | _ => none with
    | some (va, f) =>
      fail (refusalRecord s w.key.part cPermission (causeLanes b 0).toNat w.id.core va f) cPermission va 0 false false
    | none => waits (l.foldl (fun t e => askLine who (some (c.w, c.lane)) w.key.part t e.1 e.2) s)
  | .error .wait => waits s
  | .error (.fault code tval lanes) => fail s code tval lanes false false
  | .error (.late code tval lanes applied) => fail s code tval lanes applied true
  | .error (.trap code tval) => trapped s code tval 0 false
  | .ok o =>
    match o.fin with
    | .park q k => parkAt o.s q k
    | .wait => waits o.s
    | .trap code tval lanes applied => trapped o.s code tval lanes applied
    | .fault code tval lanes applied late => fail o.s code tval lanes applied late
    | .next => ended (age (advance (clear o.s))) o.touches
    | .jumped => ended (age o.s) o.touches

/-! ### The checks before a unit executes -/

/-- The operands of a word's four fields. -/
def fieldsOf (f : Fields) : List Operand := [f.d, f.a, f.b, f.c]

/-- The fields whose description makes them pairs. -/
def pairField (m : Mnem) (f : Fields) (s : FSpec) : Bool :=
  match s with
  | .opd _ w => pairWidth m f w
  | _ => false

/-- Scalar registers within the budget of the weft's role (R79). -/
def budgetOk (p : Panel) (w : Weft) (m : Mnem) (f : Fields) : Bool :=
  let r := mnemRow m f.mod.toNat
  [(r.d, f.d), (r.a, f.a), (r.b, f.b), (r.c, f.c)].all fun x =>
    match x.2 with
    | .s n => n.val + (if pairField m f x.1 then 1 else 0) < scalarBudget p w
    | _ => true

/-- The instructions that name a queue register without using its binding. -/
def namesQueue : Mnem → Bool
  | .qbind | .qunbind | .qstat | .qclose => true
  | _ => false

/-- Every queue register that an operand names is bound (R81). -/
def boundOk (w : Weft) (m : Mnem) (f : Fields) : Bool :=
  namesQueue m || (fieldsOf f).all fun x =>
    match x with
    | .q n => (tget w.binds n.val).isSome
    | .qnb n => (tget w.binds n.val).isSome
    | _ => true

/-- The level that an issuer needs (R128, R288). -/
def levelOf (m : Mnem) (f : Fields) : Nat :=
  match m with
  | .csrr | .csrw | .svcpop => match (csrImm f).bind csrInfo with | some (_, l) => l | none => 0
  | _ => mnemLevel m

/-- The instructions that abort an open region before they execute (R242). -/
def abortsRegion (m : Mnem) : Bool :=
  let op := mnemOp m
  (decide (0x56 ≤ op) && decide (op ≤ 0x5B)) || op == 0x5D || op == 0x5E || (decide (0x60 ≤ op) && decide (op ≤ 0x7D))

/-- The engine instructions that a supervisor core does not have (R129). -/
def spemOnly (m : Mnem) : Bool := decide (0x62 ≤ mnemOp m) && decide (mnemOp m ≤ 0x69)

/-- The lanes on which a word acts (R80, R108). -/
def activeLanes (s : State) (w : Weft) (b : Sub) (pre : Nat) (g : Guard) (once : Bool) : R Mask := do
  if g.p.val = 7 then .ok b.mask
  else if once then
    let m ← readPred s w { b with mask := laneBit (lowest b.mask) } pre g.p.val
    .ok (if (m.getLsbD (lowest b.mask)) != g.neg then b.mask else 0)
  else
    let m ← readPred s w b pre g.p.val
    .ok (b.mask &&& (if g.neg then ~~~m else m))

/-- Whether a word's guard is evaluated once. -/
def guardOnce (g : GuardKind) (f : Fields) : Bool :=
  match g with
  | .lanes => false
  | .once => true
  | .auto => scalarKind f

/-- A full word's unit up to its body: the active lanes, and how it ends. -/
def unitOut (m : Mnem) (f : Fields) (g : GuardKind) (body : Ctx → R Out) (s : State) (c : Cur) (w : Weft)
    (p : Panel) (b : Sub) : Mask × R Out :=
  let scalar := guardOnce g f
  let pre := c.words - 1
  if (isSup w.id.core && spemOnly m) || (m = .uiret && !uiAct w) then (0, oops cIllegalOp)
  else if !budgetOk p w m f || !boundOk w m f then (0, oops cIllegalOperand)
  else if levelOf m f > w.level || (m = .tret && !trapActive w w.level) then (0, oops cPrivilege)
  else
    match activeLanes s w b pre f.guard scalar with
    | .error e => (0, .error e)
    | .ok act =>
      if act = 0 then (0, Out.step s)
      else if w.region.isSome && abortsRegion m then (0, .ok ⟨abortRegion s w.id 8 0 0, .jumped, []⟩)
      else (act, body ⟨s, c, w, p, b, f, m, act, scalar, pre, []⟩)

/-- The outcome of a full word for the sub-weft that issues it. -/
def onWeft (m : Mnem) (f : Fields) (g : GuardKind) (body : Ctx → R Out) (s : State) : Host.Outcome State Fault Refusal :=
  match s.cur with
  | none => .fault .noIssuer
  | some c =>
    match getWeft s c.w with
    | none => .fault .noIssuer
    | some w =>
      match getPanel s w.key, subAt w c.lane with
      | some p, some b =>
        let (act, r) := unitOut m f g body s c w p b
        .next (finishUnit s c w p b f.stl act r)
      | _, _ => .fault .noIssuer

end Sys2Proof.Machine
end

