-- ==== Sys2Proof/Machine/Integer.lean ====
section
/-!
DEFINITION. Integer, logic, address, compare, select, predicate, move and conversion instructions (R164 to R178).
-/
namespace Sys2Proof.Machine

/-! ### Shared operations -/

/-- Opd of R164: the low n bits of a value under a type. -/
def opd (t : Nat) (v : Word64) : Int :=
  if intSigned t then toSigned (intWidth t) v.toNat else (v.toNat % 2 ^ intWidth t : Nat)

/-- Res of R164: a result modulo 2^n, extended to 32 bits for narrow types. -/
def resOf (t : Nat) (v : Int) : Word64 :=
  let n := intWidth t
  let r := wrap n v
  BitVec.ofNat 64 (if n < 32 && intSigned t then wrap 32 (toSigned n r) else r)

/-- Three operands read for every lane, the queue sources popped: what a lane-wise instruction computes on. -/
structure Vals where
  x : Ctx
  a : List Word64
  b : List Word64
  c : List Word64
  deriving DecidableEq, Repr

/-- Read the operands of a lane-wise instruction (R133, R165). -/
def readAll (x : Ctx) (wa wb wc : Bool) : R Vals := do
  let x ← popSources x
  let a ← rd x .a wa
  let b ← rd x .b wb
  let c ← rd x .c wc
  .ok ⟨x, a, b, c⟩

/-- The results of all lanes. -/
def laneVals (v : Vals) (f : Nat → Word64 → Word64 → Word64 → Word64) : List Word64 :=
  lanes16.map fun l => f l (v.a.getD l 0) (v.b.getD l 0) (v.c.getD l 0)

/-- A lane-wise instruction that writes one result to D. -/
def lanewise (wa wb wc wd : Bool) (f : Nat → Word64 → Word64 → Word64 → Word64) (x : Ctx) : R Out := do
  let v ← readAll x wa wb wc
  let s ← writeRes v.x wd (laneVals v f) (mnemLatency x.m x.f) id
  Out.step s

/-- The truth of all lanes as bits. -/
def boolBits (f : Nat → Bool) : Mask := maskOf (lanes16.filter f)

/-- The number of the predicate that a field names; 7 discards. -/
def predNum : Operand → Nat
  | .p n => n.val
  | _ => 7

/-- A predicate result: the bits of the active lanes, or one result in all sixteen (R80). -/
def predResult (x : Ctx) (w : Weft) (n : Nat) (bits : Mask) (lat : Option Nat) : Weft :=
  if x.scalar then writePred x w n 0xFFFF (if bits.getLsbD (lowest x.act) then 0xFFFF else 0) lat
  else writePred x w n x.act bits lat

/-- A lane-wise instruction that writes a predicate in D. -/
def lanePred (wa wb : Bool) (f : Nat → Word64 → Word64 → Word64 → Bool) (x : Ctx) : R Out := do
  let v ← readAll x wa wb false
  let bits := boolBits fun l => f l (v.a.getD l 0) (v.b.getD l 0) (v.c.getD l 0)
  Out.step (commitPops v.x (setWeft x.s (predResult v.x x.w (predNum x.f.d) bits (mnemLatency x.m x.f))))

/-- Bit l of a predicate operand, or that of the lowest active lane for a scalar instruction (R80). -/
def predBit (x : Ctx) (l : Nat) (v : Word64) : Bool := v.getLsbD (if x.scalar then lowest x.act else l)

/-! ### Deferred transforms (R89) -/

/-- The kind of symbol that an integer type can transform: 0 for 32 bits, 1 for 64 bits. -/
def symKindOf (t : Nat) : Option Nat :=
  match intWidth t with
  | 32 => some 0
  | 64 => some 1
  | _ => none

/-- The park of a use of one of two symbols that cannot be deferred. -/
def stopSlot {α : Type} (sa sb : Option SymVal) : R α :=
  match sa, sb with
  | some v, _ | none, some v => .error (.park .symbol (.slot v.slot))
  | none, none => .error (.park .symbol)

/-- A deferred result (R89) of ADD, SUB, MUL or SHL, from its sources. -/
def deferInt (x : Ctx) (sa sb : Option SymVal) : R SymVal := do
  let t := x.f.mod.toNat
  let wide := intWidth t = 64
  let ok (v : SymVal) : Bool := symKindOf t == some v.kind
  let stop : R SymVal := stopSlot sa sb
  let lim (v : SymVal) : R SymVal := if wide && (isPer v.scale || isPer v.offset) then stop else .ok v
  let op := compOp wide
  if !fullAct x then stop
  else
    match x.m, sa, sb with
    | .add, some v, some u =>
      if ok v && u.slot == v.slot && u.kind == v.kind then
        lim { v with scale := op (· + ·) v.scale u.scale, offset := op (· + ·) v.offset u.offset }
      else stop
    | .sub, some v, some u =>
      if ok v && u.slot == v.slot && u.kind == v.kind then
        lim { v with scale := op (· - ·) v.scale u.scale, offset := op (· - ·) v.offset u.offset }
      else stop
    | .add, some v, none => do
      let k ← knownComp x .b wide
      if ok v then lim { v with offset := op (· + ·) v.offset k } else stop
    | .add, none, some v => do
      let k ← knownComp x .a wide
      if ok v then lim { v with offset := op (· + ·) v.offset k } else stop
    | .sub, some v, none => do
      let k ← knownComp x .b wide
      if ok v then lim { v with offset := op (· - ·) v.offset k } else stop
    | .sub, none, some v => do
      let k ← knownComp x .a wide
      if ok v then
        lim { v with scale := op (fun a _ => 0 - a) v.scale (.uni 0), offset := op (fun b c => c - b) v.offset k }
      else stop
    | .mul, some v, none => do
      let k ← knownComp x .b wide
      if ok v then lim { v with scale := op (· * ·) v.scale k, offset := op (· * ·) v.offset k } else stop
    | .mul, none, some v => do
      let k ← knownComp x .a wide
      if ok v then lim { v with scale := op (· * ·) v.scale k, offset := op (· * ·) v.offset k } else stop
    | .shl, some v, none => do
      let k ← knownComp x .b false
      let sh (a c : Word64) : Word64 := a <<< (c.toNat % 2 ^ 32 % intWidth t)
      if ok v then lim { v with scale := op sh v.scale k, offset := op sh v.offset k } else stop
    | _, _, _ => stop

/-- An instruction that R89 may defer: with a symbolic source it writes a symbol or parks (R91). -/
def deferring (plain : Ctx → R Out) (defer_ : Ctx → Option SymVal → Option SymVal → R SymVal) (x : Ctx) : R Out := do
  let sa ← symAt x .a
  let sb ← symAt x .b
  if sa.isNone && sb.isNone then plain x
  else
    match x.f.d with
    | .v n => do
      let x ← popSources x
      let v ← defer_ x sa sb
      let w ← writeSym x x.w n.val v (mnemLatency x.m x.f)
      Out.step (commitPops x (setWeft x.s w))
    | _ => stopSlot sa sb

/-! ### Arithmetic (R167 to R169) -/

/-- An instruction on one type with two or three sources of it. -/
def typed (f : Int → Int → Int → Int) (x : Ctx) : R Out :=
  let t := x.f.mod.toNat
  let w := intWidth t = 64
  lanewise w w w w (fun _ a b c => resOf t (f (opd t a) (opd t b) (opd t c))) x

def execAdd (f : Fields) (s : State) : Host.Outcome State Fault Refusal :=
  onWeft .add f .auto (deferring (typed fun a b _ => a + b) deferInt) s

def execSub (f : Fields) (s : State) : Host.Outcome State Fault Refusal :=
  onWeft .sub f .auto (deferring (typed fun a b _ => a - b) deferInt) s

def execMul (f : Fields) (s : State) : Host.Outcome State Fault Refusal :=
  onWeft .mul f .auto (deferring (typed fun a b _ => a * b) deferInt) s

/-- The upper half of the exact product (R167). -/
def execMulh (f : Fields) (s : State) : Host.Outcome State Fault Refusal :=
  onWeft .mulh f .auto (typed fun a b _ => (a * b) / (2 ^ intWidth f.mod.toNat : Int)) s

def execMad (f : Fields) (s : State) : Host.Outcome State Fault Refusal :=
  onWeft .mad f .auto (typed fun a b c => a * b + c) s

/-- The quotient of R46. -/
def execDiv (f : Fields) (s : State) : Host.Outcome State Fault Refusal :=
  onWeft .div f .auto (typed fun a b _ => (divRem (intWidth f.mod.toNat) (intSigned f.mod.toNat) a b).1) s

/-- The remainder of R46. -/
def execRem (f : Fields) (s : State) : Host.Outcome State Fault Refusal :=
  onWeft .rem f .auto (typed fun a b _ => (divRem (intWidth f.mod.toNat) (intSigned f.mod.toNat) a b).2) s

def execMin (f : Fields) (s : State) : Host.Outcome State Fault Refusal :=
  onWeft .min f .auto (typed fun a b _ => min a b) s

def execMax (f : Fields) (s : State) : Host.Outcome State Fault Refusal :=
  onWeft .max f .auto (typed fun a b _ => max a b) s

def execAbs (f : Fields) (s : State) : Host.Outcome State Fault Refusal :=
  onWeft .abs f .auto (typed fun a _ _ => if a < 0 then -a else a) s

def execNeg (f : Fields) (s : State) : Host.Outcome State Fault Refusal :=
  onWeft .neg f .auto (typed fun a _ _ => 0 - a) s

/-- A carry chain (R168): the result, and the carry or borrow in the predicate that C names. -/
def carryChain (f : Int → Int → Int → Int) (out : Int → Int → Int → Bool) (x : Ctx) : R Out := do
  let t := x.f.mod.toNat
  let w := decide (intWidth t = 64)
  let v ← readAll x w w false
  let ci (l : Nat) : Int := if predBit x l (v.c.getD l 0) then 1 else 0
  let a (l : Nat) : Int := opd t (v.a.getD l 0)
  let b (l : Nat) : Int := opd t (v.b.getD l 0)
  let bits := boolBits fun l => out (a l) (b l) (ci l)
  let lat := mnemLatency x.m x.f
  let s ← writeRes v.x w (lanes16.map fun l => resOf t (f (a l) (b l) (ci l))) lat
    fun u => predResult v.x u (predNum x.f.c) bits lat
  Out.step s

def execAddc (f : Fields) (s : State) : Host.Outcome State Fault Refusal :=
  onWeft .addc f .auto
    (carryChain (fun a b ci => a + b + ci) (fun a b ci => a + b + ci ≥ 2 ^ intWidth f.mod.toNat)) s

def execSubb (f : Fields) (s : State) : Host.Outcome State Fault Refusal :=
  onWeft .subb f .auto (carryChain (fun a b ci => a - b - ci) (fun a b ci => a < b + ci)) s

/-! ### Logic and shifts (R170) -/

/-- A bitwise instruction of a `.b` type. -/
def bitwise (f : Nat → Nat → Nat → Nat) (x : Ctx) : R Out :=
  let t := x.f.mod.toNat
  let w := intWidth t = 64
  lanewise w w w w (fun _ a b _ => resOf t (f (intWidth t) (a.toNat % 2 ^ intWidth t) (b.toNat % 2 ^ intWidth t))) x

/-- A shift: the count is the 32-bit B modulo the width. -/
def shifted (f : Nat → Int → Nat → Int) (x : Ctx) : R Out :=
  let t := x.f.mod.toNat
  let w := intWidth t = 64
  lanewise w false false w (fun _ a b _ => resOf t (f (intWidth t) (opd t a) (b.toNat % 2 ^ 32 % intWidth t))) x

def execAnd (f : Fields) (s : State) : Host.Outcome State Fault Refusal :=
  onWeft .and f .auto (bitwise fun _ a b => a &&& b) s

def execOr (f : Fields) (s : State) : Host.Outcome State Fault Refusal :=
  onWeft .or f .auto (bitwise fun _ a b => a ||| b) s

def execXor (f : Fields) (s : State) : Host.Outcome State Fault Refusal :=
  onWeft .xor f .auto (bitwise fun _ a b => a ^^^ b) s

def execAndn (f : Fields) (s : State) : Host.Outcome State Fault Refusal :=
  onWeft .andn f .auto (bitwise fun n a b => a &&& (2 ^ n - 1 - b)) s

def execShl (f : Fields) (s : State) : Host.Outcome State Fault Refusal :=
  onWeft .shl f .auto (deferring (shifted fun _ a k => a * 2 ^ k) deferInt) s

def execShr (f : Fields) (s : State) : Host.Outcome State Fault Refusal :=
  onWeft .shr f .auto (shifted fun _ a k => a / 2 ^ k) s

def execSar (f : Fields) (s : State) : Host.Outcome State Fault Refusal :=
  onWeft .sar f .auto (shifted fun _ a k => a / 2 ^ k) s

/-- Rotation to the left. -/
def rotl (n : Nat) (a : Int) (k : Nat) : Int :=
  ((a.toNat * 2 ^ k) % 2 ^ n + a.toNat / 2 ^ (n - k) : Nat)

def execRot (f : Fields) (s : State) : Host.Outcome State Fault Refusal :=
  onWeft .rot f .auto (shifted rotl) s

def execClz (f : Fields) (s : State) : Host.Outcome State Fault Refusal :=
  onWeft .clz f .auto (bitwise fun n a _ => clzNat n a) s

def execPopc (f : Fields) (s : State) : Host.Outcome State Fault Refusal :=
  onWeft .popc f .auto (bitwise fun n a _ => popcNat n a) s

def execBrev (f : Fields) (s : State) : Host.Outcome State Fault Refusal :=
  onWeft .brev f .auto (bitwise fun n a _ => brevNat n a) s

/-! ### Bit fields (R171) -/

/-- The field of a field word that lies within n bits: its position and effective length; none when it is empty. -/
def fieldWord (n : Nat) (w : Word64) : Option (Nat × Nat) :=
  let pos := field w.toNat 7 0
  let len := field w.toNat 15 8
  if pos ≥ n ∨ len = 0 then none else some (pos, min len (n - pos))

def execBfx (f : Fields) (s : State) : Host.Outcome State Fault Refusal :=
  let t := f.mod.toNat
  let n := intWidth t
  let w := decide (n = 64)
  onWeft .bfx f .auto (lanewise w false false w fun _ a b _ =>
    match fieldWord n b with
    | none => 0
    | some (pos, m) =>
      let x := field a.toNat (pos + m - 1) pos
      resOf t (if intSigned t then toSigned m x else (x : Int))) s

def execBfi (f : Fields) (s : State) : Host.Outcome State Fault Refusal :=
  let t := f.mod.toNat
  let n := intWidth t
  let w := decide (n = 64)
  onWeft .bfi f .auto (lanewise w w false w fun _ a b c =>
    match fieldWord n c with
    | none => resOf t (a.toNat % 2 ^ n : Nat)
    | some (pos, m) => resOf t (setField (a.toNat % 2 ^ n) (pos + m - 1) pos (b.toNat % 2 ^ m) : Nat)) s

/-! ### Addresses (R172) -/

def execLea (f : Fields) (s : State) : Host.Outcome State Fault Refusal :=
  let mod := f.mod.toNat
  onWeft .lea f .auto (fun x =>
    lanewise true (mod = 2) false true (fun _ a b c =>
      if mod = 10 then x.c.pc + 8 * (b.setWidth 32).signExtend 64
      else
        let i := if mod = 0 then (b.setWidth 32).signExtend 64 else if mod = 1 then (b.setWidth 32).setWidth 64 else b
        a + i <<< c.toNat) x) s

/-! ### Compare, select and predicates (R173 to R175) -/

/-- A condition of Table 3 of R173. -/
def condHolds (cc : Nat) (a b : Int) : Bool :=
  match cc with
  | 0 => a == b
  | 1 => a != b
  | 2 => a < b
  | 3 => a ≤ b
  | 4 => a > b
  | _ => a ≥ b

def execCmp (f : Fields) (s : State) : Host.Outcome State Fault Refusal :=
  let t := f.mod.toNat
  let w := decide (intWidth t = 64)
  onWeft .cmp f .auto (lanePred w w fun _ a b _ => condHolds (modByte f.c) (opd t a) (opd t b)) s

def execSel (f : Fields) (s : State) : Host.Outcome State Fault Refusal :=
  let t := f.mod.toNat
  let w := decide (intWidth t = 64)
  onWeft .sel f .auto (fun x =>
    lanewise w w false w (fun l a b c => resOf t (if predBit x l c then opd t a else opd t b)) x) s

/-- Bit l of a PSET result (Table 4 of R175). -/
def psetBit (op l : Nat) (a b : Word64) : Bool :=
  let p := a.getLsbD l
  let q := b.getLsbD l
  match op with
  | 0 => p && q
  | 1 => p || q
  | 2 => p != q
  | 3 => p && !q
  | 4 => !p
  | _ => p

def execPset (f : Fields) (s : State) : Host.Outcome State Fault Refusal :=
  onWeft .pset f .lanes (lanePred false false fun l a b _ => psetBit (modByte f.c) l a b) s

/-! ### Moves (R112, R176, R177) -/

/-- The queue register number of a queue operand, and whether its code is non-blocking. -/
def queueOf : Operand → Option (Nat × Bool)
  | .q n => some (n.val, false)
  | .qnb n => some (n.val, true)
  | _ => none

/-- Whether MOV's destination fits the entries of a queue that it pops: the width, and the register class. -/
def popFits (f : Fields) (b : Binding) : Bool :=
  let wide := f.mod.toNat % 2 == 1
  if b.kind = 3 then !wide && kindOf f.d == .v
  else
    b.kind == 5 && (b.fmt % 2 == 1) == wide &&
    (match f.d with
     | .s _ => b.fmt < 2
     | .v _ | .o _ | .lat => b.fmt ≥ 2
     | _ => true)

/-- Whether MOV's source fits the entries of a queue that it pushes to. -/
def pushFits (x : Ctx) (b : Binding) : Bool :=
  let wide := x.f.mod.toNat % 2 == 1
  b.kind == 4 && (b.fmt % 2 == 1) == wide && decide (b.fmt ≥ 2) == isVec x.f.a

/-- The first entry of a bound queue: a channel's, or a completion record with zeros above word 3. -/
def frontOf (x : Ctx) (b : Binding) : Option (List Word32) :=
  if b.kind = 3 then
    match tgetD x.p.cqs b.obj [] with
    | r :: _ => some (full16 [r.extractLsb' 0 32, r.extractLsb' 32 32, r.extractLsb' 64 32, r.extractLsb' 96 32])
    | [] => none
  else if pendingPops x.s x.w.key b.obj > 0 then none
  else (getChan x.p b.obj).entries.head?

/-- The first entry of a bound queue is removed. -/
def dropFront (x : Ctx) (b : Binding) (s : State) : State :=
  if b.kind = 3 then
    let drop (p : Panel) : Panel := { p with cqs := tset p.cqs b.obj ((tgetD p.cqs b.obj []).drop 1) }
    progress (updPanel s x.w.key drop)
  else dropEntry s x.w.key b.obj 0

/-- A queue that is a closed channel. -/
def closedQueue (x : Ctx) (b : Binding) : Bool := b.kind != 3 && (getChan x.p b.obj).closed

/-- The weft with the SEEN bit of a binding set. -/
def setSeen (w : Weft) (q : Nat) : Weft :=
  match tget w.binds q with
  | some b => { w with binds := tset w.binds q { b with seen := true } }
  | none => w

/-- The predicate of a non-blocking MOV. -/
def movPred (x : Ctx) (w : Weft) (v : Bool) : Weft := predResult x w (predNum x.f.c) (if v then 0xFFFF else 0) none

/-- Write an entry to MOV's D. -/
def writeEntry (x : Ctx) (e : List Word32) : R State :=
  let wide := x.f.mod.toNat % 2 == 1
  let vs := if e.length ≤ 2 then splat (if wide then (lane e 1 ++ lane e 0 : BitVec 64) else (lane e 0).setWidth 64)
    else entryLanes e
  writeRes x wide vs none id

/-- A pop: A names a queue and D does not. -/
def movPop (x : Ctx) (q : Nat) (nb : Bool) : R Out :=
  match tget x.w.binds q with
  | none => oops cIllegalOperand
  | some b =>
    if !popFits x.f b then oops cIllegalOperand
    else
      match frontOf x b with
      | some e => do
        let s ← writeEntry x e
        let s := dropFront x b s
        Out.step (if nb then updWeft s x.w.id fun w => movPred x w true else s)
      | none =>
        if nb then
          let w := if closedQueue x b then setSeen x.w q else x.w
          Out.step (setWeft x.s (movPred x w false))
        else if closedQueue x b && pendingPops x.s x.w.key b.obj = 0 then .error (.trap cChannelClosed b.obj)
        else .error (.park .queue (if b.kind = 3 then .record b.obj else .entry b.obj))

/-- The entry that a MOV pushes: Read(A) in all lanes as they stand. -/
def movEntry (x : Ctx) : R (List Word32) := do
  let wide := x.f.mod.toNat % 2 == 1
  let vs ← readVals x .a x.f.a wide (if x.scalar then x.act else 0xFFFF)
  .ok (entryOf x.scalar wide 0xFFFF (if x.scalar then splat (vs.getD (lowest x.act) 0) else vs))

/-- A push: D names a queue and A does not. -/
def movPush (x : Ctx) (q : Nat) (nb : Bool) : R Out :=
  match tget x.w.binds q with
  | none => oops cIllegalOperand
  | some b =>
    if !pushFits x b then oops cIllegalOperand
    else do
      let e ← movEntry x
      match canPush x b.obj with
      | .ok _ =>
        let s := pushEntry x.s x.w.key b.obj e
        Out.step (if nb then updWeft s x.w.id fun w => movPred x w true else s)
      | .error e => if nb then Out.step (setWeft x.s (movPred x x.w false)) else .error e

/-- A pop and push between two channel ends of one entry format. -/
def movBoth (x : Ctx) (qa qd : Nat) (nb : Bool) : R Out :=
  match tget x.w.binds qa, tget x.w.binds qd with
  | some a, some d =>
    if a.kind ≠ 5 ∨ d.kind ≠ 4 ∨ a.fmt ≠ d.fmt ∨ a.fmt % 2 ≠ x.f.mod.toNat % 2 then oops cIllegalOperand
    else
      let no (w : Weft) : R Out := Out.step (setWeft x.s (movPred x w false))
      match frontOf x a with
      | none =>
        if nb then no (if closedQueue x a then setSeen x.w qa else x.w)
        else if closedQueue x a && pendingPops x.s x.w.key a.obj = 0 then .error (.trap cChannelClosed a.obj)
        else .error (.park .queue (.entry a.obj))
      | some e =>
        match canPush x d.obj with
        | .error t => if nb then no x.w else .error t
        | .ok _ =>
          let s := pushEntry (dropEntry x.s x.w.key a.obj 0) x.w.key d.obj e
          Out.step (if nb then updWeft s x.w.id fun w => movPred x w true else s)
  | _, _ => oops cIllegalOperand

/-- A symbolic pop (R88, R177). -/
def movSym (x : Ctx) (q n : Nat) : R Out :=
  match tget x.w.binds q with
  | none => oops cIllegalOperand
  | some b =>
    let wide := x.f.mod.toNat = 11
    if b.kind ≠ 5 ∨ b.fmt ≠ (if wide then 3 else 2) then oops cIllegalOperand
    else
      match freeSlot x.w, fullAct x with
      | some slot, true =>
        if closedQueue x b && (frontOf x b).isNone && pendingPops x.s x.w.key b.obj = 0 then
          .error (.trap cChannelClosed b.obj)
        else do
          let w ← allocSym x x.w n slot (if wide then 1 else 0)
          let acc : SymAcc := {
            key := x.w.key, num := x.w.num, slot := slot, kind := if wide then 1 else 0,
            value := (frontOf x b).map entryLanes, queue := some b.obj, vas := [], bytes := 0, signed := false,
            va0 := x.c.pc, level := x.w.level, core := x.w.id.core, m := x.m, f := x.f, opnd := [], pas := [], got := [],
            live := [] }
          let s := setWeft x.s w
          let s := if (frontOf x b).isSome then dropEntry s x.w.key b.obj 0 else s
          Out.step { s with symAccs := s.symAccs ++ [acc] }
      | _, _ => movPop x q false

/-- MOV's body: a copy, a push, a pop, both, or a symbolic pop. -/
def movBody (x : Ctx) : R Out :=
  let wide := x.f.mod.toNat % 2 == 1
  match queueOf x.f.a, queueOf x.f.d with
  | some (q, nb), none =>
    if x.f.mod.toNat ≥ 10 then (match x.f.d with | .v n => movSym x q n.val | _ => oops cIllegalOperand)
    else movPop x q nb
  | none, some (q, nb) => movPush x q nb
  | some (qa, nb), some (qd, _) => movBoth x qa qd nb
  | none, none => lanewise wide false false wide (fun _ a _ _ => a) x

def execMov (f : Fields) (s : State) : Host.Outcome State Fault Refusal := onWeft .mov f .auto movBody s

/-! ### Width conversion (R178) -/

/-- The lowest and the highest value of a type. -/
def typeRange (t : Nat) : Int × Int :=
  let n := intWidth t
  if intSigned t then (-(2 ^ (n - 1)), 2 ^ (n - 1) - 1) else (0, 2 ^ n - 1)

def execCvti (f : Fields) (s : State) : Host.Outcome State Fault Refusal :=
  let t := f.mod.toNat
  let u := modByte f.c % 8
  let sat := modByte f.c ≥ 16
  let r := typeRange t
  onWeft .cvti f .auto (lanewise (intWidth u = 64) false false (intWidth t = 64) fun _ a _ _ =>
    let x := opd u a
    resOf t (if sat then min (max x r.1) r.2 else x)) s

end Sys2Proof.Machine
end

