-- ==== Sys2Proof/Machine/Home.lean ====
section
/-!
DEFINITION. The homes (R359, R368 to R377): access counts, shadows and gathers (R43 to R45, R234), the directory
transactions that a core's access makes, the conflicts of regions (R243, R248, R326) and the snapshots of agents
(R310).
-/
namespace Sys2Proof.Machine

/-! ### Lines -/

/-- The line of a physical address. -/
def lineOf (pa : Nat) : Nat := pa / 128

/-- The byte offsets of an access within its line. -/
def offsetsIn (pa n : Nat) : List Nat := (List.range n).map fun i => (pa + i) % 128

/-- The lines that an access touches. -/
def linesOf (pa n : Nat) : List Nat := ((List.range n).map fun i => (pa + i) / 128).eraseDups

/-- Whether some cache holds a line. -/
def cachedLine (r : LineRec) : Bool :=
  !r.l1.isEmpty || r.llc != .i || !r.shadows.isEmpty || !r.gather.isEmpty || !r.pend.isEmpty

/-- A synonym learnt: it is entered where it is not known yet. A core's table keeps the 64 that it has learnt last. -/
def learnSynonym (s : State) (y : Synonym) : State :=
  if s.synonyms.contains y then s
  else
    let old := s.synonyms.filter fun z => z.place != y.place
    let mine := s.synonyms.filter fun z => z.place == y.place
    { s with synonyms := y :: (match y.place with | .core _ => mine.take 63 | .front _ => mine) ++ old }

/-- A page is used under a tag (ASID or, for a G page, the partition's) and a virtual page: it becomes the leader while no cache
holds a line of the frame. Otherwise, under another tag, its synonym of the leader goes to the front's remap filter and to the
core's synonym table (R354, R355). -/
def noteLeader (s : State) (part : Option Nat) (t : TlbEnt) (core va : Nat) : State :=
  let frame := paIn t.leaf t.bits (t.vpage * 4096) / 4096
  let tag := tagOf t.asid (part.getD 64) t.leaf
  let cached := s.lines.any fun r => r.line / 32 == frame && cachedLine r
  match cached, (getPage s frame).leader with
  | true, some (a, v) =>
    if a = tag ∧ v = t.vpage then s
    else learnSynonym (learnSynonym s ⟨tag, t.vpage, a, v, .front (frontAt va)⟩) ⟨tag, t.vpage, a, v, .core core⟩
  | _, l =>
    if l = some (tag, t.vpage) then s
    else
      let s := { s with synonyms := s.synonyms.filter fun y => !(l == some (y.leadAsid, y.leadPage)) }
      updPage s frame fun p => { p with leader := some (tag, t.vpage) }

/-- The virtual line of a line under its page's leader, by which the LLC holds it; its own number where its page has none
(R355). -/
def leaderLine (s : State) (line : Nat) : Nat :=
  match (getPage s (line / 32)).leader with
  | some (_, v) => v * 32 + line % 32
  | none => line

/-- The LLC slice of a line, one of 128 (R19). -/
def sliceOf (s : State) (line : Nat) : Nat := sliceAt (leaderLine s line)

/-- The base die under a core (R12); the supervisor die has none. -/
def baseDie (core : Nat) : Nat := if isSup core then 8 else if dieOf core < 2 then 4 else 5

/-! ### Access counts (R359) -/

/-- The first tier of HBM4E, LPDDR and CXL pool that an affinity mask allows. -/
def firstTier (aff : Nat) : Nat := if bitOf aff 0 then 1 else if bitOf aff 1 then 2 else 3

/-- Whether a page is tracked: a 4-KiB page with T = 1 (R357). -/
def trackedPage (t : TlbEnt) : Bool := leafT t.leaf && t.bits == 12

/-- Whether a frame is read-only in every mapping that the homes know: the translations that the fronts hold (log entry 66). -/
def readOnlyFrame (s : State) (frame : Nat) : Bool :=
  s.tlb.all fun t => paIn t.leaf t.bits (t.vpage * 4096) / 4096 != frame || !leafW t.leaf

/-- n requests of a partition counted at the home of a page; at THRESH the counter is cleared, and a move to a faster tier or a
duplication is requested where R359 allows. -/
def countAccess (s : State) (part : Nat) (t : TlbEnt) (core n : Nat) (isRead : Bool) : State :=
  let frame := paIn t.leaf t.bits (t.vpage * 4096) / 4096
  if !trackedPage t || s.moves.any fun m => m.oldF == frame then s
  else
    let page := getPage s frame
    let c := min 65535 (tgetD page.counts part 0 + n)
    let thresh := match getPart s part with | some p => p.desc.thresh | none => 0
    let dies := if isRead && !page.readDies.contains (baseDie core) then baseDie core :: page.readDies else page.readDies
    if thresh = 0 ∨ c < thresh then updPage s frame fun p => { p with counts := tset p.counts part c, readDies := dies }
    else
      let s := updPage s frame fun p => { p with counts := tset p.counts part 0, readDies := [] }
      let tier := firstTier (leafAff t.leaf)
      let dup := leafDup t.leaf && tierOf (frame * 4096) == 1 && readOnlyFrame s frame && dies.contains 4 && dies.contains 5
      let pinned := page.pins > 0 || leafPin t.leaf
      let ask (dup : Bool) (tier : Nat) (s : State) : State :=
        let (i, s) := freshId s
        { s with moveReqs := s.moveReqs ++ [⟨i, part, t.asid, t.vpage, tier, if dup then 4 else 0, c, dup⟩] }
      if dup && !(s.dups.any fun d => d.frame == frame) then ask true 1 s
      else if tier ≥ tierOf (frame * 4096) ∨ pinned then s
      else ask false tier s

/-- A plain access that may reach the home (R359): whether it counts is a free value for each line. -/
def countPlain (s : State) (part : Option Nat) (t : TlbEnt) (core lines : Nat) (isRead : Bool) : State :=
  match part with
  | none => s
  | some p =>
    if !trackedPage t then s
    else
      (List.range lines).foldl (fun s _ =>
        let (k, s) := draw s
        if Config.freeCount k then countAccess s p t core 1 isRead else s) s

/-! ### Shadows and gathers (R43 to R45, R234) -/

/-- Whether an add reduction on a format is held in a shadow. -/
def shadowed : Fmt → Bool
  | .e4m3 | .e5m2 | .bf16 => true
  | _ => false

/-- The weight of a fixed-point shadow's unit, as a power of two. -/
def shadowExp (f : Fmt) : Int := if f = .e4m3 then -9 else -16

/-- The exact fixed-point value of an E4M3 or E5M2 code; a free value for a code that is no number. -/
def fixOf (f : Fmt) (code : Nat) : Int :=
  match decodeF f code with
  | .fin neg m e => signedOf neg (m * 2 ^ (e - shadowExp f).toNat)
  | _ => Config.freeFix (if f = .e5m2 then 256 + code else code)

/-- A shadow loaded from the stored bytes. -/
def loadShadow (s : State) (pa : Nat) (f : Fmt) : Shadow :=
  let code := physNum s pa (f.width / 8)
  if f = .bf16 then ⟨pa, f, 0, exactCode .f32 (decodeF .bf16 code)⟩ else ⟨pa, f, fixOf f code, 0⟩

/-- The code that a shadow yields. -/
def shadowCode (h : Shadow) : Nat :=
  if h.fmt = .bf16 then (encodeF .bf16 .rne false 0 (decodeF .f32 h.f32)).1
  else (encodeF h.fmt .rne false 0 (.fin (h.fix < 0) h.fix.natAbs (shadowExp h.fmt))).1

/-- A shadow after one contribution. A BF16 contribution comes as an FP32 code: a code of the format or a partial
sum that the routers merged. -/
def addShadow (h : Shadow) (fix : Int) (f32 : Nat) : Shadow :=
  if h.fmt = .bf16 then { h with f32 := (faddV .f32 .rne false (decodeF .f32 h.f32) (decodeF .f32 f32)).1 }
  else { h with fix := max (-(2 ^ 63 - 1)) (min (2 ^ 63 - 1) (h.fix + fix)) }

/-- One forced rounding or early close in a partition's reduction counter. -/
def countForced (s : State) (part : Nat) : State := updPart s part fun p => { p with redcnt := (p.redcnt + 1) % 2 ^ 64 }

/-- Every shadow of a line rounded into the stored bytes and released (R45). -/
def roundShadows (s : State) (line : Nat) (forced : Bool) : State :=
  let r := getLine s line
  if r.shadows.isEmpty then s
  else
    let s := r.shadows.foldl (fun s h => writeNum s h.pa (h.fmt.width / 8) (shadowCode h)) s
    let s := setLine s { getLine s line with shadows := [], shadowAge := 0 }
    if forced then countForced s r.part else s

/-- The oldest shadowed line of a slice, when the slice holds 256. -/
def fullShadowSlice (s : State) (line : Nat) : Option Nat :=
  let mine := s.lines.filter fun r => !r.shadows.isEmpty && sliceOf s r.line == sliceOf s line
  if mine.length < 256 then none
  else (mine.foldl (fun (o : Option LineRec) r =>
    match o with
    | none => some r
    | some x => if r.shadowAge < x.shadowAge then some r else some x) none).map (·.line)

/-- One application of an add at the home: the old value's code and the state. A BF16 partial sum is an FP32 code. A shadow is
found by its address, whatever format the contribution has (R43, log entry 71). -/
def applyAdd (s : State) (pa : Nat) (f : Fmt) (code : Nat) (partial32 : Bool) (part : Nat) : Nat × State :=
  if shadowed f then
    let line := lineOf pa
    let r := getLine s line
    let (h, s) := match r.shadows.find? fun h => h.pa == pa with
      | some h => (h, s)
      | none =>
        let s := if r.shadows.isEmpty then
            (match fullShadowSlice s line with | some l => roundShadows s l true | none => s)
          else s
        (loadShadow s pa f, s)
    let f32 := if partial32 then code else exactCode .f32 (decodeF .bf16 code)
    let h' := addShadow h (if f = .bf16 then 0 else fixOf f code) (if f = .bf16 then f32 else 0)
    let r := getLine s line
    let (age, s) := if r.shadows.isEmpty then freshId s else (r.shadowAge, s)
    let s := setLine s { r with
      shadows := h' :: r.shadows.filter (fun x => x.pa ≠ pa), shadowAge := age, part := part }
    (shadowCode h, s)
  else
    let n := f.width / 8
    let old := physNum s pa n
    (old, writeNum s pa n (faddV f .rne false (decodeF f old) (decodeF f code)).1)

/-- The order of R44 and R234 between contributions. -/
def contribBefore (a b : Contribution) : Bool :=
  let k (c : Contribution) : List Nat := [c.core, c.num, c.lane, c.part, c.panel, c.order]
  decide (k a < k b)

/-- A contribution inserted in order. -/
def insertContrib (c : Contribution) : List Contribution → List Contribution
  | [] => [c]
  | h :: t => if contribBefore c h then c :: h :: t else h :: insertContrib c t

/-- The gather of a line closes: its contributions are applied one at a time in order (R234). -/
def closeGather (s : State) (line : Nat) (forced : Bool) : State :=
  let r := getLine s line
  if r.gather.isEmpty then s
  else
    let l := r.gather.foldl (fun l c => insertContrib c l) []
    let s := setLine s { r with gather := [], gatherAge := 0 }
    let s := l.foldl (fun s c => (applyAdd s c.pa c.fmt c.val false c.part).2) s
    if forced then countForced s r.gatherPart else s

/-- The merged contributions that the routers still hold for a line arrive at its home (R20): the first closes the line's
gather. -/
def applyPending (s : State) (line : Nat) : State :=
  let r := getLine s line
  if r.pend.isEmpty then s
  else
    r.pend.foldl (fun s c => (applyAdd s c.pa c.fmt c.code c.wide c.part).2)
      (closeGather (setLine s { r with pend := [] }) line false)

/-- What any access but an add reduction does to a line's contributions, gather and shadows (R45, R234). -/
def quietLine (s : State) (line : Nat) : State := roundShadows (closeGather (applyPending s line) line false) line false

/-- An event of R45 that forces the rounding of a line, counted where a shadow stands there. -/
def forceLine (s : State) (line : Nat) : State := roundShadows (closeGather (applyPending s line) line false) line true

/-- The slice's oldest gather, when it holds 4,096 contributions. -/
def fullGatherSlice (s : State) (line : Nat) : Option Nat :=
  let mine := s.lines.filter fun r => !r.gather.isEmpty && sliceOf s r.line == sliceOf s line
  if mine.foldl (fun n r => n + r.gather.length) 0 < 4096 then none
  else (mine.foldl (fun (o : Option LineRec) r =>
    match o with
    | none => some r
    | some x => if r.gatherAge < x.gatherAge then some r else some x) none).map (·.line)

/-- A `.det` contribution joins the gather list of its line (R234). -/
def joinGather (s : State) (c : Contribution) : State :=
  let line := lineOf c.pa
  let s := match fullGatherSlice s line with | some l => closeGather s l true | none => s
  let r := getLine s line
  let (age, s) := if r.gather.isEmpty then freshId s else (r.gatherAge, s)
  setLine s { r with gather := r.gather ++ [c], gatherAge := age, gatherPart := c.part }

/-! ### Directory transactions (R372 to R377) -/

/-- The agents other than one that hold a copy. -/
def otherHolders (r : LineRec) (a : Nat) : List Nat :=
  (r.l1.filter fun e => e.1 ≠ a && e.2 != .i).map (·.1)

/-- A copy's state set. An invalid copy leaves the record. -/
def setCopy (r : LineRec) (a : Nat) (c : CState) : LineRec :=
  { r with
    l1 := if c = .i then tdel r.l1 a else tset r.l1 a c
    owner := if c = .m ∨ c = .o ∨ c = .e then some a else if r.owner = some a then none else r.owner
    sharers := if c = .s then (if r.sharers.contains a then r.sharers else a :: r.sharers) else r.sharers.filter (· ≠ a)
    masks := if c = .p then r.masks else r.masks.filter fun x => x.1 ≠ a
    fills := if c = .i then r.fills.filter fun f => f.agent ≠ a else r.fills }

/-- A copy of one cache goes to the LLC with its tag. -/
def fillLlc (r : LineRec) (a : Nat) : LineRec :=
  match r.fills.find? fun f => f.agent == a with
  | some f => { r with fills := { f with agent := 512, first := f.llcp == 2 } :: r.fills.filter fun x => x.agent ≠ 512 }
  | none => r

/-- Every P copy ends, its bytes in the LLC copy (R376). -/
def mergeRec (r : LineRec) : LineRec :=
  let t := r.masks.foldl (fun r x => setCopy (fillLlc r x.1) x.1 .i) r
  { t with masks := [], llc := if r.masks.isEmpty then r.llc else .m }

/-- The privatised bytes of a line merged. -/
def mergeLine (s : State) (line : Nat) : State :=
  let r := getLine s line
  if r.masks.isEmpty then s else setLine s (mergeRec r)

/-- Every copy but one agent's invalidated. -/
def invalidateOthers (r : LineRec) (a : Nat) : LineRec := (otherHolders r a).foldl (fun r o => setCopy r o .i) r

/-- A read miss served (RDS): S beside an LLC copy or other copies, else E. -/
def serveRead (r : LineRec) (a : Nat) : LineRec :=
  let r := if r.masks.isEmpty then r else mergeRec r
  let r := { r with llc := match r.llc with | .m => .o | .e => .s | c => c }
  match r.owner with
  | some o =>
    if o = a then r
    else
      let r := match tgetD r.l1 o .i with
        | .m => setCopy r o .o
        | .e => setCopy r o .s
        | _ => r
      setCopy r a .s
  | none => if (otherHolders r a).isEmpty && r.llc == .i then setCopy r a .e else setCopy r a .s

/-- The conditions of R375 for privatising the bytes that a core writes. -/
def privOk (s : State) (r : LineRec) (a : Nat) (offs : List Nat) (ordered : Bool) : Bool :=
  r.shadows.isEmpty && r.gather.isEmpty && r.pend.isEmpty && !ordered &&
  !(s.wefts.any fun w => match w.region with
    | some g => g.reads.contains r.line || g.writes.contains r.line
    | none => false) &&
  (r.l1.all fun e => e.1 == a || !(e.2 == .m || e.2 == .o)) &&
  (r.masks.all fun x => x.1 == a || (x.2.all fun o => !offs.contains o)) &&
  ((r.masks.any fun x => x.1 == a) || r.masks.length < 8) &&
  (match tgetD r.l1 a .i with | .m | .o | .e => false | _ => true)

/-- A P copy granted or widened (PRV): copies that are not privatised end. -/
def grantPriv (r : LineRec) (a : Nat) (offs : List Nat) : LineRec :=
  let old := (tget r.masks a).getD []
  let r := (otherHolders r a).foldl (fun r o => if tgetD r.l1 o .i = CState.p then r else setCopy r o .i) r
  let r := setCopy { r with sharers := r.sharers.filter (· ≠ a) } a .p
  { r with masks := tset r.masks a (old ++ offs.filter fun o => !old.contains o) }

/-- A write served: a hit in M, E or the mask, PRV where R375 allows, else UPG or RDX. -/
def serveWrite (s : State) (r : LineRec) (a : Nat) (offs : List Nat) (ordered : Bool) : LineRec :=
  match tgetD r.l1 a .i with
  | .m => r
  | .e => setCopy r a .m
  | c =>
    let held := match tget r.masks a with | some m => c == CState.p && offs.all fun o => m.contains o | none => false
    if held then r
    else if (!(otherHolders r a).isEmpty || c == CState.p) && privOk s r a offs ordered then grantPriv r a offs
    else
      let r := mergeRec r
      setCopy (invalidateOthers { r with llc := .i } a) a .m

/-- The copies of hosts and of other packages end (R333): a back-invalidation goes to each. -/
def backInvalidate (s : State) (line : Nat) : State :=
  let r := getLine s line
  let hosts := r.sharers.filter fun a => a = 320 ∨ a = 321
  if r.remotes.isEmpty && hosts.isEmpty && !r.overflow then s
  else
    let dests := (if r.overflow then (s.routes.filter fun e => e.2 ≠ 0).map (·.1) else r.remotes).filter (· ≠ s.pkgid.toNat)
    let msgs := hosts.map (fun h => (⟨some h, 1, toBytes 8 (line * 128)⟩ : Reply)) ++
      dests.map fun t => (⟨some (4096 + t), 1, toBytes 8 (line * 128)⟩ : Reply)
    let r := { r with remotes := [], overflow := false, sharers := r.sharers.filter fun a => a < 320,
                      l1 := r.l1.filter fun e => e.1 < 320 }
    { setLine s r with outbox := s.outbox ++ msgs }

/-- Whether a partition is in ordered mode. -/
def orderedPart (s : State) (part : Option Nat) : Bool :=
  match part.bind (getPart s) with | some p => p.desc.ord | none => false

/-! ### Allocation and room (R15, R16, R118, R242) -/

/-- How an access allocates (R118): the L1P and LLCP of its ATTR, and the translation that fills a copy. -/
structure Alloc where
  l1 : Nat
  llc : Nat
  ent : Option TlbEnt
  deriving DecidableEq, Repr

/-- An access without ATTR. -/
def Alloc.plain : Alloc := ⟨0, 0, none⟩

/-- A copy of an agent carries the tag of its page's leader and the leaf of the translation that filled it (R354). -/
def noteFill (s : State) (how : Alloc) (r : LineRec) (a : Nat) : LineRec :=
  let rest := r.fills.filter fun f => f.agent ≠ a
  match how.ent, (getPage s (r.line / 32)).leader with
  | some e, some (t, v) => { r with fills := ⟨a, t, v, e.leaf, if a = 512 then how.llc == 2 else how.l1 == 2, how.llc⟩ :: rest }
  | _, _ => { r with fills := rest }

/-- The wefts with an open region, the oldest region first. -/
def openRegions (s : State) : List WId :=
  let l := s.wefts.filterMap fun w => w.region.map fun r => (r.opened, w.id)
  ((l.foldl (fun (acc : List (Nat × WId)) x =>
    acc.takeWhile (fun y => y.1 ≤ x.1) ++ [x] ++ acc.dropWhile (fun y => y.1 ≤ x.1)) []).map (·.2))

/-- Regions of a core's wefts that mark a line which leaves its L1 abort (R242). -/
def evictMarked (s : State) (core line : Nat) : State :=
  (openRegions s).foldl (fun s e =>
    match (getWeft s e).bind (·.region) with
    | some r => if e.core = core && (r.reads.contains line || r.writes.contains line) then abortRegion s e 3 0 0 else s
    | none => s) s

/-- The LLC copy is discarded after it has been written back. -/
def discardLlc (s : State) (line : Nat) : State := setLine s { getLine s line with llc := .i }

/-- A line that has to leave among those that may: which one the manual leaves open (R359). -/
def victim (s : State) (ls : List Nat) : Option Nat × State :=
  if ls.isEmpty then (none, s)
  else
    let (k, s) := draw s
    (ls[Config.freeVictim k % ls.length]?, s)

/-- Room in a line's slice, which holds 32,768 lines: while it holds more, one that no LLCP retains and that has no shadow and
no gather leaves it, one marked to go first before the others. -/
def trimLlc (s : State) (line : Nat) : State :=
  let held := s.lines.filter fun r => r.llc != .i
  if held.length ≤ 32768 then s
  else
    let mine := held.filter fun r => sliceOf s r.line == sliceOf s line
    if mine.length ≤ 32768 then s
    else
      let may := mine.filter fun r => r.line != line && !r.retain && r.home == .stb && r.shadows.isEmpty && r.gather.isEmpty
      let first := may.filter fun r => r.fills.any fun f => f.agent == 512 && f.first
      let (v, s) := victim s ((if first.isEmpty then may else first).map (·.line))
      discardLlc s (v.getD line)

/-- A core's L1 copy is discarded, its dirty bytes in the LLC. -/
def discardL1 (s : State) (core line : Nat) : State :=
  let s := evictMarked s core line
  let r := getLine s line
  match tgetD r.l1 core .i with
  | .i => s
  | .m => trimLlc (setLine s { setCopy (fillLlc r core) core .i with llc := .m }) line
  | .o => trimLlc (setLine s { setCopy (fillLlc r core) core .i with llc := .o }) line
  | .p => trimLlc (setLine s (mergeRec r)) line
  | _ => setLine s (setCopy r core .i)

/-- The lines that a core's L1 holds: its copies, and the lines that its wefts' regions mark (R242). -/
def l1Lines (s : State) (core : Nat) : List Nat :=
  ((s.lines.filter fun r => tgetD r.l1 core .i != .i).map (·.line) ++
    s.wefts.flatMap fun w => if w.id.core = core then (match w.region with | some r => r.reads ++ r.writes | none => []) else [])
    |>.eraseDups

/-- Whether a core's L1 holds a line or has room for it: it has 2,048 lines (R15). -/
def l1Room (s : State) (core line : Nat) : Bool :=
  let ls := l1Lines s core
  decide (core ≥ 320) || decide (ls.length < 2048) || ls.contains line

/-- A copy evicted for room: it goes to the LLC, unless its access was to allocate nothing there (R118). -/
def evictL1 (s : State) (core line : Nat) : State :=
  let r := getLine s line
  if (r.fills.any fun f => f.agent == core && f.llcp == 1) && tgetD r.l1 core .i != .p then
    let s := evictMarked s core line
    setLine s (setCopy (getLine s line) core .i)
  else discardL1 s core line

/-- Room made in a core's L1 for a line: a line whose home is at rest leaves it, one marked to go first before the others. -/
def roomL1 (s : State) (core line : Nat) : State :=
  if l1Room s core line then s
  else
    let may := (l1Lines s core).filter fun l => (getLine s l).home == .stb
    let first := may.filter fun l => (getLine s l).fills.any fun f => f.agent == core && f.first
    match victim s (if first.isEmpty then may else first) with
    | (some l, s) => evictL1 s core l
    | (none, s) => s

/-- What an access does to the retention of its line: an earlier one ends at this access, which may ask for its own (R118). A
retained line of which no cache holds the only bytes is allocated in the LLC. -/
def retainLine (s : State) (line : Nat) (how : Alloc) : State :=
  let r := getLine s line
  let clean := r.l1.all fun e => e.2 == .s || e.2 == .o
  if how.llc = 3 then
    if r.llc = .i ∧ clean then trimLlc (setLine s (noteFill s how { r with retain := true, llc := .s } 512)) line
    else setLine s { r with retain := true }
  else if r.retain then setLine s { r with retain := false }
  else s

/-- A core's read of a line of a DC or SC page. A read that allocates nothing leaves it no copy. -/
def coRead (s : State) (a line cc : Nat) (how : Alloc := .plain) : State :=
  let s := quietLine s line
  if cc = 0 then s
  else
    let s := retainLine s line how
    if tgetD (getLine s line).l1 a .i ≠ .i then s
    else
      let s := if how.l1 = 1 then s else roomL1 s a line
      let r := serveRead (getLine s line) a
      setLine s (if how.l1 = 1 || !l1Room s a line then setCopy r a .i else noteFill s how r a)

/-- A core's write to bytes of a line of a DC or SC page; an SC line's external copies end. A write that allocates nothing ends
the other copies and leaves the core none. -/
def coWrite (s : State) (a line cc : Nat) (offs : List Nat) (part : Option Nat) (how : Alloc := .plain) : State :=
  let s := quietLine s line
  if cc = 0 then s
  else
    let s := if cc = 2 then backInvalidate s line else s
    let s := retainLine s line how
    match tgetD (getLine s line).l1 a .i with
    | .i =>
      let s := if how.l1 = 1 then s else roomL1 s a line
      let r := getLine s line
      if how.l1 = 1 || !l1Room s a line then
        setLine s (invalidateOthers { mergeRec r with llc := .i } a)
      else setLine s (noteFill s how (serveWrite s r a offs (orderedPart s part)) a)
    | _ => setLine s (serveWrite s (getLine s line) a offs (orderedPart s part))

/-- An atomic at the home (ATM): every copy, those outside the package among them, ends before it executes (R374), so that
it has been performed at every scope (R319, R333). -/
def coAtomic (s : State) (line cc : Nat) (how : Alloc := .plain) : State :=
  if cc = 0 then s
  else
    let s := if cc = 2 then backInvalidate s line else s
    let r := mergeRec (getLine s line)
    let r := invalidateOthers { r with llc := .i, retain := how.llc == 3 } 512
    setLine s (if how.ent.isSome then noteFill s how r 512 else r)

/-- Whether a copy that another package may write stands at a line: its bytes are not all here (R333, R374). -/
def ownedAway (s : State) (line : Nat) : Bool :=
  let r := getLine s line
  match r.owner with
  | some o => decide (o ≥ 323) && (!r.remotes.isEmpty || r.overflow) && (tgetD r.l1 o .i == .m || tgetD r.l1 o .i == .o)
  | none => false

/-- The copy of a package leaves a line's entry. -/
def forgetRemote (r : LineRec) (src : Nat) : LineRec :=
  if !r.remotes.contains src then r
  else
    let rest := r.remotes.filter (· ≠ src)
    if rest.isEmpty && !r.overflow then
      { r with remotes := rest, l1 := r.l1.filter fun e => e.1 < 323, sharers := r.sharers.filter (· < 323),
               owner := match r.owner with | some o => if o ≥ 323 then none else some o | none => none }
    else { r with remotes := rest }

/-! ### Snapshots (R310) -/

/-- The core of an agent. -/
def AgentId.coreOf : AgentId → Nat
  | .thread _ c _ => c
  | .scalar _ c _ => c

/-- The agent on the core that a function gives for its own: a restored panel's (R291). -/
def AgentId.onCore (f : Nat → Nat) : AgentId → AgentId
  | .thread k c t => .thread k (f c) t
  | .scalar k c n => .scalar k (f c) n

/-- Bytes stored by an agent of a core: the baselines of that core's agents follow (R310). -/
def storeBytes (s : State) (core pa : Nat) (bs : List Byte) : State :=
  let s := writePhys s pa bs
  let fresh (x : Snap) : Snap :=
    if x.agent.coreOf = core ∧ pa ≤ x.pa ∧ x.pa < pa + bs.length then { x with val := bs.getD (x.pa - pa) 0 } else x
  { s with snaps := s.snaps.map fresh }

/-- Whether an agent has a baseline of a byte in its phase. -/
def hasBase (s : State) (a : AgentId) (pa : Nat) : Bool := s.snaps.any fun x => x.agent == a && x.pa == pa

/-- The value of one byte for a plain load of an agent: its baseline. Where it has none the baselines of the naturally aligned
8 bytes around it that have none are fixed together, so that no aligned load mixes ages (R307). -/
def snapByte (s : State) (a : AgentId) (pa : Nat) : Byte × State :=
  match s.snaps.find? fun x => x.agent == a && x.pa == pa with
  | some x => (x.val, s)
  | none =>
    let near := ((List.range 8).map fun i => pa / 8 * 8 + i).filter fun q => !hasBase s a q
    (mget s.mem pa, { s with snaps := (near.map fun q => ⟨a, q, mget s.mem q⟩) ++ s.snaps })

/-- The bytes of a plain load. -/
def snapBytes (a : AgentId) : Nat → Nat → State → List Byte × State
  | _, 0, s => ([], s)
  | pa, n + 1, s =>
    let (b, s) := snapByte s a pa
    let (t, s) := snapBytes a (pa + 1) n s
    (b :: t, s)

/-- An agent's baselines of bytes take the value that its atomic has left there (R311). -/
def setSnaps (s : State) (a : AgentId) (pa : Nat) (bs : List Byte) : State :=
  let fresh (x : Snap) : Snap :=
    if x.agent = a ∧ pa ≤ x.pa ∧ x.pa < pa + bs.length then { x with val := bs.getD (x.pa - pa) 0 } else x
  { s with snaps := s.snaps.map fresh }

/-- An agent's baselines follow what memory holds. -/
def refreshSnaps (s : State) (a : AgentId) (pa n : Nat) : State := setSnaps s a pa (mread s.mem pa n)

/-- The code that stands at the target of an add reduction: that of its shadow, where it has one (R43). -/
def heldCode (s : State) (pa n : Nat) : Nat :=
  match (getLine s (lineOf pa)).shadows.find? fun h => h.pa == pa with
  | some h => shadowCode h
  | none => physNum s pa n

/-- Whether bytes of an access are poisoned (R381). -/
def poisoned (s : State) (pa n : Nat) : Bool :=
  (List.range n).any fun i => (getLine s ((pa + i) / 128)).poison.contains ((pa + i) % 128)

/-! ### Region conflicts (R243, R248, R326) -/

/-- The number of a region (R243). -/
def regionNum (w : Weft) : Nat := 256 * w.id.core + w.id.slot

/-- Whether a weft's region depends on another's, directly or through others. -/
def dependsOn (s : State) : Nat → WId → WId → Bool
  | 0, _, _ => false
  | n + 1, a, b =>
    match (getWeft s a).bind (·.region) with
    | none => false
    | some r => r.deps.contains b || r.deps.any fun d => dependsOn s n d b

/-- A region whose interval is empty aborts with CAUSE 1. -/
def checkEmpty (s : State) (id : WId) : State :=
  match getWeft s id with
  | some w => if w.region.isSome && decide (w.rhi < w.rlo) then abortRegion s id 1 0 0 else s
  | none => s

/-- Region y is placed after region x: the bounds of Table 5 narrow and y depends on x. A bound that would leave the
64-bit range empties its interval. -/
def placeAfter (s : State) (x y : WId) : State :=
  match getWeft s x, getWeft s y with
  | some wx, some wy =>
    match wx.region, wy.region with
    | some rx, some ry =>
      let top := wx.rlo == 0xFFFF_FFFF_FFFF_FFFF
      let lo := if top then wy.rlo else if wx.rlo + 1 > wy.rlo then wx.rlo + 1 else wy.rlo
      let hi := if wy.rhi = 0 then wx.rhi else if wy.rhi - 1 < wx.rhi then wy.rhi - 1 else wx.rhi
      let s := updWeft s y fun w =>
        { w with rlo := lo, region := some { ry with deps := if ry.deps.contains x then ry.deps else x :: ry.deps } }
      let s := if rx.serial then s else updWeft s x fun w => { w with rhi := hi }
      let s := if top then abortRegion s y 1 0 0 else checkEmpty s y
      if wy.rhi = 0 && !rx.serial then abortRegion s x 1 0 0 else checkEmpty s x
    | _, _ => s
  | _, _ => s

/-- Two open regions meet at a line: f makes the access, e holds marks there (Table 5 of R243; log entry 68 for a serial region
beside one of another domain or beside a stale reader). -/
def meetRegions (s : State) (f e : WId) (line : Nat) (write : Bool) : State :=
  match getWeft s f, getWeft s e with
  | some wf, some we =>
    match wf.region, we.region with
    | some rf, some re =>
      let eWrote := re.writes.contains line
      let eRead := re.reads.contains line
      if f = e || !(eWrote || (write && eRead)) then s
      else if partNum wf.key ≠ partNum we.key ∨ rf.dom ≠ re.dom then abortRegion s f 1 0 0
      else
        let rigidF := !rf.elastic && !rf.serial
        let rigidE := !re.elastic && !re.serial
        if rigidF || rigidE then
          let s := if rigidE then abortRegion s e 2 0 0 else s
          if rigidF then abortRegion s f 2 0 0 else s
        else if rf.serial then
          let s := placeAfter s f e
          if write && eRead then abortRegion s e 1 0 0 else s
        else
          let eFirst := re.serial || !write || eRead ||
            decide (we.rlo < wf.rlo) || (we.rlo == wf.rlo && decide (regionNum we < regionNum wf))
          let x := if eFirst then e else f
          let y := if eFirst then f else e
          let turn := dependsOn s s.wefts.length x y
          let s := placeAfter s x y
          if turn then abortRegion s f 1 0 0 else s
    | _, _ => s
  | _, _ => s

/-- The highest position that a commit of a domain has recorded for a line (R244). -/
def committedAt (r : LineRec) (part dom : Nat) : Option Nat :=
  (r.commits.find? fun c => c.1 == part && c.2.1 == dom).map (·.2.2)

/-- A region access marks a line (R242, R243): its lower bound rises above the last commit there, and it meets every
other open region. Afterwards the region may have aborted. Conflicts are found at the slices: an access for which the
region's own mark suffices, a read of a line that it has written included, hits in the L1 and meets none. -/
def regionTouch (s : State) (id : WId) (line : Nat) (write : Bool) : State :=
  match getWeft s id with
  | none => s
  | some w =>
    match w.region with
    | none => s
    | some r =>
      if (if write then r.writes else r.reads).contains line then s
      else
        let held := r.reads.contains line || r.writes.contains line
        let marked := (r.reads ++ r.writes.filter fun l => !r.reads.contains l).length
        if !write && held then updWeft s id fun w => { w with region := some { r with reads := line :: r.reads } }
        else if !held && marked ≥ 512 then abortRegion s id 3 0 0
        else
          let s := mergeLine (roomL1 s id.core line) line
          if !l1Room s id.core line then abortRegion s id 3 0 0
          else if ((getWeft s id).bind (·.region)).isNone then s
          else
            let r := if write then { r with writes := line :: r.writes } else { r with reads := line :: r.reads }
            let top := committedAt (getLine s line) (partNum w.key) r.dom
            let lo := match top with | some t => max w.rlo.toNat (t + 1) | none => w.rlo.toNat
            let s := updWeft s id fun w =>
              { w with region := some r, rlo := BitVec.ofNat 64 (min lo (2 ^ 64 - 1)) }
            let s := if lo ≥ 2 ^ 64 then abortRegion s id 1 0 0 else checkEmpty s id
            (openRegions s).foldl (fun s e => meetRegions s id e line write) s

/-- The effect of a store, atomic, reduction or CAS from outside any region on the regions that mark its line
(R243): they abort with CAUSE 1. The region of the writing weft itself, which an STP leaves alone, does not. -/
def strayWrite (s : State) (line : Nat) (own : Option WId := none) : State :=
  (openRegions s).foldl (fun s e =>
    match (getWeft s e).bind (·.region) with
    | some r => if some e ≠ own ∧ (r.reads.contains line ∨ r.writes.contains line) ∧ !r.serial then abortRegion s e 1 0 0 else s
    | none => s) s

/-- Whether a serial region of another weft marks a line: a write from outside waits for it, because no conflict aborts it
(R75, R248). -/
def serialMarks (s : State) (line : Nat) (own : Option WId := none) : Bool :=
  s.wefts.any fun w => match w.region with
    | some r => some w.id != own && r.serial && (r.reads.contains line || r.writes.contains line)
    | none => false

end Sys2Proof.Machine
end

