-- ==== Sys2Proof/Machine/Order.lean ====
section
/-!
DEFINITION. Boundaries (R306, R319, R322, R331, R332, R382): what a release waits for and performs, and acquires.
-/
namespace Sys2Proof.Machine

/-- Whether an agent is one for which a boundary of some lanes acts: theirs, and the weft's scalar agent (R306). -/
def boundaryAgent (w : Weft) (act : Mask) (a : AgentId) : Bool :=
  a == agentAt w true 0 || (lanesOf act).any fun l => a == agentAt w false l

/-- The erring reductions of the agents of a boundary (R382). -/
def erredOf (s : State) (w : Weft) (act : Mask) : List ErredLane := s.erred.filter fun e => boundaryAgent w act e.agent

/-- The error records of lanes whose atomic response erred (R382). -/
def erredRecords (s : State) (w : Weft) (es : List ErredLane) : State :=
  es.foldl (fun s e =>
    errRecord s w.key.part 10 cAtomicResponse (laneBit e.lane).toNat w.id.core (if e.applied then 1 else 0) e.va 0) s

/-- The lowest-numbered erring lane. -/
def lowestErred (e : ErredLane) (es : List ErredLane) : ErredLane := es.foldl (fun a b => if b.lane < a.lane then b else a) e

/-- Whether a boundary of a scope waits for posted requests of its agents: at `.sys` for every one, and from `.panel` on for
the reductions, which are performed where a peer's home executes them (R323, R324, R331; log entry 78). -/
def unacked (s : State) (w : Weft) (act : Mask) (scope : Nat) : Bool :=
  s.postedW.any fun x => x.owner.any (boundaryAgent w act) &&
    (scope == 5 || decide (scope ≥ 2) && match x.op with | .write _ => false | _ => true)

/-- Whether a boundary waits for writes in a stall window. In ordered mode one of at most `.pkg` scope does not (R335). -/
def heldBack (s : State) (w : Weft) (act : Mask) (scope : Nat) : Bool :=
  heldWrites s (boundaryAgent w act) && !(orderedPart s w.key.part && decide (scope ≤ 4))

/-- Every line that a core holds under a byte mask is merged (R322). -/
def mergeCore (s : State) (core : Nat) : State :=
  s.lines.foldl (fun s r => if r.masks.any fun x => x.1 == core then mergeLine s r.line else s) s

/-- Whether the wait of a sub-weft's boundary for acknowledgements has ended in PEER_LOST (R332). -/
def lostAt (b : Sub) : Bool := b.hold == .walkFault cPeerLost 0

/-- A release boundary of a scope, and what follows it (R306, R319, R332, R382). -/
def withRelease (x : Ctx) (scope : Nat) (next : State → R Out) : R Out :=
  let es := erredOf x.s x.w x.act
  if heldBack x.s x.w x.act scope then .error .wait
  else
    match es with
    | e :: _ =>
      let s := erredRecords x.s x.w es
      let s := { s with erred := s.erred.filter fun y => !es.contains y }
      let lanes := es.foldl (fun m y => m ||| laneBit y.lane) 0
      .ok ⟨s, .fault cAtomicResponse (lowestErred e es).va lanes (es.any (·.applied)) true, []⟩
    | [] =>
      if lostAt x.b then .error (.fault cPeerLost 0 0)
      else if unacked x.s x.w x.act scope then .ok ⟨updCur x.s x.c fun b => { b with hold := .sysWait x.act }, .wait, []⟩
      else next (if scope ≥ 2 then mergeCore x.s x.w.id.core else x.s)

/-- An acquire boundary for the agents of a unit (R310, R319). -/
def acquireNow (x : Ctx) (s : State) : State := acquireFor s (boundaryAgent x.w x.act)

end Sys2Proof.Machine
end

