-- ==== Sys2Proof/Machine/Access.lean ====
section
/-!
DEFINITION. How a thread's accesses reach memory (R219 to R222, R310, R331, R362): addresses, checks, the remote
gate, plain reads and writes of lanes, buffered region accesses, replies on their way and symbolic accesses.
-/
namespace Sys2Proof.Machine

/-! ### Addresses and checks (R219, R220) -/

/-- One lane's access that has passed its checks. -/
structure LaneAcc where
  lane : Nat
  va : Nat
  pa : Nat
  leaf : Nat
  deriving DecidableEq, Repr

/-- The lanes that access memory: the active ones, or one for a scalar instruction. -/
def accLanes (x : Ctx) : List Nat := if x.scalar then [lowest x.act] else lanesOf x.act

/-- A and B of R219 for each lane. -/
def laneAddrs (x : Ctx) : R (List (Nat × Nat)) := do
  let a ← rd x .a true
  let b ← rd x .b false
  .ok ((accLanes x).map fun l => (l, (a.getD l 0 + ((b.getD l 0).setWidth 32).signExtend 64).toNat))

/-- The addresses of an instruction that takes its whole address from A. -/
def wholeAddrs (x : Ctx) : R (List (Nat × Nat)) := do
  let a ← rd x .a true
  .ok ((accLanes x).map fun l => (l, (a.getD l 0).toNat))

/-- Whether the outcome of a check is a fault. -/
def xlFault : Xl → Bool
  | .fault _ => true
  | _ => false

/-- The checks of R220 on each lane. A lane whose translation a front must walk for parks the sub-weft; a failing
lane faults the instruction with the lowest such lane's address. -/
def checkAll (x : Ctx) (k : AccKind) (scope align : Nat) (vas : List (Nat × Nat)) : R (List LaneAcc) :=
  let rs := vas.map fun e => (e, xlCheck x.s x.w x.p x.b k scope e.2 align)
  let bad := maskOf ((rs.filter fun r => xlFault r.2).map fun r => r.1.1)
  let step (r : (Nat × Nat) × Xl) : R LaneAcc :=
    match r.2 with
    | .ok pa leaf => .ok ⟨r.1.1, r.1.2, pa, leaf⟩
    | .fault c => .error (.fault c r.1.2 bad)
    | .miss => .error (.xlate r.1.2 (k == .write))
  rs.mapM step

/-- The walks of an access that waits for none end at once: the state with its pages cached, and the checks of R220 on each
lane, a page whose walk fails giving its fault. -/
def checkWarm (x : Ctx) (k : AccKind) (scope align : Nat) (vas : List (Nat × Nat)) : State × R (List LaneAcc) :=
  let warm (s : State) (va : Nat) : State :=
    match tlbFind s x.p.asid x.w.key.part va with
    | some _ => s
    | none => match finishWalk s x.p.asid x.w.key.part va with | .ok t => t | .error _ => s
  let s := (vas.filter fun e => decide (e.2 < 2 ^ 57)).foldl (fun s e => warm s e.2) x.s
  let hold (e : Nat × Nat) : Hold :=
    match finishWalk s x.p.asid x.w.key.part e.2 with
    | .error c => .walkFault c e.2
    | .ok _ => .none
  let rs := vas.map fun e => (e, xlCheck s x.w x.p { x.b with hold := hold e } k scope e.2 align)
  let bad := maskOf ((rs.filter fun r => xlFault r.2).map fun r => r.1.1)
  let step (r : (Nat × Nat) × Xl) : R LaneAcc :=
    match r.2 with
    | .ok pa leaf => .ok ⟨r.1.1, r.1.2, pa, leaf⟩
    | .fault c => .error (.fault c r.1.2 bad)
    | .miss => .error .wait
  (s, rs.mapM step)

/-- The scope at which an access must be legal: that of the open region, or none (R221, R242). -/
def accScope (w : Weft) : Nat := match w.region with | some r => r.scope | none => 0

/-- The cached translation of an address that has passed its checks. -/
def entOf (s : State) (x : Ctx) (va : Nat) : TlbEnt :=
  (tlbFind s x.p.asid x.w.key.part va).getD ⟨x.p.asid, va / 4096, 12, 0, 0, 0, none⟩

/-- The home of a page is met under the translation of an address: its leader, or a synonym (R355). -/
def meetPage (s : State) (x : Ctx) (va : Nat) : State :=
  match tlbFind s x.p.asid x.w.key.part va with
  | some e => noteLeader s x.w.key.part e x.w.id.core va
  | none => s

/-- How an access allocates: by its unit's ATTR (R118), under the translation of its address. -/
def allocOf (s : State) (x : Ctx) (va : Nat) : Alloc :=
  let e := tlbFind s x.p.asid x.w.key.part va
  match x.f.attr with
  | some t => ⟨t.l1p.toNat, t.llcp.toNat, e⟩
  | none => ⟨0, 0, e⟩

/-- Whether ATTR's UNC keeps an access out of the counters (R118, R359). -/
def uncounted (x : Ctx) : Bool :=
  match x.f.attr, x.w.key.part.bind (getPart x.s) with
  | some t, some p => t.unc && p.desc.uncen
  | _, _ => false

/-- The accesses as watchpoints see them. -/
def touchesOf (accs : List LaneAcc) (n : Nat) (rd wr : Bool) : List Touch :=
  accs.map fun a => ⟨a.lane, false, 0, a.va, n, rd, wr⟩

/-! ### Peers (R385, R387, R389) -/

/-- The refusal of some accesses of a unit's lanes, with its record (R387). -/
def refuseLanes (s : State) (x : Ctx) (accs : List LaneAcc) : Option (State × Nat × Mask) :=
  match accs.filterMap fun l => match placeOf s l.pa with | .refused f => some (l, f) | _ => none with
  | (l, fa) :: r =>
    let bad := maskOf (l.lane :: r.map fun e => e.1.lane)
    some (refusalRecord s x.w.key.part cPermission bad.toNat x.w.id.core l.va fa, l.va, bad)
  | [] => none

/-- What an access needs before its unit goes on: a line of a peer, an atomic at a peer's home, or a place in the stall window
of the line that a move copies (R362). -/
inductive Far
  | line (target off : Nat)
  | atomic (target off : Nat) (op : PktOp)
  | window (m : Move) (op : PktOp)
  deriving DecidableEq, Repr

/-- What a plain read needs: the line where it is a peer's. -/
def farLine (s : State) (a : LaneAcc) : Option Far :=
  match placeOf s a.pa with
  | .peer t off => some (.line t off)
  | _ => none

/-- The request of one access of a unit: a packet to the peer, or an entry in the stall window. The accesses of a unit to one
line of a peer ask for it once. -/
def askFar (x : Ctx) (scope id : Nat) (s : State) (e : LaneAcc × Far) : State :=
  let pa := localPa s e.1.pa
  let out (t off : Nat) (op : PktOp) (s : State) : State :=
    { s with outReqs := s.outReqs ++ [⟨id, t, x.w.id, e.1.lane, e.1.va, t * 2 ^ 48 + off, pa, op⟩] }
  match e.2 with
  | .line t off =>
    if s.outReqs.any fun r => r.id == id && !asksAtom r && lineOf r.pa == lineOf pa then s
    else
      let (p, s) := makePacket s t (off / 128 * 128) 128 .read 0 x.w.key.part
      out t off .read (injectPacket s p)
  | .atomic t off op =>
    let (p, s) := makePacket s t off (opLen op) op 0 x.w.key.part
    out t off op (injectPacket s p)
  | .window m op =>
    let h : WinWrite := ⟨agentAt x.w x.scalar e.1.lane, e.1.pa, [], some op, scope, some (id, x.w.id, e.1.lane)⟩
    { s with moves := s.moves.map fun y => if y.id = m.id then { y with held := y.held ++ [h] } else y }

/-- Loads, ATOM and CAS whose accesses need something far: the first issue sends the requests, once no posted write to their
lines is unacknowledged, and waits; with the last response the unit goes on. A refused access faults PERMISSION. -/
def remoteGate (x : Ctx) (scope : Nat) (accs : List LaneAcc) (far : LaneAcc → Option Far) (go : R Out) : R Out :=
  let fars := accs.filterMap fun a => (far a).map fun f => (a, f)
  match refuseLanes x.s x accs, fars with
  | some (s, va, bad), _ => .ok ⟨s, .fault cPermission va bad false false, []⟩
  | none, [] => go
  | none, (a, _) :: _ =>
    let behind (e : LaneAcc × Far) : Bool :=
      match e.2 with
      | .window _ _ => false
      | _ => postsOut x.s (lineOf (localPa x.s e.1.pa))
    match x.b.hold with
    | .remoteDone _ => go
    | .remote _ _ => .error .wait
    | .walkFault code va => .error (.fault code va (laneBit a.lane))
    | _ =>
      if fars.any behind then .error .wait
      else
        let (id, s) := freshId x.s
        .ok ⟨updCur (keepPops x (fars.foldl (askFar x scope id) s)) x.c fun b => { b with hold := .remote id [] }, .wait, []⟩

/-- The lines of peers that a unit reads for itself must have arrived; the pairs are virtual and window addresses. -/
def awayGate (x : Ctx) (l : List (Nat × Nat)) : R Unit :=
  let who : Fetcher := .unit x.w.id x.c.lane
  let far := l.filter fun e => (match placeOf x.s e.2 with | .here _ => false | _ => true) && !fetched x.s who e.2
  match far, x.b.hold with
  | [], _ => .ok ()
  | _, .walkFault code va => if far.any fun e => e.1 == va then .error (.fault code va 0) else .error (.away who far)
  | _, _ => .error (.away who far)

/-- A posted write or reduction of an agent of a weft, for which its releases wait (R331). -/
def postOp (s : State) (w : WId) (owner : AgentId) (part : Option Nat) (target off pa : Nat) (op : PktOp)
    (also : List (Nat × List Byte) := []) : State :=
  (postAt s w.core none (some owner) part target off pa op also).2

/-- A store of an agent to a peer: its bytes stand at the window address, the baselines of its core's agents follow, and they
travel as a posted write. -/
def postWrite (s : State) (w : WId) (owner : AgentId) (part : Option Nat) (target off pa : Nat) (bs : List Byte) : State :=
  postOp (storeBytes s w.core pa bs) w owner part target off pa (.write bs)

/-! ### Moves and homes that hold an access -/

/-- The move that is copying the line of an address (R362). -/
def copyingAt (s : State) (pa : Nat) : Option Move :=
  match moveOf s pa with
  | some m => if !m.dup && m.stage == .copying && m.c == pa % 4096 / 128 then some m else none
  | none => none

/-- Whether the memory of a line answers: at PL3 and beyond its die's homes do not (R433). -/
def homeAwake (s : State) (line : Nat) : Bool := decide (tgetD s.power (homeDie (line * 128)) 0 < 3)

/-- Whether the home of a line serves requests at once. -/
def lineServes (s : State) (line cc : Nat) : Bool :=
  homeAwake s line &&
  (cc == 0 || (match (getLine s line).home with | .stb => true | .mig => true | _ => false) && !ownedAway s line)

/-- The line of an access after moves. -/
def accLine (s : State) (a : LaneAcc) : Nat := lineOf (localPa s a.pa)

/-- Whether a symbolic access of a weft to a line of a peer is still on its way (R88). -/
def symPends (s : State) (p : SymAcc → Bool) (line : Nat) : Bool :=
  s.symAccs.any fun a => p a && a.value.isNone && a.pas.any fun pa => lineOf pa == line

/-- Whether a serial region of a weft meets the marks of another domain's region: neither may abort for the other, so the
access waits while that region is open, unless it is serial and was opened later (R248, R326, log entry 68). -/
def serialBehind (x : Ctx) (line : Nat) (write : Bool) : Bool :=
  match x.w.region with
  | some f => f.serial && x.s.wefts.any fun e =>
    match e.region with
    | some r => e.id != x.w.id && (e.key.part != x.w.key.part || r.dom != f.dom) &&
        (r.writes.contains line || (write && r.reads.contains line)) && (!r.serial || decide (r.opened < f.opened))
    | none => false
  | none => false

/-- Reads that must wait: a home in a transaction, the agent's own held writes to the line (R362, R373), or another domain's
region (R326). -/
def homeBlocked (x : Ctx) (agent : Nat → AgentId) (accs : List LaneAcc) : R Unit :=
  let held (a : LaneAcc) : Bool :=
    match copyingAt x.s a.pa with
    | some m => m.held.any fun h => h.agent == agent a.lane && lineOf h.pa == lineOf a.pa
    | none => false
  if accs.any fun a => held a || !lineServes x.s (accLine x.s a) (leafCC a.leaf) ||
      serialBehind x (accLine x.s a) false then .error .wait else .ok ()

/-- Reads also wait for a symbolic access of the weft before them (R308). -/
def readBlocked (x : Ctx) (agent : Nat → AgentId) (accs : List LaneAcc) : R Unit :=
  let mine (a : SymAcc) : Bool := a.key == x.w.key && a.num == x.w.num
  if accs.any fun a => symPends x.s mine (accLine x.s a) then .error .wait else homeBlocked x agent accs

/-- Writes that must wait or park (R222, R248, R362, R366): in ordered mode they also wait for the agent's held writes (R335,
R379). -/
def writeBlocked (x : Ctx) (accs : List LaneAcc) : R Unit :=
  let line (a : LaneAcc) : Nat := accLine x.s a
  let inRegion := x.w.region.isSome
  let held (a : LaneAcc) : Bool := (copyingAt x.s a.pa).isSome
  let room (a : LaneAcc) : Bool :=
    match copyingAt x.s a.pa with
    | some m => decide (m.held.length + (accs.filter held).length ≤ 32)
    | none => true
  let near (a : SymAcc) : Bool := a.core == x.w.id.core
  let behind (a : LaneAcc) : Bool :=
    orderedPart x.s x.w.key.part && heldWrites x.s fun g => g == agentAt x.w x.scalar a.lane
  if accs.any fun a => collapseWaits x.s (a.pa / 4096) || !lineServes x.s (line a) (leafCC a.leaf) ||
      (!inRegion && serialMarks x.s (line a) (some x.w.id)) || symPends x.s near (line a) || behind a ||
      serialBehind x (line a) true then .error .wait
  else
    match if inRegion then none else accs.find? fun a => !room a with
    | some a => .error (.park .window (match copyingAt x.s a.pa with | some m => .window m.id | none => .any))
    | none => .ok ()

/-! ### Reading -/

/-- The buffered byte that a region's load returns: its own, or that of a region on which it depends (R243, R312). -/
def bufByte (s : State) (w : Weft) (pa : Nat) : Option Byte :=
  match w.region with
  | none => none
  | some r =>
    match tget r.buf pa with
    | some b => some b
    | none => r.deps.findSome? fun d => ((getWeft s d).bind (·.region)).bind fun q => tget q.buf pa

/-- The bytes of a plain load under the snapshot of its agent, with a region's buffered bytes over them. -/
def loadBytes (s : State) (x : Ctx) (agent : AgentId) (a : LaneAcc) (n : Nat) : List Byte × State :=
  let pa := localPa s a.pa
  let s := meetPage s x a.va
  let s := coRead s x.w.id.core (lineOf pa) (leafCC a.leaf) (allocOf s x a.va)
  let (bs, s) := snapBytes agent pa n s
  match getWeft s x.w.id with
  | none => (bs, s)
  | some w => ((List.range n).map fun i => (bufByte s w (pa + i)).getD (bs.getD i 0), s)

/-- A region marks the lines of its accesses; it may abort (R242, R243). At the first access to a line the baselines of its
agents there end, so that what the region reads is current at its position (R325, log entry 67). -/
def touchRegion (s : State) (x : Ctx) (accs : List LaneAcc) (write : Bool) : State :=
  match x.w.region with
  | none => s
  | some r =>
    let ls := (accs.map (accLine s)).eraseDups
    let fresh := ls.filter fun l => !r.reads.contains l && !r.writes.contains l
    let s := { s with snaps := s.snaps.filter fun y => !(agentOf x.w y.agent && fresh.contains (lineOf y.pa)) }
    ls.foldl (fun s l => regionTouch s x.w.id l write) s

/-- Whether the region that was open at the unit's start has gone. -/
def regionLost (s : State) (x : Ctx) : Bool :=
  x.w.region.isSome && (match getWeft s x.w.id with | some w => w.region.isNone | none => true)

/-- The lines of accesses counted at their homes as plain accesses (R359). -/
def countLines (s : State) (x : Ctx) (accs : List LaneAcc) (isRead : Bool) : State :=
  if uncounted x then s
  else
    let ls := (accs.map fun a => (a.va / 128, a.va)).foldl
      (fun (acc : List (Nat × Nat)) e => if acc.any fun y => y.1 == e.1 then acc else acc ++ [e]) []
    ls.foldl (fun s e => countPlain s x.w.key.part (entOf s x e.2) x.w.id.core 1 isRead) s

/-- A read of poisoned bytes halts the weft and logs a machine check (R381). -/
def poisonStop (s : State) (x : Ctx) (accs : List LaneAcc) (n : Nat) : Option Out :=
  let pa (a : LaneAcc) : Nat := localPa s a.pa
  match accs.find? fun a => poisoned s (pa a) n with
  | some a => some ⟨machineCheck (haltWeft s x.w.id) 26 x.w.id.core (pa a) 0 1, .jumped, []⟩
  | none => none

/-- The agent of a lane's access (R303). -/
def accAgent (x : Ctx) (l : Nat) : AgentId := agentAt x.w x.scalar l

/-- The numbers that lanes load, by lane, in ascending order. -/
def loadAll (s : State) (x : Ctx) (agent : Nat → AgentId) (accs : List LaneAcc) (n : Nat) : State × List (Nat × Nat) :=
  accs.foldl (fun acc a =>
    let (bs, s) := loadBytes acc.1 x (agent a.lane) a n
    (s, acc.2 ++ [(a.lane, ofBytes bs)])) (s, [])

/-- The reads of lanes whose lines are here: the numbers read, by lane, go to what follows. -/
def readNow (x : Ctx) (agent : Nat → AgentId) (accs : List LaneAcc) (n : Nat) (go : State → List (Nat × Nat) → R Out) :
    R Out :=
  match poisonStop x.s x accs n with
  | some o => .ok o
  | none =>
    let s := touchRegion x.s x accs false
    if regionLost s x then .ok ⟨s, .jumped, []⟩
    else
      let (s, vals) := loadAll s x agent accs n
      go (countLines s x accs true) vals

/-- Plain reads of n bytes by lanes that have passed their checks. -/
def readLines (x : Ctx) (agent : Nat → AgentId) (accs : List LaneAcc) (n : Nat) (go : State → List (Nat × Nat) → R Out) :
    R Out := do
  readBlocked x agent accs
  remoteGate x 0 accs (farLine x.s) (readNow x agent accs n go)

/-! ### Writing -/

/-- A write held in the stall window of the line that is being copied (R362). -/
def holdWrite (s : State) (m : Move) (agent : AgentId) (pa : Nat) (bs : List Byte) : State :=
  { s with moves := s.moves.map fun x => if x.id = m.id then { x with held := x.held ++ [⟨agent, pa, bs, none, 0, none⟩] } else x }

/-- One lane's plain store outside a region. -/
def storeOne (s : State) (x : Ctx) (agent : AgentId) (a : LaneAcc) (bs : List Byte) : State :=
  let s := markDirty s x.p.asid x.w.key.part a.va
  match placeOf s a.pa with
  | .refused fa => refusalRecord s x.w.key.part 0 0 x.w.id.core 0 fa
  | p =>
    match copyingAt s a.pa, p with
    | some m, _ => holdWrite s m agent a.pa bs
    | none, .peer t off =>
      let s := strayWrite s (accLine s a) (some x.w.id)
      postWrite s x.w.id agent x.w.key.part t off (localPa s a.pa) bs
    | none, _ =>
      let pa := localPa s a.pa
      let s := strayWrite (collapsePage s (a.pa / 4096)) (lineOf pa) (some x.w.id)
      let s := meetPage s x a.va
      let s := coWrite s x.w.id.core (lineOf pa) (leafCC a.leaf) (offsetsIn pa bs.length) x.w.key.part (allocOf s x a.va)
      storeBytes s x.w.id.core pa bs

/-- Bytes put into the open region's buffer (R242). -/
def bufferBytes (s : State) (id : WId) (pa : Nat) (bs : List Byte) : State :=
  let put (r : Region) : Region :=
    { r with buf := (List.range bs.length).foldl (fun t i => tset t (pa + i) (bs.getD i 0)) r.buf }
  updWeft s id fun w => { w with region := w.region.map put }

/-- One lane's store inside the open region. -/
def regionStore (s : State) (x : Ctx) (a : LaneAcc) (bs : List Byte) : State :=
  let pa := localPa s a.pa
  bufferBytes (markDirty s x.p.asid x.w.key.part a.va) x.w.id pa bs

/-- Plain writes by lanes that have passed their checks, in ascending lane order; then what follows. -/
def writeLines (x : Ctx) (agent : Nat → AgentId) (ws : List (LaneAcc × List Byte)) (go : State → R Out) : R Out := do
  let accs := ws.map (·.1)
  writeBlocked x accs
  let s := touchRegion x.s x accs true
  if regionLost s x then .ok ⟨s, .jumped, []⟩
  else
    let one (s : State) (e : LaneAcc × List Byte) : State :=
      if x.w.region.isSome then regionStore s x e.1 e.2 else storeOne s x (agent e.1.lane) e.1 e.2
    go (countLines (ws.foldl one s) x accs false)

/-! ### Replies on their way (R125, R86) -/

/-- The registers that a reply to D will write. -/
def replyRegs (d : Operand) (wide : Bool) : List RegId :=
  match d with
  | .v n => .lat false :: .v n.val :: if wide then [.v (n.val + 1)] else []
  | .s n => .s n.val :: if wide then [.s (n.val + 1)] else []
  | .o n => [.lat false, .o n.val]
  | _ => [.lat false]

/-- The checks of a result that lands later: its registers are free, no symbol is written in part, and the charge
of its registers as shape G fits (R86, R91). -/
def replyOk (x : Ctx) (s : State) (d : Operand) (wide : Bool) (ls : List Landing) : R Unit := do
  dstFree x (replyRegs d wide)
  cutSym x.w (match d with | .v n => pairRegs n.val wide | _ => []) x.act
  let before := chargeAll x.s x.w
  let after := chargeAll { s with landings := s.landings ++ ls } x.w
  if after > before && after > lineBudget x.p x.w then oops cShapeOver else .ok ()

/-- One landing. -/
def mkLanding (x : Ctx) (id : Nat) (d : Operand) (wide : Bool) (lanes : Mask) (vals : List Word64) (split : Bool)
    (va : List Nat) : Landing :=
  { id := id, w := x.w.id, d := d, wide := wide, lanes := lanes, vals := vals, err := 0, applied := 0, atom := false,
    split := split, next := x.c.pc + BitVec.ofNat 64 (8 * x.c.words), va := va }

/-- The values of lanes as a list of sixteen; a scalar one in every lane. -/
def spread (x : Ctx) (f : Nat → Word64) (vals : List (Nat × Nat)) : List Word64 :=
  if x.scalar then splat (f (vals.headD (0, 0)).2)
  else lanes16.map fun l => match vals.find? fun e => e.1 == l with | some e => f e.2 | none => 0

/-- The landings of a load's reply: one, or one for each line where `.split` marks the load (R70). -/
def loadLandings (x : Ctx) (s : State) (d : Operand) (wide split : Bool) (accs : List LaneAcc) (vals : List Word64) :
    List Landing × State :=
  let (id, s) := freshId s
  let groups := (accs.map fun a => a.va / 128).eraseDups
  if split && groups.length > 1 then
    let ls := groups.map fun g =>
      let mine := accs.filter fun a => a.va / 128 == g
      (maskOf (mine.map (·.lane)), mine.map (·.va))
    ((List.range ls.length).map fun i =>
      mkLanding x (id + i) d wide (ls.getD i (0, [])).1 vals true (ls.getD i (0, [])).2,
     { s with nextId := s.nextId + ls.length })
  else ([mkLanding x id d wide x.act vals false (accs.map (·.va))], s)

/-- Results on their way: the landings, and their writes in the stall window (R123). -/
def sendReplies (x : Ctx) (s : State) (ls : List Landing) : State :=
  let mark (lanes : Mask) (w : Weft) (r : RegId) : Weft :=
    { w with window := winWrite w x.b r (if perLane r then lanes else 0xFFFF) none }
  updWeft { s with landings := s.landings ++ ls } x.w.id fun w =>
    ls.foldl (fun w l => (replyRegs l.d l.wide).foldl (mark l.lanes) w) w

/-- Results that will land, added to the state. A scalar load into zero has no register to land in. -/
def addReplies (x : Ctx) (s : State) (d : Operand) (wide : Bool) (ls : List Landing) : R State := do
  if x.scalar && d == .zero then .ok s
  else
    replyOk x s d wide ls
    .ok (sendReplies x s ls)

/-! ### Memory types (R224) -/

/-- Res of R164 for a memory type of Table 1. -/
def memRes (t v : Nat) : Word64 :=
  match t with
  | 9 | 11 => BitVec.ofNat 64 v
  | 8 | 10 => BitVec.ofNat 64 (v % 2 ^ 32)
  | _ => resOf t (v : Int)

/-- The symbol kind of a memory type (R223). -/
def memKind (t : Nat) : Nat :=
  match t with
  | 2 | 3 | 9 => 1
  | 10 => 2
  | 11 => 3
  | _ => 0

/-! ### Symbolic accesses (R88, R93) -/

/-- The slot that a `.sym` access takes; none where it executes as if unmarked. -/
def symSlot (x : Ctx) (marked : Bool) : Option (Nat × Nat) :=
  if marked && fullAct x then
    match x.f.d, freeSlot x.w with
    | .v n, some slot => some (n.val, slot)
    | _, _ => none
  else none

/-- A symbolic access as its instruction makes it (R88): before its addresses are checked. -/
def newSym (x : Ctx) (slot kind : Nat) (vas : List Nat) (bytes : Nat) (signed : Bool) (opnd : List Word64) : SymAcc :=
  { key := x.w.key, num := x.w.num, slot := slot, kind := kind, value := none, queue := none, vas := vas,
    bytes := bytes, signed := signed, va0 := x.c.pc, level := x.w.level, core := x.w.id.core, m := x.m, f := x.f,
    opnd := opnd, pas := [], got := [], live := (accLanes x).map (agentAt x.w false) }

/-- A symbolic access is issued: D becomes a symbol, and the access waits for its arrival, with or without a value. -/
def issueSym (x : Ctx) (s : State) (n : Nat) (a : SymAcc) : R State := do
  let w ← allocSym x ((getWeft s x.w.id).getD x.w) n a.slot a.kind
  let s := setWeft s w
  .ok { s with symAccs := s.symAccs ++ [a] }

/-- The fetches of a symbolic access. -/
def symWho (a : SymAcc) : Fetcher := .symbol a.key a.num a.slot

/-- The lanes of a symbolic access with their addresses. -/
def symLanes (x : Ctx) (a : SymAcc) : List (Nat × Nat) := (accLanes x).zip a.vas

/-- A TRANSLATION fault of a symbolic access saves its panel, and the access is issued again when the panel is restored
(R72, R93). -/
def stopForPage (s : State) (x : Ctx) (tval : Nat) (lanes : Mask) : State :=
  let s := if x.w.region.isSome then abortRegion s x.w.id 5 (cTranslation % 256) 0 else s
  updPanel (stopPanel s x.w.key) x.w.key fun p => { p with saveVa := some (tval, x.w.id.core, lanes) }

/-- A symbolic access carried out at its instruction by a run that gives the access with its value, or with what it waits for. A
TRANSLATION fault leaves its slot pending; any other fault waits for the weft's next boundary (R93). -/
def symIssue (x : Ctx) (n : Nat) (a : SymAcc) (run : Ctx → SymAcc → State × R SymAcc) : R Out :=
  match run x a with
  | (s, .ok a) =>
    if regionLost s x then .ok ⟨s, .jumped, []⟩
    else do
      let s ← issueSym x s n a
      .ok ⟨s, .next, (symLanes x a).map fun e => ⟨e.1, false, 0, e.2, a.bytes, true, a.m == .atom⟩⟩
  | (s, .error (.fault code tval lanes)) =>
    if code = cViolation then .error (.fault code tval lanes)
    else do
      let s ← issueSym x s n a
      if code = cTranslation then .ok ⟨stopForPage s x tval lanes, if x.w.region.isSome then .jumped else .next, []⟩
      else Out.step (failSym s a code tval lanes)
  | (s, .error .wait) => .ok ⟨s, .wait, []⟩
  | (_, .error e) => .error e

/-- The value of a symbolic access once every lane has one. -/
def symDone (x : Ctx) (a : SymAcc) (res : Nat → Word64) : SymAcc :=
  if (accLanes x).all fun l => a.got.any fun e => e.1 == l then { a with value := some (spread x res a.got), pas := [] } else a

/-- Whether every byte of a lane's access has a baseline of its agent. -/
def lanesBased (s : State) (x : Ctx) (l : LaneAcc) (n : Nat) : Bool :=
  (List.range n).all fun i => hasBase s (agentAt x.w false l.lane) (localPa s l.pa + i)

/-- A symbolic load at its place in program order (R312): the lanes whose lines are here, and those with a baseline, have their
values at once; the lines of peers are asked for. -/
def symLoad (x : Ctx) (a : SymAcc) : State × R SymAcc :=
  match checkWarm x .read (accScope x.w) a.bytes (symLanes x a) with
  | (s, .error e) => (s, .error e)
  | (s, .ok accs) =>
    let x := { x with s := s }
    let away (l : LaneAcc) : Bool := !(match placeOf s l.pa with | .here _ => true | _ => false) && !lanesBased s x l a.bytes
    let far := accs.filter away
    match homeBlocked x (agentAt x.w false) accs, refuseLanes s x far with
    | .error e, _ => (s, .error e)
    | .ok _, some (s, va, bad) => (s, .error (.fault cPermission va bad))
    | .ok _, none =>
      if far.any fun l => postsOut s (accLine s l) then (s, .error .wait)
      else
        let s := touchRegion s x accs false
        let near := accs.filter fun l => !away l
        let s := match poisonStop s x near a.bytes with | some o => o.s | none => s
        let (s, got) := loadAll s x (agentAt x.w false) near a.bytes
        let s := countLines (far.foldl (fun s l => askLine (symWho a) none x.w.key.part s l.va l.pa) s) x accs true
        (s, .ok (symDone x { a with got := got, pas := far.map fun l => localPa s l.pa } (memRes a.f.mod.toNat)))

end Sys2Proof.Machine
end

