-- ==== Sys2Proof/Machine/EngineMem.lean ====
section
/-!
DEFINITION. The memory accesses of engines and of the message engine (R252, R256, R337, R359), completion queues
(R257, R259) and the records of waits for absent pages (R413 KIND 13).
-/
namespace Sys2Proof.Machine

/-- For whom an engine accesses memory: ASID, partition, whether U is needed, the core whose number it uses, and
whether its accesses are not counted. -/
structure EngFor where
  asid : Nat
  part : Option Nat
  user : Bool
  core : Nat
  unc : Bool
  deriving DecidableEq, Repr

/-- Why an engine's access is not made now. -/
inductive EngStop
  | absent (va : Nat)
  | denied (va : Nat)
  | wait
  deriving DecidableEq, Repr

/-- An engine's accesses for a panel on a core. A user-level panel needs U (log entry 21). -/
def engFor (p : Panel) (core : Nat) (unc : Bool) : EngFor := ⟨p.asid, p.key.part, p.level = 0, core, unc⟩

/-- A page that an access has reached is no longer noted as waited for (KIND 13). -/
def unnote (s : State) (part : Option Nat) (va : Nat) : State :=
  match part with
  | none => s
  | some p =>
    match getPart s p with
    | none => s
    | some x =>
      if x.pageNoted.contains (va / 4096) then
        updPart s p fun x => { x with pageNoted := x.pageNoted.filter fun y => y ≠ va / 4096 }
      else s

/-- Whether a leaf refuses an engine's access: permission, channel, window, or its frame's tracking mode (R220, R349, R358). -/
def engDenies (s : State) (m : EngFor) (write : Bool) (pa leaf : Nat) : Bool :=
  !leafAllows leaf m.user (if write then .write else .read) || !channelOk s m.part pa ||
  (tierOf pa == 3 && !fmapOk (fmapEntry s pa)) || aliasAt s pa leaf

/-- The place of one byte of an engine's access, its class, and the state with its translation at its front and A and D set
(R353). -/
def engAt (s : State) (m : EngFor) (write : Bool) (va : Nat) : Except EngStop (Nat × Nat × State) :=
  if va ≥ 2 ^ 57 then .error (.denied va)
  else
    match frontLeaf s m.asid m.part va with
    | .absent => .error (.absent va)
    | .bad => .error (.denied va)
    | .noRoot => .error (.denied va)
    | .leaf l _ bits =>
      let pa := paIn l bits va
      if engDenies s m write pa l then .error (.denied va)
      else
        let s := unnote (warmFront s m.asid m.part write va) m.part va
        match placeOf s pa with
        | .refused _ => .error (.denied va)
        | .peer _ _ => if write && (copyingAt s pa).isSome then .error .wait else .ok (localPa s pa, leafCC l, s)
        | .here q =>
          if !lineServes s (lineOf q) (leafCC l) || (write && ((copyingAt s pa).isSome || collapseWaits s (pa / 4096) ||
              serialMarks s (lineOf q))) then .error .wait
          else .ok (q, leafCC l, s)

/-- The alias record of an engine's access that its frame's tracking mode refuses (R358, KIND 5; log entry 80). -/
def engAlias (s : State) (m : EngFor) (va : Nat) : State :=
  match frontLeaf s m.asid m.part va with
  | .leaf l _ bits =>
    let pa := paIn l bits va
    if va < 2 ^ 57 && aliasAt s pa l then errRecord s m.part 5 cAlias 0 m.core 0 va (pa / 4096 * 4096) else s
  | _ => s

/-- An engine access counts at most once for each line (R359). -/
def engCount (s : State) (m : EngFor) (va : Nat) (isRead : Bool) : State :=
  if m.unc then s
  else
    match frontLeaf s m.asid m.part va with
    | .leaf l at_ bits => countPlain s m.part ⟨m.asid, va / 4096, bits, m.part.getD 64, l, at_, none⟩ m.core 1 isRead
    | _ => s

/-- One byte read by an engine: its line's shadows end and privatised bytes merge. -/
def engGet (s : State) (m : EngFor) (va : Nat) : Except EngStop (Byte × State) :=
  match engAt s m false va with
  | .error e => .error e
  | .ok (pa, _, s) =>
    let s := mergeLine (quietLine s (lineOf pa)) (lineOf pa)
    .ok (mget s.mem pa, s)

/-- n bytes read by an engine, one by one. -/
def engBytes (m : EngFor) : Nat → Nat → State → Except EngStop (List Byte × State)
  | _, 0, s => .ok ([], s)
  | va, n + 1, s =>
    match engGet s m va with
    | .error e => .error e
    | .ok (b, s) =>
      match engBytes m (va + 1) n s with
      | .error e => .error e
      | .ok (t, s) => .ok (b :: t, s)

/-- The lines of a range, each by its first byte in the range. -/
def rangeLines (va n : Nat) : List Nat :=
  (List.range n).filterMap fun i => if i = 0 ∨ (va + i) % 128 = 0 then some (va + i) else none

/-- The runs of consecutive addresses of a list within its lines: first address and length. -/
def runsOf (l : List Nat) : List (Nat × Nat) :=
  ((l.map lineOf).eraseDups).flatMap fun line =>
    (List.range 128).foldr (fun o acc =>
      let a := line * 128 + o
      if !l.contains a then acc
      else
        match acc with
        | (k, n) :: t => if k = a + 1 then (a, n + 1) :: t else (a, 1) :: acc
        | [] => [(a, 1)]) []

/-- The bytes that an engine has written to a peer travel as posted writes, one for each run within a line (R331, R385). -/
def engPost (s : State) (m : EngFor) (cmd : Option Nat) (vas : List Nat) : State :=
  let away := vas.filterMap fun a =>
    match frontLeaf s m.asid m.part a with
    | .leaf l _ bits => match placeOf s (paIn l bits a) with | .peer _ _ => some (localPa s (paIn l bits a)) | _ => none
    | _ => none
  (runsOf away).foldl (fun s r =>
    match framePlace s r.1 with
    | .peer t off => (postAt s m.core cmd none m.part t off r.1 (.write (mread s.mem r.1 r.2))).2
    | _ => s) s

/-- The window address of a peer's byte that an engine may read. -/
def engAway (s : State) (m : EngFor) (va : Nat) : Option Nat :=
  if va ≥ 2 ^ 57 then none
  else
    match frontLeaf s m.asid m.part va with
    | .leaf l _ bits =>
      let pa := paIn l bits va
      if leafAllows l m.user .read && tierOf pa == 3 && fmapOk (fmapEntry s pa) then
        match placeOf s pa with | .peer _ _ => some pa | _ => none
      else none
    | _ => none

/-- An engine that reads lines of peers asks for those that have not arrived; none where nothing is missing. -/
def engFetch (s : State) (m : EngFor) (who : Fetcher) (vas : List Nat) : Option State :=
  let lines := (vas.map (· / 128 * 128)).eraseDups
  let missing := lines.filterMap fun a => (engAway s m a).bind fun pa => if fetched s who pa then none else some (a, pa)
  if missing.isEmpty then none
  else some (missing.foldl (fun s e => askLine who none m.part s e.1 e.2) s)

/-- The fabric address of an engine's access that is refused at its target (R387). -/
def engRefused (s : State) (m : EngFor) (va : Nat) : Option Nat :=
  match frontLeaf s m.asid m.part va with
  | .leaf l _ bits =>
    let pa := paIn l bits va
    if tierOf pa == 3 && fmapOk (fmapEntry s pa) then
      match placeOf s pa with | .refused fa => some fa | _ => none
    else none
  | _ => none

/-- n bytes read by an engine, its lines counted. -/
def engRead (s : State) (m : EngFor) (va n : Nat) : Except EngStop (List Byte × State) :=
  match engBytes m va n s with
  | .error e => .error e
  | .ok (bs, s) => .ok (bs, (rangeLines va n).foldl (fun s a => engCount s m a true) s)

/-- One byte written by an engine at its home: copies end, regions that mark the line abort, a duplicate collapses. -/
def engPut (s : State) (m : EngFor) (va : Nat) (b : Byte) : Except EngStop State :=
  match engAt s m true va with
  | .error e => .error e
  | .ok (pa, cc, s) =>
    let line := lineOf pa
    let s := strayWrite (collapsePage s (pa / 4096)) line
    let s := coAtomic (quietLine s line) line cc
    .ok (writePhys s pa [b])

/-- Bytes written by an engine, one by one; those before a refused or absent page stand. -/
def engPuts (m : EngFor) : Nat → List Byte → State → Option EngStop × State
  | _, [], s => (none, s)
  | va, b :: t, s =>
    match engPut s m va b with
    | .error e => (some e, s)
    | .ok s => engPuts m (va + 1) t s

/-- Bytes written by an engine, its lines counted. -/
def engWrite (s : State) (m : EngFor) (va : Nat) (bs : List Byte) : Option EngStop × State :=
  match engPuts m va bs s with
  | (none, s) =>
    (none, (rangeLines va bs.length).foldl (fun s a => engCount s m a false)
      (engPost s m none ((List.range bs.length).map (va + ·))))
  | r => r

/-- Whether every byte of a range can be written now. -/
def engCanWrite (s : State) (m : EngFor) (va n : Nat) : Option EngStop :=
  (List.range n).findSome? fun i =>
    match engAt s m true (va + i) with
    | .error e => some e
    | .ok _ => none

/-- The record of a wait for an absent page, once for the page (KIND 13). -/
def noteAbsent (s : State) (part : Option Nat) (agent va addr2 engine : Nat) : State :=
  match part.bind (getPart s) with
  | none => s
  | some pt =>
    if pt.pageNoted.contains (va / 4096) then s
    else
      let s := errRecord s part 13 0 0 agent engine (va / 4096 * 4096) addr2
      match part with
      | some p => updPart s p fun x => { x with pageNoted := va / 4096 :: x.pageNoted }
      | none => s

/-! ### Completion queues (R257, R259) -/

/-- A completion record of Table 1 of R257 and Table 8 of R251. -/
def mkCompletion (desc ep status len : Nat) : BitVec 128 :=
  BitVec.ofNat 128 (desc % 2 ^ 64 * 2 ^ 64 + ep % 256 * 2 ^ 48 + status % 256 * 2 ^ 32 + len % 2 ^ 32)

/-- Whether something of a panel can still read its completion queues: a weft, or a thread in a reform bin. -/
def cqRead (s : State) (k : PKey) : Bool :=
  (s.wefts.any fun w => w.key == k) || s.cores.any fun c => c.bins.any fun b => b.key == k

/-- Whether a completion queue has room for a record: that of a saved panel has none, that of a panel that has ended takes
none, and one that no weft and no binned thread of the panel is left to read drops the record (log entry 63). -/
def cqRoom (s : State) (k : PKey) (cq : Option Nat) : Bool :=
  match cq, getPanel s k with
  | some q, some p => decide ((tgetD p.cqs q []).length < 256) || !cqRead s k
  | some _, none => !(s.saved.any fun v => v.key == k)
  | _, _ => true

/-- A record pushed to a completion queue of a panel. -/
def pushCq (s : State) (k : PKey) (cq : Option Nat) (r : BitVec 128) : State :=
  match cq with
  | none => s
  | some q =>
    let add (p : Panel) : Panel :=
      let l := tgetD p.cqs q []
      if l.length < 256 then { p with cqs := tset p.cqs q (l ++ [r]) } else p
    wakeIn (updPanel s k add) k .queue (.record q)

/-- The completion queue in D: none for `zero`; any other operand faults ILLEGAL_OPERAND (R251, R255). -/
def cqOf (x : Ctx) : R (Option Nat) :=
  match x.f.d with
  | .zero => .ok none
  | .q n =>
    match tget x.w.binds n.val with
    | some b => if b.kind = 3 then .ok (some b.obj) else oops cIllegalOperand
    | none => oops cIllegalOperand
  | _ => oops cIllegalOperand

/-- A descriptor of n bytes read for an instruction, by parts of its alignment, each of which lies in one page (R220, R251,
R258). -/
def readDesc (x : Ctx) (va n align : Nat) : R (Nat × State) := do
  let l := lowest x.act
  let accs ← checkAll x .read 0 align ((List.range (n / align)).map fun i => (l, va + align * i))
  awayGate x (accs.map fun a => (a.va, a.pa))
  if heldWrites x.s (boundaryAgent x.w x.act) || accs.any fun a => !lineServes x.s (accLine x.s a) (leafCC a.leaf) then
    .error .wait
  else
    let s := accs.foldl (fun s a => mergeLine (quietLine s (accLine s a)) (accLine s a)) x.s
    .ok (ofBytes (accs.flatMap fun a => mread s.mem (localPa s a.pa) align), dropFetches s (.unit x.w.id x.c.lane))

end Sys2Proof.Machine
end

