-- ==== Sys2Proof/Machine/Memory.lean ====
section
/-!
DEFINITION. Loads, stores, register tiles, private words, prefetch and cache control (R218 to R229).
-/
namespace Sys2Proof.Machine

/-! ### LD and ST (R224) -/

/-- A plain load's reply: its values on their way to D. -/
def loadReply (x : Ctx) (s : State) (wide split : Bool) (accs : List LaneAcc) (vs : List Word64) (ts : List Touch) :
    R Out := do
  let (ls, s) := loadLandings x s x.f.d wide split accs vs
  let s ← addReplies x s x.f.d wide ls
  .ok ⟨s, .next, ts⟩

/-- The lanes of a `.split` load whose accesses fault while others do not (R70): the load divides its sub-weft, and they fault
alone. A weft of 16 sub-wefts does not divide. -/
def splitFaults (x : Ctx) (scope w : Nat) (vas : List (Nat × Nat)) : Mask :=
  let lost (va : Nat) : Bool :=
    match x.b.hold with
    | .walkFault _ v => v / 128 == va / 128
    | _ => false
  let fails (e : Nat × Nat) : Bool :=
    match xlCheck x.s x.w x.p x.b .read scope e.2 w with
    | .fault _ => true
    | .ok pa _ => (match placeOf x.s pa with | .refused _ => true | .peer _ _ => lost e.2 | .here _ => false)
    | .miss => false
  let bad := maskOf ((vas.filter fails).map (·.1))
  if x.scalar || x.w.subs.length ≥ 16 || bad == x.act then 0 else bad

/-- The division of a sub-weft that stands before a unit: some lanes keep what the unit has met, and the others begin it
afresh. -/
def divideBefore (w : Weft) (lane : Nat) (late : Mask) : Weft :=
  let cut (b : Sub) : List Sub :=
    if b.mask.getLsbD lane then [{ b with mask := b.mask &&& ~~~late, hold := .none }, { b with mask := b.mask &&& late }] else [b]
  match subAt w lane with
  | some b => { w with subs := w.subs.flatMap cut, divs := ⟨none, b.mask⟩ :: w.divs }
  | none => w

/-- LD. -/
def ldBody (x : Ctx) : R Out := do
  let t := x.f.mod.toNat
  let w := memBytes t
  let scope := accScope x.w
  let vas ← laneAddrs x
  let m := modByte x.f.c
  match symSlot x (bitOf m 0) with
  | some (n, slot) => symIssue x n (newSym x slot (memKind t) (vas.map (·.2)) w (intSigned t) []) symLoad
  | none =>
    let late := if bitOf m 1 then splitFaults x scope w vas else 0
    if late ≠ 0 then .ok ⟨progress (updWeft x.s x.w.id fun u => divideBefore u x.c.lane late), .wait, []⟩
    else do
      let accs ← checkAll x .read scope w vas
      readLines x (accAgent x) accs w fun s vals =>
        loadReply x s (w = 8) (bitOf m 1) accs (spread x (memRes t) vals) (touchesOf accs w true false)

def execLd (f : Fields) (s : State) : Host.Outcome State Fault Refusal := onWeft .ld f .auto ldBody s

/-- The bytes that a lane stores: the low ones of its value. -/
def storeBytesOf (w : Nat) (vs : List Word64) (l : Nat) : List Byte := toBytes w (vs.getD l 0).toNat

/-- ST. -/
def stBody (x : Ctx) : R Out := do
  let w := memBytes x.f.mod.toNat
  let vas ← laneAddrs x
  let vs ← rd x .c (w = 8)
  let accs ← checkAll x .write (accScope x.w) w vas
  writeLines x (accAgent x) (accs.map fun a => (a, storeBytesOf w vs a.lane)) fun s =>
    .ok ⟨s, .next, touchesOf accs w false true⟩

def execSt (f : Fields) (s : State) : Host.Outcome State Fault Refusal := onWeft .st f .auto stBody s

/-! ### LDS and STS (R225) -/

/-- The scratchpad places of an instruction: lane, offset, core and local byte. -/
def padPlaces (x : Ctx) (w : Nat) : R (List (Nat × Nat × Nat × Nat)) := do
  let a ← rd x .a false
  let b ← rd x .b false
  .ok ((accLanes x).map fun l =>
    let off := ((a.getD l 0).toNat + (b.getD l 0).toNat) % 2 ^ 32
    let (c, i) := placeOff x.p off w
    (l, off, c, i))

/-- The touches of scratchpad accesses. -/
def padTouches (ps : List (Nat × Nat × Nat × Nat)) (w : Nat) (rd wr : Bool) : List Touch :=
  ps.map fun e => ⟨e.1, true, e.2.2.1, e.2.2.2, w, rd, wr⟩

/-- Whether the presence bit of a line is clear (R97). -/
def padAbsent (p : Panel) (core i : Nat) : Bool := (panelCore p core).absent.any fun e => e.1 == i / 128

/-- Whether a tile is on the engine side (R98). -/
def padOwned (p : Panel) (core i : Nat) : Bool := (panelCore p core).owned.any fun e => e.1 == i / 4096

/-- A number in a scratchpad. -/
def padNum (p : Panel) (core i w : Nat) : Nat := mnum (panelCore p core).pad i w

/-- The value of a symbolic scratchpad load, once every line that it touches is present (R97). -/
def padValue (p : Panel) (a : SymAcc) : Option (List Word64) :=
  let vals := a.vas.map fun off =>
    let (c, i) := placeOff p off a.bytes
    if padAbsent p c i then none else some (padNum p c i a.bytes)
  if vals.any Option.isNone then none
  else
    let ext (n : Nat) : Word64 :=
      let w := 8 * a.bytes
      if w < 32 ∧ a.signed then BitVec.ofNat 64 (wrap 32 (toSigned w n)) else BitVec.ofNat 64 n
    some (lanes16.map fun l => ext ((vals.getD l (some 0)).getD 0))

/-- The symbolic scratchpad loads of a panel whose lines have all become present have their values (R92, R97). -/
def givePads (s : State) (k : PKey) : State :=
  match getPanel s k with
  | none => s
  | some p =>
    let give (a : SymAcc) : SymAcc := if a.key = k ∧ a.m = .lds ∧ a.value.isNone then { a with value := padValue p a } else a
    { s with symAccs := s.symAccs.map give }

/-- The first absent line of some scratchpad places. -/
def absentWait (p : Panel) (ps : List (Nat × Nat × Nat × Nat)) : Wait :=
  match ps.find? fun e => padAbsent p e.2.2.1 e.2.2.2 with
  | some e => .line e.2.2.1 (e.2.2.2 / 128)
  | none => .any

/-- LDS. -/
def ldsBody (x : Ctx) : R Out := do
  let t := x.f.mod.toNat
  let w := memBytes t
  let ps ← padPlaces x w
  let gone := ps.any fun e => padAbsent x.p e.2.2.1 e.2.2.2
  let vs := spread x (memRes t) (ps.map fun e => (e.1, padNum x.p e.2.2.1 e.2.2.2 w))
  match symSlot x (bitOf (modByte x.f.c) 0) with
  | some (n, slot) =>
    let a := newSym x slot (memKind t) (ps.map fun e => e.2.1) w (intSigned t) []
    let s ← issueSym x x.s n { a with value := if gone then none else some vs }
    .ok ⟨s, .next, padTouches ps w true false⟩
  | none =>
    if gone then .error (.park .absent (absentWait x.p ps))
    else
      let s ← writeRes x (w = 8) vs none id
      .ok ⟨s, .next, padTouches ps w true false⟩

def execLds (f : Fields) (s : State) : Host.Outcome State Fault Refusal := onWeft .lds f .auto ldsBody s

/-- Bytes stored in a panel's scratchpad. -/
def padWrite (s : State) (k : PKey) (core i : Nat) (bs : List Byte) : State :=
  updPanel s k fun p => updPanelCore p core fun c => { c with pad := mwrite c.pad i bs }

/-- Whether a symbolic scratchpad load of a weft that waits for its lines names a byte of a range: the STS after it waits for it
(R317). -/
def padPends (s : State) (w : Weft) (p : Panel) (core i n : Nat) : Bool :=
  let meets (a : SymAcc) (off : Nat) : Bool :=
    let (c, j) := placeOff p off a.bytes
    c == core && decide (j < i + n) && decide (i < j + a.bytes)
  s.symAccs.any fun a => a.key == w.key && a.num == w.num && a.m == .lds && a.value.isNone && a.vas.any (meets a)

/-- STS: lanes store in ascending order. -/
def stsBody (x : Ctx) : R Out := do
  let w := memBytes x.f.mod.toNat
  let ps ← padPlaces x w
  let vs ← rd x .c (w = 8)
  match ps.find? fun e => padOwned x.p e.2.2.1 e.2.2.2 with
  | some e => .error (.park .owner (.tile e.2.2.1 (e.2.2.2 / 4096)))
  | none =>
    if ps.any fun e => padPends x.s x.w x.p e.2.2.1 e.2.2.2 w then .error .wait
    else
      let s := ps.foldl (fun s e => padWrite s x.w.key e.2.2.1 e.2.2.2 (storeBytesOf w vs e.1)) x.s
      .ok ⟨s, .next, padTouches ps w false true⟩

def execSts (f : Fields) (s : State) : Host.Outcome State Fault Refusal := onWeft .sts f .auto stsBody s

/-! ### LDT and STT (R226, R227) -/

/-- The number of registers of a tile instruction, and its first register. -/
def tileRegs (x : Ctx) (op : Operand) : Nat × Nat :=
  (2 ^ field x.f.mod.toNat 1 0, match op with | .v k => k.val | _ => 0)

/-- Whether a tile instruction is `.aon`. -/
def isAon (x : Ctx) : Bool := bitOf x.f.mod.toNat 2

/-- One register of a tile as an operand. -/
def tileOp (k j : Nat) : Operand := .v (Fin.ofNat 256 (k + j))

/-- The accesses to the words of a tile, word by word in ascending lane order. -/
def tileWords (accs : List LaneAcc) (n : Nat) : List LaneAcc :=
  (List.range n).flatMap fun j => accs.map fun a => ⟨a.lane, a.va + 64 * j, a.pa + 64 * j, a.leaf⟩

/-- The checks of a tile: its base, then its words, which lie in one page. -/
def checkTile (x : Ctx) (k : AccKind) (base n : Nat) : R (List LaneAcc) :=
  let first := base + 4 * lowest x.act
  if base ≥ 2 ^ 57 then .error (.fault cPermission first x.act)
  else if base % (64 * n) ≠ 0 then .error (.fault cAlign first x.act)
  else checkAll x k (accScope x.w) 0 ((lanesOf x.act).map fun l => (l, base + 4 * l))

/-- The checks of a version word. -/
def checkVersion (x : Ctx) (k : AccKind) (base n v : Nat) : R LaneAcc :=
  if v ≥ 2 ^ 57 then .error (.fault cPermission v x.act)
  else if v % 8 ≠ 0 ∨ (base < v + 8 ∧ v < base + 64 * n) then .error (.fault cAlign v x.act)
  else do
    match ← checkAll x k (accScope x.w) 8 [(lowest x.act, v)] with
    | a :: _ => if leafCC a.leaf = 0 then .error (.fault cScope v x.act) else .ok a
    | [] => .error .wait

/-- The replies of a tile: one for each register. The latch takes the last of them, which R76 does not name (log entry 74). -/
def tileReply (x : Ctx) (s : State) (k n : Nat) (vals : List (Nat × Nat)) (ts : List Touch) : R Out := do
  dstFree x (.lat false :: (List.range n).map fun j => .v (k + j))
  cutSym x.w ((List.range n).map fun j => k + j) x.act
  let c := countLanes x.act
  let one (j : Nat) : Landing :=
    let mine := (vals.drop (j * c)).take c
    mkLanding x (s.nextId + j) (tileOp k j) false x.act
      (lanes16.map fun l => match mine.find? fun e => e.1 == l with | some e => BitVec.ofNat 64 e.2 | none => 0) false []
  let s := sendReplies x { s with nextId := s.nextId + n } ((List.range n).map one)
  let before := chargeAll x.s x.w
  let after := chargeAll s x.w
  if after > before && after > lineBudget x.p x.w then oops cShapeOver else .ok ⟨s, .next, ts⟩

/-- The words that an LDT.aon reads are the current ones, and the baselines of its agents follow (R227). -/
def freshReads (x : Ctx) (s : State) (accs : List LaneAcc) : State :=
  accs.foldl (fun s a => refreshSnaps s (accAgent { x with scalar := false } a.lane)
    (localPa s a.pa) 4) s

/-- The lines that an LDT.aon reads at peers (R227): the version, then the tile, then the version again, each read asked for
when the one before it has come. With the last the words go on; the version that came first is that in the hold. -/
def aonGate (x : Ctx) (va : LaneAcc) (words : List LaneAcc) (go : Option Nat → R Out) : R Out :=
  let who : Fetcher := .unit x.w.id x.c.lane
  let away (l : List LaneAcc) : List (Nat × Nat) := (l.filter fun a => (farLine x.s a).isSome).map fun a => (a.va, a.pa)
  let missing (l : List LaneAcc) : List (Nat × Nat) := (away l).filter fun e => !fetched x.s who e.2
  let ver := physNum x.s (localPa x.s va.pa) 8
  let hold (h : Hold) (s : State) : R Out := .ok ⟨updCur s x.c fun b => { b with hold := h }, .wait, []⟩
  let ask (s : State) (l : List (Nat × Nat)) : State :=
    l.foldl (fun t e => askLine who (some (x.c.w, x.c.lane)) x.w.key.part t e.1 e.2) s
  if (away (va :: words)).isEmpty then go none
  else
    match x.b.hold with
    | .tile v again =>
      if !again then
        if (missing words).isEmpty then
          hold (.tile v true) (ask { x.s with fetches := x.s.fetches.filter fun f => f.who ≠ who ∨ f.va ≠ va.va } (away [va]))
        else .ok ⟨ask x.s (missing words), .wait, []⟩
      else if (missing [va]).isEmpty then go (some v)
      else .ok ⟨ask x.s (missing [va]), .wait, []⟩
    | _ =>
      if (missing [va]).isEmpty then hold (.tile ver false) (ask x.s (away words)) else .error (.away who (missing [va]))

/-- LDT. -/
def ldtBody (x : Ctx) : R Out := do
  let (n, k) := tileRegs x x.f.d
  let base := (← rd1 x .a true).toNat
  let accs ← checkTile x .read base n
  let words := tileWords accs n
  let ts := touchesOf words 4 true false
  let agent (l : Nat) := agentAt x.w false l
  if !isAon x then
    readLines x agent words 4 fun s vals => tileReply x s k n vals ts
  else
    let ver := (← rd1 x .b true).toNat
    let va ← checkVersion x .read base n ver
    let all := va :: words
    readBlocked x agent all
    match refuseLanes x.s x all with
    | some (s, va, bad) => .ok ⟨s, .fault cPermission va bad false false, []⟩
    | none =>
      aonGate x va words fun first =>
        let s := if first.isSome then dropFetches x.s (.unit x.w.id x.c.lane) else x.s
        let x1 := { x with s := freshReads x s words }
        readNow x1 agent all 4 fun s vals =>
          let v := physNum s (localPa s va.pa) 8
          if v % 2 = 1 ∨ first.any (· ≠ v) then
            if x.b.hold = .none then .error .wait else .ok ⟨updCur x1.s x.c fun b => { b with hold := .none }, .wait, []⟩
          else tileReply x1 s k n (vals.drop 1) (ts ++ touchesOf [va] 8 true false)

def execLdt (f : Fields) (s : State) : Host.Outcome State Fault Refusal := onWeft .ldt f .lanes ldtBody s

/-- The values of a tile's registers. -/
def tileVals (x : Ctx) (k n : Nat) : R (List (List Word64)) :=
  (List.range n).mapM fun j => readVals x .c (tileOp k j) false x.act

/-- The version word of an STT.aon rises by 2; inside a region the commit does it. -/
def bumpVersion (x : Ctx) (s : State) (a : LaneAcc) : State :=
  let pa := localPa s a.pa
  if x.w.region.isSome then
    let mark (r : Region) : Region := { r with versions := if r.versions.contains pa then r.versions else pa :: r.versions }
    updWeft (markDirty s x.p.asid x.w.key.part a.va) x.w.id fun w => { w with region := w.region.map mark }
  else storeOne s x (agentAt x.w false a.lane) a (toBytes 8 (physNum s pa 8 + 2))

/-- An STT.aon whose version word a peer holds travels as one request, and the words that the same peer holds go with it
(R227); any other words are stored first. -/
def aonPost (x : Ctx) (t off : Nat) (va : LaneAcc) (ws : List (LaneAcc × List Byte)) (s : State) : State :=
  let g := agentAt x.w false va.lane
  let with_ (e : LaneAcc × List Byte) : Option (Nat × Nat × List Byte) :=
    match placeOf s e.1.pa with
    | .peer u o => if u = t then some (o, localPa s e.1.pa, e.2) else none
    | _ => none
  let s := (ws.filter fun e => (with_ e).isNone).foldl (fun s e => storeOne s x (agentAt x.w false e.1.lane) e.1 e.2) s
  let mine := ws.filterMap with_
  let dirty (s : State) (a : LaneAcc) : State := strayWrite (markDirty s x.p.asid x.w.key.part a.va) (accLine s a)
  let s := (va :: ws.map (·.1)).foldl dirty s
  let s := mine.foldl (fun s e => storeBytes s x.w.id.core e.2.1 e.2.2) s
  postOp s x.w.id g x.w.key.part t off (localPa s va.pa) (.aon (mine.map fun e => (e.1, e.2.2))) (mine.map fun e => e.2)

/-- STT. -/
def sttBody (x : Ctx) : R Out := do
  let (n, k) := tileRegs x x.f.c
  let base := (← rd1 x .a true).toNat
  let vals ← tileVals x k n
  let accs ← checkTile x .write base n
  let words := tileWords accs n
  let c := accs.length
  let ws := (List.range words.length).map fun i =>
    let a := words.getD i ⟨0, 0, 0, 0⟩
    (a, storeBytesOf 4 (vals.getD (i / c) []) a.lane)
  let agent (l : Nat) := agentAt x.w false l
  let ts := touchesOf words 4 false true
  if !isAon x then writeLines x agent ws fun s => .ok ⟨s, .next, ts⟩
  else
    let ver := (← rd1 x .b true).toNat
    let va ← checkVersion x .write base n ver
    writeBlocked x (va :: words)
    if (va :: words).any fun a => (copyingAt x.s a.pa).isSome then .error .wait
    else
      let s := touchRegion x.s x [va] true
      let done (s : State) : R Out := .ok ⟨s, .next, ts ++ touchesOf [va] 8 false true⟩
      if regionLost s x then .ok ⟨s, .jumped, []⟩
      else
        match x.w.region, placeOf s va.pa with
        | none, .peer t off => done (countLines (aonPost x t off va ws s) x words false)
        | _, _ => writeLines { x with s := s } agent ws fun s => done (bumpVersion x s va)

def execStt (f : Fields) (s : State) : Host.Outcome State Fault Refusal := onWeft .stt f .lanes sttBody s

/-! ### LDP and STP (R228) -/

/-- Word w of a thread's private space (R104). -/
def privAddr (p : Panel) (tid w : Nat) : Nat :=
  (p.m.pbase.toNat + 64 * p.m.pwords * (tid / 16) + 64 * w + 4 * (tid % 16)) % 2 ^ 64

/-- An access as one to an NC page: private-space accesses are NC accesses at `.weft` scope (R316). -/
def asNC (a : LaneAcc) : LaneAcc := { a with leaf := setField a.leaf 7 6 0 }

/-- The accesses of a private instruction: the first word of each lane, then the second of a 64-bit value. The checks go
lane by lane, so that the lowest failing lane is the one reported (R220). -/
def privAccs (x : Ctx) (k : AccKind) (wide : Bool) : R (List LaneAcc) := do
  let a ← rd x .a false
  let idx (l : Nat) : Nat := (a.getD l 0).toNat % 2 ^ 32
  let va (i l : Nat) : Nat := privAddr x.p (nth x.w.tids l 0) (idx l + i)
  let bad := (lanesOf x.act).filter fun l => idx l + (if wide then 1 else 0) ≥ x.p.m.pwords
  match bad with
  | l :: _ => .error (.fault cPermission (va 0 l) (maskOf bad))
  | [] =>
    let words (l : Nat) : List (Nat × Nat) := (l, va 0 l) :: if wide then [(l, va 1 l)] else []
    let accs := (← checkAll x k 0 4 ((lanesOf x.act).flatMap words)).map asNC
    let word (i : Nat) (a : LaneAcc) : Bool := a.va == va i a.lane
    .ok (if wide then accs.filter (word 0) ++ accs.filter (word 1) else accs)

/-- The context of an access that belongs to no region although one may be open (R242). -/
def outside (x : Ctx) : Ctx := { x with w := { x.w with region := none } }

/-- LDP: no region access, though it returns what the region has written (R312). -/
def ldpBody (x : Ctx) : R Out := do
  let x := outside x
  let wide := bitOf x.f.mod.toNat 0
  let accs ← privAccs x .read wide
  let ts := touchesOf accs 4 true false
  readLines x (agentAt x.w false) accs 4 fun s vals =>
    let c := countLanes x.act
    let part (i l : Nat) : Nat :=
      match ((vals.drop (i * c)).take c).find? fun e => e.1 == l with | some e => e.2 | none => 0
    loadReply x s wide false accs (lanes16.map fun l => BitVec.ofNat 64 (part 0 l + part 1 l * 2 ^ 32)) ts

def execLdp (f : Fields) (s : State) : Host.Outcome State Fault Refusal := onWeft .ldp f .lanes ldpBody s

/-- Bytes of an STP that the open region has buffered follow it there, so that the commit does not undo it (R242, R308). -/
def overBuffer (s : State) (id : WId) (pa : Nat) (bs : List Byte) : State :=
  let has (i : Nat) : Bool := match (getWeft s id).bind (·.region) with | some r => (tget r.buf (pa + i)).isSome | none => false
  (List.range bs.length).foldl (fun s i => if has i then bufferBytes s id (pa + i) [bs.getD i 0] else s) s

/-- STP: no region access, and not undone by an abort (R242). -/
def stpBody (x : Ctx) : R Out := do
  let x := outside x
  let wide := bitOf x.f.mod.toNat 0
  let vs ← rd x .b wide
  let accs ← privAccs x .write wide
  let c := countLanes x.act
  let ws := (List.range accs.length).map fun i =>
    let a := accs.getD i ⟨0, 0, 0, 0⟩
    let v := (vs.getD a.lane 0).toNat
    (a, toBytes 4 (if i < c then v else v / 2 ^ 32))
  writeLines x (agentAt x.w false) ws fun s =>
    let s := ws.foldl (fun s e => overBuffer s x.w.id (localPa s e.1.pa) e.2) s
    .ok ⟨s, .next, touchesOf accs 4 false true⟩

def execStp (f : Fields) (s : State) : Host.Outcome State Fault Refusal := onWeft .stp f .lanes stpBody s

/-! ### PRF and CCTL (R229) -/

/-- A line fetched into the LLC, unless a core holds the only valid bytes (R229). -/
def fetchLlc (s : State) (line : Nat) (how : Alloc) : State :=
  let r := getLine s line
  if how.llc = 1 ∨ r.llc ≠ .i ∨ (r.l1.any fun e => e.2 != .s && e.2 != .o) then s
  else trimLlc (setLine s (noteFill s how { r with llc := .s, retain := how.llc == 3 } 512)) line

/-- A prefetch of one address: its page is translated as for a read, A is set, and the line is fetched where its home
can serve it and no shadow or gather stands on it. -/
def prefetch (x : Ctx) (toL1 : Bool) (s : State) (va : Nat) : State :=
  let asid := x.p.asid
  let part := x.w.key.part
  if va ≥ 2 ^ 57 then s
  else
    let readable (l : Nat) : Bool := leafAllows l (x.w.level = 0) .read
    let t : State := match tlbFind s asid part va with
      | some _ => s
      | none =>
        match walk s asid part va with
        | .leaf l _ _ => if readable l then (match finishWalk s asid part va with | .ok t => t | .error _ => s) else s
        | _ => s
    match tlbFind t asid part va with
    | none => s
    | some e =>
      if !readable e.leaf then s
      else
        let t := if uncounted x then t else countPlain t part e x.w.id.core 1 true
        match placeOf t (paIn e.leaf e.bits va) with
        | .here pa =>
          let r := getLine t (lineOf pa)
          if leafCC e.leaf != 0 && r.home == .stb && r.shadows.isEmpty && r.gather.isEmpty && r.pend.isEmpty then
            let t := noteLeader t part e x.w.id.core va
            if toL1 then coRead t x.w.id.core (lineOf pa) (leafCC e.leaf) (allocOf t x va)
            else fetchLlc t (lineOf pa) (allocOf t x va)
          else t
        | _ => t

/-- The addresses of PRF and CCTL, which check nothing. -/
def execPrf (f : Fields) (s : State) : Host.Outcome State Fault Refusal :=
  onWeft .prf f .auto (fun x => do
    let vas ← laneAddrs x
    Out.step (vas.foldl (fun s e => prefetch x (field x.f.mod.toNat 2 0 = 0) s e.2) x.s)) s

/-- The line that a virtual tag of the issuing panel names in its core's L1 or in the LLC, and its class. -/
def tagLine (s : State) (x : Ctx) (va : Nat) : Option (Nat × Nat) :=
  if va ≥ 2 ^ 57 then none
  else (tagFind s x.w.id.core x.p.asid x.w.key.part va).map fun h => (h.1, leafCC h.2)

/-- The dirty bytes of a line are written back; copies stay valid. -/
def writeBackLine (s : State) (core line : Nat) : State :=
  let s := quietLine s line
  let r := getLine s line
  let clean (c : CState) : CState := match c with | .m => .e | .o => .s | c => c
  let r := { r with llc := clean r.llc }
  let c := tgetD r.l1 core .i
  if c = .i then setLine s r else setLine s (setCopy r core (clean c))

/-- CCTL on each active lane's line; a line whose home is in a transaction waits. -/
def cctlBody (act : State → Nat → Nat → State) (x : Ctx) : R Out := do
  let vas ← laneAddrs x
  let ls := (vas.filterMap fun e => tagLine x.s x e.2).eraseDups
  if ls.any fun e => !lineServes x.s e.1 e.2 then .error .wait
  else Out.step (ls.foldl (fun s e => act s x.w.id.core e.1) x.s)

def execCctlWb (f : Fields) (s : State) : Host.Outcome State Fault Refusal :=
  onWeft .cctlWb f .auto (cctlBody writeBackLine) s

def execCctlInv (f : Fields) (s : State) : Host.Outcome State Fault Refusal :=
  onWeft .cctlInv f .auto (cctlBody discardL1) s

def execCctlFlush (f : Fields) (s : State) : Host.Outcome State Fault Refusal :=
  onWeft .cctlFlush f .auto (cctlBody fun s c l => discardLlc (discardL1 (writeBackLine s c l) c l) l) s

/-- The instruction-cache lines of a core that hold bytes of a peer under the virtual tags of some addresses are discarded. -/
def dropCode (s : State) (core asid : Nat) (part : Option Nat) (vas : List Nat) : State :=
  let hit (f : Fetch) : Bool :=
    f.done && (f.who == .code core asid || f.who == .code core (65536 + part.getD 64)) &&
    vas.any fun va => f.va / 128 == va / 128
  { s with fetches := s.fetches.filter fun f => !hit f }

/-- The instruction-cache line is discarded. Of this package's memory the model's fetch holds no stale words (log entry
8). -/
def execCctlIc (f : Fields) (s : State) : Host.Outcome State Fault Refusal :=
  onWeft .cctlIc f .auto (fun x => do
    let vas ← laneAddrs x
    let x := { x with s := dropCode x.s x.w.id.core x.p.asid x.w.key.part (vas.map (·.2)) }
    cctlBody (fun s _ _ => s) x) s

end Sys2Proof.Machine
end

