-- ==== Sys2Proof/Machine/Queues.lean ====
section
/-!
DEFINITION. Queue bindings, scrums, swatches, tile owners and symbol queries (R259 to R265, R274, R278).
-/
namespace Sys2Proof.Machine

/-! ### QBIND, QUNBIND, QSTAT, QCLOSE (R259 to R261) -/

/-- The number of a queue name. -/
def queueNum : Operand → Nat
  | .q n => n.val
  | .qnb n => n.val
  | _ => 0

/-- Whether an object of a kind exists for a panel (R259). A supervisor core accepts the command queues of kinds 0 to 2, whose
engines it lacks (R14, log entry 70). -/
def objectOk (x : Ctx) (kind obj : Nat) : Bool :=
  if kind ≤ 2 then obj == 0
  else if kind ≤ 5 then decide (obj ≤ 63)
  else
    match x.w.key.part.bind (getPart x.s) with
    | some p => match tget p.queues obj with | some q => q.shape == x.p.m.shape | none => false
    | none => false

/-- QBIND. -/
def qbindBody (x : Ctx) : R Out := do
  let n := queueNum x.f.d
  let kind := field x.f.mod.toNat 2 0
  let obj ← num1 x .a
  if !objectOk x kind obj then oops cEngineDesc
  else
    let fmt := if kind = 4 ∨ kind = 5 then modByte x.f.b else 0
    let s := unbind x.s x.w.id n
    let s := updWeft s x.w.id fun w => { w with binds := tset w.binds n ⟨kind, obj, fmt, false⟩ }
    let s := if kind = 4 then
        updPanel s x.w.key fun p =>
          { p with chans := tset p.chans obj { getChan p obj with producers := (getChan p obj).producers + 1 } }
      else s
    Out.step s

def execQbind (f : Fields) (s : State) : Host.Outcome State Fault Refusal := onWeft .qbind f .once qbindBody s

/-- QUNBIND. -/
def qunbindBody (x : Ctx) : R Out :=
  let n := queueNum x.f.d
  match tget x.w.binds n with
  | none => oops cIllegalOperand
  | some _ => Out.step (unbind x.s x.w.id n)

def execQunbind (f : Fields) (s : State) : Host.Outcome State Fault Refusal := onWeft .qunbind f .once qunbindBody s

/-- The engine of a command queue kind. -/
def engineOf : Nat → Engine
  | 0 => .copy
  | 1 => .gather
  | _ => .coll

/-- Entries, commands or records behind a binding. -/
def queueCount (x : Ctx) (b : Binding) : Nat :=
  if b.kind ≤ 2 then ((getCore x.s x.w.id.core).cmds.filter fun c => c.engine == engineOf b.kind).length
  else if b.kind = 3 then (tgetD x.p.cqs b.obj []).length
  else if b.kind ≤ 5 then (getChan x.p b.obj).entries.length
  else
    match x.w.key.part.bind (getPart x.s) with
    | some p => match tget p.queues b.obj with | some q => q.recs.length | none => 0
    | none => 0

/-- The word of Table 3 of R261. -/
def qstatWord (x : Ctx) (n : Nat) : Nat :=
  match tget x.w.binds n with
  | none => 0
  | some b =>
    let cl := (b.kind == 4 || b.kind == 5) && (getChan x.p b.obj).closed
    2 ^ 31 + b.kind * 2 ^ 28 + (if cl then 2 ^ 27 else 0) + (if b.seen then 2 ^ 26 else 0) + min 65535 (queueCount x b)

def execQstat (f : Fields) (s : State) : Host.Outcome State Fault Refusal :=
  onWeft .qstat f .once (fun x => do
    let s ← writeRes x false (splat (BitVec.ofNat 64 (qstatWord x (queueNum x.f.a)))) none id
    Out.step s) s

def execQclose (f : Fields) (s : State) : Host.Outcome State Fault Refusal :=
  onWeft .qclose f .once (fun x =>
    match tget x.w.binds (queueNum x.f.a) with
    | some b =>
      if b.kind ≠ 4 then oops cIllegalOperand
      else if (getChan x.p b.obj).closed then Out.step x.s
      else Out.step (closeChan x.s x.w.key b.obj)
    | none => oops cIllegalOperand) s

/-! ### SCRUM (R262) -/

/-- SCRUM. -/
def scrumBody (x : Ctx) : R Out := do
  let k ← num1 x .a
  match x.p.m.scrums[k]? with
  | none => oops cScrum
  | some (first, count) =>
    if x.w.num < first ∨ x.w.num ≥ first + count ∨ x.p.broken.contains k then oops cScrum
    else
      Out.step (updWeft x.s x.w.id fun w =>
        { w with scrum := BitVec.ofNat 32 (2 ^ 20 + k * 2 ^ 16 + count % 16 * 2 ^ 10 + first % 1024) })

def execScrum (f : Fields) (s : State) : Host.Outcome State Fault Refusal := onWeft .scrum f .once scrumBody s

def execScrumLeave (f : Fields) (s : State) : Host.Outcome State Fault Refusal :=
  onWeft .scrumLeave f .once (fun x => Out.step (updWeft x.s x.w.id fun w => { w with scrum := 0 })) s

/-! ### Swatches (R99 to R101, R264, R265) -/

/-- The fields of a swatch record. -/
structure Swatch where
  v : Bool
  base : Nat
  len : Nat
  fmt : Nat
  blk : Nat
  layout : Nat
  k : Nat
  r : Nat
  bkoff : Nat
  bnoff : Nat
  clean : Bool
  deriving DecidableEq, Repr

/-- A swatch record taken apart: k and r are the extents themselves. -/
def swatchOf (b : BitVec 128) : Swatch :=
  let n := b.toNat
  { v := bitOf n 0, base := field n 43 32, len := field n 55 44, fmt := field n 59 56, blk := field n 63 60,
    layout := field n 67 64, k := field n 80 68 + 1, r := field n 91 81 + 1, bkoff := field n 103 92,
    bnoff := field n 115 104, clean := field n 31 1 == 0 && field n 127 116 == 0 }

/-- The block length L of a swatch format. -/
def blockLen (fmt : Nat) : Nat := if fmt = 7 then 8 else if fmt = 8 then 32 else 1

/-- The element size of a swatch format in bits (R25, R31). -/
def elemBits (fmt : Nat) : Nat :=
  match fmt with
  | 0 => 64 | 1 => 32 | 2 => 16 | 3 => 16 | 7 => 4 | _ => 8

/-- The element index of (r, k) in a swatch (R265). -/
def elemIndex (w : Swatch) (r k : Nat) : Nat :=
  let kr := roundUp w.k (blockLen w.fmt)
  match w.layout with
  | 0 => r * kr + k
  | 1 => k * w.r + r
  | _ => (r / 32 * ((kr + 31) / 32) + k / 32) * 1024 + r % 32 * 32 + k % 32

/-- The elements that a swatch's array holds. -/
def elemCount (w : Swatch) : Nat :=
  let kr := roundUp w.k (blockLen w.fmt)
  if w.layout = 2 then (w.r + 31) / 32 * ((kr + 31) / 32) * 1024 else w.r * kr

/-- Whether two byte ranges (start, length) are apart. -/
def apart (a b : Nat × Nat) : Bool := decide (a.1 + a.2 ≤ b.1) || decide (b.1 + b.2 ≤ a.1)

/-- The consistency of a record by itself (R100, R264, R265). -/
def swatchOk (w : Swatch) : Bool :=
  let size := (w.len + 1) * 128
  let el := (0, (elemCount w * elemBits w.fmt + 7) / 8)
  let kr := roundUp w.k (blockLen w.fmt)
  let bk := (w.bkoff * 128, w.r * (kr / blockLen w.fmt))
  let bn := (w.bnoff * 128, 2 * ((w.r + 63) / 64))
  w.clean && decide (w.fmt ≤ 8) && decide (w.layout ≤ 2) && decide (w.base + w.len ≤ 4095) &&
  w.blk == (if w.fmt = 7 then 1 else if w.fmt = 8 then 2 else 0) && !(w.layout == 1 && w.fmt == 7) &&
  decide (el.2 ≤ size) &&
  (decide (w.fmt < 7) || (decide (bk.1 + bk.2 ≤ size) && decide (bn.1 + bn.2 ≤ size) && apart el bk && apart el bn && apart bk bn))

/-- The swatch records that a matrix operation reads (R101). -/
def matSwatches : MatOp → List (BitVec 128)
  | .mma _ a b _ => [a, b]
  | .mmac _ _ _ b _ => [b]
  | _ => []

/-- The ranges of a core's operand buffer that its wefts and its operations in flight hold, but for one record. -/
def heldRanges (s : State) (id : WId) (k : Nat) (old : Option (BitVec 128)) : List (Nat × Nat) :=
  let ws := s.wefts.filter fun w => w.id.core == id.core
  let own := ws.flatMap fun w => (w.swatches.filter fun e => !(w.id == id && e.1 == k)).map (·.2)
  let ops := (getCore s id.core).cmds.flatMap fun c => match c.mat with | some m => matSwatches m | none => []
  let ops := ops.filter fun r => some r != old
  ((own ++ ops).map swatchOf |>.filter fun w => w.v).map fun w => (w.base, w.len + 1)

/-- A scalar register's value by its number. -/
def scalarAt (x : Ctx) (n : Nat) : R Nat := do
  let xs ← readLanes x.s x.w x.b x.pre (.s n) x.act
  .ok (lane xs 0).toNat

/-- SWRES. -/
def swresBody (x : Ctx) : R Out := do
  let k := modByte x.f.a
  let n := match x.f.b with | .s n => n.val | _ => 0
  let a ← scalarAt x n
  let b ← scalarAt x (n + 1)
  let c ← scalarAt x (n + 2)
  let d ← scalarAt x (n + 3)
  let r := BitVec.ofNat 128 ((a / 2 * 2 + 1) + b * 2 ^ 32 + c * 2 ^ 64 + d * 2 ^ 96)
  let w := swatchOf r
  let held := heldRanges x.s x.w.id k (tget x.w.swatches k)
  if swatchOk w && held.all (apart (w.base, w.len + 1)) then
    Out.step (updWeft x.s x.w.id fun u => { u with swatches := tset u.swatches k r })
  else oops cEngineDesc

def execSwres (f : Fields) (s : State) : Host.Outcome State Fault Refusal := onWeft .swres f .once swresBody s

/-- SWREL. -/
def execSwrel (f : Fields) (s : State) : Host.Outcome State Fault Refusal :=
  onWeft .swrel f .once (fun x =>
    let k := modByte x.f.a
    let clear (r : BitVec 128) : BitVec 128 := r &&& ~~~1
    Out.step (updWeft x.s x.w.id fun u =>
      match tget u.swatches k with
      | some r => { u with swatches := tset u.swatches k (clear r) }
      | none => u)) s

/-! ### OWNQ (R274) -/

/-- The word that OWNQ writes for a tile. -/
def ownWord (p : Panel) (core i : Nat) : Nat :=
  let t := i / 4096
  let present := !((panelCore p core).absent.any fun e => e.1 / 32 == t)
  (if padOwned p core i then 1 else 0) + (if present then 2 else 0)

/-- OWNQ and OWNQ.w. -/
def ownqBody (wait : Bool) (x : Ctx) : R Out := do
  let off ← num1 x .a
  let (c, i) := placeOff x.p off 1
  if wait && padOwned x.p c i then .error (.park .owner (.tile c (i / 4096)))
  else
    let s ← writeRes x false (splat (BitVec.ofNat 64 (ownWord x.p c i))) none id
    Out.step s

def execOwnq (f : Fields) (s : State) : Host.Outcome State Fault Refusal := onWeft .ownq f .once (ownqBody false) s

def execOwnqW (f : Fields) (s : State) : Host.Outcome State Fault Refusal := onWeft .ownqW f .once (ownqBody true) s

/-! ### SYMW and SYMQ (R278) -/

/-- The slot number in A. -/
def slotNum (x : Ctx) : R Nat := do
  let k ← num1 x .a
  if k > 15 then oops cIllegalOperand else .ok k

/-- The state of a symbol slot: 0 free, 1 pending, 2 arrived. -/
def slotState (w : Weft) (k : Nat) : Nat := match tget w.syms k with | some y => y.state | none => 0

def execSymw (f : Fields) (s : State) : Host.Outcome State Fault Refusal :=
  onWeft .symw f .once (fun x => do
    let k ← slotNum x
    if slotState x.w k = 0 then Out.step x.s else .error (.park .symbol (.slot k))) s

def execSymwAll (f : Fields) (s : State) : Host.Outcome State Fault Refusal :=
  onWeft .symwAll f .once (fun x =>
    if x.w.syms.all fun e => e.2.state != 1 then Out.step x.s else .error (.park .symbol .slots)) s

/-- The word that SYMQ writes. -/
def symWord (w : Weft) (k : Nat) : Nat :=
  let holds (e : Nat × VReg) : Bool := match e.2 with | .sym v | .symHi v => v.slot == k | .val _ _ => false
  let fv := bitOf w.symstF.toNat 20 && field w.symstF.toNat 19 16 == k
  (if slotState w k = 1 then 1 else 0) + (if fv then 2 else 0) + (w.vregs.filter holds).length * 256

def execSymq (f : Fields) (s : State) : Host.Outcome State Fault Refusal :=
  onWeft .symq f .once (fun x => do
    let k ← slotNum x
    let s ← writeRes x false (splat (BitVec.ofNat 64 (symWord x.w k))) none id
    Out.step s) s

end Sys2Proof.Machine
end

