-- ==== Sys2Proof/Machine/Issue.lean ====
section
/-!
DEFINITION. Which sub-weft issues next (R63, R64, R181, R293, R404, R406), the fetch of its unit (R105, R119) and
what an issue writes before the unit is carried out.
-/
namespace Sys2Proof.Machine

/-! ### Which sub-wefts may issue -/

/-- The lanes that may issue while a handler runs: those of the handler's sub-weft (R404, R406). -/
def handlerLanes (w : Weft) : Mask :=
  match [3, 2, 1, 0].findSome? fun l => tget w.active l with
  | some a => a.mask
  | none => if uiAct w then w.uimaskHeld else 0xFFFF

/-- Whether an ATOM or CAS of the sub-weft has not answered yet: its next word waits for the trap of R232. -/
def atomWait (s : State) (w : Weft) (b : Sub) : Bool :=
  s.landings.any fun l => l.w == w.id && l.atom && l.lanes &&& b.mask != 0

/-- Whether a sub-weft may issue, stalls apart (R63, R281). -/
def mayIssue (s : State) (w : Weft) (b : Sub) : Bool :=
  (match w.stepping with
   | some l => b.mask.getLsbD l
   | none => !w.halted) &&
  !w.gangHeld && !w.plHeld && !frozenWeft s w && !stoppedWeft s w && b.park.isNone && (w.onCourt || w.stepping.isSome) &&
  b.mask &&& ~~~handlerLanes w == 0 && !atomWait s w b && !s.waiting.contains (w.id, lowest b.mask)

/-- The first sub-weft of a weft that may issue; the list turns at every issue (R63). -/
def readySub (s : State) (w : Weft) : Option Nat := (w.subs.find? (mayIssue s w)).map fun b => lowest b.mask

/-- The cycle in which a core issues next: where all its ready wefts wait for a stall count, that in which the first
ends (R122). -/
def issueCycle (s : State) (core : Nat) : Nat :=
  let own := (getCore s core).cycle
  match s.wefts.filter fun w => w.id.core == core && (readySub s w).isSome with
  | [] => own
  | w :: t => max own (t.foldl (fun n x => min n x.stall) w.stall)

/-- Whether a weft's stall count has expired when its core issues next (R122). -/
def unstalled (s : State) (w : Weft) : Bool := w.stall ≤ issueCycle s w.id.core

/-- The state in which a weft issues: its core has reached the end of the weft's stall count. -/
def passTime (s : State) (id : WId) : State :=
  match getWeft s id with
  | some w => updCore s id.core fun c => { c with cycle := max c.cycle w.stall }
  | none => s

/-- Whether one weft issues before another (R63): a stepped one, one passed over for 64 issues, the older, then
round robin. -/
def before (a b : Weft) : Bool :=
  let k (w : Weft) : Nat := if w.stepping.isSome then 0 else if w.skipped ≥ 64 then 1 else 2
  if k a ≠ k b then k a < k b else if a.age ≠ b.age then a.age < b.age else a.lastIssue < b.lastIssue

/-- The weft of a list that issues first. -/
def firstOf (better : Weft → Weft → Bool) (ws : List Weft) : Option Weft :=
  ws.foldl (fun (o : Option Weft) w =>
    match o with
    | none => some w
    | some x => if better w x then some w else some x) none

/-- The weft of a quarter that issues next (R63), and its sub-weft whose turn it is. -/
def quarterPick (s : State) (core quarter : Nat) : Option (WId × Nat) :=
  match firstOf before (s.wefts.filter fun w =>
      w.id.core == core && w.quarter == quarter && (readySub s w).isSome && unstalled s w) with
  | none => none
  | some w => (readySub s w).map fun l => (w.id, l)

/-- When the quarter of a weft last issued. -/
def quarterLast (s : State) (w : Weft) : Nat :=
  s.wefts.foldl (fun n x => if x.id.core = w.id.core ∧ x.quarter = w.quarter then max n x.lastIssue else n) 0

/-- The weft that issues next: that of the quarter that has waited longest. -/
def pickIssuer (s : State) : Option (WId × Nat) :=
  match firstOf (fun a b => quarterLast s a < quarterLast s b)
      (s.wefts.filter fun w => (readySub s w).isSome && unstalled s w) with
  | none => none
  | some w => quarterPick s w.id.core w.quarter

/-- Nothing can issue: a cycle passes on every core. -/
def idleStep (s : State) : State :=
  { s with waiting := [], tick := s.tick + 1, cores := s.cores.map fun c => { c with cycle := c.cycle + 1 } }

/-! ### Fetch (R105, R119, R131) -/

/-- One instruction word, or why it is not fetched. An address that is no multiple of 8, which only a trap vector can set, faults
ALIGN here (log entry 75). -/
def fetchWord (s : State) (w : Weft) (p : Panel) (b : Sub) (va : Nat) : R Word64 :=
  match xlCheck s w p b .exec 0 va 8 with
  | .ok pa leaf =>
    let who : Fetcher := .code w.id.core (tagOf p.asid (w.key.part.getD 64) leaf)
    match placeOf s pa, b.hold with
    | .here q, _ => .ok (BitVec.ofNat 64 (physNum s q 8))
    | _, h =>
      if fetched s who pa (some va) then .ok (BitVec.ofNat 64 (physNum s pa 8))
      else
        match h with
        | .walkFault code v => if v = va then .error (.fault code va 0) else .error (.away who [(va, pa)])
        | _ => .error (.away who [(va, pa)])
  | .fault c => .error (.fault c va 0)
  | .miss => .error (.xlate va false)

/-- The words of the unit at an address: prefixes and the word that takes them, as far as the decoder needs. -/
def fetchUnit (s : State) (w : Weft) (p : Panel) (b : Sub) (pc : Nat) : R (List Word64) := do
  let w0 ← fetchWord s w p b pc
  if !isPrefixWord w0 then .ok [w0]
  else
    let w1 ← fetchWord s w p b ((pc + 8) % 2 ^ 64)
    if !isPrefixWord w1 || isAttrWord w0 == isAttrWord w1 then .ok [w0, w1]
    else
      let w2 ← fetchWord s w p b ((pc + 16) % 2 ^ 64)
      .ok [w0, w1, w2]

/-- The fault of words that are not an instruction (R130). On a supervisor core OP 0x62 to 0x69 are unassigned. -/
def rejectCode (w : Weft) (ws : List Word64) : Reject → Nat
  | .illegalOp => cIllegalOp
  | .illegalPrefix => cIllegalPrefix
  | .pairing => cPairing
  | .short => cIllegalPrefix
  | .illegalOperand =>
    let op := ((ws.getLastD 0).extractLsb' 56 7).toNat
    if isSup w.id.core && decide (0x62 ≤ op) && decide (op ≤ 0x69) && !(ws.getLastD 0).getLsbD 63 then cIllegalOp
    else cIllegalOperand

/-- The unit that a sub-weft issues: its instruction and its number of words. A fresh weft over its budget faults
SHAPE_OVER before its first instruction (R69). -/
def fetchInstr (s : State) (w : Weft) (p : Panel) (b : Sub) : R (Instr × Nat) := do
  if w.freshShape then .error (.fault cShapeOver noTval 0)
  let ws ← fetchUnit s w p b b.pc.toNat
  match decodeUnit ws with
  | .ok x => .ok x
  | .error e => oops (rejectCode w ws e)

/-! ### What an issue writes -/

/-- The stall count of an instruction (R107, R114). -/
def stlOf (i : Instr) : Nat :=
  match viewInstr i with
  | some (_, f) => f.stl.toNat
  | none => match i with | .paired st _ _ => st.toNat | _ => 0

/-- The sub-weft of a lane goes to the end of its weft's list (round robin of R63). -/
def turnSubs (w : Weft) (lane : Nat) : Weft :=
  { w with subs := (w.subs.filter fun b => !b.mask.getLsbD lane) ++ w.subs.filter fun b => b.mask.getLsbD lane }

/-- Whether a word names `$cycle` as an operand. -/
def readsCycle (i : Instr) : Bool :=
  match viewInstr i with
  | some (_, f) => (fieldsOf f).contains (.spec .cycle)
  | none => false

/-- The state in which an instruction of n words is carried out for a sub-weft: cur names the unit, the core's
cycle, the stall count and the issue records move on (R63, R122, R179). A read of `$cycle` finds a free number of
cycles more (log entry 7). -/
def prepare (s : State) (id : WId) (lane : Nat) (pc : Word64) (i : Instr) (n : Nat) : State :=
  let cyc := (getCore s id.core).cycle
  let free := if readsCycle i then Config.freeCycles s.tick else 0
  let s := updCore s id.core fun c => { c with cycle := cyc + n, extra := c.extra + free }
  let q := match getWeft s id with | some w => w.quarter | none => 0
  let aged (w : Weft) : Weft := if w.batch.isSome then { w with batchAge := w.batchAge + n } else w
  let mark (w : Weft) : Weft :=
    if w.id = id then
      aged (turnSubs { w with stall := cyc + (n - 1) + max (stlOf i) 1, lastIssue := s.tick + 1, skipped := 0 } lane)
    else if w.id.core = id.core ∧ w.quarter = q then aged { w with skipped := w.skipped + n } else w
  { s with wefts := s.wefts.map mark, cur := some ⟨id, lane, pc, n⟩, tick := s.tick + 1 }

/-- A unit that cannot be fetched or decoded ends in its fault or waits for its translation. -/
def failFetch (s : State) (id : WId) (lane : Nat) (w : Weft) (p : Panel) (b : Sub) (e : Stop) : State :=
  finishUnit (updWeft s id fun x => { x with freshShape := false }) ⟨id, lane, b.pc, 1⟩ w p b 0 0 (.error e)

/-- What an issue does before the unit is fetched: the sub-weft merges or parks at a reconvergence point (R181). -/
inductive Arrival
  | issue (s : State) (w : Weft) (p : Panel) (b : Sub)
  | ended (s : State)
  deriving DecidableEq, Repr

/-- Whether a sub-weft takes the user interrupt that is due before it issues (R406). -/
def takesUi (w : Weft) (lane : Nat) : Bool :=
  uiDue w && w.stepping.isNone && match subAt w lane with | some b => holdFree b.hold | none => false

/-- The arrival of a sub-weft that is about to issue. A DSTEP step ends at a merge (R296). -/
def arrival (s : State) (id : WId) (lane : Nat) : Arrival :=
  match getWeft s id with
  | none => .ended s
  | some w0 =>
    if takesUi w0 lane then .ended (if entryHeld s id then { s with waiting := (id, lane) :: s.waiting } else progress (takeUi s id lane))
    else
    let (w, go) := arrive (w0.divs.length + 1) w0 lane
    let s := setWeft s w
    if !go then
      let s := updWeft s id settle
      .ended (endStep s id (parkStatus s id lane))
    else if w.stepping.isSome && w.divs.length < w0.divs.length then .ended (endStep s id 0)
    else
      match getPanel s w.key, subAt w lane with
      | some p, some b => .issue s w p b
      | _, _ => .ended s

end Sys2Proof.Machine
end

