-- ==== Sys2Proof/Machine/Court.lean ====
section
/-!
DEFINITION. Court and bench (R63 to R65, R187): the substitution of a parked weft, the promotion to a free court slot
and the rotation.
-/
namespace Sys2Proof.Machine

/-- The wefts of one quarter of a core. -/
def quarterWefts (s : State) (core quarter : Nat) : List Weft :=
  s.wefts.filter fun w => w.id.core == core && w.quarter == quarter

/-- Whether a weft has a sub-weft that is not parked and that nothing holds. -/
def runnable (s : State) (w : Weft) : Bool :=
  !w.halted && !w.gangHeld && !w.plHeld && !frozenWeft s w && !stoppedWeft s w &&
  w.subs.any fun b => b.park.isNone && b.mask &&& ~~~handlerLanes w == 0

/-- The ready bench wefts of a quarter (R64). -/
def readyBench (s : State) (core quarter : Nat) : List Weft :=
  (quarterWefts s core quarter).filter fun w => !w.onCourt && runnable s w

/-- The court slots of a quarter that no weft holds (R15). -/
def freeCourt (s : State) (core quarter : Nat) : Nat :=
  Config.courtSlots - ((quarterWefts s core quarter).filter fun w => w.onCourt).length

/-- A weft goes to the bench. -/
def toBench (s : State) (id : WId) : State :=
  updWeft s id fun w => { w with onCourt := false, benchSince := s.tick }

/-- A weft takes a court slot: it may issue two cycles later (R65). -/
def toCourt (s : State) (id : WId) : State :=
  let c := (getCore s id.core).cycle
  updWeft s id fun w => { w with onCourt := true, courtSince := s.tick, stall := max w.stall (c + 2) }

/-- The bench weft that has been ready longest. -/
def longestReady (ws : List Weft) : Option Weft :=
  ws.foldl (fun o w => match o with
    | none => some w
    | some x => if w.benchSince < x.benchSince then some w else some x) none

/-- The ready bench weft of highest effective priority, ties to the one ready longest (R65). -/
def bestBench (ws : List Weft) : Option Weft :=
  ws.foldl (fun o w => match o with
    | none => some w
    | some x =>
      if w.prio > x.prio || (w.prio == x.prio && decide (w.benchSince < x.benchSince)) then some w else some x) none

/-- The court weft that has held its slot longest. -/
def longestCourt (ws : List Weft) : Option Weft :=
  ws.foldl (fun o w => match o with
    | none => some w
    | some x => if w.courtSince < x.courtSince then some w else some x) none

/-- BENCH_SUBSTITUTION: a court weft all of whose sub-wefts are parked leaves the court (R64). -/
def execBenchSubstitution (id : WId) (s : State) : Host.Outcome State Fault Refusal :=
  match getWeft s id with
  | some w =>
    if w.onCourt && !w.subs.isEmpty && w.subs.all (fun b => b.park.isSome) then .next (toBench s id) else .next s
  | none => .next s

/-- PROMOTION: a free court slot goes to the ready bench weft of highest effective priority (R65). -/
def execPromotion (core quarter : Nat) (s : State) : Host.Outcome State Fault Refusal :=
  match bestBench (readyBench s core quarter) with
  | some w => if freeCourt s core quarter > 0 then .next (toCourt s w.id) else .next s
  | none => .next s

/-- The record of a quarter that has found no free court slot (R65): how many issue cycles so far. -/
def busyFor (s : State) (core quarter : Nat) : Nat := tgetD (getCore s core).busyCourt quarter 0

/-- Whether a rotation is due: ready bench wefts, and no free slot for 8 issue cycles. -/
def rotationDue (s : State) (core quarter : Nat) : Bool :=
  !(readyBench s core quarter).isEmpty && freeCourt s core quarter == 0 && decide (busyFor s core quarter ≥ 8)

/-- An issue of n words of a weft is n issue cycles of its quarter, counted while ready bench wefts find no free slot (R65). -/
def markCourt (s : State) (id : WId) (n : Nat) : State :=
  match getWeft s id with
  | none => s
  | some w =>
    let n := if !(readyBench s id.core w.quarter).isEmpty && freeCourt s id.core w.quarter == 0 then
      busyFor s id.core w.quarter + n else 0
    updCore s id.core fun c => { c with busyCourt := tset c.busyCourt w.quarter n }

/-- ROTATION: the court weft that has held its slot longest gives it to the bench weft ready longest (R65). -/
def execRotation (core quarter : Nat) (s : State) : Host.Outcome State Fault Refusal :=
  if !rotationDue s core quarter then .next s
  else
    match longestCourt ((quarterWefts s core quarter).filter fun w => w.onCourt),
        longestReady (readyBench s core quarter) with
    | some a, some b =>
      let s := updCore s core fun c => { c with busyCourt := tset c.busyCourt quarter 0 }
      .next (toCourt (toBench s a.id) b.id)
    | _, _ => .next s

end Sys2Proof.Machine
end

