-- ==== Sys2Proof/Machine/Tasks.lean ====
section
/-!
DEFINITION. Task records, ready queues and the queue engine (R54 to R62, R275 to R277, R346, R440).
-/
namespace Sys2Proof.Machine

/-! ### Task records (R54 to R57) -/

/-- The fields of a task record. -/
structure Rec where
  entry : Nat
  arg : Nat
  icount : Nat
  ibase : Nat
  dep : Nat
  flags : Nat
  succ : Nat
  nsucc : Nat
  shape : Nat
  metaVa : Nat
  done : Nat
  deriving DecidableEq, Repr

/-- The record in 64 bytes. -/
def recOf (n : Nat) : Rec :=
  ⟨field n 63 0, field n 127 64, field n 159 128, field n 191 160, field n 223 192, field n 255 224, field n 319 256,
    field n 351 320, field n 383 352, field n 447 384, field n 511 448⟩

/-- The flags of a record. -/
def Rec.v (r : Rec) : Bool := bitOf r.flags 0
def Rec.bolt (r : Rec) : Bool := bitOf r.flags 1
def Rec.q (r : Rec) : Bool := bitOf r.flags 2
def Rec.live (r : Rec) : Bool := bitOf r.flags 3
def Rec.pri (r : Rec) : Nat := field r.flags 6 4
def Rec.qid (r : Rec) : Nat := field r.flags 13 8

/-- Whether a record at an address is well-formed for the queues of a partition (R57). -/
def recOk (p : Part) (addr : Nat) (r : Rec) : Bool :=
  let w := field r.shape 9 0 + 1
  addr % 64 == 0 && r.v && !r.live && field r.flags 31 14 == 0 && !bitOf r.flags 7 && field r.shape 31 23 == 0 &&
  !(r.bolt && r.icount == 0) && (match tget p.queues r.qid with | some q => q.shape == r.shape | none => false) &&
  field r.shape 11 10 != 3 && decide (field r.shape 22 12 ≤ w) && decide (r.nsucc ≤ 4096)

/-! ### The queue engine's own accesses (R440) -/

/-- The queue engine's accesses under an ASID: U is not needed (R440). -/
def queueFor (part asid : Nat) : EngFor := ⟨asid, some part, false, 0, true⟩

/-- What a queue engine has asked for in the lines of a range has served. -/
def served (s : State) (part va n : Nat) : State :=
  let mine (f : Fetch) : Bool := f.who == .queue part && f.va / 128 ≥ va / 128 && f.va / 128 ≤ (va + n - 1) / 128
  { s with fetches := s.fetches.filter fun f => !mine f }

/-- The lines of peers in a range are asked for; an access that its peer has refused or lost is denied (log entry 61). -/
def reach (s : State) (part asid va n : Nat) : Option EngStop × State :=
  let spoilt (a : Nat) : Bool :=
    match engAway s (queueFor part asid) a with
    | some pa => s.fetches.any fun f => f.who == .queue part && f.bad && f.pa / 128 == pa / 128
    | none => false
  if (rangeLines va n).any spoilt then (some (.denied va), s)
  else
    match engFetch s (queueFor part asid) (.queue part) (rangeLines va n) with
    | some s => (some .wait, s)
    | none => (none, s)

/-- A number read by the queue engine. What a peer refuses is a denied access (log entry 61). -/
def seeNum (s : State) (part asid va n : Nat) : Except EngStop Nat × State :=
  match reach s part asid va n with
  | (some e, s) => (.error e, s)
  | (none, s) =>
    match engBytes (queueFor part asid) va n s with
    | .ok (bs, s) => (.ok (ofBytes bs), s)
    | .error e => (.error e, s)

/-- A record read by the queue engine. -/
def seeRec (s : State) (part asid addr : Nat) : Except EngStop Rec × State :=
  match seeNum s part asid addr 64 with
  | (.ok n, s) => (.ok (recOf n), s)
  | (.error e, s) => (.error e, s)

/-- A number written by the queue engine. -/
def putNum (s : State) (part asid va n v : Nat) : Option EngStop × State :=
  match engPuts (queueFor part asid) va (toBytes n v) s with
  | (none, s) => (none, engPost s (queueFor part asid) none ((List.range n).map (va + ·)))
  | r => r

/-- One added to a 64-bit word, at its home: a peer's home adds it itself. -/
def addOne (s : State) (part asid va : Nat) : Option EngStop × State :=
  let m := queueFor part asid
  match engAway s m va with
  | some pa =>
    match engAt s m true va, placeOf s pa with
    | .ok (_, _, s), .peer t off => (none, (postAt s 0 none none (some part) t off (localPa s pa) (.red 0 2 1 none)).2)
    | .ok _, _ => (some .wait, s)
    | .error e, _ => (some e, s)
  | none =>
    match seeNum s part asid va 8 with
    | (.ok n, s) => putNum s part asid va 8 (n + 1)
    | (.error e, s) => (some e, s)

/-- DEP of a record lowered by 1 from a value that has been read: at a peer by a compare-and-swap there, which is tried again
from the start where another decrement came first (R60). -/
def lowerDep (s : State) (part asid addr dep : Nat) : Option EngStop × State :=
  let m := queueFor part asid
  let va := addr + 24
  match engAway s m va with
  | none => putNum s part asid va 4 (dep - 1)
  | some pa =>
    match s.fetches.find? fun f => f.who == .queue part && f.va == va && f.op != .read with
    | none =>
      match engAt s m true va with
      | .ok (_, _, s) => (some .wait, askAtomic (.queue part) (some part) s va pa (.cas false (BitVec.ofNat 64 dep) (BitVec.ofNat 64 (dep - 1))))
      | .error e => (some e, s)
    | some f =>
      if f.bad then (some (.denied va), s)
      else if !f.done then (some .wait, s)
      else if f.old = dep then (none, served s part addr 64)
      else (some .wait, served s part addr 64)

/-! ### Placement (R58, R59, R62) -/

/-- A record placed on its queue (R58, R59, R62): Q and L are set, a completion entry is made, and the dequeue that comes
first gets it. -/
def placeRec (s : State) (part asid addr : Nat) (r : Rec) : Option EngStop × State :=
  match putNum s part asid (addr + 28) 4 (r.flags ||| 12) with
  | (some e, s) => (some e, s)
  | (none, s) =>
    let n := if r.bolt then r.icount else 1
    let add (p : Part) : Part :=
      match tget p.queues r.qid with
      | none => p
      | some q =>
        { p with
          queues := tset p.queues r.qid { q with recs := q.recs ++
            [⟨addr, min r.pri q.ceiling, r.bolt, 0, n, r.ibase, BitVec.ofNat 64 r.arg, asid⟩] }
          comps := ⟨addr, asid, n⟩ :: p.comps.filter fun c => !(c.addr == addr && c.asid == asid) }
    (none, progress (wakeDeq (updPart s part add) part r.qid))

/-! ### Records of errors -/

/-- The orphan-arrival record (KIND 1). -/
def orphan (s : State) (part agent addr desc dep : Nat) : State := errRecord s (some part) 1 0 0 agent dep addr desc

/-- A record dropped (KIND 2). -/
def dropRec (s : State) (part agent addr way : Nat) : State := errRecord s (some part) 2 0 0 agent way addr 0

/-- An access of a completion that is refused (KIND 14). -/
def refusedAt (s : State) (part agent va addr what : Nat) : State := errRecord s (some part) 14 0 0 agent what va addr

/-! ### The overflow area (R59) -/

/-- An address appended to the ring in memory; while the area does not translate, the append waits (R439). -/
def ovflAppend (s : State) (part : Nat) (p : Part) (addr : Nat) : Except Nat State :=
  let asid := p.desc.asidLo
  match deviceNum s asid (some part) (p.desc.ovfl + 4) 4 with
  | .error e => .error e
  | .ok tail =>
    match deviceWrite s asid (some part) (p.desc.ovfl + 64 + 8 * (tail % max 1 p.desc.ovfcap)) (toBytes 8 addr) with
    | .error e => .error e
    | .ok s => deviceWrite s asid (some part) (p.desc.ovfl + 4) (toBytes 4 (tail + 1))

/-- The ring's HEAD counts up when its oldest entry is placed. -/
def ovflPop (s : State) (part : Nat) (p : Part) : Except Nat State :=
  match deviceNum s p.desc.asidLo (some part) p.desc.ovfl 4 with
  | .error e => .error e
  | .ok head => deviceWrite s p.desc.asidLo (some part) p.desc.ovfl (toBytes 4 (head + 1))

/-- Work on the overflow area: it waits behind earlier work there, and while the area does not translate (R439). -/
def ovflWork (s : State) (part : Nat) (p : Part) (w : AreaWork) (now : Except Nat State) : State :=
  let waits := p.areaWork.any fun x => match x with | .ovfl _ | .ovflHead => true | _ => false
  match waits, now with
  | false, .ok s => s
  | _, _ => deferArea s part p.desc.ovfl w

/-- A record put into the overflow area, with the queue on which it needs room. -/
def overflowRec (s : State) (part addr asid qid : Nat) : State :=
  match getPart s part with
  | none => s
  | some p =>
    updPart (ovflWork s part p (.ovfl addr) (ovflAppend s part p addr)) part fun p =>
      { p with overflow := p.overflow ++ [(addr, asid, qid)] }

/-- Whether a decrement can place a record on a queue at once: no entry of the area waits for the same queue. -/
def roomNow (p : Part) (qid : Nat) : Bool := queueRoom p qid && !p.overflow.any fun e => e.2.2 == qid

/-- Whether the partition's decrements are held: one needs room that neither its queue nor the area has (R59). -/
def heldUp (p : Part) : Bool :=
  match p.ovfHeld with
  | none => false
  | some q => !roomNow p q && decide (p.overflow.length ≥ p.desc.ovfcap)

/-! ### Decrements (R60, R346) -/

/-- One decrement of a record's DEP; false where it has to wait for a page, a home or room. -/
def decRec (s : State) (part asid addr desc agent : Nat) : Bool × State :=
  match getPart s part with
  | none => (true, s)
  | some p =>
    if heldUp p then (false, s)
    else
      let s := if p.ovfHeld.isNone then s else updPart s part fun p => { p with ovfHeld := none }
      let ends (s : State) : Bool × State := (true, served s part addr 64)
      let stop (e : EngStop) (s : State) : Bool × State :=
        match e with
        | .absent va => (false, noteAbsent s (some part) agent va addr 6)
        | .denied va => ends (refusedAt (engAlias s (queueFor part asid) va) part agent va addr 2)
        | .wait => (false, s)
      match seeRec s part asid addr with
      | (.error e, s) => stop e s
      | (.ok r, s) =>
        let lower (go : State → State) : Bool × State :=
          match lowerDep s part asid addr r.dep with
          | (none, s) => ends (go s)
          | (some e, s) => stop e s
        if !r.v || r.dep = 0 then ends (orphan s part agent addr desc r.dep)
        else if r.dep ≥ 2 then lower fun s => s
        else if !recOk p addr r || r.q then lower fun s => dropRec s part agent addr 2
        else if roomNow p r.qid then
          lower fun s =>
            match placeRec s part asid addr { r with dep := 0 } with
            | (none, s) => s
            | (some _, s) => dropRec s part agent addr 2
        else if p.overflow.length < p.desc.ovfcap then lower fun s => overflowRec s part addr asid r.qid
        else (false, updPart s part fun p => { p with ovfHeld := some r.qid })

/-! ### Completion (R62) -/

/-- The rest of a completion from successor i under the ASID of the completing panel, with that of the placement: the
decrements, the completion word (past it i is 4,097), the entry and L. -/
def completeFrom : Nat → State → Nat → Nat → Nat → Nat → Nat → Nat → State
  | 0, s, part, asid, addr, placed, i, agent =>
    updPart s part fun p => { p with work := p.work ++ [.complete addr asid placed i agent] }
  | n + 1, s, part, asid, addr, placed, i, agent =>
    let later (s : State) : State :=
      updPart s part fun p => { p with work := p.work ++ [.complete addr asid placed i agent] }
    let ended (s : State) : State :=
      wakePlace (updPart (served s part addr 64) part fun p =>
        { p with comps := p.comps.filter fun c => !(c.addr == addr && c.asid == placed) }) part
    let next (s : State) (i : Nat) : State := completeFrom n s part asid addr placed i agent
    let stop (e : EngStop) (s : State) (skip : Nat → State → State) (what : Nat) : State :=
      match e with
      | .absent va => later (noteAbsent s (some part) agent va addr 6)
      | .wait => later s
      | .denied va => skip va (refusedAt (engAlias s (queueFor part asid) va) part agent va addr what)
    match seeRec s part asid addr with
    | (.error e, s) => stop e s (fun _ s => ended s) 4
    | (.ok r, s) =>
      if i < r.nsucc ∧ i < 4096 then
        match seeNum s part asid (r.succ + 8 * i) 8 with
        | (.error e, s) => stop e s (fun va s => next (served s part va 8) (i + 1)) 1
        | (.ok a, s) =>
          match decRec s part asid a 0 agent with
          | (true, s) => next (served s part (r.succ + 8 * i) 8) (i + 1)
          | (false, s) => later s
      else if r.done = 0 ∨ i > 4096 then
        match putNum s part asid (addr + 28) 4 (setField r.flags 3 3 0) with
        | (none, s) => ended s
        | (some e, s) => stop e s (fun _ s => ended s) 4
      else
        match addOne s part asid r.done with
        | (none, s) => next (served s part r.done 8) 4097
        | (some e, s) => stop e s (fun _ s => next (served s part r.done 8) 4097) 3

/-- The completion of a task, from successor i. -/
def completeTask (s : State) (part asid addr placed i agent : Nat) : State :=
  progress (completeFrom 4200 s part asid addr placed i agent)

/-! ### Dequeues (R61, R275) -/

/-- The record at the head of a queue's highest non-empty level. -/
def headRec (q : ReadyQueue) : Option Ready :=
  q.recs.foldl (fun o r => match o with
    | none => some r
    | some x => if r.level > x.level then some r else some x) none

/-- FLAGS.Q of a record cleared under the ASID of the panel that dequeues it; the access waits where its page is absent or
its home does not answer yet, and a denied one leaves the flag. -/
def clearQ (s : State) (part asid addr agent : Nat) : State :=
  let again (s : State) : State := updPart s part fun p => { p with work := p.work ++ [.clearQ addr asid agent] }
  let stop (e : EngStop) (s : State) : State :=
    match e with
    | .denied va => served (engAlias s (queueFor part asid) va) part addr 64
    | .absent va => again (noteAbsent s (some part) agent va addr 6)
    | .wait => again s
  match seeNum s part asid (addr + 28) 4 with
  | (.error e, s) => stop e s
  | (.ok n, s) =>
    match putNum s part asid (addr + 28) 4 (setField n 2 2 0) with
    | (none, s) => served s part addr 64
    | (some e, s) => stop e s

/-- One dequeue for a panel with an ASID: the record handed out with its index, and the state. A record whose last index goes
leaves the queue, its Q is cleared, and there is room. -/
def takeRec (s : State) (part q asid agent : Nat) : Option (Ready × State) :=
  match (getPart s part).bind fun p => tget p.queues q with
  | none => none
  | some rq =>
    match headRec rq with
    | none => none
    | some r =>
      let last := r.next + 1 ≥ r.count
      let same (x : Ready) : Bool := x.addr == r.addr && x.asid == r.asid
      let recs := if last then rq.recs.filter fun x => !same x else updFirst same (fun x => { x with next := x.next + 1 }) rq.recs
      let s := updPart s part fun p => { p with queues := tset p.queues q { rq with recs := recs } }
      some (r, if last then wakePlace (clearQ s part asid r.addr agent) part else s)

/-- The index that a dequeue of a record hands out. -/
def indexOf (r : Ready) : Word32 := BitVec.ofNat 32 (r.ibase + (if r.bolt then r.next else 0))

/-- A weft takes a record: `$task`, `$index` and the effective priority (R61, R65). -/
def takeTask (r : Ready) (w : Weft) : Weft :=
  { w with task := BitVec.ofNat 64 r.addr, taskAsid := r.asid, index := indexOf r, prio := r.level }

/-- The queue bound to A, of kind 6, and the partition. -/
def readyQueue (x : Ctx) : R (Nat × Nat) :=
  match x.f.a, x.w.key.part with
  | .q n, some part =>
    match tget x.w.binds n.val with
    | some b => if b.kind = 6 then .ok (part, b.obj) else oops cIllegalOperand
    | none => oops cIllegalOperand
  | _, _ => oops cIllegalOperand

/-- A dequeue's D and registers, and its acquire. -/
def deqDone (x : Ctx) (s : State) (r : Ready) (pred : Option Bool) : R Out := do
  let extra (w : Weft) : Weft :=
    let w := takeTask r w
    match pred with
    | some v => predResult x w (predNum x.f.c) (if v then 0xFFFF else 0) none
    | none => w
  let s1 ← writeRes { x with s := s } true (splat r.arg) none extra
  Out.step (acquireNow x s1)

/-- Whether a weft's dequeue comes first in the line of a queue. -/
def deqFirst (x : Ctx) (part q : Nat) (panel : Bool) : Bool :=
  match deqLine x.s part q with
  | [] => true
  | d :: _ =>
    if panel then d.panel && (match getWeft x.s d.w with | some w => w.key == x.w.key | none => false)
    else !d.panel && d.w == x.w.id && x.b.mask.getLsbD d.lane

/-- A dequeue takes its place in the line. -/
def joinLine (x : Ctx) (s : State) (part q : Nat) (panel : Bool) : State :=
  let me : DeqWait := ⟨x.w.id, lowest x.b.mask, q, panel⟩
  updPart s part fun p => if p.deqs.contains me then p else { p with deqs := p.deqs ++ [me] }

/-- The line without a dequeue that has been served, or without those of its panel's wefts; the next one gets what the queue
still holds. -/
def leaveLine (x : Ctx) (s : State) (part q : Nat) (panel : Bool) : State :=
  let mine (d : DeqWait) : Bool :=
    if panel then d.panel && (match getWeft s d.w with | some w => w.key == x.w.key | none => true)
    else !d.panel && d.w == x.w.id && x.b.mask.getLsbD d.lane
  wakeDeq (updPart s part fun p => { p with deqs := p.deqs.filter fun d => !mine d }) part q

/-- TDEQ. -/
def tdeqBody (x : Ctx) : R Out := do
  let (part, q) ← readyQueue x
  let waitHere : R Out :=
    .ok ⟨updCur (joinLine x x.s part q false) x.c fun b => { b with hold := .deqWait q }, .park .task (.deq q), []⟩
  if !deqFirst x part q false then waitHere
  else
    match takeRec x.s part q x.p.asid x.w.id.core with
    | none => waitHere
    | some (r, s) => deqDone x (leaveLine x s part q false) r none

def execTdeq (f : Fields) (s : State) : Host.Outcome State Fault Refusal := onWeft .tdeq f .once tdeqBody s

/-- TDEQ.nb. -/
def tdeqNbBody (x : Ctx) : R Out := do
  let (part, q) ← readyQueue x
  let no : R Out := Out.step (setWeft x.s (predResult x x.w (predNum x.f.c) 0 none))
  if !(deqLine x.s part q).isEmpty then no
  else
    match takeRec x.s part q x.p.asid x.w.id.core with
    | none => no
    | some (r, s) => deqDone x s r (some true)

def execTdeqNb (f : Fields) (s : State) : Host.Outcome State Fault Refusal := onWeft .tdeqNb f .once tdeqNbBody s

/-- The sub-weft of a weft that stands at a `tdeq.panel`. -/
def panelDeq (w : Weft) : Option (Sub × Nat × Operand × Nat) :=
  w.subs.findSome? fun b => match b.hold with | .deqPanel q d n => some (b, q, d, n) | _ => none

/-- A weft that waits at a `tdeq.panel` receives the record and goes on at its next word. -/
def givePanel (r : Ready) (w : Weft) : Weft :=
  match panelDeq w with
  | none => w
  | some (b, _, d, n) =>
    let w := takeTask r w
    let w := match d with
      | .s k => putReg (putReg w b (.s k.val) 0xFFFF [r.arg.setWidth 32] none) b (.s (k.val + 1)) 0xFFFF [r.arg.extractLsb' 32 32] none
      | _ => w
    let go (x : Sub) : Sub := { x with pc := x.pc + BitVec.ofNat 64 (8 * n), park := none, hold := .none }
    { w with subs := w.subs.map fun x => if x.mask = b.mask then go x else x }

/-- TDEQ.panel: the record is taken when every weft of the panel stands at one. -/
def tdeqPanelBody (x : Ctx) : R Out := do
  let (part, q) ← readyQueue x
  let others := (weftsOf x.s x.w.key).filter fun w => w.id != x.w.id
  match others.findSome? panelDeq with
  | some (_, q0, _, _) => if q0 ≠ q then oops cEngineDesc
  | none => pure ()
  let here (s : State) : R Out :=
    .ok ⟨updCur s x.c fun b => { b with hold := .deqPanel q x.f.d x.c.words }, .park .task (.deqAll q), []⟩
  if others.any fun w => (panelDeq w).isNone then here x.s
  else if !deqFirst x part q true then here (joinLine x x.s part q true)
  else
    match takeRec x.s part q x.p.asid x.w.id.core with
    | none => here (joinLine x x.s part q true)
    | some (r, s) =>
      let s := leaveLine x s part q true
      let go (s : State) (w : Weft) : State := acquireFor (updWeft s w.id (givePanel r)) (agentOf w)
      deqDone x (others.foldl go s) r none

def execTdeqPanel (f : Fields) (s : State) : Host.Outcome State Fault Refusal := onWeft .tdeqPanel f .once tdeqPanelBody s

/-! ### TENQ, TDONE and TARM (R276, R277) -/

/-- The record in A, read as an access of the weft: PERMISSION, then a malformed address, then R220. -/
def ownRec (x : Ctx) (k : AccKind) : R (LaneAcc × Rec × State) := do
  let addr := (← rd1 x .a true).toNat
  if addr < 2 ^ 57 ∧ addr % 64 ≠ 0 then oops cEngineDesc
  else
    let _ ← checkAll x .read 0 0 [(lowest x.act, addr)]
    let accs ← checkAll x k 0 0 [(lowest x.act, addr)]
    match accs with
    | a :: _ =>
      awayGate x [(a.va, a.pa)]
      let pa := localPa x.s a.pa
      if !lineServes x.s (lineOf pa) (leafCC a.leaf) then .error .wait
      else
        let s := mergeLine (quietLine x.s (lineOf pa)) (lineOf pa)
        .ok (a, recOf (physNum s pa 64), dropFetches s (.unit x.w.id x.c.lane))
    | [] => .error .wait

/-- A stop of the queue engine in a task instruction: PERMISSION where the leaf denies the access (log entry 51). -/
def engineStop {α : Type} : EngStop → R α
  | .denied va => .error (.fault cPermission va 0)
  | .absent va => .error (.xlate va true)
  | .wait => .error .wait

/-- TENQ. Where the leaf denies the write of FLAGS it faults PERMISSION, for which R440 names no outcome (log entry 51). -/
def tenqBody (x : Ctx) : R Out := do
  let (a, r, s) ← ownRec x .read
  match x.w.key.part with
  | none => oops cEngineDesc
  | some part =>
    match getPart s part with
    | none => oops cEngineDesc
    | some p =>
      if !recOk p a.va r || r.q then oops cEngineDesc
      else
        withRelease { x with s := s } 4 fun s =>
          if r.dep ≠ 0 then Out.step s
          else if !queueRoom p r.qid then .error (.park .task (.place r.qid))
          else
            match placeRec s part x.p.asid a.va r with
            | (none, s) => Out.step s
            | (some e, _) => engineStop e

def execTenq (f : Fields) (s : State) : Host.Outcome State Fault Refusal := onWeft .tenq f .once tenqBody s

/-- The scope of TDONE's release: `.sys` where the completion word lies in an SC page (R62). -/
def doneScope (s : State) (part asid : Nat) (r : Except EngStop Rec) : Nat :=
  match r with
  | .ok r =>
    if r.done = 0 then 4
    else match frontLeaf s asid (some part) r.done with | .leaf l _ _ => if leafCC l = 2 then 5 else 4 | _ => 4
  | .error _ => 4

/-- The completion entry of a weft's task: that of the record that it dequeued. -/
def taskEntry (p : Part) (w : Weft) : Option CompEnt :=
  let open_ (c : CompEnt) : Bool := c.addr == w.task.toNat && c.left != 0
  (p.comps.find? fun c => open_ c && c.asid == w.taskAsid).orElse fun _ => p.comps.find? open_

/-- Whether a completion waits because the partition's decrements are held (R59). -/
def taskHeld (s : State) (part addr : Nat) : Bool :=
  match getPart s part with
  | none => false
  | some p => heldUp p && p.work.any fun k => match k with | .complete a _ _ _ _ => a == addr | .clearQ _ _ _ => false

/-- The count of a completion entry lowered, and the completion at 0. A TDONE whose decrements are held waits for them. -/
def countDone (x : Ctx) (s : State) (part : Nat) (c : CompEnt) : R Out :=
  let low (y : CompEnt) : CompEnt := if y.addr = c.addr ∧ y.asid = c.asid then { y with left := y.left - 1 } else y
  let s := updPart s part fun q => { q with comps := q.comps.map low }
  if c.left ≠ 1 then Out.step s
  else
    let s := completeTask s part x.p.asid c.addr c.asid 0 x.w.id.core
    if taskHeld s part c.addr then .ok ⟨updCur s x.c fun b => { b with hold := .tdone }, .wait, []⟩ else Out.step s

/-- TDONE. -/
def tdoneBody (x : Ctx) : R Out := do
  let addr := x.w.task.toNat
  match x.w.key.part with
  | none => oops cEngineDesc
  | some part =>
    if addr = 0 then oops cEngineDesc
    else if x.b.hold = .tdone then
      if taskHeld x.s part addr then .error .wait else Out.step x.s
    else
      match seeRec x.s part x.p.asid addr with
      | (.error .wait, s) => .ok ⟨s, .wait, []⟩
      | (r, s) =>
        withRelease { x with s := s } (doneScope s part x.p.asid r) fun s =>
          match getPart s part with
          | none => Out.step s
          | some p =>
            match taskEntry p x.w with
            | none => Out.step (errRecord s (some part) 3 0 0 x.w.id.core 0 addr 0)
            | some c =>
              let succs := match r with | .ok r => r.nsucc | .error _ => 1
              if c.left = 1 && heldUp p && succs > 0 then .error .wait else countDone x s part c

def execTdone (f : Fields) (s : State) : Host.Outcome State Fault Refusal := onWeft .tdone f .once tdoneBody s

/-- TARM at a peer's home: a compare-and-swap of DEP there, tried again where DEP has changed since it was read. -/
def tarmAway (x : Ctx) (a : LaneAcc) (s : State) (dep new : Nat) : R Out :=
  let go : R Out :=
    match x.b.hold with
    | .remoteDone ((_, old) :: _) =>
      if old = dep then Out.step s else .ok ⟨updCur s x.c fun b => { b with hold := .none }, .wait, []⟩
    | _ => Out.step s
  let op : PktOp := .cas false (BitVec.ofNat 64 dep) (BitVec.ofNat 64 new)
  remoteGate x 0 [{ a with va := a.va + 24, pa := a.pa + 24 }]
    (fun b => match placeOf x.s b.pa with | .peer t off => some (.atomic t off op) | _ => none) go

/-- TARM: a count added to DEP at the record's home. -/
def tarmBody (x : Ctx) : R Out := do
  let n ← num1 x .b
  let (a, r, s) ← ownRec x .write
  if !r.v || r.q || r.dep + n ≥ 2 ^ 32 then oops cEngineDesc
  else
    match placeOf x.s a.pa with
    | .peer _ _ => tarmAway x a (markDirty s x.p.asid x.w.key.part a.va) r.dep (r.dep + n)
    | _ =>
      match putNum s (partNum x.w.key) x.p.asid (a.va + 24) 4 (r.dep + n) with
      | (none, s) => Out.step (markDirty s x.p.asid x.w.key.part a.va)
      | (some e, _) => engineStop e

def execTarm (f : Fields) (s : State) : Host.Outcome State Fault Refusal := onWeft .tarm f .once tarmBody s

/-! ### Queue windows (R59, R415, R440) -/

/-- One store to a queue window: false where it is held at its port. -/
def windowStore (s : State) (part port q va : Nat) : Bool × State :=
  match getPart s part with
  | none => (true, s)
  | some p =>
    let asid := p.desc.asidLo
    let drop (s : State) : Bool × State := (true, served (dropRec s part (320 + port) va 1) part va 64)
    if p.frozen then (false, s)
    else
      match seeRec s part asid va with
      | (.error (.absent a), s) => (false, noteAbsent s (some part) (320 + port) a va 6)
      | (.error (.denied _), s) => drop s
      | (.error .wait, s) => (false, s)
      | (.ok r, s) =>
        if !recOk p va r || r.q || r.qid ≠ q then drop s
        else if r.dep ≠ 0 then (true, served s part va 64)
        else if !queueRoom p q then (false, s)
        else
          match placeRec s part asid va r with
          | (none, s) => (true, served s part va 64)
          | (some (.denied _), s) => drop s
          | (some _, s) => (false, s)

/-- A host client's store to queue window q: one of other than 8 bytes violates the partition (R416), and one that finds an
earlier store of its port held is held behind it. -/
def offerStore (s : State) (port part q va bytes : Nat) : State :=
  match getPart s part with
  | none => s
  | some p =>
    if bytes ≠ 8 ∨ q ≥ 64 then violate s (some part) (320 + port) va
    else
      let hold (s : State) : State :=
        updPart s part fun p => { p with heldStores := p.heldStores ++ [⟨port, q, va⟩] }
      if p.heldStores.any fun h => h.port == port then hold s
      else
        match windowStore s part port q va with
        | (true, s) => s
        | (false, s) => hold s

/-- QUEUE_WINDOW_STORE. -/
def execQueueWindowStore (port part q : Nat) (va : Word64) (bytes : Nat) (s : State) : Host.Outcome State Fault Refusal :=
  .next (offerStore s port part q va.toNat bytes)

/-- HELD_WINDOW_STORE: the oldest held store of a queue is tried again, with the stores of its port in order. -/
def execHeldWindowStore (part q : Nat) (s : State) : Host.Outcome State Fault Refusal :=
  match getPart s part with
  | none => .next s
  | some p =>
    let first (h : HeldStore) : Bool :=
      !((p.heldStores.takeWhile fun x => x != h).any fun x => x.port == h.port)
    match p.heldStores.find? fun h => h.q == q && first h with
    | none => .next s
    | some h =>
      match windowStore s part h.port q h.va with
      | (true, s) => .next (updPart s part fun p => { p with heldStores := p.heldStores.erase h })
      | (false, s) => .next s

/-- The overflow area without its oldest entry. -/
def ovflFreed (s : State) (part : Nat) : State :=
  match getPart s part with
  | none => s
  | some p =>
    progress (updPart (ovflWork s part p .ovflHead (ovflPop s part p)) part fun p => { p with overflow := p.overflow.drop 1 })

/-- OVERFLOW_PLACEMENT: the oldest entry of the overflow area is placed when its queue has room. -/
def execOverflowPlacement (part : Nat) (s : State) : Host.Outcome State Fault Refusal :=
  match getPart s part with
  | none => .next s
  | some p =>
    match p.overflow with
    | [] => .next s
    | (addr, asid, _) :: _ =>
      let dropped (s : State) : State := served (ovflFreed (dropRec s part 0 addr 2) part) part addr 64
      match seeRec s part asid addr with
      | (.error (.absent va), s) => .next (noteAbsent s (some part) 0 va addr 6)
      | (.error .wait, s) => .next s
      | (.error (.denied _), s) => .next (dropped s)
      | (.ok r, s) =>
        if !queueRoom p r.qid then .next s
        else
          match placeRec s part asid addr r with
          | (none, s) => .next (served (ovflFreed s part) part addr 64)
          | (some (.denied _), s) => .next (dropped s)
          | (some _, s) => .next s

/-- One item of the queue engine's waiting work tried again. -/
def retryWork (part : Nat) (s : State) (k : QWork) : State :=
  match k with
  | .complete addr asid placed i agent => completeTask s part asid addr placed i agent
  | .clearQ addr asid agent => clearQ s part asid addr agent

/-- QUEUE_ENGINE_PAGE_RESUME: the queue engine's waiting accesses are made where their pages are present now. -/
def execQueueEnginePageResume (part : Nat) (s : State) : Host.Outcome State Fault Refusal :=
  match getPart s part with
  | none => .next s
  | some p => .next (p.work.foldl (retryWork part) (updPart s part fun p => { p with work := [] }))

end Sys2Proof.Machine
end

