-- ==== Sys2Proof/Machine/EnginePlan.lean ====
section
/-!
DEFINITION. What an accepted engine command reads and writes (R97, R98, R256, R265 to R273): descriptors, the
geometry of matrix operations, acceptance with presence and owner bits, and the order between commands.
-/
namespace Sys2Proof.Machine

/-! ### Descriptors (R269 to R273) -/

/-- One dimension of a copy (Table 7). -/
structure CopyDim where
  ss : Int
  ds : Int
  start : Int
  bound : Nat
  count : Nat
  deriving DecidableEq, Repr

/-- A copy descriptor (Tables 6 and 7). -/
structure CopyDesc where
  dk : Nat
  sk : Nat
  es : Nat
  ndim : Nat
  fill : Nat
  task : Nat
  dst : Nat
  src : Nat
  dims : List CopyDim
  clean : Bool
  deriving DecidableEq, Repr

/-- The entry of dimension d. -/
def dimOf (n d : Nat) : CopyDim :=
  let e := field n (511 + 192 * d) (320 + 192 * d)
  ⟨toSigned 64 (field e 191 128), toSigned 32 (field e 127 96), toSigned 32 (field e 95 64), field e 63 32, field e 31 0⟩

/-- A copy descriptor's 256 bytes taken apart. -/
def copyOf (n : Nat) : CopyDesc :=
  let nd := field n 227 224
  { dk := field n 239 236, sk := field n 235 232, es := field n 230 228, ndim := nd, fill := field n 223 192,
    task := field n 191 128, dst := field n 127 64, src := field n 63 0, dims := (List.range nd).map (dimOf n),
    clean := field n 319 240 == 0 && !bitOf n 231 &&
      ((List.range 9).drop nd).all fun d => field n (511 + 192 * d) (320 + 192 * d) == 0 }

/-- The number of tuples. -/
def copyTotal (d : CopyDesc) : Nat := d.dims.foldl (fun n x => n * x.count) 1

/-- Whether a copy descriptor is well-formed, the operand-buffer check apart (R271). -/
def copyOk (d : CopyDesc) : Bool :=
  let a (x : Int) : Bool := x % (2 ^ d.es : Int) == 0
  d.clean && decide (1 ≤ d.ndim) && decide (d.ndim ≤ 9) && decide (d.es ≤ 3) && decide (d.dk ≤ 2) && decide (d.sk ≤ 1) &&
  d.dims.all (fun x => x.count != 0 && a x.ss && a x.ds) && decide (copyTotal d ≤ 2 ^ 32) && a d.src && a d.dst

/-- A tuple by its linear index: whether its source element exists, and the source and destination places (R271). -/
def tupleAt : List CopyDim → Nat → Bool × Int × Int → Bool × Int × Int
  | [], _, r => r
  | d :: t, idx, (ex, so, dd) =>
    let i : Int := (idx % d.count : Nat)
    tupleAt t (idx / d.count)
      (ex && decide (0 ≤ d.start + i) && decide (d.start + i < d.bound), so + (d.start + i) * d.ss, dd + i * d.ds)

/-- The tuple of a copy. -/
def copyTuple (d : CopyDesc) (idx : Nat) : Bool × Int × Int := tupleAt d.dims idx (true, d.src, d.dst)

/-- A gather descriptor (Table 8). -/
structure GathDesc where
  dk : Nat
  fill : Nat
  ds : Nat
  ss : Int
  rowBytes : Nat
  limit : Nat
  nidx : Nat
  idx : Nat
  task : Nat
  dst : Nat
  base : Nat
  clean : Bool
  deriving DecidableEq, Repr

/-- A gather descriptor's 64 bytes taken apart. -/
def gathOf (n : Nat) : GathDesc :=
  { dk := field n 451 448, fill := field n 447 416, ds := field n 415 384, ss := toSigned 64 (field n 383 320),
    rowBytes := field n 319 288, limit := field n 287 256, nidx := field n 255 224, idx := field n 223 192,
    task := field n 191 128, dst := field n 127 64, base := field n 63 0, clean := field n 511 452 == 0 }

/-- Whether a gather descriptor is well-formed, the operand-buffer check apart (R272). -/
def gathOk (d : GathDesc) : Bool :=
  d.clean && (d.dk == 1 || d.dk == 2) && d.rowBytes % 4 == 0 && decide (4 ≤ d.rowBytes) && decide (d.rowBytes ≤ 4096) &&
  decide (1 ≤ d.nidx) && decide (d.nidx ≤ 65536) && d.base % 4 == 0 && d.ss % 4 == 0 && d.ds % 4 == 0

/-- A collective descriptor (Table 9). -/
structure CollDesc where
  id : Nat
  root : Nat
  ty : Nat
  op : Nat
  bytes : Nat
  dst : Nat
  src : Nat
  task : Nat
  clean : Bool
  deriving DecidableEq, Repr

/-- A collective descriptor's 32 bytes taken apart. -/
def collOf (n : Nat) : CollDesc :=
  { id := field n 163 160, root := field n 157 156, ty := field n 155 154, op := field n 153 152,
    bytes := field n 148 128, dst := field n 127 96, src := field n 95 64, task := field n 63 0,
    clean := field n 255 164 == 0 && field n 159 158 == 0 && field n 151 149 == 0 }

/-- Whether a collective descriptor is well-formed for a panel of some cores (R273). -/
def collOk (d : CollDesc) (cores : Nat) : Bool :=
  d.clean && decide (d.root < cores) && decide (d.ty ≤ 2) && decide (d.op ≤ 2) && d.bytes % 4 == 0 &&
  decide (4 ≤ d.bytes) && decide (d.bytes ≤ 2 ^ 20)

/-- A drain descriptor (Table 5). -/
structure DrainDesc where
  task : Nat
  pad : Bool
  rnd : Nat
  fmt : Nat
  m : Nat
  n : Nat
  stride : Nat
  dst : Nat
  clean : Bool
  deriving DecidableEq, Repr

/-- A drain descriptor's 32 bytes taken apart: m and n are the extents themselves. -/
def drainOf (x : Nat) : DrainDesc :=
  { task := field x 191 128, pad := bitOf x 119, rnd := field x 118 116, fmt := field x 115 113,
    n := field x 112 104 + 1, m := field x 103 96 + 1, stride := field x 95 64, dst := field x 63 0,
    clean := field x 255 192 == 0 && field x 127 120 == 0 }

/-- The bytes of a drained element. -/
def drainBytes (d : DrainDesc) : Nat := match d.fmt with | 1 | 2 => 2 | 3 => 8 | _ => 4

/-- The width of the tiles that a drain reads. -/
def drainWidth (d : DrainDesc) : Nat := if d.fmt = 3 then 16 else 32

/-- The tiles of an M × N region in tiles of 32 × w (R267). -/
def tileCount (m n w : Nat) : Nat := (m + 31) / 32 * ((n + w - 1) / w)

/-- Whether a drain descriptor is well-formed for a panel of n tiles (R269). -/
def drainOk (d : DrainDesc) (t n : Nat) : Bool :=
  d.clean && decide (d.rnd ≤ 3) && decide (d.fmt ≤ 4) && d.stride % drainBytes d == 0 && d.dst % drainBytes d == 0 &&
  decide (t + tileCount d.m d.n (drainWidth d) ≤ n)

/-! ### The geometry of a matrix product (R41, R267) -/

/-- M, N, K, the K padded to blocks, the formats of A and B, the tile width, the destination and the source tile. -/
structure MatGeo where
  m : Nat
  n : Nat
  k : Nat
  kr : Nat
  fa : Nat
  fb : Nat
  w : Nat
  t : Nat
  src : Option Nat
  deriving DecidableEq, Repr

/-- The row of Table 6 and the pairing group of a swatch format (R41). -/
def pairGroup : Nat → Nat
  | 0 => 0 | 1 => 1 | 2 => 2 | 3 => 2 | 4 => 3 | 5 => 3 | 6 => 4 | 7 => 5 | _ => 6

/-- The K-block of a format (Table 6 of R41). -/
def kBlock : Nat → Nat
  | 0 => 1 | 1 => 2 | 2 => 4 | 3 => 4 | 7 => 8 | _ => 32

/-- The geometry of a product. -/
def matGeo : MatOp → Option MatGeo
  | .mma _ a b t =>
    let x := swatchOf a
    let y := swatchOf b
    some ⟨x.r, y.r, y.k, roundUp y.k (blockLen y.fmt), x.fmt, y.fmt, if x.fmt = 0 then 16 else 32, t, none⟩
  | .mmac _ src m b t =>
    let y := swatchOf b
    some ⟨m, y.r, y.k, y.k, 3, y.fmt, 32, t, some src⟩
  | _ => none

/-- The checks of R267 on a product for a panel of n tiles. -/
def matOk (n : Nat) (op : MatOp) : Bool :=
  let fits (g : MatGeo) : Bool :=
    decide (g.m ≤ 256) && decide (g.n ≤ 512) && decide (g.t + tileCount g.m g.n g.w ≤ n)
  match op, matGeo op with
  | .mma _ a b _, some g =>
    (swatchOf a).v && (swatchOf b).v && (swatchOf a).k == (swatchOf b).k && pairGroup g.fa == pairGroup g.fb && fits g
  | .mmac _ src _ b _, some g =>
    let c := tileCount g.m g.k 32
    (swatchOf b).v && g.fb == 3 && fits g && decide (src + c ≤ n) && apart (src, c) (g.t, tileCount g.m g.n g.w)
  | _, _ => true

/-- The chunks of a product along K, and in all (R267). -/
def kChunks (g : MatGeo) : Nat := (g.kr + 255) / 256
def matChunks (g : MatGeo) : Nat := tileCount g.m g.n g.w * kChunks g

/-! ### What a command reads and writes (R256) -/

/-- A scratchpad line, or an operand-buffer unit, of a core. -/
structure Spot where
  core : Nat
  ob : Bool
  n : Nat
  deriving DecidableEq, Repr

/-- The spots read, the spots written each with the progress after which it is complete, the scratchpad tiles named and
the progress at which the command is done. -/
structure Plan where
  reads : List Spot
  writes : List (Spot × Nat)
  tiles : List (Nat × Nat)
  total : Nat
  deriving DecidableEq, Repr

/-- An element without repetition. -/
def addOnce {α : Type} [DecidableEq α] (l : List α) (x : α) : List α := if l.contains x then l else x :: l

/-- A spot's last write: a spot is complete when the latest of the steps that write it is done, whatever their order (R97). -/
def lastWrite (k : Nat) (w : List (Spot × Nat)) (x : Spot) : List (Spot × Nat) := tset w x (max k (tgetD w x 0))

/-- A scratchpad access of a command: at an offset, of n bytes that lie in one tile. -/
def planPad (p : Panel) (pl : Plan) (off n : Nat) (write : Option Nat) : Plan :=
  let (c, i) := placeOff p off n
  let spots := (List.range ((i % 128 + n + 127) / 128)).map fun j => (⟨c, false, i / 128 + j⟩ : Spot)
  let pl := { pl with tiles := addOnce pl.tiles (c, i / 4096) }
  match write with
  | none => { pl with reads := spots.foldl addOnce pl.reads }
  | some k => { pl with writes := spots.foldl (lastWrite k) pl.writes }

/-- An operand-buffer write of a command. -/
def planOb (core : Nat) (pl : Plan) (a n k : Nat) : Plan :=
  { pl with writes := (List.range ((a % 128 + n + 127) / 128)).foldl (fun w j => lastWrite k w ⟨core, true, a / 128 + j⟩) pl.writes }

/-- A write to a destination of a copy or gather. -/
def planDst (p : Panel) (core : Nat) (pl : Plan) (kind : Nat) (a : Int) (n k : Nat) : Plan :=
  match kind with
  | 1 => planPad p pl (wrap 32 a) n (some k)
  | 2 => planOb core pl a.toNat n k
  | _ => pl

/-- The operand-buffer units that a swatch's arrays occupy (R265). -/
def swatchUnits (core : Nat) (b : BitVec 128) : List Spot :=
  let w := swatchOf b
  let kr := roundUp w.k (blockLen w.fmt)
  let el := (0, (elemCount w * elemBits w.fmt + 7) / 8)
  let sc := if w.fmt < 7 then [] else [(w.bkoff * 128, w.r * (kr / blockLen w.fmt)), (w.bnoff * 128, 2 * ((w.r + 63) / 64))]
  (el :: sc).foldl (fun l r =>
    (List.range ((r.2 + 127) / 128)).foldl (fun l j => addOnce l ⟨core, true, w.base + r.1 / 128 + j⟩) l) []

/-- The position of a core in its panel's ascending list (R273). -/
def partyPos (p : Panel) (core : Nat) : Nat := p.cores.findIdx (· == core)

/-- The local place of a word of a collective: the offset in a core's own allocation (R273). -/
def localAt (p : Panel) (off : Nat) : Nat := off % 2 ^ 20 % padBytes p / 4 * 4

/-- Whether a collective reads, and writes, a position's own core. -/
def collReads (d : CollDesc) (pos : Nat) : Bool := d.op != 0 || pos == d.root
def collWrites (d : CollDesc) (pos : Nat) : Bool := d.op != 1 || pos == d.root

/-- The plan of a collective on one core. -/
def planColl (p : Panel) (core : Nat) (d : CollDesc) : Plan :=
  let words := (List.range (d.bytes / 4)).map (4 * ·)
  let pos := partyPos p core
  let line (off : Nat) : Spot := ⟨core, false, localAt p off / 128⟩
  let rd := if collReads d pos then words.map fun o => line (d.src + o) else []
  let wr := if collWrites d pos then words.map fun o => line (d.dst + o) else []
  { reads := rd.foldl addOnce []
    writes := (wr.foldl addOnce []).map fun x => (x, 1)
    tiles := (rd ++ wr).foldl (fun l x => addOnce l (x.core, x.n / 32)) []
    total := 1 }

/-- The plan of a drain. -/
def planDrain (p : Panel) (d : DrainDesc) : Plan :=
  let w := drainWidth d
  let ct := (d.n + w - 1) / w
  let base : Plan := ⟨[], [], [], tileCount d.m d.n w⟩
  if !d.pad then base
  else
    (List.range d.m).foldl (fun pl i =>
      (List.range d.n).foldl (fun pl j =>
        planPad p pl (wrap 32 (d.dst + i * d.stride + j * drainBytes d : Nat)) (drainBytes d) (some (i / 32 * ct + j / w + 1)))
        pl) base

/-- The plan of a command. -/
def planOf (p : Panel) (core : Nat) (c : Cmd) : Plan :=
  let n := ofBytes c.bytes
  match c.mat with
  | some (.mma z a b t) =>
    let g := matGeo (.mma z a b t)
    ⟨(swatchUnits core a ++ swatchUnits core b).foldl addOnce [], [], [], match g with | some g => matChunks g | none => 0⟩
  | some (.mmac z src m b t) =>
    let g := matGeo (.mmac z src m b t)
    ⟨swatchUnits core b, [], [], match g with | some g => matChunks g | none => 0⟩
  | some (.aclr _ k) => ⟨[], [], [], k⟩
  | some (.ald off _ k) =>
    (List.range k).foldl (fun pl i => planPad p pl ((off.toNat + 4096 * i) % 2 ^ 32) 4096 none) ⟨[], [], [], k⟩
  | some (.ast off _ k) =>
    (List.range k).foldl (fun pl i => planPad p pl ((off.toNat + 4096 * i) % 2 ^ 32) 4096 (some (i + 1))) ⟨[], [], [], k⟩
  | some (.drain _) => planDrain p (drainOf n)
  | none =>
    match c.engine with
    | .copy =>
      let d := copyOf n
      (List.range (copyTotal d)).foldl (fun pl i =>
        let (ex, so, dd) := copyTuple d i
        let pl := if ex && d.sk == 1 then planPad p pl (wrap 32 so) (2 ^ d.es) none else pl
        planDst p core pl d.dk dd (2 ^ d.es) (i + 1)) ⟨[], [], [], copyTotal d⟩
    | .gather =>
      let d := gathOf n
      (List.range d.nidx).foldl (fun pl i =>
        let pl := planPad p pl ((d.idx + 4 * i) % 2 ^ 32) 4 none
        (List.range (d.rowBytes / 4)).foldl (fun pl j =>
          planDst p core pl d.dk (d.dst + i * d.ds + 4 * j : Nat) 4 (i + 1)) pl) ⟨[], [], [], d.nidx⟩
    | .coll => planColl p core (collOf n)
    | .matrix => ⟨[], [], [], 0⟩

/-- The TASK of a command's descriptor; 0 for none. -/
def taskOf (c : Cmd) : Nat :=
  let n := ofBytes c.bytes
  match c.mat, c.engine with
  | some (.drain _), _ => (drainOf n).task
  | none, .copy => (copyOf n).task
  | none, .gather => (gathOf n).task
  | none, .coll => (collOf n).task
  | _, _ => 0

/-! ### Acceptance (R256 items 1 and 2, R97, R98) -/

/-- Presence bits cleared for a command. -/
def clearSpots (s : State) (key : PKey) (id : Nat) (l : List Spot) : State :=
  l.foldl (fun s x =>
    if x.ob then updCore s x.core fun c => { c with obAbsent := (x.n, id) :: c.obAbsent }
    else updPanel s key fun p => updPanelCore p x.core fun c => { c with absent := (x.n, id) :: c.absent }) s

/-- Presence bits set for a command: a spot is present when no other accepted command still writes it. -/
def setSpots (s : State) (key : PKey) (id : Nat) (l : List Spot) : State :=
  let s := l.foldl (fun s x =>
    if x.ob then updCore s x.core fun c => { c with obAbsent := c.obAbsent.filter fun e => e ≠ (x.n, id) }
    else updPanel s key fun p => updPanelCore p x.core fun c => { c with absent := c.absent.filter fun e => e ≠ (x.n, id) }) s
  let present (core n : Nat) : Bool :=
    match getPanel s key with | some p => !padAbsent p core (128 * n) | none => false
  wakeFor (givePads s key) .absent fun w _ x => w.key == key && match x with | .line core n => present core n | _ => false

/-- The tiles of a command go to the engine side. -/
def ownTiles (s : State) (key : PKey) (id : Nat) (l : List (Nat × Nat)) : State :=
  l.foldl (fun s x => updPanel s key fun p => updPanelCore p x.1 fun c => { c with owned := (x.2, id) :: c.owned }) s

/-- The tiles of a command return to the thread side, where no other accepted command names them. -/
def freeTiles (s : State) (key : PKey) (id : Nat) : State :=
  let drop (c : PanelCore) : PanelCore := { c with owned := c.owned.filter fun e => e.2 ≠ id }
  let s := updPanel s key fun p => { p with parts := p.parts.map drop }
  let free (core n : Nat) : Bool := match getPanel s key with | some p => !padOwned p core (4096 * n) | none => false
  wakeFor s .owner fun w _ x => w.key == key && match x with | .tile core n => free core n | _ => false

/-- A command is accepted by its engine on a core. -/
def acceptCmd (s : State) (core : Nat) (c : Cmd) : State :=
  match getPanel s c.key with
  | none => s
  | some p =>
    let (id, s) := freshId s
    let c := { c with id := id }
    let pl := planOf p core c
    let s := updCore s core fun x => { x with cmds := x.cmds ++ [c] }
    let todo := (pl.writes.filter fun w => w.2 > c.prog).map (·.1)
    ownTiles (clearSpots s c.key id todo) c.key id pl.tiles

/-- The commands of an engine on a core, in acceptance order. -/
def engineCmds (s : State) (core : Nat) (e : Engine) : List Cmd := (getCore s core).cmds.filter fun c => c.engine == e

/-- How many commands an engine holds (R256). -/
def engineDepth : Engine → Nat
  | .matrix => 32
  | _ => 16

/-- Whether an engine can take one more command. -/
def engineRoom (s : State) (core : Nat) (e : Engine) : Bool := decide ((engineCmds s core e).length < engineDepth e)

/-! ### The order between commands (R256 item 3) -/

/-- Every accepted command with its core. -/
def allCmds (s : State) : List (Nat × Cmd) := s.cores.flatMap fun c => c.cmds.map fun x => (c.num, x)

/-- The commands that write a spot and have not completed it. -/
def writersOf (s : State) (key : PKey) (x : Spot) : List Nat :=
  if x.ob then ((getCore s x.core).obAbsent.filter fun e => e.1 == x.n).map (·.2)
  else
    match getPanel s key with
    | some p => ((panelCore p x.core).absent.filter fun e => e.1 == x.n).map (·.2)
    | none => []

/-- Whether every spot that a command reads is present as far as earlier commands go, and every spot that it writes
has been read and written by the earlier ones. -/
def cmdReady (s : State) (c : Cmd) (pl : Plan) : Bool :=
  let early (x : Spot) : Bool := (writersOf s c.key x).all fun i => i ≥ c.id
  let readers := (allCmds s).filter fun e => e.2.id < c.id && e.2.status == 0
  let reads (x : Spot) : Bool := readers.any fun e =>
    match getPanel s e.2.key with
    | some p => (x.ob || e.2.key == c.key) && (planOf p e.1 e.2).reads.contains x && e.2.prog < (planOf p e.1 e.2).total
    | none => false
  pl.reads.all early && (pl.writes.filter fun w => w.2 > c.prog).all fun w => early w.1 && !reads w.1

/-- Whether a command is stopped: its panel for a save, its partition frozen, its job substituted, its die at PL3
(R71, R300, R395, R434). -/
def cmdHeld (s : State) (core : Nat) (c : Cmd) : Bool :=
  (match getPanel s c.key with | some p => p.stopped | none => true) ||
  (match c.key.part.bind (getPart s) with | some p => p.frozen | none => false) ||
  frozenTag s (jobTag s c.key.part) || tgetD s.power (dieOf core) 0 == 3

end Sys2Proof.Machine
end

