-- ==== Sys2Proof/Machine/FloatOps.lean ====
section
/-!
DEFINITION. Floating-point, conversion, block-scaling and dot-product instructions (R191 to R210).
-/
namespace Sys2Proof.Machine

/-! ### Shared operations -/

/-- The format of a floating-point MOD code (R113). -/
def fmtOf (t : Nat) : Fmt := (Fmt.ofCode t).getD .f32

/-- The low bits of a value that a format uses (R191). -/
def codeIn (f : Fmt) (v : Word64) : Nat := v.toNat % 2 ^ f.width

/-- The rounding mode of a modifier byte (R192). -/
def rndOf (m : Nat) : Rnd := (Rnd.ofCode (m % 8)).getD .rne

/-- FTZ of a modifier byte. -/
def ftzOf (m : Nat) : Bool := bitOf m 3

/-- SFMT of a modifier byte. -/
def sfmtOf (m : Nat) : Nat := field m 6 4

/-- The lanes that compute: the active ones, or the lowest for a scalar instruction. -/
def workLanes (x : Ctx) : Mask := if x.scalar then laneBit (lowest x.act) else x.act

/-- The OR of the flags of the lanes that compute (R40). -/
def flagsOver (x : Ctx) (fl : Nat → Flags) : Flags := (lanesOf (workLanes x)).foldl (fun a l => a.or (fl l)) Flags.none

/-- A lane-wise instruction with flags. -/
def fpLanes (wa wb wc wd : Bool) (f : Nat → Word64 → Word64 → Word64 → Nat × Flags) (x : Ctx) : R Out := do
  let v ← readAll x wa wb wc
  let rs := lanes16.map fun l => f l (v.a.getD l 0) (v.b.getD l 0) (v.c.getD l 0)
  let fl := flagsOver x fun l => (rs.getD l (0, Flags.none)).2
  let s ← writeRes v.x wd (rs.map fun r => BitVec.ofNat 64 r.1) (mnemLatency x.m x.f) fun w => orFpst w fl
  Out.step s

/-- A lane-wise instruction with flags that writes a predicate. -/
def fpPred (wa wb : Bool) (f : Nat → Word64 → Word64 → Bool × Flags) (x : Ctx) : R Out := do
  let v ← readAll x wa wb false
  let rs := lanes16.map fun l => f l (v.a.getD l 0) (v.b.getD l 0)
  let fl := flagsOver x fun l => (rs.getD l (false, Flags.none)).2
  let bits := boolBits fun l => (rs.getD l (false, Flags.none)).1
  let w := predResult v.x (orFpst x.w fl) (predNum x.f.d) bits (mnemLatency x.m x.f)
  Out.step (commitPops v.x (setWeft x.s w))

/-! ### Deferred steps (R90) -/

/-- The component lines of a symbolic value. -/
def compLines (v : SymVal) : Nat :=
  v.steps.foldl (fun n t => n + if isPer t.x then (if v.kind = 3 then 2 else 1) else 0) 0

/-- A value with one more step, where the limits of R90 allow it. -/
def addStep (x : Ctx) (v : SymVal) (op : Nat) (k : Comp) : R SymVal :=
  let m := modByte x.f.c
  let u := { v with steps := v.steps ++ [⟨op, m % 8, ftzOf m, k⟩] }
  if u.steps.length > 4 ∨ compLines u > 2 then .error (.park .symbol (.slot v.slot)) else .ok u

/-- The sign of a component reversed. -/
def negComp (wide : Bool) (c : Comp) : Comp :=
  let flip (v : Word64) : Word64 := if wide then v ^^^ 0x8000_0000_0000_0000 else v ^^^ 0x8000_0000
  match c with
  | .uni v => .uni (flip v)
  | .per vs => .per (vs.map flip)

/-- A deferred result of FADD, FSUB or FMUL. -/
def deferFp (x : Ctx) (sa sb : Option SymVal) : R SymVal := do
  let kind := if x.f.mod.toNat = 0 then 3 else 2
  let wide := decide (kind = 3)
  let stop : R SymVal := stopSlot sa sb
  if !fullAct x || x.f.mod.toNat > 1 then stop
  else
    match sa, sb with
    | some v, none =>
      if v.kind ≠ kind then stop
      else do
        let k ← knownComp x .b wide
        match x.m with
        | .fadd => addStep x v 0 k
        | .fsub => addStep x v 0 (negComp wide k)
        | _ => addStep x v 1 k
    | none, some v =>
      if v.kind ≠ kind then stop
      else do
        let k ← knownComp x .a wide
        match x.m with
        | .fadd => addStep x v 0 k
        | .fsub => addStep x v 2 k
        | _ => addStep x v 1 k
    | _, _ => stop

/-! ### Arithmetic (R195 to R197) -/

/-- An instruction of two sources in the format of MOD, with rounding and `.ftz`. -/
def fpTwo (op : Fmt → Rnd → Bool → FVal → FVal → Nat × Flags) (x : Ctx) : R Out :=
  let f := fmtOf x.f.mod.toNat
  let w := f == .f64
  let m := modByte x.f.c
  let z := ftzOf m
  fpLanes w w false w (fun _ a b _ => op f (rndOf m) z (readF f z (codeIn f a)) (readF f z (codeIn f b))) x

def execFadd (f : Fields) (s : State) : Host.Outcome State Fault Refusal :=
  onWeft .fadd f .auto (deferring (fpTwo faddV) deferFp) s

def execFsub (f : Fields) (s : State) : Host.Outcome State Fault Refusal :=
  onWeft .fsub f .auto (deferring (fpTwo fun f r z a b => faddV f r z a b.negate) deferFp) s

def execFmul (f : Fields) (s : State) : Host.Outcome State Fault Refusal :=
  onWeft .fmul f .auto (deferring (fpTwo fmulV) deferFp) s

def execFdiv (f : Fields) (s : State) : Host.Outcome State Fault Refusal := onWeft .fdiv f .auto (fpTwo fdivV) s

def execFsqrt (f : Fields) (s : State) : Host.Outcome State Fault Refusal :=
  onWeft .fsqrt f .auto (fpTwo fun f r z a _ => fsqrtV f r z a) s

/-- FMA: the format in MOD[1:0], the rounding in MOD[3:2] (R196). -/
def execFma (f : Fields) (s : State) : Host.Outcome State Fault Refusal :=
  let t := f.mod.toNat
  let fm := fmtOf (t % 4)
  let w := fm == .f64
  let d (v : Word64) : FVal := decodeF fm (codeIn fm v)
  onWeft .fma f .auto (fpLanes w w w w fun _ a b c => fmaV fm (rndOf (t / 4)) (d a) (d b) (d c)) s

def execFmin (f : Fields) (s : State) : Host.Outcome State Fault Refusal :=
  onWeft .fmin f .auto (fpTwo fun f _ _ a b => fminmaxV f false a b) s

def execFmax (f : Fields) (s : State) : Host.Outcome State Fault Refusal :=
  onWeft .fmax f .auto (fpTwo fun f _ _ a b => fminmaxV f true a b) s

/-! ### Compare and classify (R198, R199) -/

def execFcmp (f : Fields) (s : State) : Host.Outcome State Fault Refusal :=
  let fm := fmtOf f.mod.toNat
  let w := fm == .f64
  let m := modByte f.c
  let rd (v : Word64) : FVal := readF fm (ftzOf m) (codeIn fm v)
  onWeft .fcmp f .auto (fpPred w w fun _ a b => fcmpV (m % 8) (rd a) (rd b)) s

def execFclass (f : Fields) (s : State) : Host.Outcome State Fault Refusal :=
  let fm := fmtOf f.mod.toNat
  let w := fm == .f64
  onWeft .fclass f .auto (fpPred w false fun _ a _ => (fclassV fm (modByte f.c) (codeIn fm a), Flags.none)) s

/-! ### Special functions (R200, R201) -/

/-- A special function in the format of MOD. -/
def fpSpecial (fn : SpecialFn) (x : Ctx) : R Out :=
  let f := fmtOf x.f.mod.toNat
  fpLanes false false false false (fun _ a _ _ => specialV fn f (ftzOf (modByte x.f.c)) (codeIn f a)) x

def execFrcp (f : Fields) (s : State) : Host.Outcome State Fault Refusal := onWeft .frcp f .auto (fpSpecial .rcp) s
def execFrsq (f : Fields) (s : State) : Host.Outcome State Fault Refusal := onWeft .frsq f .auto (fpSpecial .rsq) s
def execFexp2 (f : Fields) (s : State) : Host.Outcome State Fault Refusal :=
  onWeft .fexp2 f .auto (fpSpecial .exp2) s
def execFlog2 (f : Fields) (s : State) : Host.Outcome State Fault Refusal :=
  onWeft .flog2 f .auto (fpSpecial .log2) s
def execFsin (f : Fields) (s : State) : Host.Outcome State Fault Refusal := onWeft .fsin f .auto (fpSpecial .sin) s
def execFcos (f : Fields) (s : State) : Host.Outcome State Fault Refusal := onWeft .fcos f .auto (fpSpecial .cos) s
def execFtanh (f : Fields) (s : State) : Host.Outcome State Fault Refusal :=
  onWeft .ftanh f .auto (fpSpecial .tanh) s

/-! ### Rounding and conversions (R202 to R205) -/

def execFrnd (f : Fields) (s : State) : Host.Outcome State Fault Refusal :=
  onWeft .frnd f .auto (fpTwo fun f r _ a _ => frndV f r a) s

def execCvtf (f : Fields) (s : State) : Host.Outcome State Fault Refusal :=
  let m := modByte f.c
  let dst := fmtOf f.mod.toNat
  let src := fmtOf (sfmtOf m)
  onWeft .cvtf f .auto (fpLanes (src == .f64) false false (dst == .f64) fun _ a b _ =>
    cvtfV dst src (rndOf m) (ftzOf m) (b.toNat % 2 ^ 16) (codeIn src a)) s

def execCvtfi (f : Fields) (s : State) : Host.Outcome State Fault Refusal :=
  let m := modByte f.c
  let t := f.mod.toNat
  let src := fmtOf (sfmtOf m)
  onWeft .cvtfi f .auto (fpLanes (src == .f64) false false (intWidth t = 64) fun _ a _ _ =>
    let r := cvtfiV src (rndOf m) (ftzOf m) (intWidth t) (intSigned t) (codeIn src a)
    ((resOf t r.1).toNat, r.2)) s

def execCvtif (f : Fields) (s : State) : Host.Outcome State Fault Refusal :=
  let m := modByte f.c
  let dst := fmtOf f.mod.toNat
  let t := sfmtOf m
  onWeft .cvtif f .auto (fpLanes (intWidth t = 64) false false (dst == .f64) fun _ a _ _ =>
    cvtifV dst (rndOf m) (opd t a)) s

/-! ### Block scaling (R206 to R209) -/

/-- A band scale that BSCALE and BSPACK accept: positive, finite and normal. -/
def bandOk (band : Nat) : Bool :=
  match decodeF .bf16 band with
  | .fin neg m _ => !neg && m != 0 && !isSubnormal .bf16 band
  | _ => false

/-- A quotient of an exact value by a positive one, rounded once to a narrow format (R37, R38). -/
def quotTo (f : Fmt) (mode : Rnd) (rnd : Nat) (a : FVal) (b : FVal) : Nat × Flags :=
  match a, b with
  | .nan sn, _ => ((nanResult f).1, (nanResult f).2.or { nv := sn })
  | .inf n, _ => infResult f n
  | .fin n m e, .fin _ mb eb =>
    let k := 140 + Nat.log2 mb
    if m = 0 then (if n then f.signBit else 0, Flags.none)
    else roundMag f mode false rnd n ⟨m * 2 ^ k / mb, e - eb - k, m * 2 ^ k % mb != 0⟩
  | _, _ => nanResult f

/-- BSCALE (R207): the block-scale code of a magnitude. -/
def blockScale (emax : Nat) (q : FVal) (band : Nat) : Nat × Flags :=
  if !bandOk band then (0xFF, { nv := true })
  else
    match q, decodeF .bf16 band with
    | q, .fin _ mb eb => quotTo .e3m5 .ru 0 q (.fin false (emax * mb) eb)
    | _, _ => (0xFF, { nv := true })

def execBscale (f : Fields) (s : State) : Host.Outcome State Fault Refusal :=
  let emax := if f.mod.toNat = 7 then 6 else 480
  onWeft .bscale f .auto (fpLanes false false false false fun _ a b _ =>
    blockScale emax (decodeF .f32 (codeIn .f32 a)) (codeIn .bf16 b)) s

/-- The larger of two magnitudes. -/
def maxMag (a b : FVal) : FVal :=
  let abs (v : FVal) : FVal := match v with | .fin _ m e => .fin false m e | .inf _ => .inf false | v => v
  if fltV false (abs a) (abs b) then abs b else abs a

/-- One block of BSPACK: its scale, its codes and its flags. elems holds the active elements as FP32 codes, none for
a selvedge element, and the random bits of each. -/
def packBlock (elem : Fmt) (emax : Nat) (rs : Bool) (band : Nat) (elems : List (Option Nat × Nat)) :
    Nat × List Nat × Flags :=
  let zeroCodes := elems.map fun _ => 0
  if elems.all fun e => e.1.isNone then (0, zeroCodes, Flags.none)
  else if !bandOk band then (0xFF, zeroCodes, { nv := true })
  else
    let vals := elems.map fun e => decodeF .f32 (e.1.getD 0)
    if vals.any FVal.isNan then (0xFF, zeroCodes, { nn := true, nv := vals.contains (.nan true) })
    else
      let (sc, f1) := blockScale emax (vals.foldl maxMag (.fin false 0 0)) band
      let f1 : Flags := { sat := f1.sat }
      let one (v : FVal) (q : Nat) : Nat × Flags :=
        if sc = 0 then (if v.sign then elem.signBit else 0, Flags.none)
        else quotTo elem (if rs then .rs else .rne) q v (fmulExact (decodeF .e3m5 sc) (decodeF .bf16 band))
      let cs := (vals.zip elems).map fun e => one e.1 e.2.2
      let fl := cs.foldl (fun (a : Flags) c => a.or { nx := c.2.nx, sat := c.2.sat }) f1
      (sc, cs.map (·.1), fl)

/-- Codes packed into 32-bit lanes, the first code lowest. -/
def packLane (bits : Nat) : List Nat → Nat
  | [] => 0
  | c :: t => c + 2 ^ bits * packLane bits t

/-- Lane i of a list of codes, n codes to a lane. -/
def laneCodes (n bits : Nat) (cs : List Nat) (i : Nat) : Nat := packLane bits ((cs.drop (n * i)).take n)

/-- The elements of BSPACK's A: k below 16 in the first register, the others in the second. -/
def packElems (act : Mask) (n : Nat) (a : List Word64) (c : List Word64) : List (Option Nat × Nat) :=
  (List.range n).map fun k =>
    let v := a.getD (k % 16) 0
    let code := if k < 16 then v.toNat % 2 ^ 32 else v.toNat / 2 ^ 32
    (if act.getLsbD (k % 16) then some code else none, (c.getD (k % 16) 0).toNat % 2 ^ 16)

/-- BSPACK (R208): all sixteen lanes of D are written. -/
def bspackBody (x : Ctx) : R Out := do
  let f4 := decide (x.f.mod.toNat = 7 ∨ x.f.mod.toNat = 9)
  let rs := decide (x.f.mod.toNat ≥ 9)
  let v ← readAll x (!f4) false false
  let band := codeIn .bf16 (v.b.getD (lowest x.act) 0)
  let el := packElems x.act (if f4 then 16 else 32) v.a v.c
  let (vals, fl) :=
    if f4 then
      let (s0, c0, f0) := packBlock .e2m1 6 rs band (el.take 8)
      let (s1, c1, f1) := packBlock .e2m1 6 rs band (el.drop 8)
      ([laneCodes 8 4 c0 0, laneCodes 8 4 c1 0, s0 + 256 * s1], f0.or f1)
    else
      let (sc, cs, f0) := packBlock .e4m3 480 rs band el
      ((List.range 8).map (laneCodes 4 8 cs) ++ [sc], f0)
  let y := { v.x with act := allLanes x.w }
  let s ← writeRes y false (lanes16.map fun l => BitVec.ofNat 64 (vals.getD l 0)) none fun w => orFpst w fl
  Out.step s

def execBspack (f : Fields) (s : State) : Host.Outcome State Fault Refusal := onWeft .bspack f .lanes bspackBody s

/-- One unpacked element (R209). -/
def unpackOne (elem : Fmt) (code sc band : Nat) : Nat × Flags :=
  let (c, fl) := match fmulExact (fmulExact (decodeF elem code) (decodeF .e3m5 sc)) (decodeF .bf16 band) with
    | .nan _ => (Fmt.f32.nanCode, Flags.none)
    | y => encodeF .f32 .rne false 0 y
  (c, { uf := fl.uf, ov := fl.ov, nx := fl.nx })

/-- BSUNPK (R209): the lanes of the packed row are read as they stand, those beyond it not at all. -/
def bsunpkBody (x : Ctx) : R Out := do
  let f4 := decide (x.f.mod.toNat = 7)
  let x ← popSources x
  let row ← readVals x .a x.f.a false (allLanes x.w &&& if f4 then 7 else 0x1FF)
  let b ← rd x .b false
  let word (i : Nat) : Nat := (row.getD i 0).toNat % 2 ^ 32
  let one (l : Nat) : Nat × Flags :=
    let band := codeIn .bf16 (b.getD l 0)
    if f4 then
      let code := field (word (l / 8)) (4 * (l % 8) + 3) (4 * (l % 8))
      unpackOne .e2m1 code (field (word 2) (8 * (l / 8) + 7) (8 * (l / 8))) band
    else
      let at_ (k : Nat) : Nat := field (word (k / 4)) (8 * (k % 4) + 7) (8 * (k % 4))
      let (lo, f0) := unpackOne .e4m3 (at_ l) (word 8 % 256) band
      let (hi, f1) := unpackOne .e4m3 (at_ (l + 16)) (word 8 % 256) band
      (lo + 2 ^ 32 * hi, f0.or f1)
  let rs := lanes16.map one
  let fl := flagsOver x fun l => (rs.getD l (0, Flags.none)).2
  let s ← writeRes x (!f4) (rs.map fun r => BitVec.ofNat 64 r.1) none fun w => orFpst w fl
  Out.step s

def execBsunpk (f : Fields) (s : State) : Host.Outcome State Fault Refusal := onWeft .bsunpk f .auto bsunpkBody s

/-! ### DOT4 (R210) -/

/-- One lane of DOT4. -/
def dot4Lane (t : Nat) (a b c : Word64) : Nat × Flags :=
  let js := [0, 1, 2, 3]
  if t = 6 then
    let el (v : Word64) (j : Nat) : Int := toSigned 8 (field v.toNat (8 * j + 7) (8 * j))
    let sum := js.foldl (fun n j => n + el a j * el b j) (0 : Int)
    (wrap 32 (c.toNat + sum), Flags.none)
  else
    let f := fmtOf t
    let el (v : Word64) (j : Nat) : FVal := decodeF f (field v.toNat (f.width * j + f.width - 1) (f.width * j))
    let acc := js.foldl (fun (n : Acc) j => n.term (el a j) (el b j)) {}
    let (r, fl) := accStep .f32 (codeIn .f32 c) acc.value
    (r, { fl with nv := fl.nv || acc.snan })

def execDot4 (f : Fields) (s : State) : Host.Outcome State Fault Refusal :=
  let t := f.mod.toNat
  onWeft .dot4 f .auto (fpLanes (t ≤ 3) (t ≤ 3) false false fun _ a b c => dot4Lane t a b c) s

end Sys2Proof.Machine
end

