-- ==== Sys2Proof/Machine/Atomics.lean ====
section
/-!
DEFINITION. Atomics, reductions and compare-and-swap (R230 to R235), with the error responses of R232 and R382.
-/
namespace Sys2Proof.Machine

/-! ### The operation at one location (Table 3 of R230) -/

/-- The operation code of a modifier byte. -/
def atomOp (x : Ctx) : Nat := field (modByte x.f.c) 3 0

/-- The bytes of the location. -/
def atomBytes (x : Ctx) : Nat :=
  if atomFloat x.f.c then (fmtOf x.f.mod.toNat).width / 8 else memBytes x.f.mod.toNat

/-- The new value of an operation other than `.fadd`: codes of n bytes. -/
def atomNew (op t n : Nat) (old b : Nat) : Nat :=
  let w := 8 * n
  let s (v : Nat) : Int := opd t (BitVec.ofNat 64 v)
  match op with
  | 0 => (old + b) % 2 ^ w
  | 1 => if s b < s old then b else old
  | 2 => if s b > s old then b else old
  | 3 => old &&& b
  | 4 => old ||| b
  | 5 => old ^^^ b
  | 6 => b
  | 7 => old
  | 8 => b
  | 9 => if old ≥ b then 0 else old + 1
  | 11 => (fminmaxV (fmtOf t) false (decodeF (fmtOf t) old) (decodeF (fmtOf t) b)).1
  | _ => (fminmaxV (fmtOf t) true (decodeF (fmtOf t) old) (decodeF (fmtOf t) b)).1

/-! ### Access to the location -/

/-- Where an atomic acts: the physical address after moves, and the target and offset of a peer's. -/
def atomPlace (s : State) (a : LaneAcc) : Nat × Option (Nat × Nat) :=
  (localPa s a.pa, match placeOf s a.pa with | .peer t off => some (t, off) | _ => none)

/-- What an arrival at a home does to a line's contributions, gather and shadows (R45, R234): a `.det` contribution and one
that the routers may still merge nothing, another add closes the gather, any other operation also rounds the shadows. -/
inductive Quiet
  | det | merge | add | all
  deriving DecidableEq, Repr

/-- A line before an operation executes there. -/
def quieted (s : State) (line : Nat) : Quiet → State
  | .det => applyPending s line
  | .merge => s
  | .add => closeGather (applyPending s line) line false
  | .all => quietLine s line

/-- What an atomic's arrival at the home does before it executes: D is set, duplicates collapse, regions that mark the
line abort, copies end (R231, R243, R374). -/
def atomArrive (x : Ctx) (q : Quiet) (s : State) (a : LaneAcc) : State :=
  let pa := (atomPlace s a).1
  let s := markDirty s x.p.asid x.w.key.part a.va
  let s := collapsePage s (pa / 4096)
  let s := strayWrite (meetPage s x a.va) (lineOf pa)
  coAtomic (quieted s (lineOf pa) q) (lineOf pa) (leafCC a.leaf) (allocOf s x a.va)

/-- The baselines of an agent after an atomic of its own whose result is known: they take it (R311). -/
def knownSnaps (s : State) (agent : AgentId) (pa n : Nat) : State := setSnaps s agent pa (toBytes n (heldCode s pa n))

/-- The baselines of an agent after a reduction of its own whose result is not known yet, in a gather or at a peer: those of
its bytes end, so that the next load returns the result or a later value (R311). -/
def dropSnaps (s : State) (agent : AgentId) (pa n : Nat) : State :=
  { s with snaps := s.snaps.filter fun x => !(x.agent == agent && decide (pa ≤ x.pa) && decide (x.pa < pa + n)) }

/-- One request counted at the home: each active lane for a DC or SC page, at most once for an NC one (R359). -/
def atomCount (x : Ctx) (s : State) (a : LaneAcc) : State :=
  if uncounted x then s
  else if leafCC a.leaf = 0 then countPlain s x.w.key.part (entOf s x a.va) x.w.id.core 1 false
  else
    match x.w.key.part with
    | some p => countAccess s p (entOf s x a.va) x.w.id.core 1 false
    | none => s

/-- A value put into an atomic's location. -/
def atomPut (s : State) (pa n v : Nat) : State := writeNum s pa n v

/-- One lane's atomic with a result: the old value and the state. -/
def atomLane (x : Ctx) (n : Nat) (add : Option Fmt) (new : Nat → Nat) (b : Nat) (s : State) (a : LaneAcc) : Nat × State :=
  let s := atomCount x (atomArrive x (if add.isSome then .add else .all) s a) a
  let pa := (atomPlace s a).1
  match add with
  | some f =>
    let (old, s) := applyAdd s pa f b false (partNum x.w.key)
    (old, knownSnaps s (accAgent x a.lane) pa n)
  | none =>
    let old := physNum s pa n
    (old, knownSnaps (atomPut s pa n (new old)) (accAgent x a.lane) pa n)

/-! ### Operations at a home, for a fabric agent and from a stall window (R362, R386) -/

/-- A write, atomic or reduction that does not come from a core's unit prepares the line at its home. -/
def fabricTake (s : State) (pa cc : Nat) (q : Quiet) : State :=
  let line := lineOf pa
  coAtomic (quieted (strayWrite (collapsePage s (pa / 4096)) line) line q) line cc

/-- The new value of an atomic's packet, from the old one; none for an add that a shadow holds. -/
def packetNew (op : PktOp) (old : Nat) : Option Nat :=
  let n := opLen op
  let cut (v : Word64) : Nat := v.toNat % 2 ^ (8 * n)
  match op with
  | .atom 10 mod v =>
    let f := fmtOf mod
    if shadowed f then none else some (faddV f .rne false (decodeF f old) (decodeF f (cut v))).1
  | .atom op mod v => some (atomNew op mod n old (cut v))
  | .cas _ v w => some (if old = cut v then cut w else old)
  | _ => none

/-- An atomic or a CAS at its home: the old value and the state. An add on floating formats may act through the shadow of its
target. -/
def fabricAtom (s : State) (pa cc : Nat) (op : PktOp) (part : Nat) : Nat × State :=
  let n := opLen op
  match op with
  | .atom 10 mod v => applyAdd (fabricTake s pa cc .add) pa (fmtOf mod) (v.toNat % 2 ^ (8 * n)) false part
  | _ =>
    let s := fabricTake s pa cc .all
    let old := physNum s pa n
    (old, writeNum s pa n ((packetNew op old).getD old))

/-- A reduction at its home; a `.det` one joins the gather of its line. -/
def fabricRed (s : State) (pa cc op mod : Nat) (v : Word64) (part : Nat) (key : Option (Nat × Nat × Nat × Nat × Nat)) : State :=
  match key with
  | some (core, num, lane, kp, panel) =>
    let (o, s) := freshId (fabricTake s pa cc .det)
    joinGather s ⟨pa, fmtOf mod, core, num, lane, kp, panel, o, v.toNat % 2 ^ (8 * atomWidth op mod)⟩
  | none => (fabricAtom s pa cc (.atom op mod v) part).2

/-- What the units that wait for a request's responses hold from now on. -/
def updHolds (s : State) (id : Nat) (w : WId) (h : List (Nat × Nat) → Hold) : State :=
  let one (b : Sub) : Sub :=
    match b.hold with
    | .remote k l => if k = id then { b with hold := h l } else b
    | _ => b
  updWeft s w fun u => { u with subs := u.subs.map one }

/-- The last answer to a unit's requests lets it go on. -/
def endAsks (s : State) (id : Nat) (w : WId) : State :=
  let held (h : WinWrite) : Bool := match h.ret with | some (k, _, _) => k == id | none => false
  if (s.outReqs.any fun x => x.id == id) || s.moves.any fun m => m.held.any held then s
  else progress (updHolds s id w .remoteDone)

/-- The old value of a lane's atomic reaches its unit. -/
def giveOld (s : State) (id : Nat) (w : WId) (lane old : Nat) : State :=
  endAsks (updHolds s id w fun l => .remote id (l ++ [(lane, old)])) id w

/-! ### Checks -/

/-- The checks of an atomic: R220 with its scope, and SCOPE for a shadowed or `.det` target of an NC page. -/
def atomCheck (x : Ctx) (scope n : Nat) (noNC : Bool) : R (List LaneAcc) := do
  let vas ← wholeAddrs x
  let accs ← checkAll x .write scope n vas
  let bad := accs.filter fun a => noNC && leafCC a.leaf == 0
  match bad with
  | a :: _ => .error (.fault cScope a.va (maskOf (bad.map (·.lane))))
  | [] => .ok accs

/-- The format of an add on floating formats. -/
def addFmt (x : Ctx) : Option Fmt := if atomOp x = 10 then some (fmtOf x.f.mod.toNat) else none

/-- The lanes whose response is lost (R382): all of them, and those that the home executes. -/
def lostLanes (x : Ctx) (accs : List LaneAcc) : Mask × Mask :=
  match x.w.lose with
  | some (did, not) =>
    let m := maskOf (accs.map (·.lane))
    ((did ||| not) &&& m, did &&& m)
  | none => (0, 0)

/-- The lowest erring lane's address. -/
def errAddr (accs : List LaneAcc) (err : Mask) : Nat :=
  match accs.find? fun a => err.getLsbD a.lane with
  | some a => a.va
  | none => 0

/-- The error records of an atomic's erring lanes (R382). -/
def errRecords (s : State) (w : Weft) (accs : List (Nat × Nat)) (err applied : Mask) : State :=
  (accs.filter fun a => err.getLsbD a.1).foldl (fun s a =>
    errRecord s w.key.part 10 cAtomicResponse (laneBit a.1).toNat w.id.core (if applied.getLsbD a.1 then 1 else 0) a.2 0) s

/-! ### ATOM and CAS -/

/-- Run a lane-wise operation with a result over the lanes, in ascending order; lanes whose request is lost before it
executes have no effect. -/
def runLanes (one : State → LaneAcc → Nat × State) (skip : Mask) (s : State) (accs : List LaneAcc) :
    State × List (Nat × Nat) :=
  accs.foldl (fun acc a =>
    if skip.getLsbD a.lane then (acc.1, acc.2 ++ [(a.lane, 0)])
    else
      let (old, s) := one acc.1 a
      (s, acc.2 ++ [(a.lane, old)])) (s, [])

/-- The reply of an ATOM or CAS on its way; the sub-weft waits for it. -/
def atomReply (x : Ctx) (s : State) (wide : Bool) (accs : List LaneAcc) (vals : List (Nat × Nat)) (err applied : Mask)
    (ts : List Touch) : R Out := do
  let s := updWeft s x.w.id fun w => { w with lose := none }
  if x.f.d = .zero then
    if err = 0 then .ok ⟨s, .next, ts⟩
    else
      let s := errRecords s x.w (accs.map fun a => (a.lane, a.va)) err applied
      .ok ⟨s, .trap cAtomicResponse (errAddr accs err) err (applied != 0), ts⟩
  else
    let keep := vals.map fun e => if err.getLsbD e.1 then (e.1, 0) else e
    let (id, s) := freshId s
    let l0 := mkLanding x id x.f.d wide x.act (spread x (BitVec.ofNat 64) keep) false
      (lanes16.map fun l => match accs.find? fun a => a.lane == l with | some a => a.va | none => 0)
    let l := { l0 with err := err, applied := applied, atom := true }
    let s ← addReplies x s x.f.d wide [l]
    .ok ⟨s, .next, ts⟩

/-- The peer whose home executes an atomic: its target and offset. On an NC page the atomic executes in the L1 (R231). -/
def peerHome (s : State) (a : LaneAcc) : Option (Nat × Nat) := if leafCC a.leaf = 0 then none else (atomPlace s a).2

/-- The old value that a far home has returned for a lane. -/
def farOld (x : Ctx) (lane : Nat) : Option Nat :=
  match x.b.hold with
  | .remoteDone l => tget l lane
  | _ => none

/-- The bytes that an atomic has left in the L1 at a peer's NC page go there as a posted write (R331). -/
def backPost (x : Ctx) (n : Nat) (s : State) (a : LaneAcc) : State :=
  match atomPlace s a with
  | (pa, some (t, off)) => postWrite s x.w.id (accAgent x a.lane) x.w.key.part t off pa (mread s.mem pa n)
  | _ => s

/-- What an atomic that a far home has executed leaves here: its new value at the window address of a peer, and the agent's
baselines (R311). -/
def afterFar (s : State) (agent : AgentId) (pa : Nat) (op : PktOp) (old : Nat) : State :=
  let n := opLen op
  if tierOf pa ≠ 3 then knownSnaps s agent pa n
  else
    match packetNew op old with
    | some v => setSnaps (writeNum s pa n v) agent pa (toBytes n v)
    | none => dropSnaps s agent pa n

/-- One lane's atomic: at a far home, which has executed it already, or here. Regions that mark its line abort (R243). -/
def atomAt (x : Ctx) (n : Nat) (ask : LaneAcc → PktOp) (one : State → LaneAcc → Nat × State) (s : State) (a : LaneAcc) :
    Nat × State :=
  match farOld x a.lane with
  | some old =>
    let s := atomCount x (strayWrite (markDirty s x.p.asid x.w.key.part a.va) (accLine s a)) a
    (old, afterFar s (accAgent x a.lane) (atomPlace s a).1 (ask a) old)
  | none =>
    let (old, s) := one s a
    (old, backPost x n s a)

/-- What a lane's atomic needs far away: a place in the stall window of its line (R362), its execution at a peer's home, or a
peer's line where its page is NC. -/
def farAtom (s : State) (ask : LaneAcc → PktOp) (a : LaneAcc) : Option Far :=
  match copyingAt s a.pa, peerHome s a with
  | some m, _ => some (.window m (ask a))
  | none, some (t, off) => some (.atomic t off (ask a))
  | none, none => farLine s a

/-- The body of an instruction that performs one atomic for each lane and returns old values. ask is its request to a far
home. -/
def withOld (x : Ctx) (scope n : Nat) (accs : List LaneAcc) (ask : LaneAcc → PktOp) (here : State → LaneAcc → Nat × State) :
    R Out := do
  writeBlocked x (accs.filter fun a => (farOld x a.lane).isNone)
  let (err, applied) := lostLanes x accs
  let skip := err &&& ~~~applied
  let moving (a : LaneAcc) : Bool := (farOld x a.lane).isNone && (copyingAt x.s a.pa).isSome
  let go : R Out :=
    match x.b.hold with
    | .remoteDone _ => if accs.any moving then .error .wait else run err applied skip
    | _ => run err applied skip
  remoteGate x scope (accs.filter fun a => !skip.getLsbD a.lane) (farAtom x.s ask) go
where
  /-- The lanes executed, and the reply on its way. -/
  run (err applied skip : Mask) : R Out :=
    match poisonStop x.s x accs n with
    | some o => .ok o
    | none =>
      let (s, vals) := runLanes (atomAt x n ask here) skip (commitPops x x.s) accs
      atomReply x s (n = 8) accs vals err applied (touchesOf accs n true true)

/-- A symbolic atomic (R88): the lanes whose homes are here execute at once, and the others are asked of their peers. One whose
line a move copies, or lies on a peer's NC page, waits before it issues. -/
def symAtom (noNC : Bool) (scope : Nat) (ask : Ctx → SymAcc → LaneAcc → PktOp) (here : Ctx → SymAcc → State → LaneAcc → Nat × State)
    (x : Ctx) (a : SymAcc) : State × R SymAcc :=
  match checkWarm x .write scope a.bytes (symLanes x a) with
  | (s, .error e) => (s, .error e)
  | (s, .ok accs) =>
    let x := { x with s := s }
    let bad := accs.filter fun l => noNC && leafCC l.leaf == 0
    match bad, writeBlocked x accs, refuseLanes s x accs with
    | l :: _, _, _ => (s, .error (.fault cScope l.va (maskOf (bad.map (·.lane)))))
    | [], .error e, _ => (s, .error e)
    | [], .ok _, some (s, va, lanes) => (s, .error (.fault cPermission va lanes))
    | [], .ok _, none =>
      let slow (l : LaneAcc) : Bool :=
        match farAtom s (ask x a) l with
        | some (.atomic _ _ _) => postsOut s (accLine s l)
        | some _ => true
        | none => false
      if accs.any slow then (s, .error .wait)
      else
        let far := accs.filter fun l => (peerHome s l).isSome
        let near := accs.filter fun l => (peerHome s l).isNone
        let s := match poisonStop s x near a.bytes with | some o => o.s | none => s
        let (s, got) := runLanes (here x a) 0 s near
        let s := far.foldl (fun s l =>
          let s := atomCount x (strayWrite (markDirty s x.p.asid x.w.key.part l.va) (accLine s l)) l
          askAtomic (symWho a) x.w.key.part s l.va l.pa (ask x a l)) s
        (s, .ok (symDone x { a with got := got, pas := far.map fun l => localPa s l.pa } (BitVec.ofNat 64)))

/-- The symbol kind of an atomic's MOD (R230). -/
def atomKind (x : Ctx) : Nat :=
  if atomFloat x.f.c then (if x.f.mod = 0 then 3 else 2) else memKind x.f.mod.toNat

/-- The low bytes of an operand, as an atomic of n bytes takes them. -/
def cutCode (n : Nat) (vs : List Word64) (l : Nat) : Nat := (vs.getD l 0).toNat % 2 ^ (8 * n)

/-- One lane's ATOM here, its operands those of a list. -/
def atomHere (x : Ctx) (bs : List Word64) (s : State) (a : LaneAcc) : Nat × State :=
  let n := atomBytes x
  let b := cutCode n bs a.lane
  atomLane x n (addFmt x) (fun old => atomNew (atomOp x) x.f.mod.toNat n old b) b s a

/-- The request of one lane's ATOM. -/
def atomAsk (x : Ctx) (bs : List Word64) (a : LaneAcc) : PktOp :=
  .atom (atomOp x) x.f.mod.toNat (BitVec.ofNat 64 (cutCode (atomBytes x) bs a.lane))

/-- The scope that an ATOM or RED names. -/
def atomScope (x : Ctx) : Nat := field (modByte x.f.c) 6 4

/-- Whether an ATOM's target must not lie on an NC page. -/
def atomNoNC (x : Ctx) : Bool := match addFmt x with | some f => shadowed f | none => false

/-- A pending ATOM.sym carried out. -/
def runAtom (x : Ctx) (a : SymAcc) : State × R SymAcc :=
  symAtom (atomNoNC x) (atomScope x) (fun x a => atomAsk x a.opnd) (fun x a => atomHere x a.opnd) x a

/-- ATOM. -/
def atomBody (x : Ctx) : R Out := do
  let x ← popSources x
  let n := atomBytes x
  let bs ← rd x .b (n = 8)
  match symSlot x (bitOf (modByte x.f.c) 7 && x.w.lose.isNone) with
  | some (d, slot) =>
    let vas ← wholeAddrs x
    symIssue { x with s := commitPops x x.s } d (newSym x slot (atomKind x) (vas.map (·.2)) n false bs) runAtom
  | none => do
    let accs ← atomCheck x (atomScope x) n (atomNoNC x)
    withOld x (atomScope x) n accs (atomAsk x bs) (atomHere x bs)

def execAtom (f : Fields) (s : State) : Host.Outcome State Fault Refusal := onWeft .atom f .auto atomBody s

/-- CAS (R235). -/
def casBody (x : Ctx) : R Out := do
  let x ← popSources x
  let wide := bitOf x.f.mod.toNat 0
  let n := if wide then 8 else 4
  let scope := field x.f.mod.toNat 3 1
  let bs ← rd x .b wide
  let cs ← rd x .c wide
  let accs ← atomCheck x scope n false
  withOld x scope n accs (fun a => .cas wide (bs.getD a.lane 0) (cs.getD a.lane 0)) fun s a =>
    atomLane x n none (fun old => if old = cutCode n bs a.lane then cutCode n cs a.lane else old) 0 s a

def execCas (f : Fields) (s : State) : Host.Outcome State Fault Refusal := onWeft .cas f .auto casBody s

/-! ### RED (R233, R234) -/

/-- Two add contributions merged by a router: under RNE, in FP32 for BF16 (R44, R233). -/
def mergeAdd (p q : PendAdd) : PendAdd :=
  if p.fmt = .bf16 then
    let v (c : PendAdd) : FVal := if c.wide then decodeF .f32 c.code else decodeF .bf16 c.code
    { p with code := (faddV .f32 .rne false (v p) (v q)).1, wide := true }
  else { p with code := (faddV p.fmt .rne false (decodeF p.fmt p.code) (decodeF p.fmt q.code)).1 }

/-- An add contribution on its way to its home (R20): it merges into one to its target that the routers hold, waits there for
others, or arrives; which of these is open. The exact contributions to a fixed-point shadow need no merging. -/
def routeAdd (s : State) (c : PendAdd) : State :=
  let line := lineOf c.pa
  let (k, s) := draw s
  let r := getLine s line
  let same (p : PendAdd) : Bool := p.pa == c.pa && p.fmt == c.fmt
  if c.fmt = .e4m3 ∨ c.fmt = .e5m2 ∨ !Config.freeMerge k then
    let s := closeGather s line false
    (applyAdd s c.pa c.fmt c.code c.wide c.part).2
  else if r.pend.any same then setLine s { r with pend := updFirst same (fun p => mergeAdd p c) r.pend }
  else setLine s { r with pend := r.pend ++ [c] }

/-- The application of one reduction here: a refused one is recorded and not applied (R387). -/
def redLane (x : Ctx) (n : Nat) (one : State → State) (q : Quiet) (s : State) (a : LaneAcc) : State :=
  match placeOf s a.pa with
  | .refused fa => refusalRecord (markDirty s x.p.asid x.w.key.part a.va) x.w.key.part 0 0 x.w.id.core 0 fa
  | _ =>
    let s := one (atomArrive x q s a)
    let pa := (atomPlace s a).1
    let s := if q = .det then dropSnaps s (accAgent x a.lane) pa n else knownSnaps s (accAgent x a.lane) pa n
    backPost x n s a

/-- A reduction that a peer's home executes travels as a posted request (R331, R387); regions that mark its line abort
(R243). -/
def redPost (x : Ctx) (n : Nat) (op : PktOp) (s : State) (a : LaneAcc) : State :=
  match atomPlace s a with
  | (pa, some (t, off)) =>
    let s := strayWrite (markDirty s x.p.asid x.w.key.part a.va) (lineOf pa)
    postOp (dropSnaps s (accAgent x a.lane) pa n) x.w.id (accAgent x a.lane) x.w.key.part t off pa op
  | _ => s

/-- A reduction to the line that a move copies is held in its stall window (R362). -/
def redHold (x : Ctx) (n : Nat) (op : PktOp) (s : State) (a : LaneAcc) : State :=
  match copyingAt s a.pa with
  | some m =>
    let g := accAgent x a.lane
    let s := dropSnaps (strayWrite (markDirty s x.p.asid x.w.key.part a.va) (accLine s a)) g (localPa s a.pa) n
    { s with moves := s.moves.map fun y =>
        if y.id = m.id then { y with held := y.held ++ [⟨g, a.pa, [], some op, atomScope x, none⟩] } else y }
  | none => s

/-- Every lane's request counted; a request that routers merge counts once for each request merged into it (R359). -/
def countReds (x : Ctx) (s : State) (accs : List LaneAcc) : State :=
  accs.foldl (fun s a => match placeOf s a.pa with | .refused _ => s | _ => atomCount x s a) s

/-- Whether the line of a reduction must first be read from a peer: its page is NC, and the L1 executes it. -/
def redFetches (s : State) (a : LaneAcc) : Bool := leafCC a.leaf == 0 && (atomPlace s a).2.isSome

/-- One lane's reduction at its home here. An add whose target the agent has loaded in this phase, or that lies on an NC page,
is not merged by a router. -/
def redHere (x : Ctx) (n : Nat) (code : Nat → Nat) (key : Nat → Option (Nat × Nat × Nat × Nat × Nat)) (s : State) (a : LaneAcc) :
    State :=
  let part := partNum x.w.key
  let pa := (atomPlace s a).1
  match addFmt x, key a.lane with
  | some f, some (core, num, lane, kp, panel) =>
    let put (s : State) : State :=
      let (o, s) := freshId s
      joinGather s ⟨pa, f, core, num, lane, kp, panel, o, code a.lane⟩
    redLane x n put .det s a
  | some f, none =>
    if leafCC a.leaf = 0 ∨ hasBase s (accAgent x a.lane) pa then
      redLane x n (fun s => (applyAdd s pa f (code a.lane) false part).2) .add s a
    else redLane x n (fun s => routeAdd s ⟨pa, f, code a.lane, false, part⟩) .merge s a
  | none, _ =>
    redLane x n (fun s => atomPut s pa n (atomNew (atomOp x) x.f.mod.toNat n (physNum s pa n) (code a.lane))) .all s a

/-- RED. -/
def redBody (x : Ctx) : R Out := do
  let x ← popSources x
  let n := atomBytes x
  let det := bitOf (modByte x.f.c) 7
  let bs ← rd x .b (n = 8)
  let code := cutCode n bs
  let accs ← atomCheck x (atomScope x) n (det || atomNoNC x)
  writeBlocked x accs
  remoteGate x 0 (accs.filter (redFetches x.s)) (farLine x.s) (
    let (err, applied) := lostLanes x accs
    let go := accs.filter fun a => applied.getLsbD a.lane || !err.getLsbD a.lane
    let held (a : LaneAcc) : Bool := (copyingAt x.s a.pa).isSome
    let away (a : LaneAcc) : Bool := !held a && (peerHome x.s a).isSome
    let here (a : LaneAcc) : Bool := !held a && (peerHome x.s a).isNone
    let key (l : Nat) : Option (Nat × Nat × Nat × Nat × Nat) :=
      if det then some (x.w.id.core, x.w.num, if x.scalar then 16 else l, partNum x.w.key, x.w.key.num.toNat) else none
    let op (a : LaneAcc) : PktOp := .red (atomOp x) x.f.mod.toNat (BitVec.ofNat 64 (code a.lane)) (key a.lane)
    let s := updWeft (commitPops x x.s) x.w.id fun w => { w with lose := none }
    let s := (go.filter held).foldl (fun s a => redHold x n (op a) s a) s
    let s := (go.filter away).foldl (fun s a => redPost x n (op a) s a) s
    let s := (go.filter here).foldl (redHere x n code key) (countReds x s go)
    let bad := (accs.filter fun a => err.getLsbD a.lane).map fun a => ⟨accAgent x a.lane, a.lane, a.va, applied.getLsbD a.lane⟩
    .ok ⟨{ s with erred := s.erred ++ bad }, .next, touchesOf accs n true true⟩)

def execRed (f : Fields) (s : State) : Host.Outcome State Fault Refusal := onWeft .red f .auto redBody s

end Sys2Proof.Machine
end

