-- ==== Sys2Proof/Machine/Landing.lean ====
section
/-!
DEFINITION. What arrives for a weft: the ends of translation walks (R222), interlocked results (R125, R70, R232), and
symbols with their faults (R92, R93, R411).
-/
namespace Sys2Proof.Machine

/-! ### TRANSLATION_COMPLETE (R222, R353) -/

/-- The result of a walk for the wefts that wait for it: they are issued again, with the page's fault where it has
one. -/
def endWalk (s : State) (k : Walk) : State :=
  let va := k.vpage * 4096
  let s := { s with walks := s.walks.erase k }
  let page := Wait.page k.asid k.vpage k.front
  match finishAt s k.front k.asid k.part va with
  | .ok s => wakeFor s .xlate fun w _ x => w.key.part == k.part && x == page
  | .error code =>
    match k.w with
    | none => s
    | some id =>
      let go (w : Weft) : Weft :=
        wokeAt s.tick w (w.subs.map fun b =>
          if b.park = some .xlate && waitOf w b == page then { b with park := none, hold := .walkFault code va } else b)
      { updWeft s id go with waiting := [] }

/-- TRANSLATION_COMPLETE. -/
def execTranslationComplete (asid : BitVec 16) (vpage : Nat) (s : State) : Host.Outcome State Fault Refusal :=
  .next ((s.walks.filter fun k => k.asid == asid.toNat && k.vpage == vpage).foldl endWalk s)

/-! ### INTERLOCKED_WRITE_LANDING (R125, R70, R232, R382) -/

/-- Whether two landings of a weft aim at one register or at the latch. -/
def sameTarget (a b : Landing) : Bool :=
  let regs (l : Landing) : List RegId := replyRegs l.d l.wide
  a.w == b.w && (regs a).any fun r => (regs b).contains r && (a.lanes &&& b.lanes != 0 || !perLane r)

/-- The lanes of a split load that are still on their way beside one of its landings, for the same destination. -/
def lateLanes (s : State) (l : Landing) : Mask :=
  s.landings.foldl (fun m x => if x.id ≠ l.id ∧ x.w = l.w ∧ x.split ∧ x.d = l.d then m ||| x.lanes else m) 0

/-- Whether a sub-weft stands where it can be divided: its unit has not begun, or begins again when it wakes. -/
def mayCut (b : Sub) : Bool :=
  match b.hold with
  | .none | .barrier _ _ | .walkFault _ _ => true
  | _ => false

/-- The sub-wefts that a split load's replies divide: they have lanes of both (R70). -/
def splitSubs (w : Weft) (late : Mask) : List Sub := w.subs.filter fun b => b.mask &&& late != 0 && b.mask &&& ~~~late != 0

/-- Whether a landing may land: it is the oldest of its weft that aims at its registers, since writes land in program order; a
reply of a split load that divides a sub-weft in the middle of a unit waits for the unit's end (R70); and one that raises a
trap waits while a stall window holds a write of its weft (R306). -/
def mayLand (s : State) (l : Landing) : Bool :=
  !((s.landings.takeWhile fun x => x.id != l.id).any fun x => sameTarget x l) &&
  (!l.split || match getWeft s l.w with
    | some w => decide (w.subs.length ≥ 16) || (splitSubs w (lateLanes s l)).all mayCut
    | none => true) &&
  (l.err == 0 || !entryHeld s l.w)

/-- The registers with a landing's values. -/
def landRegs (w : Weft) (l : Landing) : Weft :=
  let vec (w : Weft) (r : RegId) (vs : List Word32) : Weft := landReg w r l.lanes vs
  match l.d with
  | .v n =>
    let w := vec w (.v n.val) (lows l.vals)
    let w := if l.wide then vec w (.v (n.val + 1)) (highs l.vals) else w
    vec w (.lat false) (lows l.vals)
  | .o n => vec (vec w (.o n.val) (lows l.vals)) (.lat false) (lows l.vals)
  | .s n =>
    let v := l.vals.getD 0 0
    let w := landReg w (.s n.val) 0xFFFF [v.setWidth 32]
    if l.wide then landReg w (.s (n.val + 1)) 0xFFFF [v.extractLsb' 32 32] else w
  | _ => vec w (.lat false) (lows l.vals)

/-- A split load whose replies return apart divides each sub-weft that has lanes of both (R70); with 16 sub-wefts it does not.
The late lanes of one that waits park under LATE before the unit that it waits in. Where it waits under JOIN both parts are
still to arrive there. Log entry 79. -/
def splitLate (w : Weft) (late : Mask) : Weft :=
  let cut (b : Sub) : List Sub :=
    let l := b.mask &&& late
    let e := b.mask &&& ~~~late
    if l = 0 || e = 0 then [b] else [{ b with mask := e }, { b with mask := l, park := some .late }]
  let subs := w.subs.flatMap cut
  let cuts := splitSubs w late
  let divs := (cuts.filter fun b => b.park != some .join).map fun b => (⟨none, b.mask⟩ : Division)
  let waits := cuts.foldl (fun t b => tset t (lowest (b.mask &&& ~~~late)) (waitOf w b)) w.waits
  if subs.length > 16 then w else { w with subs := subs, divs := divs ++ w.divs, waits := waits }

/-- Late sub-wefts whose replies are all in go on. -/
def wakeLate (s : State) (id : WId) : State :=
  let late := s.landings.foldl (fun m x => if x.w = id ∧ x.split then m ||| x.lanes else m) 0
  let go (w : Weft) : Weft :=
    wokeAt s.tick w (w.subs.map fun b => if b.park = some .late ∧ b.mask &&& late = 0 then { b with park := none } else b)
  updWeft s id go

/-- One interlocked result lands. -/
def landOne (s : State) (l : Landing) : State :=
  let s := progress { s with landings := s.landings.filter fun x => x.id ≠ l.id }
  match getWeft s l.w with
  | none => s
  | some w =>
    let s := updWeft s l.w fun w => landRegs w l
    let s := if l.split then
        let late := lateLanes s l
        let s := if late = 0 then s else updWeft s l.w fun w => splitLate w late
        wakeLate s l.w
      else s
    if l.err = 0 then s
    else
      let vas := (lanes16.map fun i => (i, l.va.getD i 0)).filter fun e => l.err.getLsbD e.1
      let s := errRecords s w vas l.err l.applied
      takeTrap s l.w (lowest l.lanes) cAtomicResponse (vas.headD (0, 0)).2 l.err (l.applied != 0) false l.next

/-- INTERLOCKED_WRITE_LANDING. -/
def execInterlockedWriteLanding (id : Nat) (s : State) : Host.Outcome State Fault Refusal :=
  match s.landings.find? fun l => l.id == id with
  | some l => if mayLand s l then .next (landOne s l) else .next s
  | none => .next s

/-! ### SYMBOL_ARRIVAL (R92) -/

/-- One deferred floating-point step replayed on a value (R90, R92). -/
def replayStep (f : Fmt) (l : Nat) (t : SymStep) (x : Nat) : Nat × Flags :=
  let k := readF f t.ftz ((compLane t.x l).toNat % 2 ^ f.width)
  let v := readF f t.ftz x
  let r := rndOf t.rnd
  match t.op with
  | 0 => faddV f r t.ftz v k
  | 1 => fmulV f r t.ftz v k
  | _ => faddV f r t.ftz k v.negate

/-- The value of a symbolic value's lane, with the flags that its chain raises. -/
def resolveLane (v : SymVal) (l : Nat) (x : Word64) : Word64 × Flags :=
  if v.kind ≤ 1 then
    let y := compLane v.scale l * x + compLane v.offset l
    (if v.kind = 0 then (y.setWidth 32).setWidth 64 else y, Flags.none)
  else
    let f : Fmt := if v.kind = 2 then .f32 else .f64
    let (y, fl) := v.steps.foldl (fun (acc : Nat × Flags) t =>
      let (z, g) := replayStep f l t acc.1
      (z, acc.2.or g)) (x.toNat % 2 ^ f.width, Flags.none)
    (BitVec.ofNat 64 y, fl)

/-- The results of a symbolic value's lanes, with the flags of all. -/
def resolveVal (w : Weft) (v : SymVal) (vals : List Word64) : List Word64 × Flags :=
  let rs := (lanesOf (allLanes w)).map fun l => resolveLane v l (vals.getD l 0)
  (lanes16.map fun l => (rs.getD (if isSup w.id.core then 0 else l) (0, Flags.none)).1,
    rs.foldl (fun (f : Flags) r => f.or r.2) Flags.none)

/-- A register's content once a slot's symbol has its value: each half of a pair takes its own half. -/
def resolveReg (w : Weft) (slot : Nat) (vals : List Word64) : VReg → VReg
  | .sym v => if v.slot = slot then mkReg (lows (resolveVal w v vals).1) else .sym v
  | .symHi v => if v.slot = slot then mkReg (highs (resolveVal w v vals).1) else .symHi v
  | .val sh xs => .val sh xs

/-- Every register that holds a slot's symbol takes its value in one step, and so do the contents that the stall window
keeps for undersized reads; the flags of the registers go to `$fpst`. -/
def resolveSlot (w : Weft) (slot : Nat) (vals : List Word64) : Weft :=
  let flags (acc : Flags) (e : Nat × VReg) : Flags :=
    match e.2 with
    | .sym v => if v.slot = slot then acc.or (resolveVal w v vals).2 else acc
    | _ => acc
  let new := resolveReg w slot vals
  orFpst { w with
    vregs := w.vregs.map fun e => (e.1, new e.2)
    window := w.window.map fun e => { e with old := new e.old }
    syms := tdel w.syms slot } (w.vregs.foldl flags Flags.none)

/-- Uses that waited for a slot go on, with those that wait for every slot or for every chain where none is pending. -/
def wakeSlot (s : State) (id : WId) (slot : Nat) : State :=
  wakeFor s .symbol fun w _ x => w.id == id &&
    match x with
    | .slot k => k == slot
    | .slots => w.syms.all fun e => e.2.state != 1
    | .chains => !chainPending w
    | _ => false

/-- The context in which a pending symbolic access of a weft is carried out apart from a unit. -/
def symCtx (s : State) (w : Weft) (p : Panel) (a : SymAcc) : Ctx :=
  { s := s, c := ⟨w.id, 0, a.va0, 1⟩, w := { w with level := a.level }, p := p, b := ⟨a.va0, allLanes w, none, .none⟩,
    f := a.f, m := a.m, act := allLanes w, scalar := false, pre := 0, pops := [] }

/-- Whether a symbolic access is one of memory without a value: its page was absent, or peers hold its lines. -/
def symFar (a : SymAcc) : Bool := (a.m == .ld || a.m == .atom) && a.value.isNone

/-- Whether a pending access to memory can go on: it is issued again in its restored panel, or every answer has come (R93). An
earlier one of its weft to the same line comes first (R308). -/
def symDue (s : State) (a : SymAcc) : Bool :=
  let resident := match getPanel s a.key with | some p => !p.stopped | none => false
  let mine := s.fetches.filter fun f => f.who == symWho a
  let first := (s.symAccs.takeWhile fun b => b != a).all fun b =>
    !(b.key == a.key && b.num == a.num && symFar b) || !b.pas.any fun q => a.pas.any fun p => lineOf p == lineOf q
  symFar a && resident && mine.all (·.done) && first

/-- One byte of a lane's symbolic load from a peer: its agent's baseline in the phase of the load; where there is none, and that
phase has not ended, those of the 8 bytes around it are fixed from the answer (R310). -/
def farByte (a : SymAcc) (g : AgentId) (line : Nat) (pa : Nat) (s : State) : Byte × State :=
  let at_ (q : Nat) : Byte := BitVec.ofNat 8 (line / 256 ^ (q % 128))
  if !a.live.contains g then (at_ pa, s)
  else
    match s.snaps.find? fun x => x.agent == g && x.pa == pa with
    | some x => (x.val, s)
    | none =>
      let near := ((List.range 8).map fun i => pa / 8 * 8 + i).filter fun q => !hasBase s g q
      (at_ pa, { s with snaps := (near.map fun q => ⟨g, q, at_ q⟩) ++ s.snaps })

/-- The answers to a symbolic load's requests: every lane has its value. -/
def takeLines (x : Ctx) (a : SymAcc) (s : State) : State × SymAcc :=
  let lanes := (symLanes x a).filter fun e => !a.got.any fun y => y.1 == e.1
  let one (acc : State × List (Nat × Nat)) (i : Nat) : State × List (Nat × Nat) :=
    let l := (lanes.getD i (0, 0)).1
    let pa := a.pas.getD i 0
    let old := match s.fetches.find? fun f => f.who == symWho a && lineOf f.pa == lineOf pa with | some f => f.old | none => 0
    let (bs, s) := (List.range a.bytes).foldl (fun (y : List Byte × State) k =>
      let (b, t) := farByte a (agentAt x.w false l) old (pa + k) y.2
      (y.1 ++ [b], t)) ([], acc.1)
    (s, acc.2 ++ [(l, ofBytes bs)])
  let (s, got) := (List.range lanes.length).foldl one (s, a.got)
  let s := match a.pas.find? fun pa => poisoned s pa a.bytes with
    | some pa => machineCheck (haltWeft s x.w.id) 26 x.w.id.core pa 0 1
    | none => s
  (s, symDone x { a with got := got } (memRes a.f.mod.toNat))

/-- The answers to a symbolic atomic's requests, which stand in the order of its lanes. -/
def takeOlds (x : Ctx) (a : SymAcc) (s : State) : State × SymAcc :=
  let lanes := (symLanes x a).filter fun e => !a.got.any fun y => y.1 == e.1
  let olds := s.fetches.filter fun f => f.who == symWho a
  let one (s : State) (i : Nat) : State :=
    match olds[i]? with
    | some f =>
      let g := agentAt x.w false (lanes.getD i (0, 0)).1
      if a.live.contains g then afterFar s g f.pa f.op f.old else
        match packetNew f.op f.old with | some v => writeNum s f.pa (opLen f.op) v | none => s
    | none => s
  let got := (List.range lanes.length).filterMap fun i => olds[i]?.map fun f => ((lanes.getD i (0, 0)).1, f.old)
  ((List.range lanes.length).foldl one s, symDone x { a with got := a.got ++ got } (BitVec.ofNat 64))

/-- A pending access to memory goes on: the state, and the access with its value or with what it still waits for; it may end in
a fault (R93). -/
def symAgain (s : State) (w : Weft) (p : Panel) (a : SymAcc) : State × Option SymAcc :=
  let x := symCtx s w p a
  let put (s : State) (b : SymAcc) : State × Option SymAcc :=
    ({ s with symAccs := s.symAccs.map fun y => if y = a then b else y }, some b)
  if a.pas ≠ [] then
    let (s, b) := if a.m = .atom then takeOlds x a s else takeLines x a s
    put (dropFetches s (symWho a)) b
  else
    match (if a.m = .atom then runAtom x a else symLoad x a) with
    | (s, .ok b) => put s b
    | (s, .error (.fault code tval lanes)) =>
      if code = cTranslation then (stopForPage s x tval lanes, none)
      else if code = cViolation ∧ w.level = 1 then (violate (haltWeft s w.id) w.key.part w.id.core tval, none)
      else (failSym s a code tval lanes, none)
    | (s, .error _) => (s, none)

/-- The value of a symbolic access, where it has arrived. -/
def symValue (s : State) (a : SymAcc) : Option (List Word64) :=
  match a.value with
  | some v => some v
  | none =>
    match a.m, getPanel s a.key with
    | .lds, some p => padValue p a
    | _, _ => none

/-- SYMBOL_ARRIVAL: the symbol resolves at a boundary of its weft, and waiting uses go on. -/
def arriveSym (s : State) (id : WId) (slot : Nat) : State :=
  match getWeft s id with
  | none => s
  | some w =>
    match (s.symAccs.find? fun a => a.key == w.key && a.num == w.num && a.slot == slot), getPanel s w.key with
    | some a, some p =>
      let (s, a) := if symDue s a then symAgain s w p a else (s, some a)
      match a with
      | none => progress s
      | some a =>
        match symValue s a with
        | none => s
        | some v =>
          let s := progress { s with symAccs := s.symAccs.erase a }
          wakeSlot (updWeft s id fun w => resolveSlot w slot v) id slot
    | _, _ => s

/-! ### SYMBOL_FAULT (R93) -/

/-- Every register that holds a slot's symbol becomes U with value 0, and so do the contents that the stall window keeps;
the slot is free; FSLOT and FV name it. -/
def failSlot (w : Weft) (slot : Nat) : Weft :=
  let zero (r : VReg) : VReg :=
    match r with
    | .sym v | .symHi v => if v.slot = slot then .val .u [] else r
    | .val _ _ => r
  { w with
    vregs := w.vregs.map fun e => (e.1, zero e.2)
    window := w.window.map fun e => { e with old := zero e.old }
    syms := tdel w.syms slot
    symstF := BitVec.ofNat 32 (2 ^ 20 + slot * 2 ^ 16) }

/-- SYMBOL_FAULT: the oldest deferred fault of a weft is delivered at its boundary, as a fault of the `.sym` instruction
at that instruction's address. A sub-weft that may issue takes it. -/
def execSymbolFault (id : WId) (s : State) : Host.Outcome State Fault Refusal :=
  match getWeft s id with
  | none => .next s
  | some w =>
    match w.symFaults, w.subs.filter fun b => b.mask &&& ~~~handlerLanes w == 0 && !w.halted && holdFree b.hold with
    | (slot, code, tval, lanes, va0) :: t, b :: _ =>
      if heldWrites s (agentOf w) then .next s
      else
        let s := updWeft s id fun w => failSlot { w with symFaults := t } slot
        let s := wakeSlot s id slot
        match w.region with
        | some _ => .next (abortRegion s id 5 (code % 256) 0)
        | none => .next (progress (takeTrap s id (lowest b.mask) code tval lanes false true va0))
    | _, _ => .next s

end Sys2Proof.Machine
end

