-- ==== Sys2Proof/Machine/Control.lean ====
section
/-!
DEFINITION. Transfers of control, the end of threads, and the division and merging of sub-wefts (R180 to R187, R189,
R190).
-/
namespace Sys2Proof.Machine

/-! ### Transfers (R180 to R184) -/

/-- The word after the unit. -/
def nextWordOf (c : Cur) : Word64 := c.pc + BitVec.ofNat 64 (8 * c.words)

/-- A word offset from the unit's first word. -/
def offsetFrom (c : Cur) (off : Word64) : Word64 := c.pc + 8 * (off.setWidth 32).signExtend 64

/-- The reconvergence point of a C modifier; 0 records none. -/
def pointOf (c : Cur) (op : Operand) : Option Word64 :=
  match op with
  | .imm i => if i = 0 then none else some (c.pc + 8 * i.signExtend 64)
  | _ => none

/-- A sub-weft divides into parts, or goes on whole where there is one (R181). -/
def divide (w : Weft) (b : Sub) (parts : List (Word64 × Mask)) (point : Option Word64) : Weft :=
  let news := parts.map fun x => (⟨x.1, x.2, none, .none⟩ : Sub)
  let w1 := { w with subs := (w.subs.filter fun x => x.mask &&& b.mask == 0) ++ news }
  if parts.length > 1 then { w1 with divs := ⟨point, b.mask⟩ :: w.divs } else w1

/-- The checks of a transfer's targets, one for each lane (R180): ALIGN first, then PERMISSION. -/
def checkTargets (ts : List (Nat × Word64)) : R Unit :=
  let bad (p : Word64 → Bool) : List (Nat × Word64) := ts.filter fun x => p x.2
  match bad (fun t => t.extractLsb' 0 3 != 0#3), bad (fun t => t.extractLsb' 57 7 != 0#7) with
  | (l, t) :: r, _ => .error (.fault cAlign t.toNat (maskOf (l :: r.map (·.1))))
  | [], (l, t) :: r => .error (.fault cPermission t.toNat (maskOf (l :: r.map (·.1))))
  | [], [] => .ok ()

/-- The lanes grouped by equal targets, in the order of their first lanes. -/
def groupTargets (ts : List (Nat × Word64)) : List (Word64 × Mask) :=
  ((ts.map (·.2)).eraseDups).map fun t => (t, maskOf ((ts.filter fun x => x.2 == t).map (·.1)))

/-- Control of the sub-weft passes to the targets of its lanes. -/
def transferTo (x : Ctx) (s : State) (parts : List (Word64 × Mask)) (point : Option Word64) : R Out :=
  .ok ⟨updWeft s x.w.id fun w => divide w x.b parts point, .jumped, []⟩

/-- The targets in a register, one for each lane of the sub-weft. -/
def laneTargets (x : Ctx) : R (List (Nat × Word64)) := do
  let vs ← rd x .a true
  .ok ((lanesOf x.b.mask).map fun l => (l, vs.getD l 0))

/-- The target of a word offset, the same for every lane. -/
def offsetTarget (x : Ctx) (fld : Fld) : R (List (Nat × Word64)) := do
  let off ← rd1 x fld false
  .ok ((lanesOf x.b.mask).map fun l => (l, offsetFrom x.c off))

/-- BRA (R182): the active lanes go to the target, the others to the next word. -/
def braBody (x : Ctx) : R Out := do
  let ts ← offsetTarget x .a
  checkTargets ts
  let t := offsetFrom x.c (← rd1 x .a false)
  let rest := x.b.mask &&& ~~~x.act
  let parts := if rest = 0 then [(t, x.b.mask)] else [(t, x.act), (nextWordOf x.c, rest)]
  transferTo x x.s parts (pointOf x.c x.f.c)

def execBra (f : Fields) (s : State) : Host.Outcome State Fault Refusal := onWeft .bra f .lanes braBody s

/-- BRX and RET (R183, R184). -/
def branchTo (point : Option Word64) (x : Ctx) : R Out := do
  let ts ← laneTargets x
  checkTargets ts
  transferTo x x.s (groupTargets ts) point

def execBrx (f : Fields) (s : State) : Host.Outcome State Fault Refusal :=
  onWeft .brx f .once (fun x => branchTo (pointOf x.c x.f.c) x) s

def execRet (f : Fields) (s : State) : Host.Outcome State Fault Refusal :=
  onWeft .ret f .once (branchTo none) s

/-- CALL and CALLX (R184): the target is read, the return address written to the lanes of the sub-weft (log entry 76), then
control passes. -/
def callBody (targets : Ctx → R (List (Nat × Word64))) (point : Cur → Option Word64) (x : Ctx) : R Out := do
  let ts ← targets x
  checkTargets ts
  let s ← writeRes x true (splat (nextWordOf x.c)) none id
  transferTo x s (groupTargets ts) (point x.c)

def execCall (f : Fields) (s : State) : Host.Outcome State Fault Refusal :=
  onWeft .call f .once (callBody (fun x => offsetTarget x .a) fun _ => none) s

def execCallx (f : Fields) (s : State) : Host.Outcome State Fault Refusal :=
  onWeft .callx f .once (callBody laneTargets fun c => some (nextWordOf c)) s

/-- LOOP (R185): the counter is lowered by 1; control passes to the target while it is not 0. -/
def loopBody (x : Ctx) : R Out := do
  let vs ← readVals x .a x.f.d false x.act
  let n : Word64 := ((vs.getD 0 0).setWidth 32 - 1#32).setWidth 64
  if n = 0 then
    let s ← writeRes x false (splat n) none id
    transferTo x s [(nextWordOf x.c, x.b.mask)] none
  else
    let ts ← offsetTarget x .a
    checkTargets ts
    let s ← writeRes x false (splat n) none id
    transferTo x s (groupTargets ts) none

def execLoop (f : Fields) (s : State) : Host.Outcome State Fault Refusal := onWeft .loop f .once loopBody s

/-! ### The end of threads (R73, R74, R186) -/

/-- Lanes of a sub-weft end: its other lanes go on at an address, and the ended threads leave every division. A weft
without threads retires, and its panel ends with its last weft. -/
def endLanes (s : State) (w : Weft) (b : Sub) (act : Mask) (next : Word64) : State :=
  let rest := b.mask &&& ~~~act
  let leave (w : Weft) : Weft :=
    dropThreads (divide w b (if rest = 0 then [] else [(next, rest)]) none) act
  let s := updWeft s w.id leave
  match getWeft s w.id with
  | some u => if u.subs.isEmpty then endPanel (freeWeft s w.id) w.key else s
  | none => s

/-- EXIT (R186). -/
def exitBody (x : Ctx) : R Out :=
  withRelease x 2 fun s => .ok ⟨endLanes s x.w x.b x.act (nextWordOf x.c), .jumped, []⟩

def execExit (f : Fields) (s : State) : Host.Outcome State Fault Refusal := onWeft .exit f .lanes exitBody s

/-! ### NOP and YIELD (R187) -/

def execNop (f : Fields) (s : State) : Host.Outcome State Fault Refusal :=
  onWeft .nop f .lanes (fun x => Out.step x.s) s

/-- YIELD: with a ready bench weft in its quarter the issuing weft leaves the court after this word. -/
def execYieldWord (f : Fields) (s : State) : Host.Outcome State Fault Refusal :=
  onWeft .yieldWord f .once (fun x =>
    if (readyBench x.s x.w.id.core x.w.quarter).isEmpty then Out.step x.s else Out.step (toBench x.s x.w.id)) s

/-! ### SPLIT and JOIN (R189, R190) -/

/-- SPLIT: the lanes whose bit is 1 and the others go on as separate sub-wefts. -/
def splitBody (x : Ctx) : R Out := do
  let m ← rd1 x .a false
  let yes := x.b.mask &&& m.setWidth 16
  let no := x.b.mask &&& ~~~yes
  if yes = 0 ∨ no = 0 then Out.step x.s
  else transferTo x x.s [(nextWordOf x.c, yes), (nextWordOf x.c, no)] none

def execSplit (f : Fields) (s : State) : Host.Outcome State Fault Refusal := onWeft .split f .once splitBody s

/-- The weft with every division closed. -/
def closeDivs (s : State) (id : WId) : State := updWeft s id fun w => { w with divs := [] }

/-- JOIN: it passes at once where the weft has one sub-weft, and parks otherwise (R181 step 2). -/
def execJoin (f : Fields) (s : State) : Host.Outcome State Fault Refusal :=
  onWeft .join f .once (fun x =>
    if x.w.subs.length ≤ 1 then Out.step (closeDivs x.s x.w.id) else .error (.park .join)) s

end Sys2Proof.Machine
end

