-- ==== Sys2Proof/Machine/Reform.lean ====
section
/-!
DEFINITION. A launched weft (R50), REFORM and the reform bins (R66 to R69, R188).
-/
namespace Sys2Proof.Machine

/-- A weft as a panel's start leaves it (R50), at an address and a level. -/
def launchWeft (id : WId) (quarter : Nat) (k : PKey) (num role level : Nat) (mask : Mask) (pc : Word64) : Weft :=
  let zero : TrapRegs := ⟨0, 0, 0, 0⟩
  let lanes0 : List Word32 := lanes16.map fun _ => 0
  { id := id, quarter := quarter, key := k, num := num, role := role, level := level,
    tids := lanes16.map fun l => if isSup id.core then 16 * num else 16 * num + l,
    subs := [⟨pc, mask, none, .none⟩], divs := [], vregs := [], sregs := [], preds := [0, 0, 0, 0, 0, 0, 0],
    oregs := [], latX := lanes0, latY := lanes0, shX := lanes0, shY := lanes0, window := [], syms := [], popped := [], waits := [], binds := [],
    swatches := [], scrum := 0, task := 0, taskAsid := 0, index := 0, rlo := 0, rhi := 0, rstat := 0, region := none, uivec := 0,
    uimask := 0, uistat := 0, uiret := 0, uimaskHeld := 0, uiHold := .none, ctl := 0, fpst := 0, symstF := 0, ut := zero, kt := zero,
    ht := zero, mt := zero, kscratch := 0, active := [], halted := false, gangHeld := false, plHeld := false,
    stepping := none, stepped := none, batch := none, batchAge := 0, flight := none, answered := false, owed := 0, results := [],
    symFaults := [], lose := none, prio := 0, age := 0, onCourt := true, courtSince := 0,
    benchSince := 0, skipped := 0, lastIssue := 0, stall := 0, freshShape := false }

/-! ### The weft slots of a panel (R49, R52, R68) -/

/-- Wefts of a shape word (R56). -/
def shapeWefts (m : Meta) : Nat := field m.shape 9 0 + 1

/-- ⌈W / n⌉ of a panel. -/
def perCore (p : Panel) : Nat := (shapeWefts p.m + p.cores.length - 1) / max 1 p.cores.length

/-- The position of a core in a panel's core list. -/
def corePos (p : Panel) (core : Nat) : Nat := p.cores.findIdx (· == core)

/-- The `$weft` numbers of a panel's slots on a core: those launched there, and its seven reserved ones. -/
def slotNums (p : Panel) (core : Nat) : List Nat :=
  let pos := corePos p core
  let k := perCore p
  let w := shapeWefts p.m
  ((List.range k).map fun i => pos * k + i).filter (· < w) ++
    if p.m.reform then (List.range 7).map fun i => w + 7 * pos + i else []

/-- The quarter of a slot by its `$weft` number; a supervisor core has one (R13). -/
def quarterOfNum (p : Panel) (core n : Nat) : Nat :=
  if isSup core then 0
  else
    let w := shapeWefts p.m
    if n < w then n % perCore p % 4 else (n - w) % 7 % 4

/-- The lowest-numbered free slot of a panel on a core. -/
def freeNum (s : State) (p : Panel) (core : Nat) : Option Nat :=
  (slotNums p core).find? fun n => (weftNum s p.key n).isNone

/-- The lowest free resident slot of a core. -/
def freeResident (s : State) (core : Nat) : Option Nat :=
  (List.range 256).find? fun i => (getWeft s ⟨core, i⟩).isNone

/-! ### Drawing a bin -/

/-- A thread inserted by ascending `$tid`. -/
def insertThread (t : BinThread) : List BinThread → List BinThread
  | [] => [t]
  | h :: r => if t.tid < h.tid then t :: h :: r else h :: insertThread t r

/-- One register of a fresh weft (R69). -/
def freshReg (ts : List BinThread) (n : Nat) : VReg :=
  let vals := ts.map fun t => tgetD t.regs n 0
  let v0 := vals.headD 0
  if vals.all (· == v0) && ts.all fun t => t.uset.contains n then .val .u (lanes16.map fun _ => v0)
  else .val .g (lanes16.map fun l => vals.getD l 0)

/-- The registers of a fresh weft. -/
def freshRegs (ts : List BinThread) : Tab Nat VReg :=
  ((List.range 256).map fun n => (n, freshReg ts n)).filter fun e => e.2 != .val .u (lanes16.map fun _ => 0)

/-- A fresh weft of up to 16 threads of a bin. -/
def freshWeft (s : State) (p : Panel) (b : Bin) (id : WId) (num : Nat) (ts : List BinThread) : Weft :=
  let none_ : BinSource := ⟨0, 0, 0, 0, 0, 0, [], 0⟩
  let src (t : BinThread) : BinSource := b.sources.getD t.src none_
  let first := match ts with | t :: _ => src t | [] => none_
  let m := maskOf (List.range ts.length)
  let w0 := launchWeft id (quarterOfNum p id.core num) p.key num b.role p.level m b.pc
  let bit (t : BinThread) (k : Nat) : Bool := t.preds.getLsbD k
  let preds := (List.range 7).map fun k => maskOf ((List.range ts.length).filter fun l =>
    match ts[l]? with | some t => bit t k | none => false)
  let c := (getCore s id.core).cycle
  let tids := lanes16.map fun l => match ts[l]? with | some t => BinThread.tid t | none => 0
  let flags := ts.foldl (fun (m : Word32) t => m ||| (src t).fpst) 0
  let w := { w0 with
    tids := tids
    preds := preds
    vregs := freshRegs ts
    sregs := first.sregs
    fpst := flags
    task := first.task
    index := first.index
    prio := first.prio
    age := c
    onCourt := false
    courtSince := s.tick
    benchSince := s.tick }
  { w with freshShape := decide (chargeAll s w > lineBudget p w) }

/-- The bin of a core by its number. -/
def getBin (s : State) (core n : Nat) : Option Bin := (getCore s core).bins.find? fun b => b.id == n

/-- A bin replaced; an empty one is free again. -/
def putBin (s : State) (core : Nat) (b : Bin) : State :=
  updCore s core fun c =>
    { c with bins := (c.bins.map fun x => if x.id = b.id then b else x).filter fun x => !x.threads.isEmpty }

/-- Whether a bin is due: it is to be drawn until it is empty, or it holds 16 threads or more (R68). -/
def binDue (b : Bin) : Bool := b.due || decide (b.threads.length ≥ 16)

/-- Whether a fresh weft of a bin's panel has a free slot on a core. -/
def canDraw (s : State) (core : Nat) (b : Bin) : Bool :=
  match getPanel s b.key with
  | some p => (freeNum s p core).isSome && (freeResident s core).isSome
  | none => false

/-- One draw of a bin: a fresh weft, where the panel has a free slot on the core. -/
def drawBin (s : State) (core n : Nat) : State × Bool :=
  match getBin s core n with
  | none => (s, false)
  | some b =>
    match getPanel s b.key with
    | none => (s, false)
    | some p =>
      match freeNum s p core, freeResident s core with
      | some num, some slot =>
        let all := b.threads.foldl (fun l t => insertThread t l) []
        let ts := all.take 16
        let rest := b.threads.filter fun t => !(ts.any fun x => x.tid == t.tid)
        let w := freshWeft s p b ⟨core, slot⟩ num ts
        let s := putBin s core { b with threads := rest }
        (progress { s with wefts := s.wefts ++ [w] }, true)
      | _, _ => (s, false)

/-- A bin is to be drawn until it is empty. -/
def markDue (s : State) (core n : Nat) : State :=
  match getBin s core n with
  | some b => putBin s core { b with due := true }
  | none => s

/-- The bins of a panel on a core, the oldest first. -/
def panelBins (s : State) (core : Nat) (k : PKey) : List Bin :=
  let l := (getCore s core).bins.filter fun b => b.key == k
  l.foldl (fun acc b => acc.takeWhile (fun x => x.since ≤ b.since) ++ [b] ++ acc.dropWhile (fun x => x.since ≤ b.since)) []

/-- One draw of the oldest bin of a panel on a core that is due. -/
def drawOldest (s : State) (core : Nat) (k : PKey) : State × Bool :=
  match (panelBins s core k).find? binDue with
  | some b => drawBin s core b.id
  | none => (s, false)

/-- The draws of a panel's due bins on a core, the oldest first, each while it is due, until no slot is free. -/
def drainDue : Nat → State → Nat → PKey → State
  | 0, s, _, _ => s
  | n + 1, s, core, k =>
    match drawOldest s core k with
    | (s, true) => drainDue n s core k
    | (s, false) => s

/-- The draws that filing makes due at once (R68 steps 1 and 2). Where the last thread of the panel on the core has been filed,
every bin of it is to be drawn until it is empty. -/
def drawDue (s : State) (core : Nat) (k : PKey) : State :=
  let last := !(s.wefts.any fun w => w.key == k && w.id.core == core)
  let s := if last then (panelBins s core k).foldl (fun s b => markDue s core b.id) s else s
  drainDue 256 s core k

/-- The cycle that a core has reached: where none of its wefts may issue, time passes there as on the other cores. -/
def coreNow (s : State) (core : Nat) : Nat :=
  let own := (getCore s core).cycle
  if s.wefts.any fun w => w.id.core == core && (readySub s w).isSome then own
  else s.cores.foldl (fun n c => max n c.cycle) own

/-! ### REFORM (R188) -/

/-- Whether REFORM files nothing for a weft (R67, R188). -/
def reformRefused (w : Weft) (p : Panel) : Bool :=
  !p.m.reform || (scrumOf w).isSome || (w.vregs.any fun e => isSym e.2) || (w.syms.any fun e => e.2.state != 0)

/-- A thread as it is filed. -/
def fileThread (w : Weft) (pk src l : Nat) : BinThread :=
  let bit (k : Nat) : Bool := k = pk || (nth w.preds k 0).getLsbD l
  { tid := nth w.tids l 0
    preds := BitVec.ofNat 7 ((List.range 7).foldl (fun n k => if bit k then n + 2 ^ k else n) 0)
    uset := (List.range 256).filter fun n => match tget w.vregs n with
      | some (.val .u _) => true
      | none => true
      | _ => false
    regs := (w.vregs.map fun e => (e.1, lane (regLanes e.2) l)).filter fun e => e.2 != 0
    src := src }

/-- REFORM's body. -/
def reformBody (x : Ctx) : R Out :=
  let w := x.w
  let pk := predNum x.f.d
  let put (v : Bool) (w : Weft) : Weft := writePred x w pk x.act (if v then x.act else 0) none
  let core := w.id.core
  let bins := (getCore x.s core).bins
  let next := nextWordOf x.c
  let mine (b : Bin) : Bool := b.key == w.key && b.pc == next && b.role == w.role
  let fresh := (List.range 8).find? fun i => !(bins.any fun b => b.id == i)
  if reformRefused w x.p || ((bins.find? mine).isNone && fresh.isNone) then Out.step (setWeft x.s (put false w))
  else if x.s.landings.any fun l => l.w == w.id && l.lanes &&& x.b.mask != 0 then .error .wait
  else
    let src : BinSource := {
      num := w.num, role := w.role, prio := w.prio, fpst := w.fpst, task := w.task, index := w.index,
      sregs := w.sregs, budget := scalarBudget x.p w }
    let since := (getCore x.s core).cycle
    let b0 := (bins.find? mine).getD ⟨fresh.getD 0, w.key, next, w.role, [], [], since, false⟩
    let ts := (lanesOf x.act).map (fileThread w pk b0.sources.length)
    let b1 := { b0 with threads := b0.threads ++ ts, sources := b0.sources ++ [src] }
    let keep (c : CoreSt) : CoreSt := { c with bins := c.bins.filter (fun b => !mine b) ++ [b1] }
    let s := updCore (setWeft x.s (put true w)) core keep
    let leave (u : Weft) : Weft := dropThreads { u with subs := u.subs.filter fun b => b.mask &&& x.act == 0 } x.act
    let s := updWeft s w.id leave
    let s := match getWeft s w.id with
      | some u => if u.subs.isEmpty then freeWeft s w.id else s
      | none => s
    .ok ⟨drawDue s core w.key, .jumped, []⟩

def execReform (f : Fields) (s : State) : Host.Outcome State Fault Refusal := onWeft .reform f .once reformBody s

/-- REFORM_BIN_TIMEOUT: a bin that has been non-empty for 256 cycles is due, and a draw is made (R68 step 3). -/
def execReformBinTimeout (core bin : Nat) (s : State) : Host.Outcome State Fault Refusal :=
  match getBin s core bin with
  | some b => if b.since + 256 ≤ coreNow s core then .next (drawOldest (markDue s core bin) core b.key).1 else .next s
  | none => .next s

/-- REFORM_BIN_SLOT_DRAW: where a slot of the panel of a due bin is free, the oldest due bin of the panel is drawn (R68). -/
def execReformBinSlotDraw (core bin : Nat) (s : State) : Host.Outcome State Fault Refusal :=
  match getBin s core bin with
  | some b => if binDue b then .next (drawOldest s core b.key).1 else .next s
  | none => .next s

end Sys2Proof.Machine
end

