-- ==== Sys2Proof/Machine/Placement.lean ====
section
/-!
DEFINITION. PIN, UNPIN and HINT (R249, R250, R357).
-/
namespace Sys2Proof.Machine

/-- A page that a placement instruction names: its translation, the frame that carries its pin count, and its tier. -/
structure PageOf where
  e : TlbEnt
  frame : Nat
  tier : Nat
  deriving DecidableEq, Repr

/-- The page of a translation. -/
def pageOf (e : TlbEnt) : PageOf :=
  let f := paIn e.leaf e.bits (e.vpage * 4096) / 4096
  let n := 2 ^ (e.bits - 12)
  ⟨e, f / n * n, tierOf (f * 4096)⟩

/-- The 4-KiB pages that overlap a range. -/
def rangePages (a len : Nat) : List Nat :=
  if len = 0 then [] else (List.range ((a + len - 1) / 4096 - a / 4096 + 1)).map fun i => (a / 4096 + i) * 4096

/-- The translation of a page as the front of its address holds it; a page that none holds waits for its walk. -/
def entAt (x : Ctx) (va : Nat) : R TlbEnt :=
  match tlbFind x.s x.p.asid x.w.key.part va with
  | some e => .ok e
  | none => .error (.xlate va false)

/-- The pages of a range, each once: PIN, UNPIN and HINT need read permission (R249), MIGR none (R302). An absent page faults or is
skipped. -/
def pagesFor (x : Ctx) (skip : Bool) (k : AccKind := .read) : R (List PageOf) := do
  let a := (← rd1 x .a true).toNat
  let len ← num1 x .b
  let l := lowest x.act
  let absent (va : Nat) : Bool :=
    skip && va < 2 ^ 57 && (tlbFind x.s x.p.asid x.w.key.part va).isNone &&
    (match walk x.s x.p.asid x.w.key.part va with | .absent => true | _ => false)
  let accs ← checkAll x k 0 0 (((rangePages a len).filter fun va => !absent va).map fun va => (l, va))
  let es ← accs.mapM fun c => entAt x c.va
  .ok ((es.map pageOf).foldl
    (fun (acc : List PageOf) p => if acc.any fun q => q.frame == p.frame then acc else acc ++ [p]) [])

/-- Whether a page may lie in a tier: AFF of a tracked 4-KiB page, else its current tier alone (R357). -/
def tierAllowed (p : PageOf) (tier : Nat) : Bool :=
  if trackedPage p.e then bitOf (leafAff p.e.leaf) (tier - 1) else tier == p.tier

/-- Whether a page is pinned (R250). -/
def pagePinned (s : State) (p : PageOf) : Bool := decide ((getPage s p.frame).pins > 0) || leafPin p.e.leaf

/-- An explicit request of the migration engine (R361). -/
def askMove (s : State) (part : Nat) (p : PageOf) (tier cause : Nat) (dup : Bool) : State :=
  let (i, s) := freshId s
  { s with moveReqs := s.moveReqs ++ [⟨i, part, p.e.asid, p.e.vpage, tier, cause, 0, dup⟩] }

/-- The partition whose frames a move uses: the issuer's, or that of its ASID's root entry (R350, R360). -/
def movePart (x : Ctx) : Nat := x.w.key.part.getD (field (rootEntry x.s x.p.asid) 6 1)

/-- The pages outside a tier. -/
def outsideTier (ps : List PageOf) (tier : Nat) : List PageOf := ps.filter fun p => p.tier != tier

/-- Whether moves of pages to a tier are forbidden by a pin or by affinity. -/
def moveForbidden (s : State) (ps : List PageOf) (tier : Nat) : Option PageOf :=
  match (outsideTier ps tier).find? (pagePinned s) with
  | some p => some p
  | none => ps.find? fun p => !tierAllowed p tier

/-- MIGRATION at a page. -/
def migrationFault (p : PageOf) : R Out := .error (.fault cMigration (p.e.vpage * 4096) 0)

/-- PIN. -/
def pinBody (x : Ctx) : R Out := do
  let ps ← pagesFor x false
  let tier := field x.f.mod.toNat 1 0
  let count (s : State) (p : PageOf) : State := updPage s p.frame fun r => { r with pins := min 65535 (r.pins + 1) }
  if tier = 0 then Out.step (ps.foldl count x.s)
  else
    match moveForbidden x.s ps tier with
    | some p => migrationFault p
    | none =>
      let s := (outsideTier ps tier).foldl (fun s p => askMove s (movePart x) p tier 3 false) x.s
      Out.step (ps.foldl count s)

def execPin (f : Fields) (s : State) : Host.Outcome State Fault Refusal := onWeft .pin f .once pinBody s

/-- UNPIN. -/
def unpinBody (x : Ctx) : R Out := do
  let ps ← pagesFor x false
  Out.step (ps.foldl (fun s p => updPage s p.frame fun r => { r with pins := r.pins - 1 }) x.s)

def execUnpin (f : Fields) (s : State) : Host.Outcome State Fault Refusal := onWeft .unpin f .once unpinBody s

/-- HINT: a move to a tier, or the duplication of read-only pages. A page that is never duplicated takes no request
(R357, R365). -/
def hintBody (x : Ctx) : R Out := do
  let ps ← pagesFor x true
  let kind := field x.f.mod.toNat 1 0
  if kind = 3 then
    match ps.find? fun p => leafW p.e.leaf with
    | some p => migrationFault p
    | none =>
      Out.step ((ps.filter fun p => trackedPage p.e && p.tier == 1).foldl
        (fun s p => askMove s (movePart x) p 1 4 true) x.s)
  else
    match moveForbidden x.s ps (kind + 1) with
    | some p => migrationFault p
    | none =>
      Out.step ((outsideTier ps (kind + 1)).foldl (fun s p => askMove s (movePart x) p (kind + 1) 2 false) x.s)

def execHint (f : Fields) (s : State) : Host.Outcome State Fault Refusal := onWeft .hint f .once hintBody s

end Sys2Proof.Machine
end

