-- ==== Sys2Proof/Machine/Traps.lean ====
section
/-!
DEFINITION. Traps on purpose, the returns from handlers, user interrupts and service calls (R282 to R287, R292,
R406, R411).
-/
namespace Sys2Proof.Machine

/-- A predicate result of one value for the whole instruction. -/
def predOut (x : Ctx) (s : State) (v : Bool) : State :=
  updWeft s x.w.id fun w => predResult x w (predNum x.f.d) (if v then 0xFFFF else 0) none

/-! ### TRAP, BKPT (R285) -/

/-- A trap whose value is A. -/
def trapBody (code : Nat) (x : Ctx) : R Out := do
  let a ← num1 x .a
  .ok ⟨x.s, .trap code a 0 false, []⟩

def execTrap (f : Fields) (s : State) : Host.Outcome State Fault Refusal := onWeft .trap f .once (trapBody cUserTrap) s

def execBkpt (f : Fields) (s : State) : Host.Outcome State Fault Refusal := onWeft .bkpt f .once (trapBody cBreak) s

/-! ### TRET, UIRET (R286) -/

/-- TRET: a boundary of every agent of the weft, then the return. A misaligned EPC faults ALIGN here (R105). That no trap
is active at the level is a PRIVILEGE fault of the checks before (R131). -/
def tretBody (x : Ctx) : R Out :=
  let epc := (trapRegs x.w x.w.level).epc
  if epc.extractLsb' 0 3 != 0#3 then .error (.fault cAlign epc.toNat 0)
  else
    withRelease { x with act := liveMask x.w } 1 fun s => .ok ⟨returnTrap s x.w.id x.c.lane x.w.level, .jumped, []⟩

def execTret (f : Fields) (s : State) : Host.Outcome State Fault Refusal := onWeft .tret f .once tretBody s

/-- UIRET, with a handler active. -/
def uiretBody (x : Ctx) : R Out :=
  withRelease { x with act := liveMask x.w } 1 fun s => .ok ⟨returnUi s x.w.id x.c.lane, .jumped, []⟩

def execUiret (f : Fields) (s : State) : Host.Outcome State Fault Refusal := onWeft .uiret f .once uiretBody s

/-! ### UIEN (R287) -/

/-- UIEN.off and UIEN.on: D receives the enable before. -/
def uienBody (en : Bool) (x : Ctx) : R Out :=
  let s := predOut x x.s (uiEn x.w)
  Out.step (updWeft s x.w.id fun w => setUi w (uiAct w) en)

def execUienOff (f : Fields) (s : State) : Host.Outcome State Fault Refusal := onWeft .uienOff f .once (uienBody false) s

def execUienOn (f : Fields) (s : State) : Host.Outcome State Fault Refusal := onWeft .uienOn f .once (uienBody true) s

/-- UIEN.post. -/
def uienPostBody (x : Ctx) : R Out := do
  let t ← num1 x .a
  let n ← num1 x .b
  if n > 31 then oops cIllegalOperand
  else
    withRelease x 2 fun s =>
      match weftNum s x.w.key t with
      | none => Out.step (predOut x s false)
      | some u =>
        Out.step (predOut x (updWeft s u.id fun w => { w with uistat := w.uistat ||| BitVec.ofNat 32 (2 ^ n) }) true)

def execUienPost (f : Fields) (s : State) : Host.Outcome State Fault Refusal := onWeft .uienPost f .once uienPostBody s

/-- The sub-weft that takes a due user interrupt: one that may issue, else one that waits at a scrum latch. -/
def uiSub (s : State) (w : Weft) : Option Nat :=
  if !uiDue w || w.stepping.isSome then none
  else
    match w.subs.find? fun b => mayIssue s w b && holdFree b.hold with
    | some b => some (lowest b.mask)
    | none =>
      if w.halted then none
      else (w.subs.find? fun b => match b.hold with | .scrum _ => true | _ => false).map fun b => lowest b.mask

/-- USER_INTERRUPT_DELIVERY. It waits while a stall window holds a write of the weft (R306). -/
def execUserInterruptDelivery (id : WId) (s : State) : Host.Outcome State Fault Refusal :=
  match getWeft s id with
  | none => .next s
  | some w =>
    match uiSub s w with
    | some l => .next (if entryHeld s id then s else progress (takeUi s id l))
    | none => .next s

/-! ### SVC (R282 to R284) -/

/-- The address of a weft's service batch record (R283). -/
def batchAddr (base : Nat) (id : WId) : Nat :=
  if isSup id.core then base + 2 ^ 24 + 256 * (4 * (id.core - 256) + id.slot) else base + 256 * (256 * id.core + id.slot)

/-- The record of Table 2 of R283. -/
def batchBytes (w : Weft) (b : Batch) : List Byte :=
  toBytes 8 (handleOf w) ++ toBytes 2 b.mask.toNat ++ zeros 6 ++
    lanes16.flatMap (fun l => toBytes 4 (tgetD b.svcno l 0).toNat) ++
    lanes16.flatMap (fun l => toBytes 8 (tgetD b.arg l 0).toNat) ++ zeros 48

/-- The results in a batch record's ARG. -/
def batchResults (bs : List Byte) : Tab Nat Word64 :=
  lanes16.map fun l => (l, BitVec.ofNat 64 (ofBytes ((bs.drop (80 + 8 * l)).take 8)))

/-- A service queue (R283): by the die of the callers. -/
def svcQueue (p : Part) (die : Nat) : List Nat := tgetD p.svcq die []

/-- The lanes that the sub-wefts of a weft wait for, those that a handler keeps from their SVC included. -/
def svcHeld (w : Weft) : Mask :=
  let one (m : Mask) (h : Hold) : Mask := match h with | .svc l => m ||| l | _ => m
  let m := w.subs.foldl (fun m b => one m b.hold) 0
  one (w.active.foldl (fun m e => one m e.2.hold) m) w.uiHold

/-- A weft whose open batch becomes the one in flight. The sub-wefts of an answered one that have not retired their SVC keep
their results (R284). -/
def flightOf (addr : Nat) (w : Weft) : Weft :=
  let old := match w.flight with | some (_, m) => m &&& svcHeld w | none => 0
  { w with batch := none, batchAge := 0, flight := w.batch.map fun b => (addr, b.mask), answered := false, owed := w.owed ||| old }

/-- A weft's open batch sent: its record is written and its address appended. None where it cannot be sent now: the one in
flight has no answer yet, or the queue is full. -/
def sendBatch (s : State) (id : WId) : Option State :=
  match getWeft s id with
  | none => none
  | some w =>
    match w.batch, w.key.part with
    | some b, some pn =>
      match getPart s pn with
      | none => none
      | some p =>
        let die := dieOf id.core
        let addr := batchAddr p.desc.svcbase id
        if (w.flight.isSome && !w.answered) || (svcQueue p die).length ≥ 16384 then none
        else
          match deviceWrite s p.desc.asidLo (some pn) addr (batchBytes w b) with
          | .ok s =>
            let add (p : Part) : Part := { p with svcq := tset p.svcq die (svcQueue p die ++ [addr]) }
            some (updWeft (updPart s pn add) id (flightOf addr))
          | .error _ =>
            some (updWeft (deferArea s pn p.desc.svcbase (.batch addr (batchBytes w b) id die)) id (flightOf addr))
    | _, _ => none

/-- Whether every sub-weft of a weft is parked. -/
def allParked (w : Weft) : Bool := w.subs.all fun b => b.park.isSome

/-- Whether a batch is due: every sub-weft is parked, or 64 issue cycles of the quarter have passed. -/
def batchDue (w : Weft) : Bool := w.batch.isSome && (allParked w || decide (w.batchAge ≥ 64))

/-- SERVICE_BATCH_SEND. -/
def execServiceBatchSend (id : WId) (s : State) : Host.Outcome State Fault Refusal :=
  match getWeft s id with
  | some w => if batchDue w then .next ((sendBatch s id).getD s) else .next s
  | none => .next s

/-- SERVICE_BATCH_TIMEOUT. -/
def execServiceBatchTimeout (id : WId) (s : State) : Host.Outcome State Fault Refusal :=
  match getWeft s id with
  | some w => if w.batch.isSome ∧ w.batchAge ≥ 64 then .next ((sendBatch s id).getD s) else .next s
  | none => .next s

/-- Whether SVC is vector: D, A or B names a vector register. -/
def svcVector (f : Fields) : Bool := isVec f.d || isVec f.a || isVec f.b

/-- The lanes of an SVC. -/
def svcLanes (x : Ctx) : Mask := if svcVector x.f then x.act else laneBit (lowest x.act)

/-- A batch that is answered, and none of whose sub-wefts still waits, is over. -/
def endFlight (w : Weft) : Weft :=
  match w.flight with
  | some (_, m) => if w.answered && svcHeld w &&& m == 0 then { w with flight := none, answered := false } else w
  | none => w

/-- Whether the batch of some lanes has been answered. -/
def svcAnswered (w : Weft) (lanes : Mask) : Bool :=
  w.owed &&& lanes != 0 ||
  match w.flight with
  | some (_, m) => w.answered && m &&& lanes != 0
  | none => false

/-- The results of an answered batch, kept for its lanes. -/
def keepResults (m : Mask) (res : Tab Nat Word64) (w : Weft) : Weft :=
  { w with answered := true, results := (lanesOf m).foldl (fun t l => tset t l (tgetD res l 0)) w.results }

/-- The lanes of an SVC that retires leave their batch. -/
def svcOver (lanes : Mask) (w : Weft) : Weft :=
  endFlight { w with owed := w.owed &&& ~~~lanes, flight := w.flight.map fun f => (f.1, f.2 &&& ~~~lanes) }

/-- The results of an answered SVC, and its acquire. -/
def svcRetire (x : Ctx) (lanes : Mask) : R Out := do
  let y := { x with scalar := !svcVector x.f, act := lanes }
  let vals := lanes16.map fun l => tgetD x.w.results l 0
  let s ← writeRes y true vals none id
  let s := updCur s x.c fun b => { b with hold := .none }
  Out.step (acquireNow y (updWeft s x.w.id (svcOver lanes)))

/-- The lanes of an SVC added to the open batch. -/
def joinBatch (w : Weft) (lanes : Mask) (no : List Word64) (arg : List Word64) : Weft :=
  let b := w.batch.getD ⟨0, [], []⟩
  let put (b : Batch) (l : Nat) : Batch :=
    { mask := b.mask ||| laneBit l, svcno := tset b.svcno l ((no.getD l 0).setWidth 32), arg := tset b.arg l (arg.getD l 0) }
  { w with batch := some ((lanesOf lanes).foldl put b) }

/-- SVC. -/
def svcBody (x : Ctx) : R Out :=
  match x.b.hold with
  | .svc lanes => if svcAnswered x.w lanes then svcRetire x lanes else .error (.park .svc)
  | _ => do
    let lanes := svcLanes x
    let y := { x with scalar := !svcVector x.f, act := lanes }
    let no ← rd y .a false
    let arg ← rd y .b true
    withRelease y 4 fun s =>
      if (x.w.batch.getD ⟨0, [], []⟩).mask &&& lanes != 0 then oops cIllegalOperand
      else
        let s := updWeft s x.w.id fun w => joinBatch w lanes no arg
        .ok ⟨updCur s x.c fun b => { b with hold := .svc lanes }, .park .svc, []⟩

def execSvc (f : Fields) (s : State) : Host.Outcome State Fault Refusal := onWeft .svc f .once svcBody s

/-! ### WAKE.svc (R284, R292, R411) -/

/-- The answer of a batch at its weft: its results are kept, and its sub-wefts become ready. -/
def answerBatch (t : Nat) (res : Tab Nat Word64) (w : Weft) : Weft :=
  match w.flight with
  | none => w
  | some (_, m) =>
    let go (b : Sub) : Sub :=
      match b.hold with
      | .svc l => if l &&& m != 0 ∧ b.park = some .svc then { b with park := none } else b
      | _ => b
    endFlight (wokeAt t (keepResults m res w) (w.subs.map go))

/-- Whether a weft has an unanswered batch in flight at an address: of the issuer's partition, where it has one. -/
def inFlight (part : Option Nat) (addr : Nat) (w : Weft) : Bool :=
  (part.isNone || w.key.part == part) && !w.answered && match w.flight with | some (a, _) => a == addr | none => false

/-- The offset of a weft's record in a context frame, from WOFF on (R409, R410). -/
def weftRecordAt (read : Nat → Nat → Nat) (num : Nat) : Nat → Nat → Option Nat
  | 0, _ => none
  | n + 1, off => if read off 2 = num then some off else weftRecordAt read num n (off + read (off + 8) 4)

/-- A number in a saved frame, 0 where the frame does not translate. -/
def frameNum (s : State) (v : Saved) (off n : Nat) : Nat :=
  match deviceNum s v.asid v.key.part (v.frame + off) n with | .ok k => k | .error _ => 0

/-- Where a weft's record stands in a saved frame. -/
def frameWeft (s : State) (v : Saved) (num : Nat) : Option Nat :=
  weftRecordAt (frameNum s v) num (frameNum s v 52 4) (frameNum s v 56 8)

/-- Bytes written into a saved frame; a frame that does not translate takes none. -/
def frameWrite (s : State) (v : Saved) (off : Nat) (bs : List Byte) : State :=
  match deviceWrite s v.asid v.key.part (v.frame + off) bs with | .ok t => t | .error _ => s

/-- The saved panel with a function applied to one of its wefts. -/
def updSaved (s : State) (k : PKey) (num : Nat) (f : Weft → Weft) : State :=
  let one (w : Weft) : Weft := if w.num = num then f w else w
  { s with saved := s.saved.map fun v => if v.key = k then { v with wefts := v.wefts.map one } else v }

/-- The answer of a batch whose weft is saved: bit 0 at offset 160 of its record. -/
def answerSaved (s : State) (v : Saved) (w : Weft) (res : Tab Nat Word64) : State :=
  let s := match frameWeft s v w.num with
    | some off => frameWrite s v (off + 160) (toBytes 4 (setField (frameNum s v (off + 160) 4) 0 0 1))
    | none => s
  updSaved s v.key w.num fun w => match w.flight with | some (_, m) => keepResults m res w | none => w

/-- The batch record read at the answer, with A set in its page; none while its area does not translate (R439). -/
def readBatch (s : State) (part : Option Nat) (addr : Nat) : Option (Tab Nat Word64 × State) :=
  match part.bind (getPart s) with
  | none => some ([], s)
  | some p =>
    match deviceRead s p.desc.asidLo part addr 256 with
    | .ok bs => some (batchResults bs, deviceTouch s p.desc.asidLo part addr 256)
    | .error _ => none

/-- The answer waits with its read of the record (R439). -/
def answerWaits (s : State) (part : Option Nat) : R Out :=
  match part with
  | some n => .ok ⟨noteArea s n ((getPart s n).elim 0 fun p => p.desc.svcbase), .wait, []⟩
  | none => .error .wait

/-- WAKE.svc. -/
def wakeSvcBody (x : Ctx) : R Out := do
  let addr := (← rd1 x .a true).toNat
  let part := x.w.key.part
  if addr % 256 ≠ 0 then .error (.fault cAlign addr 0)
  else
    match x.s.wefts.find? (inFlight part addr) with
    | some w =>
      if w.id ≠ x.c.w ∧ (w.stepping.isSome || w.stepped.isSome) then .error .wait
      else
        match readBatch x.s w.key.part addr with
        | none => answerWaits x.s w.key.part
        | some (res, s) => Out.step (predOut x (progress (updWeft s w.id (answerBatch s.tick res))) true)
    | none =>
      match x.s.saved.findSome? fun v => (v.wefts.find? (inFlight part addr)).map fun w => (v, w) with
      | some (v, w) =>
        match readBatch x.s w.key.part addr with
        | none => answerWaits x.s w.key.part
        | some (res, s) => Out.step (predOut x (answerSaved s v w res) true)
      | none => Out.step (predOut x x.s false)

def execWakeSvc (f : Fields) (s : State) : Host.Outcome State Fault Refusal := onWeft .wakeSvc f .once wakeSvcBody s

end Sys2Proof.Machine
end

