-- ==== Sys2Proof/Machine/System.lean ====
section
/-!
DEFINITION. Control registers, halting and waking, cached translations and synonyms, partitions, freezes and explicit
moves (R280, R281, R288, R289, R292, R293, R297 to R300, R302, R430).
-/
namespace Sys2Proof.Machine

/-! ### Control registers (R288, R289) -/

/-- FROZEN: bit p for a frozen partition p. -/
def frozenMask (s : State) : Nat := s.parts.foldl (fun n e => if e.2.frozen then n ||| 2 ^ e.1 else n) 0

/-- A field of the issuer's partition, 0 where it has none. -/
def partField (s : State) (w : Weft) (f : Part → Nat) : Nat :=
  match w.key.part.bind (getPart s) with
  | some p => f p
  | none => 0

/-- The value of a control register, SVCPOP apart. -/
def csrValue (s : State) (w : Weft) (n : Nat) : Nat :=
  match n with
  | 0x00 => w.ut.tvec.toNat | 0x01 => w.ut.epc.toNat | 0x02 => w.ut.cause.toNat | 0x03 => w.ut.tval.toNat
  | 0x20 => partField s w fun p => p.ktvec.toNat
  | 0x21 => w.kt.epc.toNat | 0x22 => w.kt.cause.toNat | 0x23 => w.kt.tval.toNat | 0x24 => w.kscratch.toNat
  | 0x25 => partField s w fun p => p.desc.svcbase
  | 0x27 => partField s w fun p => p.redcnt
  | 0x50 => s.htvec.toNat | 0x51 => w.ht.epc.toNat | 0x52 => w.ht.cause.toNat | 0x53 => w.ht.tval.toNat
  | 0x54 => frozenMask s
  | 0x55 => s.incarn.toNat
  | 0x70 => s.mtvec.toNat | 0x71 => w.mt.epc.toNat | 0x72 => w.mt.cause.toNat | 0x73 => w.mt.tval.toNat
  | _ => 0

/-- The oldest address of a service queue popped: 0 where the queue is empty or the weft has no partition. -/
def popSvc (s : State) (w : Weft) : Nat × State :=
  match w.key.part with
  | none => (0, s)
  | some pn =>
    let die := dieOf w.id.core
    match (getPart s pn).map fun p => svcQueue p die with
    | some (a :: t) => (a, updPart s pn fun p => { p with svcq := tset p.svcq die t })
    | _ => (0, s)

/-- A read of a control register. -/
def csrRead (s : State) (w : Weft) (n : Nat) : Nat × State := if n = 0x26 then popSvc s w else (csrValue s w n, s)

/-- A write of a control register under its Access: RO registers keep their value. -/
def csrWrite (s : State) (id : WId) (part : Option Nat) (n : Nat) (v : Word64) : State :=
  let set (f : Weft → Weft) : State := updWeft s id f
  match n with
  | 0x00 => set fun w => { w with ut := { w.ut with tvec := v } }
  | 0x01 => set fun w => { w with ut := { w.ut with epc := v } }
  | 0x20 => match part with | some p => updPart s p fun x => { x with ktvec := v } | none => s
  | 0x21 => set fun w => { w with kt := { w.kt with epc := v } }
  | 0x24 => set fun w => { w with kscratch := v }
  | 0x50 => { s with htvec := v }
  | 0x51 => set fun w => { w with ht := { w.ht with epc := v } }
  | 0x70 => { s with mtvec := v }
  | 0x71 => set fun w => { w with mt := { w.mt with epc := v } }
  | _ => s

/-- Whether a scalar register holds a value of a width: an even pair within the budget, or one register. -/
def pairOkAt (x : Ctx) (wide : Bool) (op : Operand) : Bool :=
  match op with
  | .s n => !wide || (n.val % 2 == 0 && decide (n.val + 1 < scalarBudget x.p x.w))
  | _ => true

/-- The register that A names, and its width; the checks of R288 for a number in a register. -/
def csrNumber (x : Ctx) : R (Nat × Bool) := do
  let n ← num1 x .a
  match csrInfo n with
  | none => oops cIllegalOperand
  | some (wide, level) =>
    if !pairOkAt x wide x.f.d || !pairOkAt x wide x.f.b then oops cIllegalOperand
    else if level > x.w.level then oops cPrivilege
    else .ok (n, wide)

/-- The old value of a control register written to D; the state after the read, and the old value. -/
def csrOld (x : Ctx) (n : Nat) (wide : Bool) : R (Nat × State) := do
  let (v, s) := csrRead x.s x.w n
  let t ← writeRes { x with s := s } wide (splat (BitVec.ofNat 64 v)) none id
  .ok (v, t)

/-- CSRR. -/
def csrrBody (x : Ctx) : R Out := do
  let (n, wide) ← csrNumber x
  let (_, s) ← csrOld x n wide
  Out.step s

def execCsrr (f : Fields) (s : State) : Host.Outcome State Fault Refusal := onWeft .csrr f .once csrrBody s

/-- CSRR of SVCPOP (R283, R289). -/
def execSvcpop (f : Fields) (s : State) : Host.Outcome State Fault Refusal :=
  onWeft .svcpop f .once (fun x => do
    let (_, wide) ← csrNumber x
    let (_, s) ← csrOld x 0x26 wide
    Out.step s) s

/-- CSRW: writes, sets or clears bits. -/
def csrwBody (x : Ctx) : R Out := do
  let (n, wide) ← csrNumber x
  let b ← rd1 x .b wide
  let (v, s) ← csrOld x n wide
  let old := BitVec.ofNat 64 v
  let new := match x.f.mod.toNat with
    | 8 => b
    | 9 => old ||| b
    | _ => old &&& ~~~b
  Out.step (csrWrite s x.w.id x.w.key.part n new)

def execCsrw (f : Fields) (s : State) : Host.Outcome State Fault Refusal := onWeft .csrw f .once csrwBody s

/-! ### HALT, WAKE (R280, R292, R293) -/

/-- The weft that the handle in A names, or none (R280). -/
def handleWeft (x : Ctx) : R (Option Weft) := do
  let h := (← rd1 x .a true).toNat
  if field h 63 48 ≠ 0 then oops cIllegalOperand
  else if x.w.level < 2 ∧ field h 47 42 ≠ x.w.key.part.getD 0 then oops cPermission
  else .ok (x.s.wefts.find? fun w => handleOf w == h)

/-- The weft that a handle names, once a DSTEP that acts at it has ended (R281). The unit of a DSTEP names its own weft without a
wait. -/
def idleWeft (x : Ctx) : R (Option Weft) := do
  match ← handleWeft x with
  | none => .ok none
  | some w => if w.id ≠ x.c.w ∧ (w.stepping.isSome || w.stepped.isSome) then .error .wait else .ok (some w)

/-- HALT. -/
def haltBody (x : Ctx) : R Out := do
  match ← idleWeft x with
  | none => Out.step (predOut x x.s false)
  | some w => Out.step (predOut x (if w.halted then x.s else haltWeft x.s w.id) (!w.halted))

def execHalt (f : Fields) (s : State) : Host.Outcome State Fault Refusal := onWeft .halt f .once haltBody s

/-- WAKE: the halt alone is cleared. -/
def wakeBody (x : Ctx) : R Out := do
  match ← idleWeft x with
  | none => Out.step (predOut x x.s false)
  | some w => Out.step (predOut x (progress (wakeLines (updWeft x.s w.id fun w => { w with halted := false }))) w.halted)

def execWake (f : Fields) (s : State) : Host.Outcome State Fault Refusal := onWeft .wake f .once wakeBody s

/-! ### TLBI, RFLUSH (R297) -/

/-- Whether an ASID is one of the issuer's partition (R298). An issuer of no partition is not limited. -/
def asidOwn (x : Ctx) (asid : Nat) : Bool :=
  match x.w.key.part.bind (getPart x.s) with
  | some p => decide (p.desc.asidLo ≤ asid) && decide (asid ≤ p.desc.asidHi)
  | none => true

/-- Whether an access that an entry translated has not been performed at its home yet. -/
def entryBusy (s : State) (t : TlbEnt) : Bool :=
  let frame := paIn t.leaf t.bits (t.vpage * 4096) / 4096
  (s.moves.any fun m => m.oldF == frame && !m.held.isEmpty) ||
  (s.postedW.any fun p => p.line / 32 == frame) ||
  s.outReqs.any fun r => r.va / 4096 == t.vpage && match getWeft s r.w with
    | some w => match getPanel s w.key with | some p => p.asid == t.asid | none => false
    | none => false

/-- Cached translations dropped, once their accesses have been performed. -/
def tlbiOut (x : Ctx) (drop : TlbEnt → Bool) : R Out :=
  if x.s.tlb.any fun t => drop t && entryBusy x.s t then .error .wait else Out.step (dropTlb x.s drop)

/-- The ASID in B; one outside the partition's range is refused at an address. -/
def asidArg (x : Ctx) (va : Nat) : R Nat := do
  let n ← num1 x .b
  if n > 65535 ∨ !asidOwn x n then .error (.fault cViolation va 0) else .ok n

/-- The partition that an ASID belongs to: the issuer's, or the one whose range holds it (R299). -/
def asidPart (x : Ctx) (asid : Nat) : Nat :=
  match x.w.key.part, x.s.parts.find? fun e => decide (e.2.desc.asidLo ≤ asid) && decide (asid ≤ e.2.desc.asidHi) with
  | some p, _ => p
  | none, some e => e.1
  | none, none => 64

/-- TLBI.page: the entry covering the address, of any page size. A G = 1 leaf is dropped for every ASID of the partition that the
ASID belongs to. -/
def tlbiPageBody (x : Ctx) : R Out := do
  let va := (← rd1 x .a true).toNat
  let asid ← asidArg x va
  tlbiOut x fun t =>
    t.vpage * 4096 / 2 ^ t.bits == va / 2 ^ t.bits && (t.asid == asid || (leafG t.leaf && t.part == asidPart x asid))

def execTlbiPage (f : Fields) (s : State) : Host.Outcome State Fault Refusal := onWeft .tlbiPage f .once tlbiPageBody s

/-- TLBI.asid: entries of the ASID, those of G = 1 leaves apart. -/
def execTlbiAsid (f : Fields) (s : State) : Host.Outcome State Fault Refusal :=
  onWeft .tlbiAsid f .once (fun x => do
    let asid ← asidArg x noTval
    tlbiOut x fun t => t.asid == asid && !leafG t.leaf) s

/-- TLBI.part. -/
def execTlbiPart (f : Fields) (s : State) : Host.Outcome State Fault Refusal :=
  onWeft .tlbiPart f .once (fun x => tlbiOut x fun t => t.part == partNum x.w.key) s

/-- Synonym entries of the remap filters dropped, once the accesses that they translated have been performed. The synonym tables
of the cores keep theirs. -/
def rflushOut (x : Ctx) (drop : Synonym → Bool) : R Out :=
  let goes (y : Synonym) : Bool := (match y.place with | .front _ => true | .core _ => false) && drop y
  let busy (y : Synonym) : Bool :=
    x.s.tlb.any fun t => t.vpage == y.vpage && tagOf t.asid t.part t.leaf == y.asid && entryBusy x.s t
  if x.s.synonyms.any fun y => goes y && busy y then .error .wait
  else Out.step { x.s with synonyms := x.s.synonyms.filter fun y => !goes y }

/-- The size of the page that holds an address, in bits: as a front holds it or the tables give it. -/
def pageBits (s : State) (asid : Nat) (part va : Nat) : Nat :=
  match s.tlb.find? fun t => t.vpage == va / 4096 && tagOf t.asid t.part t.leaf == tagOf asid part t.leaf with
  | some t => t.bits
  | none => match walk s asid none va with | .leaf _ _ bits => bits | _ => 12

/-- RFLUSH. -/
def rflushBody (x : Ctx) : R Out := do
  let va := (← rd1 x .a true).toNat
  let asid ← asidArg x va
  let part := asidPart x asid
  let bits := pageBits x.s asid part va
  let lies (tag page : Nat) : Bool := (tag == asid || tag == 65536 + part) && page * 4096 / 2 ^ bits == va / 2 ^ bits
  rflushOut x fun y => lies y.asid y.vpage || lies y.leadAsid y.leadPage

def execRflush (f : Fields) (s : State) : Host.Outcome State Fault Refusal := onWeft .rflush f .once rflushBody s

def execRflushAsid (f : Fields) (s : State) : Host.Outcome State Fault Refusal :=
  onWeft .rflushAsid f .once (fun x => do
    let asid ← asidArg x noTval
    rflushOut x fun y => y.asid == asid || y.leadAsid == asid) s

/-! ### PARTCFG (R298, R299, R430) -/

/-- The partition descriptor of Table 5. -/
def partDescOf (n : Nat) : PartDesc :=
  { cores := field n 1023 768, hbmch := field n 767 512, supc := field n 511 448, lpch := field n 447 432,
    thresh := field n 431 416, asidHi := field n 415 400, asidLo := field n 399 384, nep := field n 383 375,
    ord := bitOf n 371, uncen := bitOf n 370, cxl := bitOf n 369, nready := field n 368 362, errq := field n 319 256,
    mbox := field n 255 192, svcbase := field n 191 128, ovfl := field n 127 64, ovfcap := field n 63 32 }

/-- Whether a descriptor is well-formed. -/
def partDescOk (n : Nat) (d : PartDesc) : Bool :=
  field n 374 372 == 0 && field n 361 320 == 0 && field n 31 0 == 0 && d.cores != 0 && decide (d.asidLo ≤ d.asidHi) &&
  decide (d.nready ≤ 64) && decide (d.nep ≤ 256) &&
  [d.errq, d.mbox, d.svcbase, d.ovfl].all fun a => a % 4096 == 0

/-- Whether two descriptors claim a common core, channel, supervisor core or ASID. -/
def overlaps (a b : PartDesc) : Bool :=
  a.cores &&& b.cores != 0 || a.supc &&& b.supc != 0 || a.hbmch &&& b.hbmch != 0 || a.lpch &&& b.lpch != 0 ||
  (decide (a.asidLo ≤ b.asidHi) && decide (b.asidLo ≤ a.asidHi))

/-- Whether another partition holds what a descriptor claims. -/
def partHeld (s : State) (p : Nat) (d : PartDesc) : Bool := s.parts.any fun e => e.1 != p && overlaps e.2.desc d

/-- A partition as PARTCFG.new creates it. -/
def newPart (d : PartDesc) : Part :=
  { desc := d, frozen := false, ktvec := 0, redcnt := 0, queues := [], comps := [], deqs := [], work := [],
    overflow := [], ovfHeld := none, heldStores := [], doms := [], eps := [], svcq := [], areaWork := [],
    areaNoted := [], pageNoted := [] }

/-- A measurement slot extended (R430). -/
def extendSlot (s : State) (slot : Nat) (bs : List Byte) : State :=
  let old := tgetD s.sec.slots slot (zeros 64)
  let set (c : SecProc) : SecProc := { c with slots := tset c.slots slot (Config.shake256 (old ++ bs)) }
  { s with sec := set s.sec }

/-- The partition number in B (0 to 63). -/
def partArg (x : Ctx) : R Nat := do
  let n ← num1 x .b
  if n > 63 then oops cIllegalOperand else .ok n

/-- A descriptor read and checked. -/
def partDescArg (x : Ctx) : R (Nat × PartDesc × State) := do
  let (n, s) ← readDesc x (← rd1 x .a true).toNat 128 128
  if partDescOk n (partDescOf n) then .ok (n, partDescOf n, s) else oops cEngineDesc

/-- A status written to D. -/
def statusOut (x : Ctx) (s : State) (n : Nat) : R Out := do
  let t ← writeRes { x with s := s, w := (getWeft s x.w.id).getD x.w } false (splat (BitVec.ofNat 64 n)) none id
  Out.step t

/-- PARTCFG.new. -/
def partcfgNewBody (x : Ctx) : R Out := do
  let p ← partArg x
  let (n, d, s) ← partDescArg x
  if (getPart s p).isSome then statusOut x s 2
  else if partHeld s p d then statusOut x s 1
  else statusOut x (extendSlot { s with parts := tset s.parts p (newPart d) } (3 + p) (toBytes 128 n)) 0

def execPartcfgNew (f : Fields) (s : State) : Host.Outcome State Fault Refusal :=
  onWeft .partcfgNew f .once partcfgNewBody s

/-- The cores of a descriptor as agent numbers. -/
def coreOwned (d : PartDesc) (core : Nat) : Bool := if isSup core then d.supc.testBit (core - 256) else d.cores.testBit core

/-- The panels of a partition. -/
def panelsOf (s : State) (p : Nat) : List Panel := s.panels.filter fun q => q.key.part == some p

/-- PARTCFG.mod. -/
def partcfgModBody (x : Ctx) : R Out := do
  let p ← partArg x
  let (_, d, s) ← partDescArg x
  match getPart s p with
  | none => statusOut x s 2
  | some _ =>
    if partHeld s p d then statusOut x s 1
    else if (panelsOf s p).any fun q => q.cores.any fun c => !coreOwned d c then statusOut x s 3
    else statusOut x (progress (updPart s p fun q => { q with desc := d })) 0

def execPartcfgMod (f : Fields) (s : State) : Host.Outcome State Fault Refusal :=
  onWeft .partcfgMod f .once partcfgModBody s

/-- PARTCFG.del: the partition's queues, endpoints and error queue go with it, and its measurement is reset. -/
def partcfgDelBody (x : Ctx) : R Out := do
  let p ← partArg x
  match getPart x.s p with
  | none => statusOut x x.s 2
  | some _ =>
    if !(panelsOf x.s p).isEmpty then statusOut x x.s 3
    else
      let clear (c : SecProc) : SecProc := { c with slots := tdel c.slots (3 + p) }
      let s := { x.s with
        parts := tdel x.s.parts p
        saved := x.s.saved.filter fun v => v.key.part != some p
        sec := clear x.s.sec }
      statusOut x s 0

def execPartcfgDel (f : Fields) (s : State) : Host.Outcome State Fault Refusal :=
  onWeft .partcfgDel f .once partcfgDelBody s

/-! ### FREEZE, THAW (R300) -/

/-- FREEZE. -/
def freezeBody (x : Ctx) : R Out := do
  let p ← num1 x .a
  match getPart x.s p with
  | none => Out.step (predOut x x.s false)
  | some q => Out.step (predOut x (if q.frozen then x.s else freezePart x.s p) (!q.frozen))

def execFreeze (f : Fields) (s : State) : Host.Outcome State Fault Refusal := onWeft .freeze f .once freezeBody s

/-- THAW: wefts, commands and queue intake go on; held stores and decrements are placed by their own events. -/
def thawBody (x : Ctx) : R Out := do
  let p ← num1 x .a
  match getPart x.s p with
  | none => Out.step (predOut x x.s false)
  | some q => Out.step (predOut x (wakePlace (wakeLines (updPart x.s p fun r => { r with frozen := false })) p) q.frozen)

def execThaw (f : Fields) (s : State) : Host.Outcome State Fault Refusal := onWeft .thaw f .once thawBody s

/-! ### MIGR (R302) -/

/-- The explicit requests of a MIGR: their numbers, and the state. -/
def askMoves (s : State) (part tier : Nat) (ps : List PageOf) : List Nat × State :=
  ps.foldl (fun acc p => (acc.1 ++ [acc.2.nextId], askMove acc.2 part p tier 1 false)) ([], s)

/-- Whether a move that was asked for has not finished. -/
def movePending (s : State) (ids : List Nat) : Bool :=
  (s.moveReqs.any fun r => ids.contains r.id) || s.moves.any fun m => ids.contains m.id

/-- MIGR. -/
def migrBody (x : Ctx) : R Out :=
  match x.b.hold with
  | .migrWait ids => if movePending x.s ids then .error .wait else Out.step x.s
  | _ => do
    let ps ← pagesFor x true .none
    let tier := field x.f.mod.toNat 1 0
    match moveForbidden x.s ps tier with
    | some p => migrationFault p
    | none =>
      let (ids, s) := askMoves x.s (movePart x) tier (outsideTier ps tier)
      if bitOf x.f.mod.toNat 2 && !ids.isEmpty then .ok ⟨updCur s x.c fun b => { b with hold := .migrWait ids }, .wait, []⟩
      else Out.step s

def execMigr (f : Fields) (s : State) : Host.Outcome State Fault Refusal := onWeft .migr f .once migrBody s

end Sys2Proof.Machine
end

