-- ==== Sys2Proof/Machine/Panels.lean ====
section
/-!
DEFINITION. Starting a panel (R48 to R53, R61, R95, R102, R155, R401, R424, R425, R438) and the request of a
pre-emption (R71).
-/
namespace Sys2Proof.Machine

/-! ### The task metadata record (R155) -/

/-- The metadata record, with whether every must-be-0 bit is 0 and VERSION is 1. -/
def metaOf (n : Nat) : Meta × Bool :=
  let e (k : Nat) : Nat := field n (512 + 32 * k + 31) (512 + 32 * k)
  let used := field n 140 136
  ({ entry := BitVec.ofNat 64 (field n 383 320), pbase := BitVec.ofNat 64 (field n 319 256), pwords := field n 255 224,
     scratch := field n 223 192, acc := field n 135 128,
     scrums := (List.range used).map fun k => (field (e k) 9 0, field (e k) 13 10),
     clines := field n 127 112, plines := field n 111 96, csregs := field n 95 80, psregs := field n 79 64,
     shape := field n 63 32, svcp := bitOf n 17, reform := bitOf n 16 },
   field n 511 384 == 0 && field n 191 141 == 0 && field n 31 18 == 0 && field n 15 0 == 1 && decide (used ≤ 16) &&
   (List.range 16).all fun k => if k < used then field (e k) 31 14 == 0 else e k == 0)

/-- The producers of a shape word. -/
def shapeProd (m : Meta) : Nat := field m.shape 22 12

/-- The cores of a shape word. -/
def shapeCores (m : Meta) : Nat := 2 ^ field m.shape 11 10

/-- The limits of the metadata's fields (R56, R153, R155, R283). -/
def metaOk (m : Meta) : Bool :=
  let w := shapeWefts m
  let even (n : Nat) : Bool := n % 2 == 0 && decide (n ≤ 1024)
  field m.shape 31 23 == 0 && field m.shape 11 10 != 3 && decide (shapeProd m ≤ w) &&
  even m.csregs && even m.psregs && decide (m.clines ≤ 512) && decide (m.plines ≤ 512) &&
  decide (4096 ≤ m.scratch) && decide (m.scratch ≤ 1048576) && decide (m.acc ≤ 64) &&
  (if m.pwords = 0 then m.pbase == 0 else m.pbase.toNat % 64 == 0 && decide (m.pwords ≤ 2 ^ 24)) &&
  m.scrums.all (fun e => decide (2 ≤ e.2) && decide (e.2 ≤ 8) && decide (shapeProd m ≤ e.1) && decide (e.1 + e.2 ≤ w)) &&
  (!m.svcp || shapeCores m == 1)

/-! ### Core sets (R48, R53, R438) -/

/-- The core set of n cores from a lowest core, in either arrangement; none where Table 1 of R48 has no such set. -/
def coreSet (n core : Nat) (straddle : Bool) : Option (List Nat) :=
  let low (c : Nat) : Bool := c / 64 == 0 || c / 64 == 2
  if isSup core then (if n = 1 ∧ !straddle ∧ core < 320 then some [core] else none)
  else if !straddle then
    match n with
    | 1 => some [core]
    | 2 => if core % 2 = 0 then some [core, core + 1] else none
    | 4 => if core % 4 = 0 then some [core, core + 1, core + 2, core + 3] else none
    | _ => none
  else
    match n with
    | 2 => if low core then some [core, core + 64] else none
    | 4 => if low core ∧ core % 2 = 0 then some [core, core + 1, core + 64, core + 65] else none
    | _ => none

/-- Whether a core set suits the scrum table: no entry has members on both cores of a straddling pair (R438). The start of a
four-core panel is not refused for its scrums (log entry 73). -/
def scrumsFit (p : Panel) : Bool :=
  !(p.cores.length == 2 && straddles p) ||
  p.m.scrums.all fun e => e.1 / perCore p == (e.1 + e.2 - 1) / perCore p

/-! ### Whether a panel fits (R52, R95, R102, R424) -/

/-- The slots of a panel on a core: quarter, line budget, scalar budget. A reserved slot carries the larger budgets, and
a slot counts until its panel ends, also after its weft has retired (R52, log entry 72). -/
def slotItems (p : Panel) (core : Nat) : List (Nat × Nat × Nat) :=
  (slotNums p core).map fun n =>
    let q := quarterOfNum p core n
    if n < shapeProd p.m then (q, p.m.plines, p.m.psregs)
    else if n < shapeWefts p.m then (q, p.m.clines, p.m.csregs)
    else (q, max p.m.plines p.m.clines, max p.m.psregs p.m.csregs)

/-- A sum over a list. -/
def sumOf {α : Type} (f : α → Nat) (l : List α) : Nat := l.foldl (fun n x => n + f x) 0

/-- The panels resident on a core. -/
def panelsOn (s : State) (core : Nat) : List Panel := s.panels.filter fun p => p.cores.contains core

/-- The bytes of a core's scratchpad. -/
def padCap (core : Nat) : Nat := if isSup core then 65536 else 1048576

/-- Whether a panel fits on one of its cores beside the panels resident there. -/
def fitsOn (s : State) (p : Panel) (core : Nat) : Bool :=
  let ps := p :: panelsOn s core
  let items := ps.flatMap fun q => slotItems q core
  let quarterOk (k : Nat) : Bool :=
    let l := items.filter fun e => e.1 == k
    decide (l.length ≤ 64) && decide (sumOf (fun e => e.2.1) l ≤ 2048)
  decide (items.length ≤ if isSup core then 4 else 256) && decide (sumOf (fun e => e.2.1) items ≤ 8192) &&
  (List.range 4).all quarterOk && decide (sumOf (fun e => e.2.2) items ≤ 65536) &&
  decide (sumOf padBytes ps ≤ padCap core) && decide (sumOf (fun q => q.m.acc) ps ≤ 64)

/-! ### Scratchpad placement (R95) -/

/-- The allocations on a core: panel, base and size. -/
def padUses (s : State) (core : Nat) : List (PKey × Nat × Nat) :=
  (panelsOn s core).map fun q => (q.key, (panelCore q core).base, padBytes q)

/-- The lowest aligned free base for an allocation. -/
def freeBase (us : List (PKey × Nat × Nat)) (cap sz : Nat) : Option Nat :=
  ((List.range (cap / sz)).map fun i => i * sz).find? fun b => us.all fun u => decide (b + sz ≤ u.2.1) || decide (u.2.1 + u.2.2 ≤ b)

/-- An allocation inserted by falling size. -/
def insertPad (u : PKey × Nat) : List (PKey × Nat) → List (PKey × Nat)
  | [] => [u]
  | h :: t => if u.2 > h.2 then u :: h :: t else h :: insertPad u t

/-- Allocations packed one after another from 0. -/
def packPads : Nat → List (PKey × Nat) → List (PKey × Nat)
  | _, [] => []
  | b, (k, n) :: t => (k, b) :: packPads (b + n) t

/-- A panel's allocation moved to another base: its wefts halt at a boundary and go on. -/
def movePad (s : State) (core : Nat) (e : PKey × Nat) : State :=
  match getPanel s e.1 with
  | none => s
  | some p =>
    if (panelCore p core).base = e.2 then s
    else
      updPanel (forWefts s ((weftsOf s e.1).map (·.id)) quiesceWeft) e.1 fun q =>
        updPanelCore q core fun c => { c with base := e.2 }

/-- The base of a new allocation of a panel on a core; the resident allocations move where no aligned base is free. -/
def placePad (s : State) (k : PKey) (core sz : Nat) : Nat × State :=
  let us := padUses s core
  match freeBase us (padCap core) sz with
  | some b => (b, s)
  | none =>
    let l := us.foldl (fun l u => insertPad (u.1, u.2.2) l) []
    let packed := packPads 0 (insertPad (k, sz) l)
    let s := packed.foldl (fun s e => if e.1 = k then s else movePad s core e) s
    (((packed.find? fun e => e.1 == k).map (·.2)).getD 0, s)

/-! ### PANEL_START (R49, R50, R61, R401, R425) -/

/-- The code of a level. -/
def levelCode : Level → Nat
  | .user => 0 | .kernel => 1 | .hyper => 2 | .monitor => 3

/-- The level at which the wefts of a panel on a core run, or none where it may not start there. -/
def startLevel (s : State) (k : PKey) (m : Meta) (core : Nat) : Option Nat :=
  if isSup core then
    if m.svcp then none
    else
      match k.part.bind (getPart s) with
      | some p => if p.desc.supc.testBit (core - 256) then some 1 else none
      | none =>
        if k.part.isSome || s.parts.any (fun e => e.2.desc.supc.testBit (core - 256)) then none
        else some (if core = 256 then 3 else 2)
  else if k.part.isNone then none
  else some (if m.svcp then 1 else 0)

/-- The level of one weft: of supervisor core 0's panel of no partition, weft 0 alone is the monitor. -/
def weftLevel (p : Panel) (num : Nat) : Nat := if p.level = 3 ∧ num ≠ 0 then 2 else p.level

/-- Whether the partition owns a core set and an ASID. -/
def ownsSet (s : State) (k : PKey) (cores : List Nat) (asid : Nat) : Bool :=
  match k.part with
  | none => true
  | some p =>
    match getPart s p with
    | some q => cores.all (coreOwned q.desc) && decide (q.desc.asidLo ≤ asid) && decide (asid ≤ q.desc.asidHi)
    | none => false

/-- The further limits of a supervisor core's panel (R424). -/
def supMetaOk (m : Meta) : Bool := decide (shapeWefts m ≤ 4) && shapeCores m == 1 && decide (m.scratch ≤ 65536) && m.acc == 0

/-- The power level of a die. -/
def powerOf (s : State) (die : Nat) : Nat := tgetD s.power die 0

/-- Whether a panel may be placed on its cores now: sets, limits, power and room. -/
def placeable (s : State) (p : Panel) : Bool :=
  scrumsFit p && p.cores.all (fun c => fitsOn s p c && decide (powerOf s (dieOf c) < 4) &&
    (!isSup c || supMetaOk p.m))

/-- The presence of a core's operand-buffer units at a panel's start: only a unit that an accepted command has still to write is
absent (R256 item 2). -/
def presentUnits (c : CoreSt) : CoreSt := { c with obAbsent := c.obAbsent.filter fun e => c.cmds.any fun x => x.id == e.2 }

/-- A panel added to the state, its scratchpads placed and its cores' units present. -/
def addPanel (s : State) (p : Panel) : State :=
  let (s, p) := p.cores.foldl (fun (acc : State × Panel) c =>
    let (b, s) := placePad acc.1 p.key c (padBytes p)
    (s, updPanelCore acc.2 c fun x => { x with base := b })) (s, p)
  p.cores.foldl (fun s c => updCore s c presentUnits) { s with panels := s.panels ++ [p] }

/-- A weft put into a slot of its panel: the lowest free resident slot of the core. It stands on the bench, from which a free
court slot takes it (R65). Its age counts from this cycle, at a launch and at a restore (log entry 62). -/
def placeWeft (s : State) (p : Panel) (core num : Nat) (w : Weft) : State :=
  match freeResident s core with
  | none => s
  | some slot =>
    let q := quarterOfNum p core num
    let c := (getCore s core).cycle
    let w := { w with
      id := ⟨core, slot⟩, quarter := q, age := c, onCourt := false, courtSince := s.tick,
      benchSince := s.tick, lastIssue := s.tick, skipped := 0, stall := c, plHeld := decide (powerOf s (dieOf core) = 3 ∧ core < 256) }
    progress { s with wefts := s.wefts ++ [w] }

/-- The wefts of a panel's start, in order. -/
def launchAll (s : State) (p : Panel) : State :=
  (List.range (shapeWefts p.m)).foldl (fun s n =>
    let core := nth p.cores (n / perCore p) 0
    let role := if n < shapeProd p.m then 0 else 1
    let w := launchWeft ⟨core, 0⟩ 0 p.key n role (weftLevel p n) (if isSup core then 1 else 0xFFFF) p.m.entry
    placeWeft s p core n { w with prio := p.prio }) s

/-- Whether the weft that starts a panel may start one of its metadata: only a kernel-level weft of the partition starts a kernel
service panel (R283). -/
def mayStart (s : State) (r : StartArgs) (m : Meta) : Bool :=
  !m.svcp || match r.starter.bind (getWeft s) with
    | some w => w.level == 1 && w.key.part == r.key.part
    | none => false

/-- The panel that a start asks for, where its record and its place are legal. -/
def startPanel (s : State) (r : StartArgs) : Option Panel :=
  let asid := r.asid.toNat
  match deviceNum s asid r.key.part (r.record.toNat + 48) 8, deviceNum s asid r.key.part (r.record.toNat + 28) 4 with
  | .error _, _ | _, .error _ => none
  | .ok va, .ok flags =>
    match deviceNum s asid r.key.part va 128 with
    | .error _ => none
    | .ok n =>
      let (m, clean) := metaOf n
      if va % 128 ≠ 0 ∨ !clean ∨ !metaOk m ∨ !mayStart s r m then none
      else
        match coreSet (shapeCores m) r.core r.straddle, startLevel s r.key m r.core with
        | some cores, some level =>
          let p : Panel := {
            key := r.key, asid := asid, record := r.record, metaVa := BitVec.ofNat 64 va, m := m, level := level,
            cores := cores, prio := field flags 6 4, parts := cores.map fun c => ⟨c, 0, [], [], [], []⟩, barriers := [], cqs := [],
            chans := [], broken := [], latches := [], debug := [], stopped := false, saveVa := none }
          let known := (getPanel s r.key).isSome || s.saved.any fun v => v.key == r.key
          if level = levelCode r.level ∧ !known ∧ ownsSet s r.key cores asid ∧ placeable s p then some p else none
        | _, _ => none

/-- The pages of a start's task record and metadata block have been read (R353). -/
def startTouch (s : State) (r : StartArgs) (p : Panel) : State :=
  let read (s : State) (va n : Nat) : State := deviceTouch s p.asid r.key.part va n
  read (read s (r.record.toNat + 28) 28) p.metaVa.toNat 128

/-- PANEL_START: the panel starts where it fits; a start that is refused changes nothing. No software runs before the security
processor has released the supervisor (R436). -/
def execPanelStart (r : StartArgs) (s : State) : Host.Outcome State Fault Refusal :=
  match startPanel s r with
  | none => .next s
  | some p => if s.started then .next (launchAll (addPanel (startTouch s r p) p) p) else .next s

/-- PREEMPTION_REQUEST: every weft of the panel halts at an instruction boundary, and its engine commands stop at their
chunk boundaries, until a save frees the cores or refuses (R71, R290). -/
def execPreemptionRequest (k : PKey) (s : State) : Host.Outcome State Fault Refusal := .next (stopPanel s k)

end Sys2Proof.Machine
end

