-- ==== Sys2Proof/Machine/Context.lean ====
section
/-!
DEFINITION. Context frames (R71, R72, R87, R290, R291, R407 to R411): what a frame holds, saves by CTXSV and by
TRANSLATION faults, restores, and the arrival of symbols for resident and saved panels.
-/
namespace Sys2Proof.Machine

/-! ### The frame's bytes (R87, R409, R410) -/

/-- Bytes padded to 64. -/
def pad64 (l : List Byte) : List Byte := padTo 64 l

/-- 32-bit words in byte order. -/
def wordBytes (l : List Word32) : List Byte := l.flatMap fun v => toBytes 4 v.toNat

/-- The component lines of a symbolic value: the component's code and the line. -/
def symLines (v : SymVal) : List (Nat × List Word32) :=
  let one (k : Nat) (c : Comp) (two : Bool) : List (Nat × List Word32) :=
    match c with
    | .uni _ => []
    | .per xs => (k, full16 (lows xs)) :: if two then [(k, full16 (highs xs))] else []
  one 0 v.scale false ++ one 1 v.offset false ++
    (List.range v.steps.length).flatMap fun i => match v.steps[i]? with | some t => one (2 + i) t.x (v.kind == 3) | none => []

/-- A saved S value: its header of Table 4 of R87 and its component lines. -/
def symBytes (v : SymVal) : List Byte :=
  let uni (c : Comp) : Nat := match c with | .uni x => if v.kind = 0 then x.toNat % 2 ^ 32 else x.toNat | .per _ => 0
  let ls := symLines v
  let desc (i : Nat) : Nat := match ls[i]? with | some e => 8 + e.1 | none => 0
  let step (t : SymStep) : List Byte :=
    toBytes 1 t.op ++ toBytes 1 (t.rnd % 8 + if t.ftz then 8 else 0) ++
      toBytes 8 (match t.x with | .uni x => if v.kind = 2 then x.toNat % 2 ^ 32 else x.toNat | .per _ => 0)
  toBytes 1 v.slot ++ toBytes 1 v.kind ++ toBytes 1 v.steps.length ++ toBytes 1 (desc 0 + 16 * desc 1) ++ zeros 4 ++
    toBytes 8 (uni v.scale) ++ toBytes 8 (uni v.offset) ++
    (v.steps.flatMap step ++ zeros (40 - 10 * v.steps.length)) ++ (ls.flatMap fun e => wordBytes e.2)

/-- The content of every vector register in ascending order. -/
def vregList (w : Weft) : List VReg := (List.range 256).map fun n => tgetD w.vregs n (.val .u [])

/-- The shape code of R85. -/
def shapeCode : VReg → Nat
  | .val .u _ => 0 | .val .a _ => 1 | .val .g _ => 2 | _ => 3

/-- The vector registers under R87. -/
def vregBytes (w : Weft) : List Byte :=
  let rs := vregList w
  let tags := rs.foldr (fun r n => 4 * n + shapeCode r) 0
  let u (r : VReg) : List Byte := match r with | .val .u xs => wordBytes [lane xs 0] | _ => []
  let a (r : VReg) : List Byte := match r with | .val .a xs => wordBytes [lane xs 0, lane xs 1 - lane xs 0] | _ => []
  let g (r : VReg) : List Byte := match r with | .val .g xs => wordBytes (full16 xs) | _ => []
  let sy (r : VReg) : List Byte := match r with | .sym v => symBytes v | _ => []
  toBytes 64 tags ++ pad64 (rs.flatMap u) ++ pad64 (rs.flatMap a) ++ rs.flatMap g ++ rs.flatMap sy

/-- The code of a park reason (R410). -/
def parkCode : Option Park → Nat
  | none => 0 | some .queue => 1 | some .task => 2 | some .absent => 3 | some .owner => 4 | some .symbol => 5
  | some .barrier => 6 | some .scrum => 7 | some .join => 8 | some .xlate => 9 | some .window => 10 | some .svc => 11
  | some .late => 12

/-- A trap's registers in a weft record: EPC, CAUSE with 4 bytes of 0, TVAL. -/
def trapBytes (t : TrapRegs) : List Byte := toBytes 8 t.epc.toNat ++ toBytes 8 t.cause.toNat ++ toBytes 8 t.tval.toNat

/-- The flags at offset 6 of a weft record. -/
def weftFlags (w : Weft) : Nat :=
  w.halted.toNat + 2 * (uiAct w).toNat + 4 * ((List.range 4).foldl (fun n l => if trapActive w l then n + 2 ^ l else n) 0) +
    64 * w.gangHeld.toNat

/-- One weft record (R410). -/
def weftBytes (p : Panel) (w : Weft) : List Byte :=
  let sub (b : Sub) : List Byte := toBytes 8 b.pc.toNat ++ toBytes 2 b.mask.toNat ++ toBytes 1 (parkCode b.park) ++ zeros 5
  let div (d : Division) : List Byte := toBytes 8 (match d.point with | some x => x.toNat | none => 0) ++ toBytes 2 d.mask.toNat ++ zeros 6
  let sym (i : Nat) : List Byte :=
    match tget w.syms i with
    | some y => toBytes 1 y.state ++ toBytes 1 y.kind ++ zeros 6 ++ toBytes 8 (y.value.getD 0 0).toNat
    | none => zeros 16
  let bind (i : Nat) : List Byte :=
    match tget w.binds i with
    | some b => toBytes 8 (2 ^ 31 + b.kind * 2 ^ 28 + (if b.seen then 2 ^ 26 else 0) + b.obj % 256)
    | none => zeros 8
  let body :=
    pad64 (w.subs.flatMap sub) ++ pad64 (w.divs.flatMap div) ++
    pad64 ((w.preds.flatMap fun m => toBytes 2 m.toNat) ++ toBytes 2 0xFFFF) ++
    wordBytes (full16 w.latX) ++ wordBytes (full16 w.latY) ++ wordBytes (full16 w.shX) ++ wordBytes (full16 w.shY) ++
    ((List.range 8).flatMap fun n => wordBytes (full16 (tgetD w.oregs n []))) ++
    pad64 ((List.range (scalarBudget p w)).flatMap fun n => toBytes 4 (tgetD w.sregs n 0).toNat) ++
    vregBytes w ++ (lanes16.flatMap sym) ++ ((List.range 32).flatMap bind) ++
    lanes16.flatMap fun i => toBytes 16 (tgetD w.swatches i 0).toNat
  toBytes 2 w.num ++ toBytes 1 w.id.slot ++ toBytes 1 w.quarter ++ toBytes 1 w.level ++ toBytes 1 w.subs.length ++
    toBytes 2 (weftFlags w) ++ toBytes 4 (256 + body.length) ++ toBytes 4 w.divs.length ++
    toBytes 4 w.ctl.toNat ++ toBytes 4 w.fpst.toNat ++ toBytes 4 w.scrum.toNat ++ toBytes 4 w.rstat.toNat ++
    toBytes 8 w.rlo.toNat ++ toBytes 8 w.rhi.toNat ++ toBytes 8 w.task.toNat ++ toBytes 4 w.index.toNat ++
    toBytes 4 (symstOf w).toNat ++ toBytes 8 w.uivec.toNat ++ toBytes 4 w.uimask.toNat ++ toBytes 4 w.uistat.toNat ++
    toBytes 8 w.uiret.toNat ++ trapBytes w.ut ++ toBytes 8 w.ut.tvec.toNat ++ trapBytes w.kt ++ toBytes 8 w.kscratch.toNat ++
    toBytes 8 (match w.flight with | some (a, _) => a | none => 0) ++ toBytes 4 w.answered.toNat ++ zeros 4 ++
    trapBytes w.ht ++ trapBytes w.mt ++ zeros 40 ++ body

/-- A barrier in the layout of CLASS 7 of R295. -/
def barrierWord (b : Barrier) : Nat := b.gen.toNat * 2 ^ 32 + b.arrived % 2 ^ 15 * 2 ^ 16 + b.expect % 2 ^ 15

/-- A bin record (R409); its age counts the core's cycles since it became non-empty. -/
def binBytes (cycle : Nat) (b : Bin) : List Byte :=
  let thread (t : BinThread) : List Byte :=
    toBytes 2 t.tid ++ toBytes 1 t.preds.toNat ++ toBytes 1 t.src ++
      toBytes 32 (t.uset.foldl (fun n k => n ||| 2 ^ k) 0) ++ zeros 28 ++
      (List.range 256).flatMap fun n => toBytes 4 (tgetD t.regs n 0).toNat
  let source (c : BinSource) : List Byte :=
    toBytes 2 c.num ++ toBytes 1 c.role ++ toBytes 1 c.prio ++ toBytes 4 c.fpst.toNat ++ toBytes 8 c.task.toNat ++
      toBytes 4 c.index.toNat ++ toBytes 4 c.budget ++ zeros 40 ++
      pad64 ((List.range c.budget).flatMap fun n => toBytes 4 (tgetD c.sregs n 0).toNat)
  toBytes 8 b.pc.toNat ++ toBytes 1 b.role ++ zeros 3 ++ toBytes 4 b.threads.length ++ toBytes 4 b.sources.length ++
    toBytes 4 (cycle - b.since) ++ zeros 40 ++ b.threads.flatMap thread ++ b.sources.flatMap source

/-- The panel section. bins names the panel's bins of a core. -/
def panelBytes (p : Panel) (bins : Nat → List Bin) (cycle : Nat → Nat) (expect : Nat) : List Byte :=
  let cq (i : Nat) : List Byte :=
    let l := tgetD p.cqs i []
    toBytes 4 l.length ++ zeros 12 ++ l.flatMap fun r => toBytes 16 r.toNat
  let chan (i : Nat) : List Byte :=
    let c := getChan p i
    toBytes 4 c.entries.length ++ toBytes 4 c.closed.toNat ++ toBytes 4 c.producers ++ zeros 4 ++ c.entries.flatMap wordBytes
  let core (c : Nat) : List Byte :=
    let l := bins c
    l.flatMap (binBytes (cycle c)) ++ zeros (64 * (8 - l.length))
  pad64 ((lanes16.flatMap fun i => toBytes 8 (barrierWord (tgetD p.barriers i ⟨expect, 0, 0⟩))) ++
    (List.range 64).flatMap cq ++ (List.range 64).flatMap chan ++ p.cores.flatMap core)

/-- The operand-buffer units that a panel's wefts and operations hold on a core, ascending (R101). -/
def heldUnits (ws : List Weft) (cmds : List (Nat × Cmd)) (core : Nat) : List Nat :=
  let own := (ws.filter fun w => w.id.core == core).flatMap fun w => w.swatches.map (·.2)
  let ops := (cmds.filter fun e => e.1 == core).flatMap fun e => match e.2.mat with | some m => matSwatches m | none => []
  let rs := ((own ++ ops).map swatchOf).filter fun w => w.v
  (List.range 4096).filter fun u => rs.any fun w => decide (w.base ≤ u) && decide (u ≤ w.base + w.len)

/-- The set of bits as a number. -/
def bitsNum (l : List Bool) : Nat := l.foldr (fun b n => 2 * n + b.toNat) 0

/-- One core image: scratchpad, its presence and owner bits, the held units with their presence bits, the tiles. -/
def coreBytes (p : Panel) (c : PanelCore) (units : List Nat) (obuf : List Host.Cell) (absent : Nat → Bool) : List Byte :=
  let n := padBytes p
  let bits := ((List.range (n / 128)).map fun i => !(c.absent.any fun e => e.1 == i)) ++
    (List.range (n / 4096)).map fun i => c.owned.any fun e => e.1 == i
  mread c.pad 0 n ++ pad64 (toBytes ((bits.length + 7) / 8) (bitsNum bits)) ++
    (units.flatMap fun u => mread obuf (128 * u) 128) ++
    pad64 (toBytes ((units.length + 7) / 8) (bitsNum (units.map fun u => !absent u))) ++
    mread c.acc 0 (4096 * p.m.acc)

/-- A command's checkpoint (R409). -/
def cmdBytes (c : Cmd) : List Byte :=
  let op := match c.mat with | some (.drain _) => false | some _ => true | none => false
  toBytes 8 c.desc ++ toBytes 1 (match c.engine with | .copy => 1 | .gather => 2 | .coll => 3 | .matrix => 4) ++ zeros 3 ++
    toBytes 4 c.prog ++ (if op then toBytes 8 c.word.toNat ++ toBytes 4 c.ext.toNat ++ toBytes 2 c.num else zeros 14) ++ zeros 34

/-- A panel's commands with their cores in the order of the checkpoints. -/
def panelCmds (s : State) (k : PKey) : List (Nat × Cmd) :=
  let l := (allCmds s).filter fun e => e.2.key == k
  let byId (l : List (Nat × Cmd)) : List (Nat × Cmd) :=
    l.foldl (fun acc e => acc.takeWhile (fun y => y.2.id < e.2.id) ++ [e] ++ acc.dropWhile (fun y => y.2.id < e.2.id)) []
  let of (e : Engine) : List (Nat × Cmd) := byId (l.filter fun y => y.2.engine == e)
  of .copy ++ of .gather ++ of .coll ++ of .matrix

/-- A panel's wefts by ascending `$weft`. -/
def panelWefts (s : State) (k : PKey) : List Weft :=
  (weftsOf s k).foldl (fun acc w => acc.takeWhile (fun y => y.num < w.num) ++ [w] ++ acc.dropWhile (fun y => y.num < w.num)) []

/-- What a save takes out of the state for a panel. -/
def packPanel (s : State) (p : Panel) (frame asid : Nat) : Saved :=
  { key := p.key, frame := frame, asid := asid, panel := p, wefts := panelWefts s p.key, cmds := panelCmds s p.key,
    bins := p.cores.flatMap fun c => (panelBins s c p.key).map fun b => (c, b) }

/-- The four sections of a frame; the parts that stand on the cores are read from the state. -/
def frameBody (s : State) (v : Saved) : List Byte × List Byte :=
  let p := v.panel
  let threads := if p.cores.any isSup then shapeWefts p.m else 16 * shapeWefts p.m
  let bins (c : Nat) : List Bin := (v.bins.filter fun e => e.1 == c).map (·.2)
  let core (c : Nat) : List Byte :=
    let st := getCore s c
    let absent (u : Nat) : Bool := st.obAbsent.any fun e => e.1 == u && v.cmds.any fun y => y.2.id == e.2
    coreBytes p (panelCore p c) (heldUnits v.wefts v.cmds c) st.obuf absent
  (panelBytes p bins (fun c => (getCore s c).cycle) threads ++ p.cores.flatMap core ++
    v.cmds.flatMap fun e => cmdBytes e.2, v.wefts.flatMap (weftBytes p))

/-- The frame header (Table 6 of R409). -/
def frameHead (v : Saved) (cause fva body recs : Nat) : List Byte :=
  let p := v.panel
  [0x43#8, 0x46#8, 0x52#8, 0x4D#8] ++ toBytes 2 1 ++ toBytes 1 1 ++ toBytes 1 cause ++ toBytes 4 (p.key.part.getD 0) ++
    toBytes 4 p.key.num.toNat ++ toBytes 4 p.m.shape ++ toBytes 4 p.asid ++ toBytes 8 p.metaVa.toNat ++
    toBytes 8 (256 + body + recs) ++ toBytes 8 fva ++ toBytes 4 (p.cores.headD 0) ++ toBytes 4 v.wefts.length ++
    toBytes 8 (256 + body) ++ zeros 192

/-- The whole frame. -/
def frameBytes (s : State) (v : Saved) (cause fva : Nat) : List Byte :=
  let (b, r) := frameBody s v
  frameHead v cause fva b.length r.length ++ b ++ r

/-! ### The save (R71, R290, R328, R407, R411) -/

/-- What a save waits for: replies and landing writes of the panel's wefts, writes in stall windows, and hypervisor and
monitor traps. -/
def saveBusy (s : State) (k : PKey) : Bool :=
  let mine (id : WId) : Bool := match getWeft s id with | some w => w.key == k | none => false
  (s.landings.any fun l => mine l.w) || (s.outReqs.any fun r => mine r.w) || heldWrites s (agentPanel k) ||
  (weftsOf s k).any highTrap

/-- The holds that a saved unit keeps: a wait that stands in a line outside the panel starts again. -/
def savedHold : Hold → Hold
  | .serialWait => .none | .serialGo => .none | .arend => .none | .scrum _ => .none
  | .walkFault _ _ => .none | .sysWait _ => .none | .tile _ _ => .none
  | .deqWait _ => .none | h => h

/-- A weft as it is saved. -/
def savedWeft (w : Weft) : Weft :=
  { w with window := [], stepping := none, stepped := none, subs := w.subs.map fun b => { b with hold := savedHold b.hold } }

/-- Every batch of a panel that has not been sent is sent (R284). -/
def sendBatches (s : State) (k : PKey) : State :=
  forWefts s ((weftsOf s k).map (·.id)) fun s id => (sendBatch s id).getD s

/-- A serial slot that a saved weft holds without an open region is free again. -/
def dropSerial (s : State) (id : WId) : State :=
  { s with parts := s.parts.map fun e =>
      (e.1, { e.2 with doms := e.2.doms.map fun d => (d.1, if d.2.slot = some id then { d.2 with slot := none } else d.2) }) }

/-- The panel leaves its cores: its wefts, commands, bins, boundaries and waits go from them. -/
def detachPanel (s : State) (v : Saved) : State :=
  let k := v.key
  let ids := v.wefts.map (·.id)
  let gone (c : CoreSt) : CoreSt :=
    { c with
      cmds := c.cmds.filter fun x => x.key ≠ k
      bins := c.bins.filter fun b => b.key ≠ k
      obAbsent := c.obAbsent.filter fun e => !(v.cmds.any fun y => y.2.id == e.2) }
  let s := ids.foldl dropSerial (v.panel.cores.foldl mergeCore s)
  let s := { s with
    saved := s.saved ++ [v]
    panels := s.panels.filter fun p => p.key ≠ k
    wefts := s.wefts.filter fun w => w.key ≠ k
    cores := s.cores.map gone
    walks := s.walks.filter fun w => !(match w.w with | some id => ids.contains id | none => false)
    parts := s.parts.map fun e => (e.1, { e.2 with deqs := e.2.deqs.filter fun d => !ids.contains d.w }) }
  let hit (core : Nat) (e : Engine) : Bool := v.cmds.any fun y => y.1 == core && y.2.engine == e
  wakeLines (wakeFor s .queue fun w _ x => match x with | .engine e => hit w.id.core e | _ => false)

/-- The save of a stopped panel into a frame under an ASID: the frame's size and the state, or why it cannot be written. -/
def savePanel (s : State) (k : PKey) (frame asid cause fva : Nat) : Except Nat (Nat × State) :=
  match getPanel s k with
  | none => .error 0
  | some _ =>
    let s := sendBatches s k
    match getPanel s k with
    | none => .error 0
    | some p =>
      let v := packPanel s { p with stopped := false, saveVa := none } frame asid
      let v := { v with wefts := v.wefts.map savedWeft }
      let bs := frameBytes s v cause fva
      match deviceWrite s asid k.part frame bs with
      | .error e => .error e
      | .ok s => .ok (bs.length, detachPanel s v)

/-- The size of a panel's frame as it stands. -/
def frameSize (s : State) (k : PKey) : Nat :=
  match getPanel s k with
  | some p => (frameBytes s (packPanel s p 0 0) 0 0).length
  | none => 0

/-- A stopped panel goes on. -/
def resumePanel (s : State) (k : PKey) : State := progress (wakeLines (updPanel s k fun p => { p with stopped := false }))

/-- CTXSV. -/
def ctxsvBody (x : Ctx) : R Out := do
  let va := (← rd1 x .a true).toNat
  let n ← num1 x .b
  let cap ← num1 x .c
  let k : PKey := ⟨x.w.key.part, BitVec.ofNat 32 n⟩
  if va % 4096 ≠ 0 then .error (.fault cAlign va 0)
  else if k = x.w.key then oops cIllegalOperand
  else
    match getPanel x.s k with
    | none => statusOut x x.s 0x80000000
    | some _ =>
      let s := stopPanel x.s k
      let z := frameSize s k
      let l := lowest x.act
      let pages := if z > cap then [] else (rangePages va z).map fun a => (l, max va a)
      let _ ← checkAll x .write 0 0 pages
      if z > cap then statusOut x (resumePanel s k) (0x80000000 + z)
      else if saveBusy s k then .ok ⟨s, .wait, []⟩
      else
        match savePanel s k va x.p.asid 0 0 with
        | .ok (z, s) => statusOut x (pages.foldl (fun s e => markDirty s x.p.asid x.w.key.part e.2) s) z
        | .error _ => .ok ⟨s, .wait, []⟩

def execCtxsv (f : Fields) (s : State) : Host.Outcome State Fault Refusal := onWeft .ctxsv f .once ctxsvBody s

/-! ### TRANSLATION_FAULT_SAVE (R407) -/

/-- The frame at the top of a partition's pool and the pool's address, where it can be popped for a frame of z bytes. -/
def poolFrame (s : State) (part z : Nat) : Option (Nat × Nat) :=
  match getPart s part with
  | none => none
  | some p =>
    let asid := p.desc.asidLo
    let n (a k : Nat) : Option Nat := match deviceNum s asid (some part) a k with | .ok v => some v | .error _ => none
    match n (p.desc.errq + 16) 8, n (p.desc.errq + 24) 8 with
    | some pool, some fsize =>
      match n pool 4, n (pool + 8) 4 with
      | some count, some lock =>
        if count = 0 ∨ lock ≠ 0 ∨ fsize < z then none
        else (n (pool + 16 + 8 * (count - 1)) 8).map fun f => (f, pool)
      | _, _ => none
    | _, _ => none

/-- A pool without its top entry. -/
def popPool (s : State) (part pool : Nat) : Except Nat State :=
  match getPart s part with
  | none => .error 0
  | some p =>
    match deviceNum s p.desc.asidLo (some part) pool 4 with
    | .ok c => deviceWrite s p.desc.asidLo (some part) pool (toBytes 4 (c - 1))
    | .error e => .error e

/-- The save into a pool frame: the frame's address and the state. -/
def savePool (s : State) (k : PKey) (va : Nat) : Option (Nat × State) :=
  match k.part with
  | none => none
  | some part =>
    match getPart s part, poolFrame s part (frameSize s k) with
    | some p, some (frame, pool) =>
      match popPool s part pool with
      | .error _ => none
      | .ok s =>
        match savePanel s k frame p.desc.asidLo 1 va with
        | .ok (_, s) => some (frame, s)
        | .error _ => none
    | _, _ => none

/-- A panel that no frame takes stays resident, its wefts halted. -/
def haltPanel (s : State) (k : PKey) : State :=
  let go (w : Weft) : Weft := if w.key = k then { w with halted := true } else w
  let s := updPanel s k fun p => { p with stopped := false, saveVa := none }
  progress { s with wefts := s.wefts.map go }

/-- TRANSLATION_FAULT_SAVE. -/
def execTranslationFaultSave (k : PKey) (s : State) : Host.Outcome State Fault Refusal :=
  match (getPanel s k).bind fun p => p.saveVa with
  | none => .next s
  | some (va, core, lanes) =>
    if saveBusy s k then .next s
    else
      let note (s : State) (frame : Nat) : State :=
        errRecord s k.part 8 cTranslation lanes.toNat core k.num.toNat frame va
      match savePool s k va with
      | some (frame, s) => .next (note s frame)
      | none => .next (note (haltPanel s k) 0)

/-! ### Reading a frame back (R291) -/

/-- A number in a frame's bytes. -/
def at8 (bs : List Byte) (off n : Nat) : Nat := ofBytes ((bs.drop off).take n)

/-- Sixteen words. -/
def lineAt (bs : List Byte) (off : Nat) : List Word32 := lanes16.map fun i => BitVec.ofNat 32 (at8 bs (off + 4 * i) 4)

/-- A saved S value read back, and the bytes it took. -/
def readSym (bs : List Byte) (off : Nat) : SymVal × Nat :=
  let kind := at8 bs (off + 1) 1
  let ns := at8 bs (off + 2) 1
  let d := at8 bs (off + 3) 1
  let codes := ((if bitOf d 3 then [d % 8] else []) ++ if bitOf d 7 then [d / 16 % 8] else [])
  let wide (x : Word32) : Word64 := x.setWidth 64
  let comp (c : Nat) (u : Nat) : Comp :=
    match ((List.range codes.length).filter fun i => codes[i]? == some c) with
    | [i] => .per ((lineAt bs (off + 64 + 64 * i)).map wide)
    | i :: j :: _ => .per (joinLanes (lineAt bs (off + 64 + 64 * i)) (lineAt bs (off + 64 + 64 * j)))
    | [] => .uni (BitVec.ofNat 64 u)
  let step (i : Nat) : SymStep :=
    let o := off + 24 + 10 * i
    let m := at8 bs (o + 1) 1
    ⟨at8 bs o 1, m % 8, bitOf m 3, comp (2 + i) (at8 bs (o + 2) 8)⟩
  (⟨at8 bs off 1 % 16, kind, comp 0 (at8 bs (off + 8) 8), comp 1 (at8 bs (off + 16) 8), (List.range (min 4 ns)).map step⟩,
    64 + 64 * codes.length)

/-- The vector registers read back, and the offset after them. -/
def readVregs (bs : List Byte) (off : Nat) : Tab Nat VReg × Nat :=
  let tag (n : Nat) : Nat := at8 bs (off + n / 4) 1 / 4 ^ (n % 4) % 4
  let count (t : Nat) (m : Nat) : Nat := ((List.range m).filter fun n => tag n == t).length
  let uo := off + 64
  let ao := uo + roundUp (4 * count 0 256) 64
  let go := ao + roundUp (8 * count 1 256) 64
  let so := go + 64 * count 2 256
  let w (o : Nat) : Word32 := BitVec.ofNat 32 (at8 bs o 4)
  let (regs, so, _) := (List.range 256).foldl (fun (acc : Tab Nat VReg × Nat × Option SymVal) n =>
    let (t, so, half) := acc
    match tag n with
    | 0 => (t ++ [(n, .val .u (lanes16.map fun _ => w (uo + 4 * count 0 n)))], so, none)
    | 1 =>
      let o := ao + 8 * count 1 n
      (t ++ [(n, .val .a (lanes16.map fun l => w o + BitVec.ofNat 32 l * w (o + 4)))], so, none)
    | 2 => (t ++ [(n, .val .g (lineAt bs (go + 64 * count 2 n)))], so, none)
    | _ =>
      match half with
      | some v => (t ++ [(n, .symHi v)], so, none)
      | none =>
        let (v, k) := readSym bs so
        (t ++ [(n, .sym v)], so + k, if v.kind = 1 ∨ v.kind = 3 then some v else none)) ([], so, none)
  (regs.filter fun e => e.2 != .val .u (lanes16.map fun _ => 0), so)

/-- Trap registers read back; the reserved bits of CAUSE are 0 (R6, R405). -/
def readTrap (bs : List Byte) (off : Nat) (tvec : Nat) : TrapRegs :=
  ⟨BitVec.ofNat 64 tvec, BitVec.ofNat 64 (at8 bs off 8), BitVec.ofNat 32 (at8 bs (off + 8) 4) &&& 0xFFFF_0FFF,
    BitVec.ofNat 64 (at8 bs (off + 16) 8)⟩

/-- A symbol slot read back: a value per lane where the frame's value is that of the first lane. -/
def readSlot (bs : List Byte) (off : Nat) (old : Option SymSlot) : SymSlot :=
  let v := BitVec.ofNat 64 (at8 bs (off + 8) 8)
  let st := at8 bs off 1
  let vals := match old with | some y => y.value | none => []
  ⟨st, at8 bs (off + 1) 1, if st = 2 then (if vals.head? = some v then vals else splat v) else []⟩

/-- `$uivec` read back: VEC and EN as the record has them, ACT as its flags have it, and the reserved bits 0 (R6, R406). -/
def readUivec (v : Nat) (act : Bool) : Word64 := BitVec.ofNat 64 (field v 56 3 * 8 + act.toNat * 2 + field v 0 0)

/-- A weft read back from its record, over what it held when it was saved. A reserved bit of a register reads 0 (R6). -/
def readWeft (p : Panel) (w : Weft) (bs : List Byte) : Weft :=
  let n (o k : Nat) : Nat := at8 bs o k
  let nsub := n 5 1
  let ndiv := n 12 4
  let subAtOff (i : Nat) : Sub :=
    let o := 256 + 16 * i
    let pc := BitVec.ofNat 64 (n o 8)
    let m := BitVec.ofNat 16 (n (o + 8) 2)
    let h := match w.subs.find? fun b => b.mask == m && b.pc == pc with | some b => b.hold | none => .none
    ⟨pc, m, none, h⟩
  let od := 256 + roundUp (16 * nsub) 64
  let divAtOff (i : Nat) : Division :=
    let x := n (od + 16 * i) 8
    ⟨if x = 0 then none else some (BitVec.ofNat 64 x), BitVec.ofNat 16 (n (od + 16 * i + 8) 2)⟩
  let op := od + roundUp (16 * ndiv) 64
  let ol := op + 64
  let oo := ol + 256
  let os := oo + 512
  let budget := scalarBudget p w
  let (vregs, oy) := readVregs bs (os + roundUp (4 * budget) 64)
  let ob := oy + 256
  let ow := ob + 256
  let flags := n 6 2
  let bind (i : Nat) : Option (Nat × Binding) :=
    let x := n (ob + 8 * i) 8
    if !bitOf x 31 then none
    else
      let kind := field x 30 28
      let obj := field x 7 0
      let fmt := match tget w.binds i with | some b => if b.kind = kind ∧ b.obj = obj then b.fmt else 0 | none => 0
      some (i, ⟨kind, obj, fmt, bitOf x 26⟩)
  let active := (List.range 4).filterMap fun l =>
    if bitOf flags (2 + l) then some (l, (tget w.active l).getD ⟨liveMask w, 0, 0, .none⟩) else none
  let nz {α : Type} (l : List (Nat × α)) (f : Nat × α → Bool) : List (Nat × α) := l.filter f
  let w := { w with
    level := n 4 1
    subs := (List.range nsub).map subAtOff
    divs := (List.range ndiv).map divAtOff
    preds := (List.range 7).map fun i => BitVec.ofNat 16 (n (op + 2 * i) 2)
    latX := lineAt bs ol
    latY := lineAt bs (ol + 64)
    shX := lineAt bs (ol + 128)
    shY := lineAt bs (ol + 192)
    oregs := (List.range 8).map fun i => (i, lineAt bs (oo + 64 * i))
    sregs := nz ((List.range budget).map fun i => (i, BitVec.ofNat 32 (n (os + 4 * i) 4))) fun e => e.2 != 0
    vregs := vregs
    syms := nz (lanes16.map fun i => (i, readSlot bs (oy + 16 * i) (tget w.syms i))) fun e => e.2.state != 0
    binds := (List.range 32).filterMap bind
    swatches := nz (lanes16.map fun i => (i, BitVec.ofNat 128 (n (ow + 16 * i) 16))) fun e => e.2 != 0 }
  let w := { w with
    halted := bitOf flags 0
    active := active
    gangHeld := bitOf flags 6
    ctl := BitVec.ofNat 32 (n 16 4) &&& 1
    fpst := BitVec.ofNat 32 (n 20 4) &&& 0x7F
    scrum := BitVec.ofNat 32 (n 24 4)
    rstat := BitVec.ofNat 32 (n 28 4) &&& 0xFFFF_1F6F
    rlo := BitVec.ofNat 64 (n 32 8)
    rhi := BitVec.ofNat 64 (n 40 8)
    task := BitVec.ofNat 64 (n 48 8)
    index := BitVec.ofNat 32 (n 56 4)
    symstF := BitVec.ofNat 32 (n 60 4) &&& 0x1F_0000
    uivec := readUivec (n 64 8) (bitOf flags 1)
    uimask := BitVec.ofNat 32 (n 72 4)
    uistat := BitVec.ofNat 32 (n 76 4)
    uiret := BitVec.ofNat 64 (n 80 8)
    ut := readTrap bs 88 (n 112 8)
    kt := { readTrap bs 120 0 with tvec := w.kt.tvec }
    kscratch := BitVec.ofNat 64 (n 144 8) }
  let w := { w with
    flight := if n 152 8 = 0 then none else some (n 152 8, match w.flight with | some (_, m) => m | none => svcHeld w)
    answered := bitOf (n 160 4) 0
    ht := { readTrap bs 168 0 with tvec := w.ht.tvec }
    mt := { readTrap bs 192 0 with tvec := w.mt.tvec } }
  endFlight ((w.syms.filter fun e => e.2.state == 2).foldl (fun w e => resolveSlot w e.1 e.2.value) w)

/-- A bin read back at an offset over the bin that was saved, and the offset after it. -/
def readBin (bs : List Byte) (off cycle : Nat) (b : Bin) : Bin × Nat :=
  let n (o k : Nat) : Nat := at8 bs o k
  let nt := n (off + 12) 4
  let ns := n (off + 16) 4
  let thread (i : Nat) : BinThread :=
    let o := off + 64 + 1088 * i
    { tid := n o 2, preds := BitVec.ofNat 7 (n (o + 2) 1), uset := (List.range 256).filter fun k => bitOf (n (o + 4) 32) k,
      regs := ((List.range 256).map fun k => (k, BitVec.ofNat 32 (n (o + 64 + 4 * k) 4))).filter fun e => e.2 != 0,
      src := n (o + 3) 1 }
  let (srcs, stop) := (List.range ns).foldl (fun (acc : List BinSource × Nat) _ =>
    let o := acc.2
    let c := n (o + 20) 4
    let y : BinSource := {
      num := n o 2, role := n (o + 2) 1, prio := n (o + 3) 1, fpst := BitVec.ofNat 32 (n (o + 4) 4),
      task := BitVec.ofNat 64 (n (o + 8) 8), index := BitVec.ofNat 32 (n (o + 16) 4),
      sregs := ((List.range c).map fun k => (k, BitVec.ofNat 32 (n (o + 64 + 4 * k) 4))).filter fun e => e.2 != 0,
      budget := c }
    (acc.1 ++ [y], o + 64 + roundUp (4 * c) 64)) ([], off + 64 + 1088 * nt)
  ({ b with pc := BitVec.ofNat 64 (n off 8), role := n (off + 8) 1, threads := (List.range nt).map thread, sources := srcs,
            since := cycle - n (off + 20) 4 }, stop)

/-- The panel section read back: the panel, its bins with their old cores, and the offset after the section. -/
def readPanel (bs : List Byte) (v : Saved) (cycle : Nat → Nat) : Panel × List (Nat × Bin) × Nat :=
  let n (o k : Nat) : Nat := at8 bs o k
  let p := v.panel
  let bar (i : Nat) : Nat × Barrier :=
    let x := n (256 + 8 * i) 8
    (i, ⟨field x 14 0, field x 30 16, BitVec.ofNat 32 (field x 63 32)⟩)
  let (cqs, o) := (List.range 64).foldl (fun (acc : Tab Nat (List (BitVec 128)) × Nat) i =>
    let c := n acc.2 4
    let l := (List.range c).map fun k => BitVec.ofNat 128 (n (acc.2 + 16 + 16 * k) 16)
    (acc.1 ++ [(i, l)], acc.2 + 16 + 16 * c)) ([], 384)
  let (chans, o) := (List.range 64).foldl (fun (acc : Tab Nat Channel × Nat) i =>
    let o := acc.2
    let (es, o2) := (List.range (n o 4)).foldl (fun (a : List (List Word32) × Nat) k =>
      let len := match (getChan p i).entries[k]? with | some e => e.length | none => 1
      (a.1 ++ [(List.range len).map fun j => BitVec.ofNat 32 (n (a.2 + 4 * j) 4)], a.2 + 4 * len)) ([], o + 16)
    (acc.1 ++ [(i, ⟨es, bitOf (n (o + 4) 4) 0, n (o + 8) 4⟩)], o2)) ([], o)
  let (bins, o) := p.cores.foldl (fun (acc : List (Nat × Bin) × Nat) c =>
    (List.range 8).foldl (fun (a : List (Nat × Bin) × Nat) i =>
      match ((v.bins.filter fun e => e.1 == c).map (·.2))[i]? with
      | some b => let (b, o2) := readBin bs a.2 (cycle c) b; (a.1 ++ [(c, b)], o2)
      | none => (a.1, a.2 + 64)) acc) ([], o)
  ({ p with barriers := lanes16.map bar, cqs := cqs.filter (fun e => !e.2.isEmpty),
            chans := chans.filter (fun e => e.2 != ⟨[], false, 0⟩) }, bins, 256 + roundUp (o - 256) 64)

/-- A core image read back: the panel's part of the core, the held units' bytes, and the offset after the image. -/
def readCore (bs : List Byte) (v : Saved) (c off : Nat) : PanelCore × List (Nat × List Byte) × Nat :=
  let p := v.panel
  let old := panelCore p c
  let n := padBytes p
  let nl := n / 128
  let nt := n / 4096
  let o1 := off + n
  let bits := at8 bs o1 ((nl + nt + 7) / 8)
  let o2 := o1 + roundUp ((nl + nt + 7) / 8) 64
  let units := heldUnits v.wefts v.cmds c
  let o3 := o2 + 128 * units.length
  let o4 := o3 + roundUp ((units.length + 7) / 8) 64
  let us := (List.range units.length).map fun i => (nth units i 0, (bs.drop (o2 + 128 * i)).take 128)
  ({ old with
     pad := mwrite [] 0 ((bs.drop off).take n)
     absent := old.absent.filter fun e => !bitOf bits e.1
     owned := old.owned.filter fun e => bitOf bits (nl + e.1)
     acc := mwrite [] 0 ((bs.drop o4).take (4096 * p.m.acc)) }, us, o4 + 4096 * p.m.acc)

/-! ### The restore (R291, R328, R411) -/

/-- A core of the saved set renamed to the core at its place in the new set. -/
def moveCore (old new : List Nat) (c : Nat) : Nat := nth new (old.findIdx (· == c)) c

/-- Whether the header of a frame names a saved panel of a partition: that panel (status 2 otherwise). -/
def frameOwner (s : State) (part : Option Nat) (bs : List Byte) : Option Saved :=
  let k : PKey := ⟨part, BitVec.ofNat 32 (at8 bs 12 4)⟩
  match s.saved.find? fun v => v.key == k with
  | none => none
  | some v =>
    let (b, r) := frameBody s v
    let want := frameHead v (at8 bs 7 1) (at8 bs 40 8) b.length r.length
    if bs.take 64 = want.take 64 ∧ at8 bs 7 1 ≤ 1 then some v else none

/-- The core set that CTXLD's B names for a saved panel (status 3 otherwise). -/
def restoreSet (v : Saved) (b : Nat) : Option (List Nat) :=
  if field b 15 9 ≠ 0 ∨ field b 31 17 ≠ 0 ∨ isSup (field b 8 0) ≠ v.panel.cores.any isSup then none
  else
    match coreSet v.panel.cores.length (field b 8 0) (bitOf b 16) with
    | some cs => if scrumsFit { v.panel with cores := cs } then some cs else none
    | none => none

/-- Whether a saved panel fits on a core set: room, bins, operand-buffer units, and cores of its partition. -/
def restoreFits (s : State) (v : Saved) (cs : List Nat) : Bool :=
  let p := { v.panel with cores := cs }
  let free (c : Nat) : Nat := 8 - (getCore s c).bins.length
  let need (c : Nat) : Nat := (v.bins.filter fun e => moveCore v.panel.cores cs e.1 == c).length
  let held (c : Nat) : List Nat := heldUnits (s.wefts.filter fun w => w.id.core == c) (allCmds s) c
  placeable s p && ownsSet s v.key cs p.asid &&
  v.panel.cores.all fun o =>
    let c := moveCore v.panel.cores cs o
    decide (need c ≤ free c) && (heldUnits v.wefts v.cmds o).all fun u => !(held c).contains u

/-- The bins of a restored panel take free bin numbers. -/
def addBin (s : State) (core : Nat) (b : Bin) : State :=
  let bins := (getCore s core).bins
  let i := ((List.range 8).find? fun i => !(bins.any fun x => x.id == i)).getD 0
  updCore s core fun c => { c with bins := c.bins ++ [{ b with id := i }] }

/-- A restored command: its progress is the frame's, and the units that it has still to write are absent again. -/
def addCmd (s : State) (p : Panel) (core : Nat) (c : Cmd) (prog : Nat) : State :=
  let c := { c with prog := prog }
  let pl := planOf p core c
  let todo := (pl.writes.filter fun w => w.1.ob && w.2 > c.prog).map (·.1)
  clearSpots (updCore s core fun x => { x with cmds := x.cmds ++ [c] }) c.key c.id todo

/-- The restore of a saved panel from its frame's bytes onto a core set. -/
def restorePanel (s : State) (v : Saved) (bs : List Byte) (cs : List Nat) : State :=
  let mv := moveCore v.panel.cores cs
  let (p, bins, o) := readPanel bs v fun c => (getCore s (mv c)).cycle
  let (parts, units, o) := v.panel.cores.foldl (fun (acc : List PanelCore × List (Nat × Nat × List Byte) × Nat) c =>
    let (pc, us, o) := readCore bs v c acc.2.2
    (acc.1 ++ [{ pc with core := mv c }], acc.2.1 ++ us.map (fun u => (mv c, u.1, u.2)), o)) ([], [], o)
  let p := { p with cores := cs, parts := parts, debug := [], stopped := false, saveVa := none }
  let s := { s with saved := s.saved.filter fun x => x.key ≠ v.key }
  let s := addPanel s p
  let s := units.foldl (fun s u => updCore s u.1 fun c => { c with obuf := mwrite c.obuf (128 * u.2.1) u.2.2 }) s
  let s := bins.foldl (fun s b => addBin s (mv b.1) b.2) s
  let p := (getPanel s v.key).getD p
  let s := (List.range v.cmds.length).foldl (fun s i =>
    match v.cmds[i]? with
    | some e => addCmd s p (mv e.1) e.2 (at8 bs (o + 64 * i + 12) 4)
    | none => s) s
  let at0 := o + 64 * v.cmds.length
  let (s, _) := v.wefts.foldl (fun (acc : State × Nat) w =>
    let bytes := bs.drop acc.2
    let core := mv w.id.core
    (placeWeft acc.1 p core w.num (readWeft p w (bytes.take (at8 bytes 8 4))), acc.2 + at8 bytes 8 4)) (s, at0)
  let agent (a : AgentId) : AgentId := if agentPanel v.key a then a.onCore mv else a
  let core (a : SymAcc) : SymAcc := if a.key = v.key then { a with core := mv a.core, live := a.live.map agent } else a
  let held := frozenTag s (jobTag s v.key.part)
  let free (w : Weft) : Weft := if w.key = v.key ∧ !held then { w with gangHeld := false } else w
  { s with
    symAccs := s.symAccs.map core
    wefts := s.wefts.map free
    snaps := s.snaps.map fun x => { x with agent := agent x.agent }
    erred := s.erred.map fun x => { x with agent := agent x.agent }
    postedW := s.postedW.map fun x => { x with owner := x.owner.map agent } }

/-- CTXLD. -/
def ctxldBody (x : Ctx) : R Out := do
  let va := (← rd1 x .a true).toNat
  let b ← num1 x .b
  let l := lowest x.act
  let part := x.w.key.part
  let _ ← checkAll x .read 0 0 ((rangePages va 256).map fun a => (l, max va a))
  let head := match deviceRead x.s x.p.asid part va 256 with | .ok h => h | .error _ => []
  match frameOwner x.s part head with
  | none => statusOut x x.s 2
  | some v =>
    match restoreSet v b with
    | none => statusOut x x.s 3
    | some cs =>
      if !restoreFits x.s v cs then statusOut x x.s 1
      else
        let z := at8 head 32 8
        let _ ← checkAll x .read 0 0 ((rangePages va z).map fun a => (l, max va a))
        let _ ← checkAll x .write 0 0 [(l, va)]
        let bs := match deviceRead x.s x.p.asid part va z with | .ok h => h | .error _ => []
        let s := match deviceWrite x.s x.p.asid part (va + 6) [2#8] with | .ok s => s | .error _ => x.s
        let t ← statusOut x s 0
        .ok { t with s := restorePanel t.s v bs cs }

def execCtxld (f : Fields) (s : State) : Host.Outcome State Fault Refusal := onWeft .ctxld f .once ctxldBody s

/-! ### SYMBOL_ARRIVAL (R92, R411) -/

/-- The arrival of a value for a saved panel: its slot entry in the frame takes it. -/
def arriveSaved (s : State) (v : Saved) (w : Weft) (slot : Nat) : State :=
  match s.symAccs.find? fun a => a.key == v.key && a.num == w.num && a.slot == slot with
  | none => s
  | some a =>
    match a.value with
    | none => s
    | some vals =>
      let s := { s with symAccs := s.symAccs.erase a }
      let write (off : Nat) : State :=
        let at_ := off + frameNum s v (off + 8) 4 - 768 + 16 * slot
        frameWrite (frameWrite s v at_ [2#8]) v (at_ + 8) (toBytes 8 (vals.getD 0 0).toNat)
      let s := match frameWeft s v w.num with | some off => write off | none => s
      updSaved s v.key w.num fun w => { w with syms := tset w.syms slot ⟨2, a.kind, vals⟩ }

/-- SYMBOL_ARRIVAL. -/
def execSymbolArrival (id : WId) (slot : SlotNo) (s : State) : Host.Outcome State Fault Refusal :=
  match getWeft s id with
  | some _ => .next (arriveSym s id slot.val)
  | none =>
    match s.saved.findSome? fun v => (v.wefts.find? fun w => w.id == id).map fun w => (v, w) with
    | some (v, w) => .next (arriveSaved s v w slot.val)
    | none => .next s

/-! ### DEVICE_AREA_RESUME (R439) -/

/-- One waiting access to a device area made: false where its area does not translate yet. -/
def doArea (s : State) (part : Nat) (w : AreaWork) : Option State :=
  match getPart s part with
  | none => none
  | some p =>
    let asid := p.desc.asidLo
    let opt (r : Except Nat State) : Option State := match r with | .ok s => some s | .error _ => none
    match w with
    | .errRec bytes => opt (putErr s part bytes)
    | .ovfl addr => opt (ovflAppend s part p addr)
    | .ovflHead => opt (ovflPop s part p)
    | .batch addr bytes _ die =>
      if (svcQueue p die).length ≥ 16384 then none
      else
        (opt (deviceWrite s asid (some part) addr bytes)).map fun s =>
          updPart s part fun p => { p with svcq := tset p.svcq die (svcQueue p die ++ [addr]) }
    | .event bytes => opt (putEvent s part bytes)

/-- The area that a waiting access concerns. -/
def areaOf (p : Part) : AreaWork → Nat
  | .errRec _ => p.desc.errq
  | .ovfl _ | .ovflHead => p.desc.ovfl
  | .batch _ _ _ _ => p.desc.svcbase
  | .event _ => p.desc.mbox

/-- The waiting accesses of a partition tried in order; those of one area keep their order. -/
def retryAreas (part : Nat) : List AreaWork → List Nat → State → State
  | [], _, s => s
  | w :: t, stuck, s =>
    match getPart s part with
    | none => s
    | some p =>
      let area := areaOf p w
      let keep : State := updPart s part fun p => { p with areaWork := p.areaWork ++ [w] }
      if stuck.contains area then retryAreas part t stuck keep
      else
        match doArea s part w with
        | some s => retryAreas part t stuck s
        | none => retryAreas part t (area :: stuck) keep

/-- Whether an area of a partition still does not translate for the device's reads. -/
def areaAbsent (s : State) (part : Nat) (p : Part) (va : Nat) : Bool :=
  match deviceXlate s p.desc.asidLo (some part) .read va with
  | .ok _ _ => false
  | _ => true

/-- DEVICE_AREA_RESUME: a wait that an area's later accesses go on with stays noted. -/
def execDeviceAreaResume (part : Nat) (s : State) : Host.Outcome State Fault Refusal :=
  match getPart s part with
  | none => .next s
  | some p =>
    let s := retryAreas part p.areaWork [] (updPart s part fun p => { p with areaWork := [] })
    let waits (p : Part) (a : Nat) : Bool := (p.areaWork.any fun w => areaOf p w == a) || areaAbsent s part p a
    let still (p : Part) : Part := { p with areaNoted := p.areaNoted.filter (waits p) }
    .next (updPart s part still)

end Sys2Proof.Machine
end

