-- ==== Sys2Proof/Machine/Sync.lean ====
section
/-!
DEFINITION. Phases and barriers (R236 to R238).
-/
namespace Sys2Proof.Machine

/-! ### PHASE (R236) -/

/-- PHASE: the release first, then the acquire, as MOD names them. -/
def phaseBody (x : Ctx) : R Out :=
  let kind := x.f.mod.toNat
  let acq (s : State) : R Out := Out.step (if bitOf kind 1 then acquireNow x s else s)
  if bitOf kind 0 then withRelease x (modByte x.f.c) acq else acq x.s

def execPhase (f : Fields) (s : State) : Host.Outcome State Fault Refusal := onWeft .phase f .lanes phaseBody s

/-! ### Barriers (R237, R238) -/

/-- The threads of a panel (R237, R424). -/
def panelThreads (p : Panel) : Nat :=
  match p.cores with
  | c :: _ => if isSup c then shapeWefts p.m else 16 * shapeWefts p.m
  | [] => 16 * shapeWefts p.m

/-- A barrier of a panel. -/
def getBarrier (p : Panel) (b : Nat) : Barrier := tgetD p.barriers b ⟨panelThreads p, 0, 0⟩

/-- A barrier replaced: it completes when ARRIVED has reached EXPECT, and the waiting sub-wefts go on. -/
def putBarrier (s : State) (k : PKey) (b : Nat) (v : Barrier) : State :=
  let done := v.arrived ≥ v.expect
  let v := if done then { v with arrived := 0, gen := v.gen + 1 } else v
  let s := updPanel s k fun p => { p with barriers := tset p.barriers b v }
  if done then wakeIn s k .barrier (.barrier b) else s

/-- The barrier number in A. -/
def barrierNum (x : Ctx) : R Nat := do
  let b ← num1 x .a
  if b > 15 then oops cIllegalOperand else .ok b

/-- BARI. -/
def bariBody (x : Ctx) : R Out := do
  let b ← barrierNum x
  let n ← num1 x .b
  if n < 1 ∨ n > 16384 then oops cIllegalOperand
  else Out.step (putBarrier x.s x.w.key b { getBarrier x.p b with expect := n })

def execBari (f : Fields) (s : State) : Host.Outcome State Fault Refusal := onWeft .bari f .once bariBody s

/-- The active threads arrive at a barrier. -/
def arriveAt (x : Ctx) (s : State) (b : Nat) : State :=
  let v := getBarrier x.p b
  putBarrier s x.w.key b { v with arrived := v.arrived + countLanes x.act }

/-- BARA. -/
def baraBody (x : Ctx) : R Out := do
  let b ← barrierNum x
  let v := getBarrier x.p b
  let s ← if x.f.d = .zero then .ok x.s else writeRes x false (splat (v.gen.setWidth 64)) none id
  Out.step (arriveAt x s b)

/-- BARA's guard is tested once where its result is scalar. -/
def execBara (f : Fields) (s : State) : Host.Outcome State Fault Refusal :=
  match f.d with
  | .s _ => onWeft .bara f .once baraBody s
  | _ => onWeft .bara f .lanes baraBody s

/-- BARW: a release, the arrival, the wait for the generation to change, then an acquire. -/
def barwBody (x : Ctx) : R Out := do
  let b ← barrierNum x
  let gen := (getBarrier x.p b).gen
  match x.b.hold with
  | .barrier _ g => if gen = g then .error (.park .barrier (.barrier b)) else Out.step (acquireNow x x.s)
  | _ =>
    withRelease x 2 fun s =>
      let s := arriveAt x s b
      let now := match getPanel s x.w.key with | some p => (getBarrier p b).gen | none => gen
      if now != gen then Out.step (acquireNow x s)
      else .ok ⟨updCur s x.c fun u => { u with hold := .barrier b gen }, .park .barrier (.barrier b), []⟩

def execBarw (f : Fields) (s : State) : Host.Outcome State Fault Refusal := onWeft .barw f .lanes barwBody s

/-- BARW.nar. -/
def barwNarBody (x : Ctx) : R Out := do
  let b ← barrierNum x
  let g ← num1 x .b
  if (getBarrier x.p b).gen.toNat = g then .error (.park .barrier (.barrier b)) else Out.step (acquireNow x x.s)

def execBarwNar (f : Fields) (s : State) : Host.Outcome State Fault Refusal := onWeft .barwNar f .lanes barwNarBody s

end Sys2Proof.Machine
end

