-- ==== Sys2Proof/Machine/Debug.lean ====
section
/-!
DEFINITION. Debug access to halted wefts: DBGRD, DBGWR and DSTEP (R294 to R296, R417, R418).
-/
namespace Sys2Proof.Machine

/-- The sub-wefts in the order of R294: by the lowest lane of their masks. -/
def subsInOrder (w : Weft) : List Sub := lanes16.filterMap fun l => w.subs.find? fun b => b.mask != 0 && lowest b.mask == l

/-- The bits that a debug register keeps (Tables 1 to 3 of R417 and R418). -/
def debugKeep (i v : Nat) : Nat :=
  let ctl := setField (setField (setField v 47 46 0) 31 30 0) 15 4 0
  if i < 8 then setField (setField v 63 57 0) 2 0 0
  else if 16 ≤ i ∧ i < 20 then setField v 62 57 0
  else if 20 ≤ i ∧ i < 24 then setField ctl 12 8 (min 20 (field v 12 8))
  else setField ctl 3 2 0

/-- An item of a halted weft's state (Table 4 of R295), or none for an invalid selector. -/
def debugRead (s : State) (p : Panel) (w : Weft) (sel : Nat) : Option Nat :=
  let i := field sel 27 0
  match field sel 31 28 with
  | 0 =>
    if i ≥ 4096 then none
    else some (match tgetD w.vregs (i % 256) (.val .u []) with | .val _ xs => (lane xs (i / 256)).toNat | _ => 0)
  | 1 => if i < scalarBudget p w then some (tgetD w.sregs i 0).toNat else none
  | 2 => if i < 7 then some (nth w.preds i 0).toNat else if i = 7 then some 0xFFFF else none
  | 3 => if i < 256 then some (shapeCode (tgetD w.vregs i (.val .u []))) else none
  | 4 => if i < 16 then some (match (subsInOrder w)[i]? with | some b => b.pc.toNat | none => 0) else none
  | 5 => if i < 16 then some (match (subsInOrder w)[i]? with | some b => b.mask.toNat | none => 0) else none
  | 6 => (sregOf i).map fun r => specRead s w (lowest (liveMask w)) r
  | 7 => if i < 16 then some (barrierWord (getBarrier p i)) else none
  | 8 => if i ≤ 24 then some (debugReg p i) else none
  | _ => none

/-- A lane of a vector register written by a debugger: a symbol leaves the register and the other half of its pair,
which takes a known 0. -/
def debugLane (w : Weft) (n l : Nat) (v : Word32) : Weft :=
  let old := vregOf w n
  let u := { w with vregs := ((symMates w n).filter (· ≠ n)).foldl (fun t k => tset t k (.val .u [])) w.vregs }
  let xs := lanes16.map fun k => if k = (if isSup w.id.core then k else l) then v else lane (regLanes old) k
  { u with vregs := tset u.vregs n (if isSym old then .val .g xs else mkReg xs) }

/-- A sub-weft moved to an address: it is ready there. -/
def debugMove (w : Weft) (i : Nat) (v : Word64) : Weft :=
  match (subsInOrder w)[i]? with
  | none => w
  | some b => endFlight (updSub w (lowest b.mask) fun b => { b with pc := v, park := none, hold := .none })

/-- Whether DBGWR may write a special register: those that Table 1 of R82 does not call RO (R295). It calls $symst RO (log
entry 69). -/
def specWritable : SReg → Bool
  | .uivec | .uimask | .uistat | .ctl | .fpst => true
  | _ => false

/-- A write of an item: none where the selector is invalid or the item is read only. -/
def debugWrite (s : State) (p : Panel) (w : Weft) (sel : Nat) (v : Word64) : Option State :=
  let i := field sel 27 0
  let put (f : Weft → Weft) : Option State := some (updWeft s w.id f)
  match field sel 31 28 with
  | 0 => if i ≥ 4096 then none else put fun w => debugLane w (i % 256) (i / 256) (v.setWidth 32)
  | 1 => if i < scalarBudget p w then put fun w => { w with sregs := tset w.sregs i (v.setWidth 32) } else none
  | 2 => if i < 7 then put fun w => { w with preds := setNth (sevenPreds w.preds) i (v.setWidth 16) } else if i = 7 then some s else none
  | 4 => if i < 16 ∧ v.toNat % 8 = 0 then put fun w => debugMove w i v else none
  | 6 =>
    match sregOf i with
    | some r => if specWritable r then put fun w => specWrite w r v else none
    | none => none
  | 7 =>
    if i < 16 then
      let x := v.toNat
      some (putBarrier s w.key i ⟨field x 14 0, field x 30 16, BitVec.ofNat 32 (field x 63 32)⟩)
    else none
  | 8 =>
    if i ≤ 24 then
      some (updPanel s w.key fun p => { p with debug := tset p.debug i (BitVec.ofNat 64 (debugKeep i v.toNat)) })
    else none
  | _ => none

/-- The halted weft that the handle names, with its panel. -/
def haltedWeft (x : Ctx) : R (Option (Weft × Panel)) := do
  match ← idleWeft x with
  | none => .ok none
  | some w => .ok (if w.halted then (getPanel x.s w.key).map fun p => (w, p) else none)

/-- DBGRD. -/
def dbgrdBody (x : Ctx) : R Out := do
  let sel ← num1 x .b
  let r := match ← haltedWeft x with | some (w, p) => debugRead x.s p w sel | none => none
  let ok (w : Weft) : Weft := predResult x w (predNum x.f.c) (if r.isSome then 0xFFFF else 0) none
  let s ← writeRes x true (splat (BitVec.ofNat 64 (r.getD 0))) none ok
  Out.step s

def execDbgrd (f : Fields) (s : State) : Host.Outcome State Fault Refusal := onWeft .dbgrd f .once dbgrdBody s

/-- DBGWR. -/
def dbgwrBody (x : Ctx) : R Out := do
  let sel ← num1 x .b
  let v ← rd1 x .c true
  match (← haltedWeft x).bind fun e => debugWrite x.s e.2 e.1 sel v with
  | some s => Out.step (predOut x s true)
  | none => Out.step (predOut x x.s false)

def execDbgwr (f : Fields) (s : State) : Host.Outcome State Fault Refusal := onWeft .dbgwr f .once dbgwrBody s

/-- The end of a DSTEP at its target, whose status it takes. -/
def stepEnd (x : Ctx) (w : Weft) (n : Nat) : R Out := statusOut x (updWeft x.s w.id fun w => { w with stepped := none }) n

/-- DSTEP: the target issues one unit while the issuer waits. -/
def dstepBody (x : Ctx) : R Out := do
  let i ← num1 x .b
  let t ← handleWeft x
  match x.b.hold, t with
  | .stepping, none => statusOut x x.s 0
  | .stepping, some w =>
    match w.stepped with
    | some n => stepEnd x w n
    | none => if w.stepping.isSome then .error .wait else statusOut x x.s 0
  | _, none => statusOut x x.s 3
  | _, some w =>
    if w.stepping.isSome || w.stepped.isSome then .error .wait
    else if !w.halted then statusOut x x.s 3
    else
      match (subsInOrder w)[i]? with
      | none => statusOut x x.s 3
      | some b =>
        if b.park.isSome || b.mask &&& ~~~handlerLanes w != 0 then statusOut x x.s 1
        else
          let s := updWeft x.s w.id fun w => { w with stepping := some (lowest b.mask) }
          .ok ⟨updCur s x.c fun b => { b with hold := .stepping }, .wait, []⟩

def execDstep (f : Fields) (s : State) : Host.Outcome State Fault Refusal := onWeft .dstep f .once dstepBody s

end Sys2Proof.Machine
end

