-- ==== Sys2Proof/Machine/Regions.lean ====
section
/-!
DEFINITION. Atomic regions (R239 to R248, R325, R326): opening, commit, explicit aborts and bounds, and the events of
conflicts, commits and the serial slot.
-/
namespace Sys2Proof.Machine

/-! ### The join that opens ARBEGIN and AREND (R241) -/

/-- The weft joins as under JOIN before the instruction executes once for the merged weft. -/
def joined (x : Ctx) (go : State → R Out) : R Out :=
  if x.b.hold = .joinBody ∨ (x.w.subs.length > 1 ∧ (x.b.hold = .none)) then
    if x.w.subs.length ≤ 1 then go (closeDivs x.s x.w.id)
    else .ok ⟨updCur x.s x.c fun b => { b with hold := .joinBody }, .park .join, []⟩
  else go (closeDivs x.s x.w.id)

/-! ### ARBEGIN (R242, R248) -/

/-- A region opened with the operands of an ARBEGIN. -/
def openRegion (x : Ctx) (s : State) (serial : Bool) (target : Word64) : State :=
  let c := modByte x.f.c
  let (o, s) := freshId s
  let dom := c % 16
  let floor := (getDom s (partNum x.w.key) dom).floor
  let r : Region := {
    elastic := bitOf x.f.mod.toNat 0, serial := serial, dom := dom, scope := c / 16, target := target, reads := [],
    writes := [], buf := [], deps := [], versions := [], opened := o }
  updWeft s x.w.id fun w =>
    { w with rlo := BitVec.ofNat 64 floor, rhi := 0xFFFF_FFFF_FFFF_FFFF, rstat := rstatOpen w.rstat serial, region := some r }

/-- Whether a weft still waits for a serial slot. -/
def waitsSerial (s : State) (id : WId) : Bool :=
  match getWeft s id with
  | some w => w.subs.any fun b => b.hold == .serialWait
  | none => false

/-- The wefts that wait for a domain's serial slot, in the order of request. -/
def serialWaiters (s : State) (part dom : Nat) : List WId := (getDom s part dom).waiters.filter (waitsSerial s)

/-- ARBEGIN. -/
def arbeginBody (x : Ctx) : R Out := do
  let target := offsetFrom x.c (← rd1 x .a false)
  joined x fun s =>
    if x.w.region.isSome then .ok ⟨abortRegion s x.w.id 7 0 0, .jumped, []⟩
    else if nabort x.w.rstat < 16 then Out.step (openRegion x s false target)
    else
      let part := partNum x.w.key
      let dom := modByte x.f.c % 16
      let d := getDom s part dom
      match x.b.hold with
      | .serialGo => Out.step (openRegion x s true target)
      | .serialWait => .error .wait
      | _ =>
        if d.slot.isNone && (serialWaiters s part dom).isEmpty then
          Out.step (openRegion x (setDom s part dom { d with slot := some x.w.id }) true target)
        else
          let s := setDom s part dom { d with waiters := d.waiters.filter (· ≠ x.w.id) ++ [x.w.id] }
          .ok ⟨updCur s x.c fun b => { b with hold := .serialWait }, .wait, []⟩

def execArbegin (f : Fields) (s : State) : Host.Outcome State Fault Refusal := onWeft .arbegin f .once arbeginBody s

/-- SERIAL_SLOT_GRANT: a free slot goes to the first weft that waits for it. -/
def execSerialSlotGrant (part dom : Nat) (s : State) : Host.Outcome State Fault Refusal :=
  let d := getDom s part dom
  match d.slot, serialWaiters s part dom with
  | none, id :: t =>
    let s := setDom s part dom { d with slot := some id, waiters := t }
    let go (w : Weft) : Weft :=
      { w with subs := w.subs.map fun b => if b.hold = .serialWait then { b with hold := .serialGo } else b }
    .next (progress (updWeft s id go))
  | _, _ => .next s

/-! ### Commit (R244) -/

/-- The coherence class of a line as the fronts hold it, or as its cached copies carry it. -/
def classOfLine (s : State) (line : Nat) : Nat :=
  match s.tlb.find? fun t => paIn t.leaf t.bits (t.vpage * 4096) / 4096 == line / 32, (getLine s line).fills with
  | some t, _ => leafCC t.leaf
  | none, f :: _ => leafCC f.leaf
  | none, [] => 1

/-- The runs of consecutive bytes that a buffer holds of one line: address and bytes. -/
def lineRuns (buf : List Host.Cell) (line : Nat) : List (Nat × List Byte) :=
  (List.range 128).foldr (fun o acc =>
    let a := line * 128 + o
    match tget buf a, acc with
    | some b, (k, bs) :: t => if k = a + 1 then (a, b :: bs) :: t else (a, [b]) :: (k, bs) :: t
    | some b, [] => [(a, [b])]
    | none, _ => acc) []

/-- Bytes that a commit writes at their home, or to the peer behind a window address. -/
def commitRun (w : Weft) (s : State) (pa : Nat) (bs : List Byte) : State :=
  match placeOf s pa with
  | .peer t off => postWrite s w.id (agentAt w true 0) w.key.part t off (localPa s pa) bs
  | _ =>
    let line := lineOf pa
    let s := collapsePage s (pa / 4096)
    let s := coWrite s w.id.core line (classOfLine s line) (offsetsIn pa bs.length) w.key.part
    storeBytes s w.id.core pa bs

/-- A line's record takes a committed position: the higher of it and the one recorded. -/
def recordCommit (r : LineRec) (part dom p : Nat) : LineRec :=
  let old := (committedAt r part dom).getD 0
  { r with commits := (part, dom, max p old) :: r.commits.filter fun c => !(c.1 == part && c.2.1 == dom) }

/-- The lines of a region's footprint. -/
def footprint (r : Region) : List Nat := r.reads ++ r.writes.filter fun l => !r.reads.contains l

/-- Whether a commit's writes can be made now: no line of them is being copied, no home is in a transaction, no frame
stack that a collapse needs is held (R222, R362, R366). -/
def commitReady (s : State) (r : Region) : Bool :=
  r.deps.isEmpty && r.writes.all fun l =>
    (copyingAt s (l * 128)).isNone && lineServes s l (classOfLine s l) && !collapseWaits s (l / 32)

/-- The dependents of a committed region: they no longer wait for it, and their lower bounds rise. -/
def raiseDependents (s : State) (id : WId) (p : Nat) : State :=
  (dependents s id).foldl (fun s e =>
    match getWeft s e with
    | none => s
    | some w =>
      let drop (r : Region) : Region := { r with deps := r.deps.filter (· ≠ id) }
      let lo := max w.rlo.toNat (p + 1)
      let s := updWeft s e fun w => { w with region := w.region.map drop, rlo := BitVec.ofNat 64 (min lo (2 ^ 64 - 1)) }
      if lo ≥ 2 ^ 64 then abortRegion s e 1 0 0 else checkEmpty s e) s

/-- The commit of a weft's region at position p = `$rlo`. -/
def commitRegion (s : State) (w : Weft) (r : Region) : State :=
  let p := w.rlo.toNat
  let part := partNum w.key
  let lines := footprint r
  let s := lines.foldl (fun s l => setLine s (recordCommit (getLine s l) part r.dom p)) s
  let s := r.writes.foldl (fun s l => (lineRuns r.buf l).foldl (fun s e => commitRun w s e.1 e.2) s) s
  let bump (s : State) (pa : Nat) : State :=
    match placeOf s pa with
    | .peer t off => postOp s w.id (agentAt w true 0) w.key.part t off (localPa s pa) (.aon [])
    | _ => commitRun w s pa (toBytes 8 (physNum s pa 8 + 2))
  let s := r.versions.foldl bump s
  let deps := dependents s w.id
  let stale (x : Snap) : Bool :=
    (r.buf.any fun c => c.1 == x.pa) && deps.any fun d => match getWeft s d with | some u => agentOf u x.agent | none => false
  let s := { s with snaps := s.snaps.filter fun x => !stale x && !(agentOf w x.agent && lines.contains (lineOf x.pa)) }
  let d := getDom s part r.dom
  let (k, s) := if p + 1 < 2 ^ 64 then (p + 1, s) else ((Config.freePos s.tick) % 2 ^ 64, { s with tick := s.tick + 1 })
  let s := setDom s part r.dom { d with floor := max d.floor k }
  let s := freeSerial s w r
  let s := updWeft s w.id fun w => { w with rhi := w.rlo, rstat := rstatCommit w.rstat, region := none }
  raiseDependents s w.id p

/-- AREND: with every dependence committed the region commits; else it waits in the scoreboard. -/
def arendBody (x : Ctx) : R Out :=
  joined x fun s =>
    match x.w.region with
    | none => Out.step s
    | some r =>
      withRelease { x with s := s } 0 fun s =>
        if commitReady s r then Out.step (commitRegion s x.w r)
        else .ok ⟨updCur s x.c fun b => { b with hold := .arend }, .wait, []⟩

def execArend (f : Fields) (s : State) : Host.Outcome State Fault Refusal := onWeft .arend f .once arendBody s

/-- REGION_COMMIT: the region of a weft that waits at AREND commits. -/
def execRegionCommit (id : WId) (s : State) : Host.Outcome State Fault Refusal :=
  match getWeft s id with
  | none => .next s
  | some w =>
    match w.region with
    | none => .next s
    | some r =>
      if (w.subs.any fun b => b.hold == .arend) && commitReady s r then
        let go (w : Weft) : Weft :=
          { w with subs := w.subs.map fun b => if b.hold = .arend then { b with hold := .joined } else b }
        .next (progress (updWeft (commitRegion s w r) id go))
      else .next s

/-! ### ARABORT and ARBND (R245) -/

/-- ARABORT. -/
def arabortBody (x : Ctx) : R Out := do
  let c ← num1 x .a
  if x.w.region.isSome then .ok ⟨abortRegion x.s x.w.id 4 0 (c % 256), .jumped, []⟩ else Out.step x.s

def execArabort (f : Fields) (s : State) : Host.Outcome State Fault Refusal := onWeft .arabort f .once arabortBody s

/-- ARBND. The `$rhi` of a serial region stays at the top (R248). -/
def arbndBody (x : Ctx) : R Out := do
  let a ← rd1 x .a true
  match x.w.region with
  | none => Out.step x.s
  | some r =>
    let set (w : Weft) : Weft :=
      if !bitOf x.f.mod.toNat 0 then { w with rlo := if a > w.rlo then a else w.rlo }
      else if r.serial then w
      else { w with rhi := if a < w.rhi then a else w.rhi }
    let s := checkEmpty (updWeft x.s x.w.id set) x.w.id
    if regionLost s x then .ok ⟨s, .jumped, []⟩ else Out.step s

def execArbnd (f : Fields) (s : State) : Host.Outcome State Fault Refusal := onWeft .arbnd f .once arbndBody s

/-! ### REGION_CONFLICT (R243) -/

/-- REGION_CONFLICT: a conflict that the slice of a line finds between two open regions that mark it, where neither has
been placed after the other yet. -/
def execRegionConflict (access owner : WId) (line : Nat) (write : Bool) (s : State) : Host.Outcome State Fault Refusal :=
  match (getWeft s access).bind (·.region), (getWeft s owner).bind (·.region) with
  | some f, some e =>
    let mine := if write then f.writes.contains line else f.reads.contains line
    let theirs := e.writes.contains line || e.reads.contains line
    if mine && theirs && !f.deps.contains owner && !e.deps.contains access then
      .next (meetRegions s access owner line write)
    else .next s
  | _, _ => .next s

end Sys2Proof.Machine
end

