-- ==== Sys2Proof/Machine/Coherence.lean ====
section
/-!
DEFINITION. The messages of the directory protocol as events (R371, R373 to R378, R381): a request that must wait for
another party opens a transaction at the home of its line, and the later messages end it. The bytes of a line stand in
physical memory whichever copy holds them, because every valid copy holds the current bytes (R381).
-/
namespace Sys2Proof.Machine

/-! ### Serving requests (R374, R375, R377) -/

/-- A translation of a line's frame that the fronts hold. -/
def frameEnt (s : State) (line : Nat) : Option TlbEnt :=
  s.tlb.find? fun t => paIn t.leaf t.bits (t.vpage * 4096) / 4096 == line / 32

/-- The partition under whose translation a line is held. -/
def linePart (s : State) (line : Nat) : Option Nat :=
  match frameEnt s line with
  | some t => if t.part < 64 then some t.part else none
  | none => none

/-- A core's request counts at the home (R359). -/
def countReq (s : State) (line a : Nat) (isRead : Bool) : State :=
  match frameEnt s line with
  | some t => if t.part < 64 ∧ a < 320 then countAccess s t.part t a 1 isRead else s
  | none => s

/-- The copy of an agent at a line. -/
def heldAs (r : LineRec) (a : Nat) : CState := tgetD r.l1 a .i

/-- A request granted, every copy that it ends being gone. A host client's copy is a shared one; a core's L1 makes room for its
copy, which carries the translation under which the fronts hold the frame (R354). -/
def grantReq (s : State) (line a : Nat) (k : ReqKind) : State :=
  let s := if k = .atm then s else roomL1 s a line
  let r := getLine s line
  let put (r : LineRec) : State := setLine s (if a < 320 then noteFill s ⟨0, 0, frameEnt s line⟩ r a else r)
  match k with
  | .rds =>
    let r := serveRead r a
    put (if a < 320 then r else setCopy r a .s)
  | .prv m => put (grantPriv r a m)
  | .atm => setLine s { r with llc := .i }
  | _ => put (setCopy (invalidateOthers { mergeRec r with llc := .i } a) a .m)

/-- A transaction opened at the home of a line. -/
def openAt (s : State) (line : Nat) (q : Option (Nat × ReqKind)) (h : HState) (pending : List Nat) : State :=
  setLine s { getLine s line with home := h, open_ := q, pending := pending }

/-- A line stable again. -/
def closeAt (s : State) (line : Nat) : State :=
  setLine s { getLine s line with home := .stb, open_ := none, pending := [] }

/-- Invalidations sent to the agents listed, or the grant where there is none. -/
def invalidateThen (s : State) (line a : Nat) (k : ReqKind) (others : List Nat) : State :=
  if others.isEmpty then grantReq s line a k else openAt s line (some (a, k)) .inv others

/-- A write request served: RDX, and a PRV or an UPG that is served as one (R376, R377). -/
def serveRdx (s : State) (line a : Nat) : State :=
  let r := getLine s line
  if !r.masks.isEmpty then openAt s line (some (a, .rdx)) .mrg (r.masks.map (·.1))
  else
    match r.owner with
    | some o =>
      if o ≠ a ∧ (heldAs r o = .m ∨ heldAs r o = .e) then openAt s line (some (a, .rdx)) .fwd [o]
      else invalidateThen s line a .rdx (otherHolders r a)
    | none => invalidateThen s line a .rdx (otherHolders r a)

/-- What a write request does to the regions that mark its line and to the copies outside the package. -/
def writeMeets (s : State) (line : Nat) : State :=
  let s := strayWrite s line
  if classOfLine s line = 2 then backInvalidate s line else s

/-- One request served by a stable home as Table 4 gives. -/
def serveReq (s : State) (line a : Nat) (k : ReqKind) : State :=
  match k with
  | .rds =>
    let s := countReq (quietLine s line) line a true
    let r := getLine s line
    if heldAs r a ≠ .i then s
    else if !r.masks.isEmpty then openAt s line (some (a, k)) .mrg (r.masks.map (·.1))
    else
      match r.owner with
      | some o => openAt s line (some (a, k)) .fwd [o]
      | none => grantReq s line a k
  | .rdx => serveRdx (writeMeets (countReq (quietLine s line) line a false) line) line a
  | .upg =>
    let s := writeMeets (countReq (quietLine s line) line a false) line
    let r := getLine s line
    if heldAs r a = .s ∨ heldAs r a = .o then invalidateThen s line a k (otherHolders r a) else serveRdx s line a
  | .prv m =>
    let s := countReq s line a false
    let r := getLine s line
    if privOk s r a m (orderedPart s (linePart s line)) then
      invalidateThen s line a k ((otherHolders r a).filter fun o => heldAs r o != .p)
    else serveRdx (writeMeets (quietLine s line) line) line a
  | .atm =>
    let s := writeMeets (countReq s line a false) line
    let r := getLine s line
    if !r.masks.isEmpty then openAt s line (some (a, k)) .mrg (r.masks.map (·.1))
    else invalidateThen s line a k (otherHolders r 512)

/-- The requests that wait at a home are served in their order, while the line is stable (R373). -/
def serveWaiting : Nat → State → Nat → State
  | 0, s, _ => s
  | n + 1, s, line =>
    let r := getLine s line
    match r.home, r.waiting with
    | .stb, (a, k) :: t => serveWaiting n (serveReq (setLine s { r with waiting := t }) line a k) line
    | _, _ => s

/-- The requests that a line's home can serve now, and the units that waited for it. -/
def resumeLine (s : State) (line : Nat) : State :=
  progress (serveWaiting ((getLine s line).waiting.length + 1) s line)

/-- The end of the transaction that is open at a line, when no party is pending any more. -/
def endTxn (s : State) (line : Nat) : State :=
  let r := getLine s line
  let t := closeAt s line
  match r.home, r.open_ with
  | .mrg, q =>
    let t := trimLlc (setLine t { getLine t line with masks := [], llc := .m }) line
    resumeLine (match q with | some (a, k) => serveReq t line a k | none => t) line
  | .fwd, some (a, k) => resumeLine (grantReq t line a k) line
  | .fwd, none => resumeLine t line
  | .inv, some (a, k) => resumeLine (grantReq t line a k) line
  | _, _ => s

/-- One party of the open transaction has answered. -/
def answered (s : State) (line a : Nat) : State :=
  let r := getLine s line
  let rest := r.pending.filter (· ≠ a)
  let s := setLine s { r with pending := rest }
  if rest.isEmpty then endTxn s line else s

/-- The home asks the package that may write a line for it (R333): its bytes come as a write or a write-back. -/
def askBack (s : State) (line : Nat) : State :=
  let r := getLine s line
  match r.owner with
  | none => s
  | some o =>
    { setLine s { setCopy r o .o with home := .fwd, open_ := none, pending := [o] } with
      outbox := s.outbox ++ (r.remotes.map fun t => (⟨some (4096 + t), 1, toBytes 8 (line * 128)⟩ : Reply)) }

/-- A request that arrives at the home of a line. Requests for a line in a transaction wait in arrival order; a write
to a line that a serial region marks is held at its source (R248). -/
def arriveReq (s : State) (line a : Nat) (k : ReqKind) : State :=
  let reader := match k with | .rds => a < 322 | _ => decide (a < 320)
  let write := match k with | .rds => false | _ => true
  let r := getLine s line
  if !reader || classOfLine s line = 0 || (a ≥ 320 && classOfLine s line != 2) || (write && serialMarks s line) then s
  else
    let s := setLine s { r with waiting := r.waiting ++ [(a, k)] }
    if r.home = .stb ∧ ownedAway s line then askBack s line else resumeLine s line

/-- RDS. -/
def execRds (agent line : Nat) (s : State) : Host.Outcome State Fault Refusal := .next (arriveReq s line agent .rds)

/-- RDX. -/
def execRdx (agent line : Nat) (s : State) : Host.Outcome State Fault Refusal := .next (arriveReq s line agent .rdx)

/-- UPG. -/
def execUpg (agent line : Nat) (s : State) : Host.Outcome State Fault Refusal := .next (arriveReq s line agent .upg)

/-- PRV: the bytes written are offsets of the line. -/
def execPrv (agent line : Nat) (mask : List Nat) (s : State) : Host.Outcome State Fault Refusal :=
  .next (arriveReq s line agent (.prv ((mask.filter (· < 128)).eraseDups)))

/-- ATM: the copies end; what the atomic computes is in the meaning of its instruction. -/
def execAtm (agent line : Nat) (s : State) : Host.Outcome State Fault Refusal := .next (arriveReq s line agent .atm)

/-! ### Evictions (R374, R376 to R378) -/

/-- The list of remote holders ends with the last copy of a fabric port (R370). -/
def noRemotes (a : Nat) (r : LineRec) : LineRec :=
  if a ≥ 323 && r.l1.all fun e => e.1 == a || decide (e.1 < 323) then { r with remotes := [], overflow := false } else r

/-- An agent's copy leaves the entry. It answers a forward, an invalidation or a merge that is under way; the eviction
of a privatised copy from a stable line merges the line. A message from an agent that is not listed is discarded. -/
def leaveCopy (s : State) (line a : Nat) : State :=
  let c := heldAs (getLine s line) a
  if c = .i then s
  else
    let s := evictMarked s a line
    let r := noRemotes a (getLine s line)
    match r.home, c with
    | .stb, .p => openAt s line none .mrg (r.masks.map (·.1))
    | .fwd, _ =>
      let s := setLine s (setCopy r a .i)
      if r.pending = [a] then endTxn (setLine s { getLine s line with pending := [] }) line else s
    | .inv, _ =>
      let s := setLine s (setCopy r a .i)
      if r.pending.contains a then answered s line a else s
    | .mrg, _ =>
      let s := setLine s (setCopy r a .i)
      if r.pending.contains a then answered s line a else s
    | _, _ => setLine s (setCopy r a .i)

/-- WB: the memory holds the line's bytes and the copy leaves the entry. -/
def execWb (agent line : Nat) (s : State) : Host.Outcome State Fault Refusal := .next (leaveCopy s line agent)

/-- EVC. -/
def execEvc (agent line : Nat) (s : State) : Host.Outcome State Fault Refusal := .next (leaveCopy s line agent)

/-! ### Forwards, invalidations and merges (R373, R376, R378) -/

/-- FORWARD: the holder supplies the data, its copy downgraded for a read and dropped for a write. A holder without a
copy answers none, and the home waits for its write-back. -/
def execForward (line : Nat) (s : State) : Host.Outcome State Fault Refusal :=
  let r := getLine s line
  match r.home, r.pending, r.open_ with
  | .stb, _, _ => .next (if ownedAway s line then askBack s line else s)
  | .fwd, [o], some (_, .rds) =>
    match heldAs r o with
    | .m => .next (setLine s { setCopy r o .o with pending := [] })
    | .e => .next (setLine s { setCopy r o .s with pending := [] })
    | .o => .next (setLine s { r with pending := [] })
    | _ => .next s
  | .fwd, [o], some (_, _) =>
    if heldAs r o = .i then .next s
    else
      let s := evictMarked s o line
      .next (setLine s { setCopy (getLine s line) o .i with pending := [] })
  | _, _, _ => .next s

/-- FORWARD_DATA: the home serves the forwarded request. -/
def execForwardData (line : Nat) (s : State) : Host.Outcome State Fault Refusal :=
  let r := getLine s line
  if r.home = .fwd ∧ r.pending = [] then .next (endTxn s line) else .next s

/-- An agent's copy dropped, with the regions of its core that mark the line. -/
def dropCopy (s : State) (line a : Nat) : State :=
  let s := evictMarked s a line
  setLine s (setCopy (getLine s line) a .i)

/-- INVALIDATION. -/
def execInvalidation (agent line : Nat) (s : State) : Host.Outcome State Fault Refusal :=
  let r := getLine s line
  if r.home = .inv ∧ r.pending.contains agent then .next (dropCopy s line agent) else .next s

/-- INVALIDATION_ACK. -/
def execInvalidationAck (agent line : Nat) (s : State) : Host.Outcome State Fault Refusal :=
  let r := getLine s line
  if r.home = .inv ∧ r.pending.contains agent ∧ heldAs r agent = .i then .next (answered s line agent) else .next s

/-- MERGE_REQUEST: the holder returns the bytes of its mask and its copy ends. -/
def execMergeRequest (agent line : Nat) (s : State) : Host.Outcome State Fault Refusal :=
  let r := getLine s line
  if r.home = .mrg ∧ r.pending.contains agent then .next (setLine s (setCopy r agent .i)) else .next s

/-- MERGE_RESPONSE. -/
def execMergeResponse (agent line : Nat) (s : State) : Host.Outcome State Fault Refusal :=
  let r := getLine s line
  if r.home = .mrg ∧ r.pending.contains agent ∧ heldAs r agent = .i then .next (answered s line agent) else .next s

/-! ### Recalls and recovery (R371, R381, R382) -/

/-- The parties that hold a copy. -/
def holders (r : LineRec) : List Nat := (r.l1.filter fun e => e.2 != .i).map (·.1)

/-- The end of a recall: the entry is freed, the waiting requests are served, and a recovery is logged. -/
def endRecall (s : State) (line : Nat) : State :=
  let r := getLine s line
  let s := setLine s { r with home := .stb, open_ := none, pending := [], l1 := [], fills := [], masks := [], owner := none,
                              sharers := [], llc := .i, lost := none }
  let s := resumeLine s line
  match r.lost with
  | some a => machineCheck s 26 a (line * 128) 0 2
  | none => s

/-- A line's home begins to recall every copy that its entry lists: it merges, ends shadow and gather, and ends the
copies outside the package. -/
def startRecall (s : State) (line : Nat) (h : HState) (lost : Option Nat) : State :=
  let s := backInvalidate (mergeLine s line) line
  let s := if h = .recov then forceLine s line else quietLine s line
  let r := getLine s line
  let s := setLine s { r with home := h, pending := holders r, lost := lost, open_ := none,
                              waiting := r.open_.toList ++ r.waiting }
  if (holders r).isEmpty then endRecall s line else s

/-- Whether a recall may begin at a line: its home is at rest, and an agent holds a copy, or no copy stands beside a shadow or a
gather, which the recall ends (R45, R371). -/
def mayRecall (s : State) (agent line : Nat) : Bool :=
  let r := getLine s line
  r.home == .stb && !ownedAway s line &&
  (heldAs r agent != .i || ((holders r).isEmpty && !(r.shadows.isEmpty && r.gather.isEmpty && r.pend.isEmpty)))

/-- RECALL: a recall for capacity begins at a stable line, and the agent's copy is dropped (log entry 10). -/
def execRecall (agent line : Nat) (s : State) : Host.Outcome State Fault Refusal :=
  let s := if mayRecall s agent line then startRecall s line .rcl none else s
  let r := getLine s line
  if (r.home = .rcl ∨ r.home = .recov) ∧ r.pending.contains agent then .next (dropCopy s line agent) else .next s

/-- RECALL_RESPONSE. -/
def execRecallResponse (agent line : Nat) (s : State) : Host.Outcome State Fault Refusal :=
  let r := getLine s line
  if (r.home = .rcl ∨ r.home = .recov) ∧ r.pending.contains agent ∧ heldAs r agent = .i then
    let rest := r.pending.filter (· ≠ agent)
    let s := setLine s { r with pending := rest }
    .next (if rest.isEmpty then endRecall s line else s)
  else .next s

/-- Whether an agent's copy is the only one that holds the bytes it has written. -/
def onlyDirty (r : LineRec) (a : Nat) : Bool :=
  match heldAs r a with
  | .m => true
  | .p => true
  | .o => (otherHolders r a).isEmpty && r.llc == .i
  | _ => false

/-- The loss of a write-back: the bytes that no other copy holds are poisoned. -/
def loseWriteBack (s : State) (line a : Nat) (mask : List Nat) : State :=
  let r := getLine s line
  let mine := match heldAs r a with
    | .p => mask.filter fun o => ((tget r.masks a).getD []).contains o
    | _ => mask.filter (· < 128)
  let r' := setCopy r a .i
  let r' := if onlyDirty r a then { r' with poison := r'.poison ++ mine.filter fun o => !r'.poison.contains o } else r'
  startRecall (setLine s r') line .recov (some a)

/-- LOST_MESSAGE: the home recovers the line, or an atomic's response errs at its requester. A line that is being moved
or recovered already goes on as it is. -/
def execLostMessage (line : Nat) (k : LostKind) (s : State) : Host.Outcome State Fault Refusal :=
  let r := getLine s line
  let busy := r.home == .mig || r.home == .recov || ownedAway s line
  match k with
  | .ack a => .next (if busy then s else startRecall s line .recov (some a))
  | .update a => .next (if busy then s else startRecall s line .recov (some a))
  | .writeBack a mask =>
    match heldAs r a with
    | .m | .o | .p => .next (if busy then s else loseWriteBack s line a mask)
    | _ => .next s
  | .atomic id lanes applied =>
    let add (w : Weft) : Weft :=
      let (did, not) := w.lose.getD (0, 0)
      { w with lose := some (if applied then (did ||| lanes, not &&& ~~~lanes) else (did &&& ~~~lanes, not ||| lanes)) }
    .next (updWeft s id add)

end Sys2Proof.Machine
end

