-- ==== Sys2Proof/Machine/Migration.lean ====
section
/-!
DEFINITION. The migration engine (R360 to R367): acceptance of moves and duplications, the copy of lines, the wait for
region marks, the switch of a leaf entry, and the copy back of an abandoned move.
-/
namespace Sys2Proof.Machine

/-! ### MOVE_START (R359 to R361, R365) -/

/-- What becomes of a request when the engine looks at it. -/
inductive ReqFate
  | drop
  | stay
  | accept (leaf at_ : Nat)
  deriving DecidableEq, Repr

/-- Whether a frame is an end of a move in flight. -/
def inMove (s : State) (frame : Nat) : Bool := s.moves.any fun m => m.oldF == frame || m.newF == frame

/-- The frame on top of a stack, where it has one. -/
def topFrame (s : State) (stack : Nat) : Option Nat :=
  if stack = 0 ∨ physNum s stack 4 = 0 then none else some (physNum s (stack + 16 + 8 * (physNum s stack 4 - 1)) 8 / 4096)

/-- Whether a partition's pages may lie in a tier: its descriptor's CXL bit opens the pool to them (R299, log entry 65). -/
def tierOpen (s : State) (part tier : Nat) : Bool :=
  match getPart s part with
  | some p => tier != 3 || p.desc.cxl
  | none => true

/-- Whether the engine drops a request instead of letting it wait: a request of a counter (R360, R361). -/
def counterReq (q : MoveReq) : Bool := q.cause == 0 || (q.dup && q.count != 0)

/-- The fate of a request (R250, R357, R359 to R361, R365), its page checked afresh. A duplicate needs a frame of the
other base die; the move of a duplicated page waits while the duplicate's stack is held. -/
def fateOf (s : State) (q : MoveReq) : ReqFate :=
  let none_ : ReqFate := if counterReq q then .drop else .stay
  match walk s q.asid (some q.part) (q.vpage * 4096) with
  | .leaf l at_ 12 =>
    let old := leafPa l / 4096
    let pinned := q.cause != 3 && (decide ((getPage s old).pins > 0) || leafPin l)
    if inMove s old then none_
    else if !leafT l || !channelOk s (some q.part) (leafPa l) then .drop
    else if q.dup then
      if !leafDup l || leafW l || tierOf (leafPa l) != 1 || (dupOf s old).isSome then .drop
      else if stackLocked s (stackOf s q.part 1) then .stay
      else
        match topFrame s (stackOf s q.part 1) with
        | some f => if homeDie (f * 4096) = homeDie (leafPa l) then none_ else .accept l at_
        | none => none_
    else if q.tier = tierOf (leafPa l) || pinned || !bitOf (leafAff l) (q.tier - 1) || !tierOpen s q.part q.tier then .drop
    else if stackLocked s (stackOf s q.part q.tier) || collapseWaits s old then .stay
    else
      match topFrame s (stackOf s q.part q.tier) with
      | some _ => .accept l at_
      | none => none_
  | _ => .drop

/-- The first request, in arrival order, that does not stay, with its fate. -/
def nextReq (s : State) : List MoveReq → Option (MoveReq × ReqFate)
  | [] => none
  | q :: t =>
    match fateOf s q with
    | .stay => nextReq s t
    | f => some (q, f)

/-- A move accepted: BUSY is set in the leaf entry and the forwarding entry stands. -/
def acceptMove (s : State) (q : MoveReq) (leaf at_ : Nat) : State :=
  let old := leafPa leaf / 4096
  let s := if q.dup then s else collapsePage s old
  match popFrame s (stackOf s q.part q.tier) with
  | none => s
  | some (f, s) =>
    let s := orLeaf s at_ (2 ^ 17)
    { s with moves := s.moves ++
      [⟨q.id, q.part, q.asid, q.vpage, at_, physNum s at_ 8, old, f, q.cause, q.count, 0, .copy, q.dup, []⟩] }

/-- MOVE_START. At most 64 moves run at once. -/
def execMoveStart (s : State) : Host.Outcome State Fault Refusal :=
  if s.moves.length ≥ 64 then .next s
  else
    match nextReq s s.moveReqs with
    | none => .next s
    | some (q, f) =>
      let s := progress { s with moveReqs := s.moveReqs.filter fun x => x.id ≠ q.id }
      match f with
      | .accept leaf at_ => .next (acceptMove s q leaf at_)
      | _ => .next s

/-! ### MOVE_LINE_COPY (R361 to R365) -/

/-- The move of a page. -/
def moveAt (s : State) (asid vpage : Nat) : Option Move := s.moves.find? fun m => m.asid == asid && m.vpage == vpage

/-- The state with a move replaced. -/
def setMove (s : State) (m : Move) : State := { s with moves := s.moves.map fun x => if x.id = m.id then m else x }

/-- Whether an open region marks a line. -/
def markedBy (s : State) (line : Nat) (p : Region → Bool) : List WId :=
  (openRegions s).filter fun e =>
    match (getWeft s e).bind (·.region) with
    | some r => (r.reads.contains line || r.writes.contains line) && p r
    | none => false

/-- A line prepared (R363): merged, its shadow rounded and its gather closed, its dirty copies written back. The copies
stay valid. -/
def prepareLine (s : State) (line : Nat) : State :=
  let s := forceLine (mergeLine s line) line
  let r := getLine s line
  let clean (r : LineRec) (e : Nat × CState) : LineRec :=
    match e.2 with | .m => setCopy r e.1 .s | .o => setCopy r e.1 .s | .e => setCopy r e.1 .s | _ => r
  let r := r.l1.foldl clean r
  setLine s { r with llc := match r.llc with | .i => .i | _ => .s }

/-- Bytes written by the engine: the memory here, and a posted write where the frame is a peer's (R331). -/
def engineStore (s : State) (part pa : Nat) (bs : List Byte) : State :=
  let s := writePhys s pa bs
  match framePlace s pa with
  | .peer t off => (postAt s 322 none none (some part) t off pa (.write bs)).2
  | _ => s

/-- The state in which the engine has asked a peer for a line that it copies; none where its bytes are here. -/
def moveAsks (s : State) (m : Move) (line : Nat) : Option State :=
  match framePlace s (line * 128) with
  | .peer _ _ =>
    if fetched s (.device m.id) (line * 128) then none
    else some (askLine (.device m.id) none (some m.part) s (m.vpage * 4096) (line * 128))
  | _ => none

/-- An address of one line renamed to another's. -/
def renamePa (o n pa : Nat) : Nat := if lineOf pa = o then n * 128 + pa % 128 else pa

/-- The line's entry, baselines and region marks go to the new frame's line (R327, R363). -/
def moveLine (s : State) (o n : Nat) : State :=
  let r := getLine s o
  let ren (l : Nat) : Nat := if l = o then n else l
  let reg (g : Region) : Region :=
    { g with
      reads := g.reads.map ren
      writes := g.writes.map ren
      buf := g.buf.foldl (fun t c => tset t (renamePa o n c.1) c.2) []
      versions := g.versions.map (renamePa o n) }
  { s with
    lines := (s.lines.filter fun x => x.line ≠ o ∧ x.line ≠ n) ++ [{ r with line := n }]
    snaps := s.snaps.map fun x => { x with pa := renamePa o n x.pa }
    wefts := s.wefts.map fun w => { w with region := w.region.map reg } }

/-- The bytes of one line copied between frames, its entry with them; a poisoned byte stays poisoned. -/
def copyLine (s : State) (part o n : Nat) : State :=
  let r := getLine s o
  moveLine (engineStore s part (n * 128) (mread s.mem (o * 128) 128)) o n |> fun t =>
    if r.poison.isEmpty then t else setLine t { getLine t n with poison := r.poison }

/-- A held atomic or reduction executed at the new frame's home; a peer's executes there (R362). -/
def applyHeldOp (m : Move) (s : State) (pa cc : Nat) (h : WinWrite) (op : PktOp) : State :=
  match framePlace s pa, h.ret, op with
  | .peer t off, some (id, w, lane), _ =>
    let (p, s) := makePacket s t off (opLen op) op 0 (some m.part)
    { injectPacket s p with outReqs := s.outReqs ++ [⟨id, t, w, lane, pa, t * 2 ^ 48 + off, pa, op⟩] }
  | .peer t off, none, _ => (postAt s h.agent.coreOf none (some h.agent) (some m.part) t off pa op).2
  | _, some (id, w, lane), _ =>
    let (old, s) := fabricAtom s pa cc op m.part
    giveOld s id w lane old
  | _, none, .red o mod v key => fabricRed s pa cc o mod v m.part key
  | _, none, _ => s

/-- A held write applied to the new frame. -/
def applyHeld (m : Move) (s : State) (h : WinWrite) : State :=
  let pa := m.newF * 4096 + h.pa % 4096
  let cc := classOfLine s (m.oldF * 32)
  match h.op with
  | some op => applyHeldOp m s pa cc h op
  | none =>
    let s := strayWrite s (lineOf pa)
    let core := h.agent.coreOf
    let s := coWrite s core (lineOf pa) cc (offsetsIn pa h.data.length) (some m.part)
    match framePlace s pa with
    | .peer t off => (postAt (storeBytes s core pa h.data) core none (some h.agent) (some m.part) t off pa (.write h.data)).2
    | _ => storeBytes s core pa h.data

/-- The end of an abandoned move's copy back (R364 steps 2 to 5); it waits while the frame's stack is held. -/
def endBack (s : State) (m : Move) : State :=
  if stackLocked s (stackOf s m.part (tierOf (m.newF * 4096))) then s
  else
    let s := writeNum s m.leafPa 8 (setField (physNum s m.leafPa 8) 17 17 0)
    let s := { s with moves := s.moves.filter fun x => x.id ≠ m.id }
    let s := pushFrame s m.part m.asid m.vpage m.newF
    progress (moveRecord s m.part m.count 7 m.asid m.vpage m.newF m.oldF)

/-- The end of a duplication (R365). -/
def endDup (s : State) (m : Move) : State :=
  let s := writeNum s m.leafPa 8 (setField (physNum s m.leafPa 8) 17 17 0)
  let s := { s with
    moves := s.moves.filter fun x => x.id ≠ m.id
    dups := s.dups ++ [⟨m.oldF, m.newF, m.asid, m.vpage, m.part⟩] }
  progress (moveRecord s m.part m.count 4 m.asid m.vpage m.newF m.oldF)

/-- The preparation of line c. The copy begins where no region marks the line; else the engine waits. -/
def beginLine (s : State) (m : Move) : State :=
  let line := m.oldF * 32 + m.c
  let r := getLine s line
  if (r.home ≠ .stb ∧ r.home ≠ .mig) ∨ ownedAway s line then s
  else
    let s := prepareLine s line
    let s := setLine s { getLine s line with home := .mig }
    setMove s { m with stage := if (markedBy s line fun _ => true).isEmpty then .copying else .waitMarks }

/-- The end of the copy of line c: its held writes are applied to the new frame and their waiters go on. -/
def finishLine (s : State) (m : Move) : State :=
  let o := m.oldF * 32 + m.c
  let n := m.newF * 32 + m.c
  let m' := { m with c := m.c + 1, stage := .copy, held := [] }
  if m.dup then
    let s := writePhys s (n * 128) (mread s.mem (o * 128) 128)
    let s := resumeLine (setMove (setLine s { getLine s o with home := .stb }) m') o
    if m.c + 1 = 32 then endDup s m else s
  else
    let s := setMove (copyLine s m.part o n) m'
    let s := m.held.foldl (applyHeld m) (setLine s { getLine s n with home := .stb })
    let s := m.held.foldl (fun s h => match h.ret with | some (id, w, _) => endAsks s id w | none => s) s
    wakeFor (resumeLine s n) .window fun _ _ x => x == .window m.id

/-- MOVE_LINE_COPY: one step of the work on the move's current line. -/
def execMoveLineCopy (asid : BitVec 16) (vpage : Nat) (s : State) : Host.Outcome State Fault Refusal :=
  match moveAt s asid.toNat vpage with
  | none => .next s
  | some m =>
    match m.stage with
    | .copy => .next (if m.c < 32 then beginLine s m else s)
    | .waitMarks => .next (beginLine s m)
    | .copying =>
      match moveAsks s m (m.oldF * 32 + m.c) with
      | some t => .next t
      | none => .next (dropFetches (finishLine s m) (.device m.id))
    | .back =>
      if m.c < 32 then
        let o := m.newF * 32 + m.c
        let r := getLine s o
        if r.home = .stb ∧ !ownedAway s o then
          match moveAsks s m o with
          | some t => .next t
          | none =>
            let s := dropFetches (prepareLine s o) (.device m.id)
            .next (setMove (copyLine s m.part o (m.oldF * 32 + m.c)) { m with c := m.c + 1 })
        else .next s
      else .next (endBack s m)

/-- MIGRATION_REGION_WAIT_EXPIRY: the newest region that marks the line and is not in serial mode aborts (R363). -/
def execMigrationRegionWaitExpiry (asid : BitVec 16) (vpage : Nat) (s : State) : Host.Outcome State Fault Refusal :=
  match moveAt s asid.toNat vpage with
  | none => .next s
  | some m =>
    if m.stage = .waitMarks then
      match (markedBy s (m.oldF * 32 + m.c) fun r => !r.serial).getLast? with
      | some e => .next (abortRegion s e 6 0 0)
      | none => .next s
    else .next s

/-! ### MOVE_SWITCH (R361, R364) -/

/-- The page record follows the page: its pins and its leader; its counters start at 0 (R250, R355, R359). -/
def movePage (s : State) (o n : Nat) : State :=
  let p := getPage s o
  let s := updPage s n fun q => { q with pins := p.pins, leader := p.leader, counts := [], readDies := [] }
  { s with pages := s.pages.filter fun q => q.frame ≠ o }

/-- Whether the switch of a move can be made: its lines are copied, the stack of the old frame is free, and no access
under the old translation is on its way. -/
def switchReady (s : State) (m : Move) : Bool :=
  !m.dup && m.stage == .copy && m.c == 32 && !stackLocked s (stackOf s m.part (tierOf (m.oldF * 4096))) &&
  !(s.tlb.any fun t => t.vpage == m.vpage && t.asid == m.asid && entryBusy s t)

/-- MOVE_SWITCH. With a bit other than A or D changed the move is abandoned. -/
def execMoveSwitch (asid : BitVec 16) (vpage : Nat) (s : State) : Host.Outcome State Fault Refusal :=
  match moveAt s asid.toNat vpage with
  | none => .next s
  | some m =>
    if !switchReady s m then .next s
    else
      let e := physNum s m.leafPa 8
      let rest (x : Nat) : Nat := setField x 15 14 0
      if rest e ≠ rest m.expect then .next (setMove s { m with stage := .back, c := 0 })
      else
        let s := writeNum s m.leafPa 8 (setField (setField e 57 18 m.newF) 17 17 0)
        let s := dropTlb s fun t => t.vpage == m.vpage && (t.asid == m.asid || (leafG t.leaf && t.part == m.part))
        let s := movePage { s with moves := s.moves.filter fun x => x.id ≠ m.id } m.oldF m.newF
        let s := pushFrame s m.part m.asid m.vpage m.oldF
        .next (progress (moveRecord s m.part m.count m.cause m.asid m.vpage m.newF m.oldF))

end Sys2Proof.Machine
end

