-- ==== Sys2Proof/Machine/Engines.lean ====
section
/-!
DEFINITION. The chunks of engine commands and their completion (R41, R42, R256, R257, R265 to R273, R340, R345).
-/
namespace Sys2Proof.Machine

/-! ### Spaces that a command reaches -/

/-- n bytes from memory or the panel's scratchpad. -/
def spaceGet (m : EngFor) (key : PKey) (kind : Nat) (a : Int) (n : Nat) (s : State) : Except EngStop (List Byte × State) :=
  if kind = 0 then engBytes m (wrap 64 a) n s
  else
    match getPanel s key with
    | some p =>
      let (c, i) := placeOff p (wrap 32 a) n
      .ok (mread (panelCore p c).pad i n, s)
    | none => .ok (zeros n, s)

/-- Bytes written to memory, the panel's scratchpad or the core's operand buffer. -/
def spacePut (m : EngFor) (key : PKey) (kind : Nat) (a : Int) (bs : List Byte) (s : State) : Option EngStop × State :=
  match kind with
  | 0 => engPuts m (wrap 64 a) bs s
  | 1 =>
    match getPanel s key with
    | some p =>
      let (c, i) := placeOff p (wrap 32 a) bs.length
      (none, padWrite s key c i bs)
    | none => (none, s)
  | _ => (none, updCore s m.core fun c => { c with obuf := mwrite c.obuf a.toNat bs })

/-- A run of elements: the state, how many are done, the bytes written, the memory touched (address, read), and why it
stopped (with whether a write stopped it). -/
structure EngRun where
  s : State
  n : Nat
  bytes : Nat
  seen : List (Nat × Bool)
  stop : Option (EngStop × Bool)
  deriving DecidableEq, Repr

/-- One element moved: read from a source, or a given pattern, and written. -/
def moveElem (m : EngFor) (key : PKey) (src : Option (Nat × Int)) (fill : List Byte) (dk : Nat) (dst : Int) (r : EngRun) :
    EngRun :=
  let got := match src with
    | some (k, a) => spaceGet m key k a fill.length r.s
    | none => .ok (fill, r.s)
  match got with
  | .error e => { r with stop := some (e, false) }
  | .ok (bs, s) =>
    match spacePut m key dk dst bs s with
    | (some e, _) => { r with stop := some (e, true) }
    | (none, s) =>
      let rd := match src with | some (0, a) => [(wrap 64 a, true)] | _ => []
      let wr := if dk = 0 then [(wrap 64 dst, false)] else []
      { r with s := s, n := r.n + 1, bytes := r.bytes + bs.length, seen := rd ++ wr ++ r.seen }

/-- Elements moved in order until one stops. -/
def moveAll {α : Type} (f : α → EngRun → EngRun) : List α → EngRun → EngRun
  | [], r => r
  | x :: t, r => if r.stop.isSome then r else moveAll f t (f x r)

/-- The lines of a run counted at their homes, and its posted writes to peers. -/
def countRun (m : EngFor) (cmd : Nat) (r : EngRun) (n : Nat) : State :=
  let ls := r.seen.foldl (fun (l : List (Nat × Bool)) x => if l.any fun y => y.1 / 128 == x.1 / 128 && y.2 == x.2 then l else x :: l) []
  let wrote := (r.seen.filter fun x => !x.2).flatMap fun x => (List.range n).map (x.1 + ·)
  ls.foldl (fun s x => engCount s m x.1 x.2) (engPost r.s m (some cmd) wrote)

/-! ### Copies and gathers (R271, R272) -/

/-- One chunk of a copy: up to 4,096 destination bytes of tuples. -/
def copyChunk (s : State) (m : EngFor) (c : Cmd) : EngRun :=
  let d := copyOf (ofBytes c.bytes)
  let es := 2 ^ d.es
  let k := min (4096 / es) (copyTotal d - c.prog)
  moveAll (fun i r =>
    let (ex, so, dd) := copyTuple d (c.prog + i)
    moveElem m c.key (if ex then some (d.sk, so) else none) (toBytes es d.fill) d.dk dd r)
    (List.range k) ⟨s, 0, 0, [], none⟩

/-- Index i of a gather, read from the scratchpad. -/
def gathIndex (s : State) (m : EngFor) (c : Cmd) (i : Nat) : Int :=
  match spaceGet m c.key 1 ((gathOf (ofBytes c.bytes)).idx + 4 * i : Nat) 4 s with
  | .ok (bs, _) => toSigned 32 (ofBytes bs)
  | .error _ => 0

/-- One row of a gather. A row that meets an absent page has not begun. -/
def gathChunk (s : State) (m : EngFor) (c : Cmd) : EngRun :=
  let d := gathOf (ofBytes c.bytes)
  let i := c.prog
  let x := gathIndex s m c i
  let ok := decide (0 ≤ x) && decide (x < d.limit)
  let r := moveAll (fun (j : Nat) r =>
    moveElem m c.key (if ok then some (0, d.base + x * d.ss + 4 * j) else none) (toBytes 4 d.fill) d.dk
      (d.dst + i * d.ds + 4 * j : Nat) r) (List.range (d.rowBytes / 4)) ⟨s, 0, 0, [], none⟩
  match r.stop with
  | none => { r with n := 1 }
  | some (.denied _, _) => { r with n := 0 }
  | some _ => { r with s := s, n := 0, bytes := 0, seen := [] }

/-! ### Collectives (R273) -/

/-- The participants of a core's first collective: each core with its command, when every core of the panel has the
collective of that number at its head. -/
def collParty (s : State) (c : Cmd) : Option (List (Nat × Cmd)) :=
  match getPanel s c.key with
  | none => none
  | some p =>
    let d := collOf (ofBytes c.bytes)
    p.cores.mapM fun k =>
      match engineCmds s k .coll with
      | x :: _ => if x.key = c.key ∧ (collOf (ofBytes x.bytes)).id = d.id ∧ x.prog = 0 ∧ x.status = 0 then some (k, x) else none
      | [] => none

/-- The sum of one element over the positions, in ascending order. -/
def collSum (ty : Nat) (xs : List Nat) : Nat :=
  match xs with
  | [] => 0
  | x :: t =>
    match ty with
    | 2 => t.foldl (fun a b => (a + b) % 2 ^ 32) x
    | 1 =>
      let f (c : Nat) : Nat := exactCode .f32 (decodeF .bf16 c)
      let sum := t.foldl (fun a b => (faddV .f32 .rne false (decodeF .f32 a) (decodeF .f32 (f b))).1) (f x)
      (encodeF .bf16 .rne false 0 (decodeF .f32 sum)).1
    | _ => t.foldl (fun a b => (faddV .f32 .rne false (decodeF .f32 a) (decodeF .f32 b)).1) x

/-- The bytes of a collective's source on a core, word by word. -/
def collBytes (p : Panel) (core off n : Nat) : List Byte :=
  (List.range (n / 4)).flatMap fun i => mread (panelCore p core).pad (localAt p (off + 4 * i)) 4

/-- The result of a collective from the sources of the positions. -/
def collResult (d : CollDesc) (srcs : List (List Byte)) : List Byte :=
  if d.op = 0 then srcs.getD d.root []
  else
    let es := if d.ty = 1 then 2 else 4
    (List.range (d.bytes / es)).flatMap fun i =>
      toBytes es (collSum d.ty (srcs.map fun b => ofBytes ((b.drop (es * i)).take es)))

/-- A command replaced on its core. -/
def updCmd (s : State) (core id : Nat) (f : Cmd → Cmd) : State :=
  updCore s core fun x => { x with cmds := x.cmds.map fun c => if c.id = id then f c else c }

/-- A collective carried out on every core of its panel. -/
def collRun (s : State) (p : Panel) (party : List (Nat × Cmd)) : State :=
  let ds := party.map fun e => collOf (ofBytes e.2.bytes)
  match ds with
  | [] => s
  | d :: t =>
    let same := t.all fun x => x.op == d.op && x.ty == d.ty && x.root == d.root && x.bytes == d.bytes
    if !same then party.foldl (fun s e => updCmd s e.1 e.2.id fun c => { c with status := 8 }) s
    else
      let srcs := party.map fun e => collBytes p e.1 (collOf (ofBytes e.2.bytes)).src d.bytes
      let out := collResult d srcs
      party.foldl (fun s e =>
        let own := collOf (ofBytes e.2.bytes)
        if collWrites d (partyPos p e.1) then
          let s := (List.range (d.bytes / 4)).foldl (fun s i =>
            padWrite s p.key e.1 (localAt p (own.dst + 4 * i)) ((out.drop (4 * i)).take 4)) s
          let s := setSpots s p.key e.2.id ((planColl p e.1 own).writes.map (·.1))
          updCmd s e.1 e.2.id fun c => { c with prog := 1, written := d.bytes }
        else updCmd s e.1 e.2.id fun c => { c with prog := 1 }) s

/-! ### Matrix products (R41, R42, R265, R267) -/

/-- The floating-point format of a swatch format's elements. -/
def elemFmt : Nat → Fmt
  | 0 => .f64 | 1 => .f32 | 2 => .f16 | 3 => .bf16 | 4 => .e4m3 | 5 => .e5m2 | 7 => .e2m1 | _ => .e4m3

/-- The code of element (r, k) of a swatch in an operand buffer. -/
def swatchCode (ob : List Host.Cell) (w : Swatch) (r k : Nat) : Nat :=
  let e := elemIndex w r k
  let base := w.base * 128
  if w.fmt = 7 then (mget ob (base + e / 2)).toNat / (if e % 2 = 0 then 1 else 16) % 16
  else mnum ob (base + e * (elemBits w.fmt / 8)) (elemBits w.fmt / 8)

/-- The scale of the block of element (r, k): block scale times band scale, 1 without scales (R30, R265). -/
def swatchScale (ob : List Host.Cell) (w : Swatch) (r k : Nat) : FVal :=
  if w.fmt < 7 then .fin false 1 0
  else
    let base := w.base * 128
    let kr := roundUp w.k (blockLen w.fmt)
    let bk := (mget ob (base + w.bkoff * 128 + r * (kr / blockLen w.fmt) + k / blockLen w.fmt)).toNat
    let bn := mnum ob (base + w.bnoff * 128 + 2 * (r / 64)) 2
    fmulExact (decodeF .e3m5 bk) (decodeF .bf16 bn)

/-- Element (i, j) of tiles from t, the region n wide in tiles of w columns: its byte in the accumulator store. -/
def accAt (t n w i j : Nat) : Nat :=
  (t + i / 32 * ((n + w - 1) / w) + j / w) * 4096 + (i % 32 * w + j % w) * (if w = 16 then 8 else 4)

/-- The code of the A operand at (i, k): a swatch element, or a tile element as BF16 (R267). -/
def matA (ob acc : List Host.Cell) (g : MatGeo) (a : Swatch) (i k : Nat) : Nat :=
  match g.src with
  | none => swatchCode ob a i k
  | some t => (encodeF .bf16 .rne false 0 (decodeF .f32 (mnum acc (accAt t g.k 32 i k) 4))).1

/-- A scale as a factor of each element and a factor of the block's sum. A scale that is no finite number
belongs to the elements: under it a zero element is NaN and each other element infinite or NaN (R32, log
entry 81). -/
def scaleParts : FVal → FVal × FVal
  | .fin s m e => (.fin false 1 0, .fin s m e)
  | v => (v, .fin false 1 0)

/-- The terms of one K-block: the exact sum, or the integer sum of INT8 (R41, R42); `fa` and `fb` are the
factors of the elements of either side (`scaleParts`). -/
def blockSum (ob acc : List Host.Cell) (g : MatGeo) (a b : Swatch) (i j : Nat) (fa fb : FVal) (ks : List Nat) :
    Acc × Int :=
  ks.foldl (fun (t : Acc × Int) k =>
    if k ≥ g.k then (t.1.selvedge, t.2)
    else
      let x := matA ob acc g a i k
      let y := swatchCode ob b j k
      if g.fb = 6 then (t.1, t.2 + toSigned 8 x * toSigned 8 y)
      else (t.1.term (fmulExact (decodeF (elemFmt g.fa) x) fa) (fmulExact (decodeF (elemFmt g.fb) y) fb), t.2))
    ({}, 0)

/-- One result element over the K indices of a chunk (R41). -/
def matElem (ob acc : List Host.Cell) (g : MatGeo) (a b : Swatch) (i j : Nat) (ks : List Nat) (c : Nat) : Nat :=
  let bl := kBlock g.fb
  let blocks := (ks.filter fun k => k % bl == 0).map fun k0 => ks.filter fun k => k / bl == k0 / bl
  blocks.foldl (fun c blk =>
    let sa := scaleParts (swatchScale ob a i (blk.headD 0))
    let sb := scaleParts (swatchScale ob b j (blk.headD 0))
    let (t, n) := blockSum ob acc g a b i j sa.1 sb.1 blk
    if g.fb = 6 then wrap 32 ((c : Int) + n)
    else
      let v := fmulExact (fmulExact t.value sa.2) sb.2
      (accStep (if g.fa = 0 then .f64 else .f32) c v).1) c

/-- The accumulator store of a core after one chunk of a product: one destination tile over 256 indices of K. -/
def matChunk (ob acc : List Host.Cell) (z : Bool) (g : MatGeo) (a b : Swatch) (prog : Nat) : List Host.Cell :=
  let tile := prog / kChunks g
  let kk := prog % kChunks g
  let ct := (g.n + g.w - 1) / g.w
  let es := if g.w = 16 then 8 else 4
  let ks := ((List.range 256).map fun k => 256 * kk + k).filter fun k => k < g.kr
  let is := ((List.range 32).map fun i => 32 * (tile / ct) + i).filter fun i => i < g.m
  let js := ((List.range g.w).map fun j => g.w * (tile % ct) + j).filter fun j => j < g.n
  is.foldl (fun out i =>
    js.foldl (fun out j =>
      let at_ := accAt g.t g.n g.w i j
      let c := if z && kk == 0 then 0 else mnum acc at_ es
      mwrite out at_ (toBytes es (matElem ob acc g a b i j ks c))) out) acc

/-! ### Matrix operations, chunk by chunk -/

/-- The accumulator store of a panel on a core replaced. -/
def setAcc (s : State) (key : PKey) (core : Nat) (acc : List Host.Cell) : State :=
  updPanel s key fun p => updPanelCore p core fun c => { c with acc := acc }

/-- One tile of a drain (R269). A tile that meets an absent page has not begun. -/
def drainChunk (s : State) (m : EngFor) (p : Panel) (core t : Nat) (c : Cmd) : EngRun :=
  let d := drainOf (ofBytes c.bytes)
  let w := drainWidth d
  let ct := (d.n + w - 1) / w
  let acc := (panelCore p core).acc
  let es := drainBytes d
  let is := ((List.range 32).map fun i => 32 * (c.prog / ct) + i).filter fun i => i < d.m
  let js := ((List.range w).map fun j => w * (c.prog % ct) + j).filter fun j => j < d.n
  let mode := (Rnd.ofCode d.rnd).getD .rne
  let value (i j : Nat) : Nat :=
    let x := mnum acc (accAt t d.n w i j) (if w = 16 then 8 else 4)
    match d.fmt with
    | 1 => (encodeF .bf16 mode false 0 (decodeF .f32 x)).1
    | 2 => (encodeF .f16 mode false 0 (decodeF .f32 x)).1
    | _ => x
  let r := moveAll (fun (e : Nat × Nat) r =>
    moveElem m c.key none (toBytes es (value e.1 e.2)) (if d.pad then 1 else 0) (d.dst + e.1 * d.stride + e.2 * es : Nat) r)
    (is.flatMap fun i => js.map fun j => (i, j)) ⟨s, 0, 0, [], none⟩
  match r.stop with
  | none => { r with n := 1 }
  | some (.denied _, _) => { r with n := 0 }
  | some _ => { r with s := s, n := 0, bytes := 0, seen := [] }

/-- One chunk of a matrix operation. -/
def matrixChunk (s : State) (m : EngFor) (p : Panel) (core : Nat) (c : Cmd) (op : MatOp) : EngRun :=
  let ob := (getCore s core).obuf
  let pc := panelCore p core
  let done (s : State) : EngRun := ⟨s, 1, 0, [], none⟩
  match op with
  | .mma z a b t =>
    match matGeo (.mma z a b t) with
    | some g => done (setAcc s c.key core (matChunk ob pc.acc z g (swatchOf a) (swatchOf b) c.prog))
    | none => done s
  | .mmac z src k b t =>
    match matGeo (.mmac z src k b t) with
    | some g =>
      let none_ : Swatch := ⟨false, 0, 0, 3, 0, 0, 1, 1, 0, 0, true⟩
      done (setAcc s c.key core (matChunk ob pc.acc z g none_ (swatchOf b) c.prog))
    | none => done s
  | .aclr t _ => done (setAcc s c.key core (mwrite pc.acc ((t + c.prog) * 4096) (zeros 4096)))
  | .ald off t _ =>
    let (k, i) := placeOff p ((off.toNat + 4096 * c.prog) % 2 ^ 32) 4096
    done (setAcc s c.key core (mwrite pc.acc ((t + c.prog) * 4096) (mread (panelCore p k).pad i 4096)))
  | .ast off t _ =>
    let (k, i) := placeOff p ((off.toNat + 4096 * c.prog) % 2 ^ 32) 4096
    { done (padWrite s c.key k i (mread pc.acc ((t + c.prog) * 4096) 4096)) with bytes := 4096 }
  | .drain t => drainChunk s m p core t c

/-! ### ENGINE_CHUNK (R256) -/

/-- The engine number of completion records and of KIND 13 (R257, R413). -/
def engineEp : Engine → Nat
  | .copy => 1
  | .gather => 2
  | .coll => 3
  | .matrix => 4

/-- The element bytes of a command's memory accesses. -/
def cmdElem (c : Cmd) : Nat :=
  let n := ofBytes c.bytes
  match c.mat, c.engine with
  | some (.drain _), _ => drainBytes (drainOf n)
  | none, .copy => 2 ^ (copyOf n).es
  | _, _ => 4

/-- The state after a run of a command: its progress, the spots that are now complete, and its wait or its end. -/
def afterRun (m : EngFor) (core : Nat) (c : Cmd) (pl : Plan) (r : EngRun) : State :=
  let s := countRun m c.id r (cmdElem c)
  let prog := c.prog + r.n
  let full := (pl.writes.filter fun w => w.2 > c.prog && w.2 ≤ prog).map (·.1)
  let s := if full.isEmpty then s else setSpots s c.key c.id full
  let s := updCmd s core c.id fun c => { c with prog := prog, written := c.written + r.bytes }
  match r.stop with
  | none => progress s
  | some (.wait, _) => s
  | some (.absent va, _) => noteAbsent s c.key.part core va c.desc (engineEp c.engine)
  | some (.denied va, wr) =>
    let s := match engRefused s m va with
      | some fa => refusalRecord s c.key.part 0 0 core c.desc fa
      | none => engAlias s m va
    updCmd s core c.id fun c => { c with status := if wr then 6 else 5 }

/-- The first command of an engine that still has chunks to execute and that nothing holds. -/
def chunkHead (s : State) (core : Nat) (e : Engine) : Option (Panel × Cmd × Plan) :=
  match engineCmds s core e with
  | [] => none
  | c :: _ =>
    match getPanel s c.key with
    | none => none
    | some p =>
      let pl := planOf p core c
      if cmdHeld s core c || c.status != 0 || c.prog ≥ pl.total || !cmdReady s c pl then none else some (p, c, pl)

/-- The addresses of memory that the next chunk of a command reads. -/
def chunkReads (s : State) (m : EngFor) (c : Cmd) : List Nat :=
  let n := ofBytes c.bytes
  match c.engine with
  | .copy =>
    let d := copyOf n
    if d.sk ≠ 0 then []
    else (List.range (min (4096 / 2 ^ d.es) (copyTotal d - c.prog))).filterMap fun i =>
      let (ex, so, _) := copyTuple d (c.prog + i)
      if ex then some (wrap 64 so) else none
  | .gather =>
    let d := gathOf n
    let x := gathIndex s m c c.prog
    if 0 ≤ x ∧ x < d.limit then (List.range (d.rowBytes / 4)).map fun (j : Nat) => wrap 64 (d.base + x * d.ss + 4 * j) else []
  | _ => []

/-- The state in which a chunk has asked peers for the lines that it reads; none where it may run. -/
def chunkAsks (s : State) (m : EngFor) (c : Cmd) : Option State := engFetch s m (.device c.id) (chunkReads s m c)

/-- Whether every participant of a collective may run. -/
def partyReady (s : State) (p : Panel) (l : List (Nat × Cmd)) : Bool :=
  l.all fun e => !cmdHeld s e.1 e.2 && cmdReady s e.2 (planOf p e.1 e.2)

/-- Whether a chunk of an engine's first command can be executed. -/
def chunkDue (s : State) (core : Nat) (e : Engine) : Bool :=
  match chunkHead s core e with
  | none => false
  | some (p, c, _) => if e = .coll then (match collParty s c with | some l => partyReady s p l | none => false) else true

/-- ENGINE_CHUNK: one chunk of the first command of an engine. -/
def execEngineChunk (core : Nat) (e : Engine) (s : State) : Host.Outcome State Fault Refusal :=
  match chunkHead s core e with
  | none => .next s
  | some (p, c, pl) =>
    let m := engFor p core c.unc
    match e, chunkAsks s m c with
    | .copy, some t => .next t
    | .gather, some t => .next t
    | .copy, none => .next (dropFetches (afterRun m core c pl (copyChunk s m c)) (.device c.id))
    | .gather, none => .next (dropFetches (afterRun m core c pl (gathChunk s m c)) (.device c.id))
    | .matrix, _ =>
      match c.mat with
      | some op => .next (afterRun m core c pl (matrixChunk s m p core c op))
      | none => .next s
    | .coll, _ =>
      match collParty s c with
      | some l => if partyReady s p l then .next (progress (collRun s p l)) else .next s
      | none => .next s

/-! ### ENGINE_COMPLETION (R256 item 7) -/

/-- Whether a command pushes a completion record (R268). -/
def pushesRecord (c : Cmd) : Bool :=
  match c.mat with
  | none => true
  | some (.drain _) => true
  | some _ => false

/-- The completion record of a command (R257). -/
def cmdRecord (c : Cmd) : BitVec 128 := mkCompletion c.desc (engineEp c.engine) c.status (min (2 ^ 32 - 1) c.written)

/-- A command leaves its engine. -/
def dropCmd (s : State) (core id : Nat) : State :=
  updCore s core fun x => { x with cmds := x.cmds.filter fun c => c.id ≠ id }

/-- The first command of an engine that has ended and that nothing holds. -/
def endedHead (s : State) (core : Nat) (e : Engine) : Option Cmd :=
  match engineCmds s core e with
  | [] => none
  | c :: _ =>
    match getPanel s c.key with
    | none => some c
    | some p => if cmdHeld s core c || (c.status == 0 && c.prog < (planOf p core c).total) then none else some c

/-- The tiles and lines of an ended command return (R97, R98). -/
def returnTiles (s : State) (core : Nat) (c : Cmd) : State :=
  match getPanel s c.key with
  | none => s
  | some p =>
    let s := setSpots s c.key c.id ((planOf p core c).writes.map (·.1))
    updCmd (freeTiles s c.key c.id) core c.id fun c => { c with stage := 1 }

/-- The decrement of an ended command, or its error record (KIND 4). False where the decrement has to wait. -/
def decrementTask (s : State) (core : Nat) (c : Cmd) : Bool × State :=
  let task := taskOf c
  let done (s : State) : State := updCmd s core c.id fun c => { c with stage := 2 }
  if task = 0 then (true, done s)
  else if c.status ≠ 0 then (true, done (errRecord s c.key.part 4 0 0 core c.status task c.desc))
  else
    match c.key.part, getPanel s c.key with
    | some part, some p =>
      match decRec s part p.asid task c.desc core with
      | (true, s) => (true, done s)
      | (false, s) => (false, s)
    | _, _ => (true, done s)

/-- ENGINE_COMPLETION: the first command of an engine completes, in the order of R256 item 7. -/
def execEngineCompletion (core : Nat) (e : Engine) (s : State) : Host.Outcome State Fault Refusal :=
  match endedHead s core e with
  | none => .next s
  | some c =>
    let s := if c.stage = 0 then returnTiles s core c else s
    let (go, s) := if c.stage ≤ 1 then decrementTask s core c else (true, s)
    if !go then .next s
    else if pushesRecord c && !cqRoom s c.key c.cq then .next s
    else
      let s := if pushesRecord c then pushCq s c.key c.cq (cmdRecord c) else s
      .next (endPanel (wakeFor (dropCmd s core c.id) .queue fun w _ x => w.id.core == core && x == .engine c.engine) c.key)

end Sys2Proof.Machine
end

