-- ==== Sys2Proof/Machine/Package.lean ====
section
/-!
DEFINITION. Dies, power and reset (R393, R432 to R437): the quiesce and reset of a compute die, the reset of the package,
power levels and thermal trips. A command of the host and its answer pass over the management bus (Reply kind 13).
-/
namespace Sys2Proof.Machine

/-! ### The quiesce of a compute die (R393) -/

/-- Whether a party with an agent number is a core of a die. -/
def onDie (die a : Nat) : Bool := a < 320 && dieOf a == die

/-- The commands of a panel end with STATUS 7 and without a decrement; a command with a task leaves its record (R256). The
operand-buffer units that they had still to write turn present (R97), and the wefts that wait for room in a command queue issue
again. -/
def cancelCmds (s : State) (k : PKey) : State :=
  let rec_ (core : Nat) (s : State) (c : Cmd) : State :=
    if c.key = k ∧ taskOf c ≠ 0 ∧ c.stage < 2 then errRecord s k.part 4 0 0 core 7 (taskOf c) c.desc else s
  let s := s.cores.foldl (fun s x => x.cmds.foldl (rec_ x.num) s) s
  let gone (x : CoreSt) (i : Nat) : Bool := x.cmds.any fun c => c.key == k && c.id == i
  let hit (core : Nat) (e : Engine) : Bool := (getCore s core).cmds.any fun c => c.key == k && c.engine == e
  let ended := { s with cores := s.cores.map fun x => { x with
    cmds := x.cmds.filter fun c => c.key ≠ k
    obAbsent := x.obAbsent.filter fun e => !((s.cores.any fun y => gone y e.2)) } }
  wakeFor ended .queue fun w _ x => match x with | .engine e => hit w.id.core e | _ => false

/-- A panel destroyed: its wefts, commands, bins and waits go, the responses on their way are discarded, and its record goes
to its partition's error queue. -/
def destroyPanel (s : State) (p : Panel) : State :=
  let k := p.key
  let ids := (weftsOf s k).map (·.id)
  let s := ids.foldl dropSerial (forWefts s ids quiesceWeft)
  let s := p.cores.foldl mergeCore (cancelCmds s k)
  let s := { s with
    panels := s.panels.filter fun q => q.key ≠ k
    wefts := s.wefts.filter fun w => w.key ≠ k
    cores := s.cores.map fun c => { c with bins := c.bins.filter fun b => b.key ≠ k }
    landings := s.landings.filter fun l => !ids.contains l.w
    symAccs := s.symAccs.filter fun a => a.key ≠ k
    outReqs := s.outReqs.filter fun r => !ids.contains r.w
    fetches := s.fetches.filter fun f => !(match f.unit with | some u => ids.contains u.1 | none => false) &&
      !(match f.who with | .symbol p _ _ => p == k | _ => false)
    snaps := s.snaps.filter fun x => !agentPanel k x.agent
    erred := s.erred.filter fun x => !agentPanel k x.agent
    postedW := s.postedW.map fun x => if x.owner.any (agentPanel k) then { x with owner := none } else x
    walks := s.walks.filter fun w => !(match w.w with | some id => ids.contains id | none => false)
    parts := s.parts.map fun e => (e.1, { e.2 with deqs := e.2.deqs.filter fun d => !ids.contains d.w }) }
  sendPosts (wakeLines (errRecord s k.part 9 0 0 (p.cores.headD 0) k.num.toNat 0 0))

/-- The panels with a core on a die. -/
def panelsOnDie (s : State) (die : Nat) : List Panel := s.panels.filter fun p => p.cores.any fun c => dieOf c == die

/-- A line drained: merged, rounded, its gather closed, and the die's copies written back. A line in a transaction is left to
it. -/
def drainLine (die : Nat) (s : State) (line : Nat) : State :=
  if (getLine s line).home ≠ .stb then s
  else
    let s := forceLine (mergeLine s line) line
    let r := getLine s line
    setLine s (((holders r).filter (onDie die)).foldl (fun r a => setCopy r a .i) r)

/-- Steps 1 and 2 of R393: the panels of the die are destroyed, and its lines drained. -/
def quiesceDie (s : State) (die : Nat) : State :=
  let s := (panelsOnDie s die).foldl destroyPanel s
  (s.lines.map (·.line)).foldl (drainLine die) s

/-- Whether a request at a home is one of a die's core. -/
def asksFrom (die : Nat) (q : Nat × ReqKind) : Bool := onDie die q.1

/-- Whether a die's cores hold no line, take part in no transaction and wait at no home. -/
def drained (s : State) (die : Nat) : Bool :=
  s.lines.all fun r => !((holders r).any (onDie die)) && !(r.pending.any (onDie die)) && !(r.open_.any (asksFrom die)) &&
    !(r.waiting.any (asksFrom die))

/-- Step 4 of R393: the registers of the die take their reset values. -/
def resetCores (s : State) (die : Nat) : State :=
  progress { s with
    cores := s.cores.filter fun c => dieOf c.num ≠ die
    fetches := s.fetches.filter fun f => !(match f.who with | .code c _ => dieOf c == die | _ => false)
    quiescing := s.quiescing.filter (· ≠ die) }

/-- A line recovered after the fence (R381, R393): the die's cores answer no copy, their requests end, and bytes that only they
held dirty are poisoned. -/
def fenceLine (die : Nat) (s : State) (line : Nat) : State :=
  let r := getLine s line
  let mine := (holders r).filter (onDie die)
  let others := r.waiting.filter fun q => !asksFrom die q
  if mine.isEmpty && !(r.pending.any (onDie die)) && !(r.open_.any (asksFrom die)) then
    if others.length = r.waiting.length then s else setLine s { r with waiting := others }
  else
    let dirty := mine.flatMap fun a => match heldAs r a with
      | .p => (tget r.masks a).getD []
      | _ => if onlyDirty r a then List.range 128 else []
    let r' := mine.foldl (fun r a => setCopy r a .i) r
    let r' := { r' with poison := r'.poison ++ (dirty.eraseDups.filter fun o => !r'.poison.contains o),
                        pending := r'.pending.filter fun a => !onDie die a
                        open_ := r'.open_.filter fun q => !asksFrom die q
                        waiting := others }
    match r.home with
    | .mig => setLine s r'
    | .recov => if r'.pending.isEmpty then endRecall (setLine s r') line else setLine s r'
    | _ => startRecall (setLine s r') line .recov (some (mine.headD (64 * die)))

/-! ### PACKAGE_RESET (R388, R430, R436) -/

/-- The security processor after a reset: its index and image stand, and the three firmware slots are measured anew. -/
def resetSec (s : State) (image : List Byte) : State :=
  let s := { s with sec := { s.sec with slots := [], session := 0, ideKeys := [], image := image } }
  extendSlot (extendSlot s 0 (Config.firmwareImage 0)) 1 image

/-- The package after a reset (R436). The tables, PKGID, routes and groups are those of its bring-up, memory keeps its bytes
(log entries 6 and 13), and an image that fails its signature releases nothing. -/
def resetPackage (s : State) : State :=
  let image := if s.sec.image.isEmpty then Config.firmwareImage 1 else s.sec.image
  let t : State := { State.reset with
    agenda := s.agenda, tick := s.tick, nextId := s.nextId, mem := s.mem, tables := s.tables, pkgid := s.pkgid,
    incarn := s.incarn, peers := s.peers, routes := s.routes, groups := s.groups, hot := s.hot, sec := s.sec,
    outbox := s.outbox }
  if !Config.xmssVerify image then { t with sec := { s.sec with slots := [], session := 0, ideKeys := [] } }
  else
    let t := resetSec t image
    let t := { t with incarn := s.incarn + 1, started := true }
    let t := extendSlot t 2 (Config.firmwareImage 2)
    let notices := (t.routes.filter fun e => e.2 ≠ 0 ∧ e.1 ≠ t.pkgid.toNat).map fun e =>
      (⟨some (4096 + e.1), 12, toBytes 4 t.incarn.toNat⟩ : Reply)
    { t with
      ports := resetPorts
      outbox := t.outbox ++ notices }

/-- PACKAGE_RESET. -/
def execPackageReset (s : State) : Host.Outcome State Fault Refusal := .next (resetPackage s)

/-- DIE_RESET: a compute die quiesces and resets once it is drained; any other die resets the package (R393, R437). -/
def execDieReset (die : Nat) (s : State) : Host.Outcome State Fault Refusal :=
  if die > 7 then .next s
  else if die > 3 then .next (resetPackage s)
  else
    let s := quiesceDie s die
    if drained s die then .next (resetCores s die)
    else .next { s with quiescing := if s.quiescing.contains die then s.quiescing else die :: s.quiescing }

/-- DIE_QUIESCE_DEADLINE: the die's links are fenced, its lines recovered, and it resets. -/
def execDieQuiesceDeadline (die : Nat) (s : State) : Host.Outcome State Fault Refusal :=
  if s.quiescing.contains die then .next (resetCores ((s.lines.map (·.line)).foldl (fenceLine die) s) die) else .next s

/-! ### Power levels (R433 to R435) -/

/-- An answer to the host on the management bus: status, die and level. -/
def answerHost (s : State) (status die level : Nat) : State :=
  { s with outbox := s.outbox ++ [⟨none, 13, toBytes 1 status ++ toBytes 1 die ++ toBytes 1 level⟩] }

/-- PL3 of a compute die: its wefts halt as HALT does, each keeping its own halt. -/
def enterPL3 (s : State) (die : Nat) : State :=
  let ids := (s.wefts.filter fun w => dieOf w.id.core == die).map (·.id)
  wakeLines (forWefts s ids fun s id => updWeft (quiesceWeft s id) id fun w => { w with plHeld := true })

/-- The wefts of a die go on. -/
def leavePL3 (s : State) (die : Nat) : State :=
  progress (wakeLines { s with wefts := s.wefts.map fun w => if dieOf w.id.core = die then { w with plHeld := false } else w })

/-- A die's level set. -/
def setLevel (s : State) (die level : Nat) : State := { s with power := tset s.power die level }

/-- Every die of the package at PL4 or PL5: state is lost. -/
def packageOff (s : State) (level : Nat) : State :=
  let s := (List.range 8).foldl (fun s d => setLevel s d level) (s.panels.foldl destroyPanel s)
  { s with cores := [], started := false }

/-- A power command that is not refused. -/
def changeLevel (s : State) (die level : Nat) : State :=
  let old := powerOf s die
  if level ≥ 4 ∧ die > 3 then packageOff s level
  else if old = 5 then resetPackage s
  else
    let s := if old = 3 then leavePL3 s die else s
    let s := if old = 4 ∧ die > 3 then resetPackage s else s
    let s := if die ≤ 3 ∧ (old = 4 ∨ level ≥ 4) then resetCores (quiesceDie s die) die else s
    let s := if level = 3 ∧ die ≤ 3 then enterPL3 s die else s
    progress (setLevel s die level)

/-- Whether a power command is refused (R434, R435). -/
def levelRefused (s : State) (die level : Nat) : Bool :=
  decide (die > 7) || decide (level > 5) ||
  (decide (level ≥ 4) && (if die ≤ 3 then !(panelsOnDie s die).isEmpty else s.panels.any fun p => p.cores.any fun c => c < 256)) ||
  (s.hot.contains die && powerOf s die == 3 && level != 3)

/-- SET_POWER_LEVEL. -/
def execSetPowerLevel (die level : Nat) (s : State) : Host.Outcome State Fault Refusal :=
  if levelRefused s die level then .next (answerHost s 1 die (powerOf s die))
  else if powerOf s die = level then .next (answerHost s 0 die level)
  else .next (answerHost (changeLevel s die level) 0 die level)

/-- THERMAL_TRIP. -/
def execThermalTrip (die : Nat) (s : State) : Host.Outcome State Fault Refusal :=
  if die > 7 then .next s
  else
    let s := { s with hot := if s.hot.contains die then s.hot else die :: s.hot }
    let s := if powerOf s die < 3 then setLevel (if die ≤ 3 then enterPL3 s die else s) die 3 else s
    .next (answerHost (machineCheck s 26 0 0 0 (6 + 256 * die)) 2 die (powerOf s die))

end Sys2Proof.Machine
end

