-- ==== Sys2Proof/Machine/Security.lean ====
section
/-!
DEFINITION. The security processor (R429 to R432): firmware updates and the SPDM responder. What a reply carries beyond the
values the manual gives is opaque (log entry 11). A reply to virtual function p goes to party 8192 + p (kind 14).
-/
namespace Sys2Proof.Machine

/-- FIRMWARE_UPDATE: an image whose signature holds is accepted; any other is refused. -/
def execFirmwareUpdate (image : List Byte) (s : State) : Host.Outcome State Fault Refusal :=
  let answer (s : State) (status : Nat) : State := { s with outbox := s.outbox ++ [⟨none, 13, toBytes 1 status⟩] }
  if Config.xmssVerify image then .next (answer { s with sec := { s.sec with image := image } } 0) else .next (answer s 1)

/-- A reply of the responder: to the management bus, or to a virtual function. -/
def spdmReply (s : State) (req : Option Nat) (data : List Byte) : State :=
  { s with outbox := s.outbox ++ [⟨req.map (8192 + ·), 14, data⟩] }

/-- An error reply. -/
def spdmError (s : State) (req : Option Nat) : State := { s with outbox := s.outbox ++ [⟨req.map (8192 + ·), 15, []⟩] }

/-- A signature over a message: the index advances before the signature leaves, and at 2^20 nothing more is signed
(R429). -/
def signReply (s : State) (req : Option Nat) (msg : List Byte) : State :=
  let n := s.sec.index
  if n ≥ Config.xmssLimit then spdmError s req
  else spdmReply { s with sec := { s.sec with index := n + 1 } } req (Config.xmssSign n msg)

/-- GET_VERSION: 1.2 and 1.3. -/
def execGetVersion (req : Option Nat) (s : State) : Host.Outcome State Fault Refusal :=
  .next (spdmReply s req [0x12, 0x13])

/-- GET_CAPABILITIES. -/
def execGetCapabilities (req : Option Nat) (s : State) : Host.Outcome State Fault Refusal :=
  .next (spdmReply s req (Config.spdmBytes 1))

/-- NEGOTIATE_ALGORITHMS. -/
def execNegotiateAlgorithms (req : Option Nat) (s : State) : Host.Outcome State Fault Refusal :=
  .next (spdmReply s req (Config.spdmBytes 2))

/-- GET_DIGESTS. -/
def execGetDigests (req : Option Nat) (s : State) : Host.Outcome State Fault Refusal :=
  .next (spdmReply s req (Config.spdmBytes 3))

/-- GET_CERTIFICATE. -/
def execGetCertificate (req : Option Nat) (s : State) : Host.Outcome State Fault Refusal :=
  .next (spdmReply s req (Config.spdmBytes 4))

/-- The digest of a measurement slot; 64 bytes of 0 before the first extension (log entry 11). -/
def slotDigest (s : State) (n : Nat) : List Byte := tgetD s.sec.slots n (zeros 64)

/-- The slots that a requester sees: all 67 on the management bus, and 0 to 2 and its own partition's on a virtual
function. -/
def visibleSlots : Option Nat → List Nat
  | none => List.range 67
  | some p => [0, 1, 2, 3 + p]

/-- CHALLENGE: the measurements that the requester sees and its nonce are signed. -/
def execChallenge (req : Option Nat) (nonce : List Byte) (s : State) : Host.Outcome State Fault Refusal :=
  .next (signReply s req (nonce ++ (visibleSlots req).flatMap (slotDigest s)))

/-- GET_MEASUREMENTS: 0 asks for their number, 0xFF for all, n + 1 for slot n. -/
def execGetMeasurements (req : Option Nat) (index : Nat) (s : State) : Host.Outcome State Fault Refusal :=
  let seen := visibleSlots req
  if index = 0 then .next (spdmReply s req (toBytes 1 seen.length))
  else if index = 0xFF then .next (spdmReply s req (seen.flatMap (slotDigest s)))
  else if seen.contains (index - 1) then .next (spdmReply s req (slotDigest s (index - 1)))
  else .next (spdmError s req)

/-- KEY_EXCHANGE: a session opens with a signed reply. -/
def execKeyExchange (req : Option Nat) (s : State) : Host.Outcome State Fault Refusal :=
  if s.sec.index ≥ Config.xmssLimit then .next (spdmError s req)
  else .next (signReply { s with sec := { s.sec with session := s.sec.session + 1 } } req (Config.spdmBytes 5))

/-- FINISH: the session is complete, and its IDE keys are set (R380). -/
def execFinish (req : Option Nat) (s : State) : Host.Outcome State Fault Refusal :=
  if s.sec.session = 0 then .next (spdmError s req)
  else .next (spdmReply { s with sec := { s.sec with ideKeys := [Config.ideKey s.sec.session] } } req [])

end Sys2Proof.Machine
end

