-- ==== Sys2Proof/Machine/HostPort.lean ====
section
/-!
DEFINITION. Requests of host clients through their virtual functions (R334, R415, R416, R427), back-invalidations of
memory nodes and the DevLoad field (R380, R428). A request that a home cannot serve at once is held at its port.
-/
namespace Sys2Proof.Machine

/-! ### Requests held at their ports -/

/-- The port of a request: a fabric port, a host-client port, or the CXL pool home's. -/
def portOf : Instr → Option Nat
  | .fabricMemoryAccess port _ => some port
  | .hostMemoryRequest port _ _ _ => some (256 + port)
  | .bisnp _ _ => some 512
  | _ => none

/-- Whether a request may be tried: no earlier request of its port is held. -/
def atFront (s : State) (i : Instr) : Bool :=
  match s.atPorts.find? fun x => portOf x == portOf i with
  | none => true
  | some x => x == i

/-- A request held at its port, in arrival order. -/
def holdAt (s : State) (i : Instr) : State := if s.atPorts.contains i then s else { s with atPorts := s.atPorts ++ [i] }

/-- A request no longer held. -/
def unhold (s : State) (i : Instr) : State := { s with atPorts := s.atPorts.erase i }

/-- A response sent to a party, with the DevLoad code of its port (R380). Kind 4 carries data, 5 is a refusal, 6 an
acknowledgement. -/
def respond (s : State) (dest kind port : Nat) (data : List Byte) : State :=
  { s with outbox := s.outbox ++ [⟨some dest, kind, toBytes 1 (tgetD s.devload port 0) ++ data⟩] }

/-! ### HOST_MEMORY_REQUEST -/

/-- The virtual interface's register at 0x2000 (Table 11 of R415). -/
def frozenWord (s : State) (part : Nat) (p : Part) : Nat := p.frozen.toNat + part * 256 + s.incarn.toNat * 65536

/-- A host client keeps a copy of the SC lines that it has read. -/
def trackHost (s : State) (port asid part va n : Nat) : State :=
  (rangeLines va n).foldl (fun s a =>
    match frontLeaf s asid (some part) a with
    | .leaf l _ bits =>
      match placeOf s (paIn l bits a) with
      | .here pa => if leafCC l = 2 then setLine s (setCopy (serveRead (getLine s (lineOf pa)) (320 + port)) (320 + port) .s) else s
      | _ => s
    | _ => s) s

/-- A read or write of BAR 0; none where it must wait for a device area (R439). -/
def hostBar (s : State) (port part : Nat) (p : Part) (off n : Nat) (data : Option (List Byte)) : Option State :=
  let asid := p.desc.asidLo
  let reply (s : State) (bs : List Byte) : Option State := some (respond s (320 + port) 4 port bs)
  if 0x1000 ≤ off ∧ off + n ≤ 0x2000 then
    match data with
    | some bs =>
      match deviceWrite s asid (some part) (p.desc.mbox + (off - 0x1000)) bs with
      | .ok s => some (respond s (320 + port) 6 port [])
      | .error _ => none
    | none =>
      match deviceRead s asid (some part) (p.desc.mbox + (off - 0x1000)) n with
      | .ok bs => reply (deviceTouch s asid (some part) (p.desc.mbox + (off - 0x1000)) n) bs
      | .error _ => none
  else
    match data with
    | some bs =>
      if off < 0x200 then
        if off % 8 = 0 then some (offerStore s port part (off / 8) (ofBytes bs) bs.length)
        else some (violate s (some part) (320 + port) off)
      else some (respond s (320 + port) 6 port [])
    | none =>
      if 0x2000 ≤ off ∧ off < 0x2008 then reply s (((toBytes 8 (frozenWord s part p)).drop (off - 0x2000) ++ zeros n).take n)
      else reply s (zeros n)

/-- One host request served; none where it waits at its port. -/
def hostServe (s : State) (port part : Nat) (p : Part) (va : Nat) (op : HostOp) : Option State :=
  let m : EngFor := ⟨p.desc.asidLo, some part, true, 320 + port, false⟩
  let bad (s : State) : EngStop → Option State
    | .denied a => some (violate (engAlias s m a) (some part) (320 + port) va)
    | _ => some (violate s (some part) (320 + port) va)
  match op with
  | .bar off => hostBar s port part p off 8 none
  | .barWrite off data => hostBar s port part p off data.length (some data)
  | .read n =>
    match engRead s m va n with
    | .error .wait => none
    | .error e => bad s e
    | .ok (bs, s) => some (respond (trackHost s port m.asid part va n) (320 + port) 4 port bs)
  | .write data =>
    match engCanWrite s m va data.length with
    | some .wait => none
    | some e => bad s e
    | none => some (respond (engWrite s m va data).2 (320 + port) 6 port [])

/-- The state in which a host's read has asked peers for the lines that it reads; none where it may be served. -/
def hostAsks (s : State) (port part : Nat) (p : Part) (va : Nat) : HostOp → Option State
  | .read n => engFetch s ⟨p.desc.asidLo, some part, true, 320 + port, false⟩ (.port port) (rangeLines va n)
  | _ => none

/-- A mailbox access that finds its area without a translation begins to wait for it (R439). -/
def hostStalls (s : State) (part : Nat) (p : Part) : HostOp → State
  | .bar off => stalls off .read
  | .barWrite off _ => stalls off .write
  | _ => s
where
  /-- The page of the mailbox that an offset of BAR 0 names does not translate. -/
  stalls (off : Nat) (k : AccKind) : State :=
    if off < 0x1000 ∨ 0x2000 ≤ off then s
    else match deviceXlate s p.desc.asidLo (some part) k (p.desc.mbox + (off - 0x1000)) with
      | .ok _ _ => s
      | _ => noteArea s part p.desc.mbox

/-- HOST_MEMORY_REQUEST. No request is served for a partition that does not exist. -/
def execHostMemoryRequest (port part : Nat) (va : Word64) (op : HostOp) (s : State) : Host.Outcome State Fault Refusal :=
  let i : Instr := .hostMemoryRequest port part va op
  match getPart s part with
  | none => .next (unhold s i)
  | some p =>
    if port > 1 then .next s
    else if !atFront s i then .next (holdAt s i)
    else
      match hostAsks s port part p va.toNat op with
      | some s => .next (holdAt s i)
      | none =>
        match hostServe s port part p va.toNat op with
        | some s => .next (unhold (dropFetches s (.port port)) i)
        | none => .next (holdAt (hostStalls s part p op) i)

/-! ### BISNP and DEVLOAD_WINDOW -/

/-- The copies of a line of the CXL pool end, with the regions that mark it; its new bytes are the node's. -/
def snoopLine (s : State) (line : Nat) (data : List Byte) : State :=
  let s := (holders (getLine s line)).foldl (fun s a => evictMarked s a line) (quietLine s line)
  let s := coAtomic s line 1
  let s := writePhys s (line * 128) (data.take 128)
  { s with outbox := s.outbox ++ [⟨some (4096 + (fabricOf s (line * 128)).1), 11, toBytes 8 (line * 128)⟩] }

/-- BISNP: served as an invalidation at the CXL pool home, and answered. -/
def execBisnp (line : Nat) (data : List Byte) (s : State) : Host.Outcome State Fault Refusal :=
  let i : Instr := .bisnp line data
  if tierOf (line * 128) ≠ 3 then .next s
  else if !atFront s i || !lineServes s line 1 then .next (holdAt s i)
  else .next (unhold (snoopLine s line data) i)

/-- LIMIT of an entry of the limit table (R428); 0 where there is none. -/
def limitOf (s : State) (port : Nat) : Nat :=
  let e := physNum s (s.tables.limits + 8 * port) 8
  if s.tables.limits = 0 ∨ field e 63 16 ≠ 0 then 0 else field e 15 0

/-- The DevLoad code of a load against a limit (Table 6 of R380). -/
def devloadCode (limit load : Nat) (held : Bool) : Nat :=
  if limit = 0 then 0
  else if held then 3
  else if 2 * load < limit then 0
  else if 10 * load ≤ 9 * limit then 1
  else 2

/-- DEVLOAD_WINDOW: ports 0 and 1 are the host clients', 2 to 17 the fabric's. -/
def execDevloadWindow (port load : Nat) (held : Bool) (s : State) : Host.Outcome State Fault Refusal :=
  if port < 18 then .next { s with devload := tset s.devload port (devloadCode (limitOf s port) load held) } else .next s

end Sys2Proof.Machine
end

