-- ==== Sys2Proof/Machine/Messages.lean ====
section
/-!
DEFINITION. Messages (R251 to R253, R387, R391, R392): MSEND, MPOST, the message engine, the receiving endpoints, and
multicast copies.
-/
namespace Sys2Proof.Machine

/-! ### MSEND and MPOST -/

/-- LEN, DST and SRC of a send descriptor that is well-formed: an endpoint address of R384, and at most 4,096 bytes
for a group (R391). -/
def sendDesc (d : Nat) : Option (Nat × Nat × Nat) :=
  let len := field d 159 128
  let dst := field d 123 64
  let target := field dst 59 48
  let ok := field d 255 160 == 0 && field d 127 124 == 0 && decide (1 ≤ len) && decide (len ≤ 2 ^ 20) &&
    bitOf dst 47 && field dst 46 14 == 0 && target != 0xFFF && (decide (target < 0xF00) || decide (len ≤ 4096))
  if ok then some (len, dst, field d 63 0) else none

/-- MSEND: the descriptor is read, and the message engine takes the message. -/
def msendBody (x : Ctx) : R Out := do
  let cq ← cqOf x
  let va := (← rd1 x .a true).toNat
  let (d, s) ← readDesc x va 32 32
  match sendDesc d with
  | none => oops cEngineDesc
  | some (len, dst, src) =>
    let (id, s) := freshId s
    let m : Msg := {
      id := id, key := x.w.key, cq := cq, desc := va, src := src, len := len, dst := dst, asid := x.p.asid, data := none,
      members := 0, outcome := 0, done := false, core := x.w.id.core, user := decide (x.w.level = 0), unc := uncounted x }
    .ok ⟨{ s with msgs := s.msgs ++ [m] }, .next, [⟨lowest x.act, false, 0, va, 32, true, false⟩]⟩

def execMsend (f : Fields) (s : State) : Host.Outcome State Fault Refusal := onWeft .msend f .once msendBody s

/-- MPOST: a buffer appended to the endpoint's posted list. -/
def mpostBody (x : Ctx) : R Out := do
  let cq ← cqOf x
  let va := (← rd1 x .a true).toNat
  let ep ← num1 x .b
  let (d, s) ← readDesc x va 32 32
  let cap := field d 95 64
  match x.w.key.part.bind (getPart s) with
  | none => oops cEngineDesc
  | some p =>
    if field d 255 96 ≠ 0 ∨ cap < 1 ∨ cap > 2 ^ 20 ∨ ep ≥ p.desc.nep then oops cEngineDesc
    else
      let l := tgetD p.eps ep []
      if l.length ≥ 4096 then .error (.park .queue (.endpoint ep))
      else
        let b : PostedBuf := ⟨va, field d 63 0, cap, x.w.key, cq, x.p.asid⟩
        .ok ⟨progress (updPart s (partNum x.w.key) fun q => { q with eps := tset q.eps ep (l ++ [b]) }), .next,
          [⟨lowest x.act, false, 0, va, 32, true, false⟩]⟩

def execMpost (f : Fields) (s : State) : Host.Outcome State Fault Refusal := onWeft .mpost f .once mpostBody s

/-! ### Outcomes -/

/-- The outcome of a message at its endpoint: to the sender here, or to the peer that sent it (Reply kind 3). -/
def reportMsg (s : State) (src sid status len : Nat) : State :=
  if src = s.pkgid.toNat then
    { s with msgs := s.msgs.map fun m => if m.id = sid then { m with outcome := max m.outcome status, done := true } else m }
  else { s with outbox := s.outbox ++ [⟨some (4096 + src), 3, toBytes 1 status ++ toBytes 4 len ++ toBytes 8 sid⟩] }

/-- A message ends without being placed. -/
def dropMsg (s : State) (m : InMsg) (status : Nat) : State :=
  reportMsg { s with inMsgs := s.inMsgs.filter fun x => x.id ≠ m.id } m.src m.sid status m.len

/-- Whether the limits of a partition's endpoints are suspended by a substitution (R399). -/
def limitsHeld (s : State) (part : Nat) : Bool := frozenTag s (jobTag s (some part))

/-! ### Sending -/

/-- A multicast packet: a copy goes to each branch with credit on VC 5, a retained copy to the others; with all 16
retention slots in use the packet waits (R392). -/
def sendMulticast (s : State) (p : Packet) : State :=
  if frozenTag s p.tag then { s with buffers := s.buffers ++ [⟨none, p⟩] } else
  let group := (tgetD s.groups p.target.toNat (0, 0)).1
  let branches := (List.range 16).filter fun b => bitOf group b
  let now := branches.filter fun b => decide (creditsOf s b 5 > 0)
  let rest := branches.filter fun b => !now.contains b
  match rest, (List.range 16).find? fun k => !(s.retained.any fun r => r.slot == k) with
  | [], _ => now.foldl (fun s b => leavePort s b p) s
  | _, some k => { now.foldl (fun s b => leavePort s b p) s with retained := s.retained ++ [⟨k, p, rest⟩] }
  | _, none => { s with mcWait := s.mcWait ++ [⟨none, p⟩] }

/-- The state in which the message engine has asked peers for the lines of a source; none where it can read it. -/
def sourceAsks (s : State) (m : Msg) : Option State :=
  engFetch s ⟨m.asid, m.key.part, m.user, m.core, m.unc⟩ (.device m.id) (rangeLines m.src m.len)

/-- The message engine's read of a source, and what follows: delivery here, packets to peers, or the end of the send. -/
def sendSource (s : State) (m : Msg) : State :=
  let put (f : Msg → Msg) (s : State) : State := { s with msgs := s.msgs.map fun x => if x.id = m.id then f x else x }
  match engRead s ⟨m.asid, m.key.part, m.user, m.core, m.unc⟩ m.src m.len with
  | .error (.absent va) => noteAbsent s m.key.part m.core va m.desc 5
  | .error (.denied va) =>
    put (fun x => { x with outcome := 5, done := true }) (engAlias s ⟨m.asid, m.key.part, m.user, m.core, m.unc⟩ va)
  | .error .wait => s
  | .ok (bs, s) =>
    let target := field m.dst 59 48
    let part := field m.dst 13 8
    let ep := field m.dst 7 0
    let s := put (fun x => { x with data := some bs }) s
    let op : PktOp := .msg part ep bs m.id
    let refuse (s : State) : State :=
      refusalRecord (put (fun x => { x with outcome := 3, done := true }) s) m.key.part 0 0 m.core m.src m.dst
    if target = s.pkgid.toNat then
      match getPart s part with
      | some p =>
        if ep < p.desc.nep then { s with inMsgs := s.inMsgs ++ [⟨m.id, m.id, part, ep, bs, m.len, target, none⟩] }
        else refuse (countRefusal s 0)
      | none => refuse (countRefusal s 0)
    else if target ≥ 0xF00 then
      let members := (tgetD s.groups target (0, 0)).2
      let (p, s) := makePacket s target (m.dst % 2 ^ 48) m.len op 5 m.key.part
      put (fun x => { x with members := members }) (sendMulticast s p)
    else if tgetD s.routes target 0 = 0 then
      refuse s
    else
      let (p, s) := makePacket s target (m.dst % 2 ^ 48) m.len op 4 m.key.part
      injectPacket s p

/-- SEND_COMPLETION: the outcome of a send is recorded and its record pushed. Peers report a status that the model
does not choose. A record that finds its queue full is held. -/
def execSendCompletion (id : Nat) (s : State) : Host.Outcome State Fault Refusal :=
  match s.msgs.find? fun m => m.id == id with
  | none => .next s
  | some m =>
    let away := m.data.isSome && field m.dst 59 48 != s.pkgid.toNat
    if (m.done || away) && cqRoom s m.key m.cq then
      let status := if m.done then m.outcome else Config.peerStatus id % 4
      .next (pushCq { s with msgs := s.msgs.filter fun x => x.id ≠ id } m.key m.cq (mkCompletion m.desc 0 status m.len))
    else .next s

/-! ### Receiving -/

/-- A buffer's completion and the sender's, after the bytes have been placed or not. -/
def finishMsg (s : State) (m : InMsg) (b : PostedBuf) (status : Nat) : State :=
  dropMsg (pushCq s b.key b.cq (mkCompletion b.desc m.ep status m.len)) m status

/-- A message placed in its buffer, staged while the buffer's page is absent, or waiting for a home or for room in
the completion queue. A page that forbids the write ends in STATUS 2 (log entry 21). -/
def placeMsg (s : State) (m : InMsg) (b : PostedBuf) : State :=
  let bytes := m.data.take b.cap
  let who : EngFor := ⟨b.asid, some m.part, false, 323, false⟩
  let stage (s : State) : State := { s with inMsgs := s.inMsgs.map fun x => if x.id = m.id then { x with buf := some b } else x }
  if !cqRoom s b.key b.cq then stage s
  else
    match engCanWrite s who b.buf bytes.length with
    | some (.denied va) => finishMsg (engAlias s who va) m b 2
    | some _ => stage s
    | none => finishMsg (engWrite s who b.buf bytes).2 m b (if m.len ≤ b.cap then 0 else 1)

/-- The endpoint of a message without its oldest posted buffer: there is room for an MPOST (R251). -/
def takeBuffer (s : State) (m : InMsg) (rest : List PostedBuf) : State :=
  wakeFor (updPart s m.part fun q => { q with eps := tset q.eps m.ep rest }) .queue fun w _ x =>
    w.key.part == some m.part && x == .endpoint m.ep

/-- MESSAGE_ARRIVAL: the message engine reads a source, or a message at its endpoint takes the oldest posted buffer. A
frozen partition's endpoints have none (R300). -/
def execMessageArrival (id : Nat) (s : State) : Host.Outcome State Fault Refusal :=
  match s.inMsgs.find? fun m => m.id == id with
  | some m =>
    match m.buf, getPart s m.part with
    | none, some p =>
      match p.frozen, tgetD p.eps m.ep [] with
      | false, b :: t => .next (placeMsg (takeBuffer s m t) m b)
      | _, _ => .next s
    | none, none => .next (dropMsg s m 3)
    | some _, _ => .next s
  | none =>
    match s.msgs.find? fun m => m.id == id with
    | some m =>
      if m.data.isNone && !m.done then
        match sourceAsks s m with
        | some t => .next t
        | none => .next (dropFetches (sendSource s m) (.device m.id))
      else .next s
    | none => .next s

/-- STAGED_MESSAGE_PLACEMENT. -/
def execStagedMessagePlacement (id : Nat) (s : State) : Host.Outcome State Fault Refusal :=
  match s.inMsgs.find? fun m => m.id == id with
  | some m => match m.buf with | some b => .next (placeMsg s m b) | none => .next s
  | none => .next s

/-- STAGING_TIMEOUT: the buffer is consumed with STATUS 2. -/
def execStagingTimeout (id : Nat) (s : State) : Host.Outcome State Fault Refusal :=
  match s.inMsgs.find? fun m => m.id == id with
  | some m =>
    match m.buf with
    | some b => if limitsHeld s m.part || !cqRoom s b.key b.cq then .next s else .next (finishMsg s m b 2)
    | none => .next s
  | none => .next s

/-- NO_BUFFER_TIMEOUT: the send ends with STATUS 3. -/
def execNoBufferTimeout (id : Nat) (s : State) : Host.Outcome State Fault Refusal :=
  match s.inMsgs.find? fun m => m.id == id with
  | some m => if m.buf.isNone && !limitsHeld s m.part then .next (dropMsg s m 3) else .next s
  | none => .next s

/-- MULTICAST_FORWARD: a retained copy leaves by a remaining branch with credit; after the last one the slot is free
for the next packet that waits. -/
def execMulticastForward (slot branch : Nat) (s : State) : Host.Outcome State Fault Refusal :=
  match s.retained.find? fun r => r.slot == slot with
  | none => .next s
  | some r =>
    if !r.branches.contains branch || creditsOf s branch 5 = 0 || frozenTag s r.p.tag then .next s
    else
      let s := leavePort s branch r.p
      let rest := r.branches.filter (· ≠ branch)
      if rest.isEmpty then
        let s := { s with retained := s.retained.filter fun x => x.slot ≠ slot }
        match s.mcWait with
        | b :: t => .next (sendMulticast { s with mcWait := t } b.p)
        | [] => .next s
      else
        .next { s with retained := s.retained.map fun x => if x.slot = slot then { x with branches := rest } else x }

end Sys2Proof.Machine
end

