-- ==== Sys2Proof/Machine/Fabric.lean ====
section
/-!
DEFINITION. What reaches the package over the fabric (R331, R332, R334, R386 to R391, R397): packets, refusals,
acknowledgements, the ends of waits, incarnation notices and credits.
-/
namespace Sys2Proof.Machine

/-! ### Packets that arrive (R386 to R388, R397) -/

/-- A packet dropped at a port, and counted. -/
def dropPacket (s : State) (port : Nat) : State := updPort s port fun x => { x with drops := x.drops + 1 }

/-- An access admitted through the fabric MMU counts against its entry's partition and requests no move (R359). A frame counts as
tracked while its home's mode says so (R357, R358, log entry 66). -/
def countFabric (s : State) (part frame : Nat) : State :=
  if inMoveAt s frame || (getPage s frame).mode != some true then s
  else
    let c := min 65535 (tgetD (getPage s frame).counts part 0 + 1)
    let t := match getPart s part with | some p => p.desc.thresh | none => 0
    updPage s frame fun p => { p with counts := tset p.counts part (if t ≠ 0 ∧ t ≤ c then 0 else c) }
where
  /-- Whether a page is in a move. -/
  inMoveAt (s : State) (frame : Nat) : Bool := s.moves.any fun m => m.oldF == frame

/-- The copy of another package recorded at an SC line (R370): a shared one, or one that it may write. -/
def trackRemote (s : State) (port src line : Nat) (c : CState) : State :=
  let r := setCopy (serveRead (getLine s line) (323 + port)) (323 + port) c
  let r := if r.remotes.contains src then r
    else if r.remotes.length < 4 then { r with remotes := src :: r.remotes }
    else { r with overflow := true }
  setLine s r

/-- Whether an operation needs W. -/
def opWrites : PktOp → Bool
  | .read => false
  | .msg _ _ _ _ => false
  | _ => true

/-- The bytes of an access at its offset. -/
def opBytes (p : Packet) : Nat :=
  match p.op with
  | .aon _ => 8
  | .write d => d.length
  | .read | .own => p.bytes
  | op => opLen op

/-- The frame of an admitted access (R386). A read for ownership needs R and W. -/
def admitted (s : State) (p : Packet) : Option (Nat × Nat × Nat) :=
  let frame (w : Bool) := mmuFrame s p.offset p.src.toNat w
  match p.op with
  | .own => (frame false).bind fun _ => frame true
  | op => frame (opWrites op)

/-- A write of a package ends its right to write a line. Where the home had asked for the line, it goes on. -/
def endOwn (s : State) (src : Nat) (line : Nat) : State :=
  let r := getLine s line
  if ownedAway s line && r.remotes.contains src then
    let s := setLine s { forgetRemote { r with l1 := r.l1.filter fun e => e.1 < 323 } src with pending := [] }
    if r.home = .fwd then endTxn s line else s
  else s

/-- A write of a fabric agent at the lines of an access: a copy of an SC line that its package holds stays, as a shared one. -/
def fabricWrite (s : State) (port src pa cc : Nat) (lines : List Nat) : State :=
  lines.foldl (fun s l =>
    let held := cc == 2 && (getLine s l).remotes.contains src
    let s := if held then setLine s (forgetRemote (getLine s l) src) else s
    let s := fabricTake s (max pa (l * 128)) cc .all
    if held then trackRemote s port src l .s else s) s

/-- An admitted access served at its home, with the kind and the bytes of its response; none where it waits at its port. -/
def fabricServe (s : State) (port : Nat) (p : Packet) (fpa cc part : Nat) : Option (State × Nat × List Byte) :=
  let pa := redirect s fpa
  let n := opBytes p
  let lines := linesOf pa n
  let src := p.src.toNat
  let write := opWrites p.op
  let s := match p.op with | .write _ => lines.foldl (fun s l => endOwn s src l) s | _ => s
  let stuck (l : Nat) : Bool :=
    !lineServes s l cc || (write && (serialMarks s l || (copyingAt s (l * 128)).isSome || collapseWaits s (l / 32)))
  if lines.any stuck || (write && (copyingAt s fpa).isSome) then none
  else
    let s := countFabric s part (pa / 4096)
    match p.op with
    | .read =>
      let s := lines.foldl (fun s l => mergeLine (quietLine s l) l) s
      let s := if cc = 2 then lines.foldl (fun s l => trackRemote s port src l .s) s else s
      some (s, 4, mread s.mem pa n)
    | .own =>
      let s := fabricWrite s port src pa cc lines
      let s := if cc = 2 then lines.foldl (fun s l => trackRemote s port src l .m) s else s
      some (s, 4, mread s.mem pa n)
    | .write d => some (writePhys (fabricWrite s port src pa cc lines) pa d, 6, [])
    | .atom _ _ _ | .cas _ _ _ =>
      let (old, s) := fabricAtom s pa cc p.op part
      some (s, 4, toBytes n old)
    | .red op mod v key => some (fabricRed s pa cc op mod v part key, 6, [])
    | .aon ws =>
      match ws.mapM fun e => (mmuFrame s e.1 src true).map fun f => (redirect s f.1, f.2.1, e.2) with
      | none => none
      | some l =>
        if l.any fun e => stuck (lineOf e.1) then none
        else
          let s := l.foldl (fun s e => writePhys (fabricWrite s port src e.1 e.2.1 (linesOf e.1 e.2.2.length)) e.1 e.2.2) s
          let s := fabricWrite s port src pa cc lines
          some (writeNum s pa 8 (physNum s pa 8 + 2), 6, [])
    | .msg _ _ _ _ => some (s, 6, [])

/-- A message at its endpoint; one that does not exist refuses it (R253, R387). -/
def fabricMsg (s : State) (port : Nat) (p : Packet) (part ep sid : Nat) (data : List Byte) : State :=
  let ok := match getPart s part with | some x => decide (ep < x.desc.nep) | none => false
  if ok then
    let (id, s) := freshId s
    { s with inMsgs := s.inMsgs ++ [⟨id, sid, part, ep, data, data.length, p.src.toNat, none⟩] }
  else reportMsg (countRefusal s port) p.src.toNat sid 3 data.length

/-- The units that wait for a request's responses end in a fault. -/
def endRequest (s : State) (id : Nat) (w : WId) (h : Hold) : State := progress (updHolds s id w fun _ => h)

/-- Whether a packet answers a request. -/
def answers (p : Packet) (r : OutReq) : Bool :=
  r.target == p.src.toNat &&
    (if asksAtom r then r.faddr % 2 ^ 48 == p.offset else lineOf (r.faddr % 2 ^ 48) == lineOf p.offset)

/-- Whether a packet answers the fetch of a line or an atomic of the queue engine. -/
def feeds (p : Packet) (f : Fetch) : Bool :=
  !f.done && f.target == p.src.toNat &&
    (if f.op = .read then lineOf f.off == lineOf p.offset else f.off == p.offset)

/-- The bytes of a line that a peer has sent stand at its window address, those of posted writes that have not left over them
(R308, R337). -/
def placeLine (s : State) (line : Nat) (p : Packet) (data : List Byte) : State :=
  overlayPosts (writePhys s (line * 128 + p.offset % 128) (data.take (128 - p.offset % 128))) line

/-- A response: the bytes of a line stand at the line, and an atomic's old value is kept for its lane. With the last response
the unit goes on, and posted writes that waited for it leave. -/
def fabricResponse (s : State) (p : Packet) (data : List Byte) : State :=
  match s.outReqs.find? (answers p) with
  | none =>
    match s.fetches.find? (feeds p) with
    | none => s
    | some f =>
      let s := if f.op = .read then placeLine s (f.pa / 128) p data else s
      sendPosts (progress { s with fetches := s.fetches.map fun x =>
        if x.id = f.id then { x with done := true, old := ofBytes data } else x })
  | some r =>
    let s := { s with outReqs := s.outReqs.erase r }
    sendPosts (if asksAtom r then giveOld s r.id r.w r.lane (ofBytes data) else endAsks (placeLine s (r.pa / 128) p data) r.id r.w)

/-- The records of a late packet for each partition of its job (R397). -/
def latePacket (s : State) (port tag : Nat) : State :=
  ((List.range 64).filter fun k => bitOf (jobParts s tag) k).foldl
    (fun s k => errRecord s (some k) 6 cFabricLate 0 (323 + port) tag 0 0) (dropPacket s port)

/-! ### Posted writes (R331, R332) -/

/-- A posted write is acknowledged: it leaves every set of unperformed writes, and the next one to its line leaves. -/
def ackPosted (s : State) (w : PostedWrite) : State :=
  progress (sendPosts { s with postedW := s.postedW.filter fun x => x.id ≠ w.id })

/-- POSTED_WRITE_ACK. -/
def execPostedWriteAck (id : Nat) (s : State) : Host.Outcome State Fault Refusal :=
  match s.postedW.find? fun x => x.id == id with
  | some w => if w.sent then .next (ackPosted s w) else .next s
  | none => .next s

/-- Whether the limits of a partition's agents are suspended by a substitution (R399). -/
def waitsHeld (s : State) (part : Option Nat) : Bool := frozenTag s (jobTag s part)

/-- The lanes of a sub-weft's boundary that waits for acknowledgements. -/
def sysLanes (b : Sub) : Option Mask := match b.hold with | .sysWait m => some m | _ => none

/-- The boundary of a sub-weft's lanes that waits for acknowledgements faults PEER_LOST at its next issue; its agents' writes
leave their set of unperformed writes (R332). -/
def loseBoundary (s : State) (w : Weft) (lanes : Mask) : State :=
  let out (x : PostedWrite) : PostedWrite := if x.owner.any (boundaryAgent w lanes) then { x with owner := none } else x
  let go (b : Sub) : Sub := if sysLanes b = some lanes then { b with hold := .walkFault cPeerLost 0 } else b
  progress (updWeft { s with postedW := s.postedW.map out } w.id fun u => { u with subs := u.subs.map go })

/-- Every boundary at which a weft waits for acknowledgements ends. -/
def loseRelease (s : State) (id : WId) : State :=
  match getWeft s id with
  | some w => (w.subs.filterMap sysLanes).foldl (fun s m => loseBoundary s w m) s
  | none => s

/-- SYS_RELEASE_TIMEOUT: the first boundary of a weft that waits ends. -/
def execSysReleaseTimeout (id : WId) (s : State) : Host.Outcome State Fault Refusal :=
  match getWeft s id with
  | some w =>
    match w.subs.findSome? sysLanes with
    | some lanes => if waitsHeld s w.key.part then .next s else .next (loseBoundary s w lanes)
    | none => .next s
  | none => .next s

/-! ### Refusals and lost peers (R387, R389) -/

/-- The requests of a unit end in a fault at an address. -/
def failRequests (s : State) (id : Nat) (code : Nat) : State :=
  match s.outReqs.find? fun r => r.id == id with
  | none => s
  | some r =>
    let mine (h : WinWrite) : Bool := match h.ret with | some (k, _, _) => k == id | none => false
    let s := { s with
      outReqs := s.outReqs.filter fun x => x.id ≠ id
      moves := s.moves.map fun m => { m with held := m.held.filter fun h => !mine h } }
    sendPosts (endRequest s id r.w (.walkFault code r.va))

/-- A message's outcome at its sender. -/
def setOutcome (s : State) (id status : Nat) : State :=
  { s with msgs := s.msgs.map fun m => if m.id = id then { m with outcome := status, done := true } else m }

/-- The command of a number, with its core. -/
def cmdById (s : State) (id : Nat) : Option (Nat × Cmd) :=
  s.cores.findSome? fun c => (c.cmds.find? fun x => x.id == id).map fun x => (c.num, x)

/-- A command whose access to a peer is refused ends with STATUS 5 for a read and 6 for a write (R256, R387). -/
def refuseCmd (s : State) (id status : Nat) : State :=
  let go (c : Cmd) : Cmd := if c.id = id ∧ c.status = 0 ∧ c.stage = 0 then { c with status := status } else c
  progress { s with cores := s.cores.map fun x => { x with cmds := x.cmds.map go } }

/-- The unit that asked for a line of a peer ends in a fault at its address. A sub-weft that has gone on to something else
keeps its wait. -/
def failUnit (s : State) (f : Fetch) (code : Nat) : State :=
  let fail (b : Sub) : Sub := if b.hold = .none then { b with hold := .walkFault code f.va } else b
  match f.unit with
  | some (w, lane) => progress (updWeft s w fun u => updSub u lane fail)
  | none => progress s

/-- A symbolic access whose line or atomic at a peer is refused or lost ends in a fault that waits for its weft's next boundary
(R93). -/
def failSymFetch (s : State) (f : Fetch) (k : PKey) (num slot code : Nat) : State :=
  match s.symAccs.find? fun a => a.key == k && a.num == num && a.slot == slot with
  | some a => progress (sendPosts (failSym s a code f.va (laneBit (a.vas.findIdx (· == f.va)))))
  | none => s

/-- An access of a queue engine to a peer that is refused or lost stays so noted for the engine (R440). -/
def spoilFetch (s : State) (f : Fetch) : State :=
  progress { s with fetches := s.fetches.map fun x => if x.id = f.id then { x with done := true, bad := true } else x }

/-- Whether a queue engine has asked for a line or an atomic. -/
def byQueue (f : Fetch) : Bool := match f.who with | .queue _ => true | _ => false

/-- A refused line that something else than a load asked for: the unit faults, the command or the message ends, with a KIND 7
record. -/
def refuseFetch (s : State) (f : Fetch) : State :=
  let faddr := f.target * 2 ^ 48 + f.off
  let s := if byQueue f then spoilFetch s f else
    sendPosts { s with fetches := s.fetches.filter fun x => x.who ≠ f.who ∨ x.done }
  match f.who, f.unit with
  | .symbol k num slot, _ =>
    refusalRecord (failSymFetch s f k num slot cPermission) f.part cPermission 0
      ((s.symAccs.find? fun a => a.key == k && a.num == num).elim 0 SymAcc.core) f.va faddr
  | .device id, _ =>
    match s.msgs.find? fun m => m.id == id with
    | some m => refusalRecord (setOutcome s id 5) f.part 0 0 m.core m.src faddr
    | none =>
      match cmdById s id with
      | some (core, c) => refusalRecord (refuseCmd s id 5) f.part 0 0 core c.desc faddr
      | none => refusalRecord s f.part 0 0 322 f.va faddr
  | _, some (w, _) => refusalRecord (failUnit s f cPermission) f.part cPermission 0 w.core f.va faddr
  | _, none => refusalRecord s f.part 0 0 320 f.va faddr

/-- A refusal, by the number of the request, posted write, message or fetch that the target refuses. A refused posted write of
an engine ends its command with STATUS 6. -/
def refuseId (s : State) (id : Nat) : State :=
  match s.outReqs.find? (fun r => r.id == id), s.postedW.find? (fun x => x.id == id), s.msgs.find? (fun m => m.id == id),
    s.fetches.find? fun f => f.id == id with
  | some r, _, _, _ =>
    let part := (getWeft s r.w).bind fun w => w.key.part
    refusalRecord (failRequests s id cPermission) part cPermission (laneBit r.lane).toNat r.w.core r.va r.faddr
  | none, some w, _, _ =>
    if w.sent then
      let part := if w.part < 64 then some w.part else none
      let cmd := w.cmd.bind (cmdById s)
      let s := match cmd with | some c => refuseCmd s c.2.id 6 | none => s
      refusalRecord (ackPosted s w) part 0 0 w.agent (match cmd with | some c => c.2.desc | none => 0)
        (w.target * 2 ^ 48 + w.offset)
    else s
  | none, none, some m, _ =>
    if m.done || m.data.isNone then s else refusalRecord (setOutcome s id 3) m.key.part 0 0 m.core m.src m.dst
  | none, none, none, some f => if f.done then s else refuseFetch s f
  | none, none, none, none => s

/-- FABRIC_REFUSAL. -/
def execFabricRefusal (id : Nat) (s : State) : Host.Outcome State Fault Refusal := .next (refuseId s id)

/-- The answer to a fetch of a unit or of a symbolic access is lost (R389): it ends in PEER_LOST. -/
def loseFetch (s : State) (f : Fetch) : State :=
  match f.who with
  | .symbol k num slot => failSymFetch s f k num slot cPeerLost
  | _ =>
    if f.unit.isNone then s
    else failUnit (sendPosts { s with fetches := s.fetches.filter fun x => x.id ≠ f.id }) f cPeerLost

/-- FABRIC_RESPONSE_TIMEOUT. -/
def execFabricResponseTimeout (id : Nat) (s : State) : Host.Outcome State Fault Refusal :=
  match s.outReqs.find? (fun r => r.id == id), s.msgs.find? fun m => m.id == id with
  | some r, _ =>
    if waitsHeld s ((getWeft s r.w).bind fun w => w.key.part) then .next s else .next (failRequests s id cPeerLost)
  | none, some m =>
    if m.done || m.data.isNone || field m.dst 59 48 = s.pkgid.toNat || waitsHeld s m.key.part then .next s
    else .next (setOutcome s id 4)
  | none, none =>
    match s.fetches.find? fun f => f.id == id && !f.done with
    | some f =>
      if waitsHeld s f.part then .next s
      else if byQueue f then .next (spoilFetch s f)
      else .next (loseFetch s f)
    | none => .next s

/-! ### FABRIC_MEMORY_ACCESS (R386 to R388, R397) -/

/-- What a target answers to a packet: kind 4 with data, 5 a refusal, 6 an acknowledgement. A packet of the package itself is
answered by the package switch (R390). -/
def answer (s : State) (port : Nat) (p : Packet) (kind : Nat) (data : List Byte) : State :=
  if p.src ≠ s.pkgid then respond s (4096 + p.src.toNat) kind (port + 2) data
  else
    let post := s.postedW.find? fun x => x.sent && x.target == p.src.toNat && x.offset == p.offset
    match kind with
    | 4 => fabricResponse s p data
    | 6 => match post with | some w => ackPosted s w | none => s
    | _ =>
      match if p.vc = 1 then post.map (·.id) else
          match s.outReqs.find? (answers p) with
          | some r => some r.id
          | none => (s.fetches.find? (feeds p)).map (·.id) with
      | some id => refuseId s id
      | none => s

/-- FABRIC_MEMORY_ACCESS. -/
def execFabricMemoryAccess (port : Nat) (p : Packet) (s : State) : Host.Outcome State Fault Refusal :=
  let i : Instr := .fabricMemoryAccess port p
  if port > 15 then .next s
  else if p.dinc ≠ s.incarn ∨ p.sinc ≠ recordedInc s p.src.toNat then .next (unhold (dropPacket s port) i)
  else if p.tag ≠ 0 ∧ s.substs.any (fun x => x.job == p.tag && x.stage == 2) then
    .next (unhold (latePacket s port p.tag) i)
  else
    match p.op with
    | .msg part ep data sid => .next (fabricMsg s port p part ep sid data)
    | op =>
      if p.vc = 2 then .next (fabricResponse s p (payload op))
      else
        match admitted s p with
        | none => .next (unhold (answer (countRefusal s port) port p 5 []) i)
        | some (pa, cc, part) =>
          if !atFront s i then .next (holdAt s i)
          else
            match fabricServe s port p pa cc part with
            | some (s, kind, data) => .next (unhold (answer s port p kind data) i)
            | none => .next (holdAt s i)

/-- The bytes of a line that a lost package might write are poisoned (R381, R389), and the home that waits for it goes on. -/
def loseOwned (s : State) (line : Nat) : State :=
  let r := getLine s line
  let s := setLine s { r with l1 := r.l1.filter fun e => e.1 < 323, owner := none, pending := [], poison := List.range 128 }
  if r.home = .fwd then endTxn s line else s

/-- Everything outstanding with a peer ends (R389): requests, releases, messages, and its copies at the homes. -/
def losePeer (s : State) (src : Nat) : State :=
  let mine := s.postedW.filter fun x => x.target == src && x.sent
  let s := ((s.outReqs.filter fun r => r.target == src).map (·.id)).eraseDups.foldl (fun s id => failRequests s id cPeerLost) s
  let lost (w : Weft) (lanes : Mask) : Bool := mine.any fun x => x.owner.any (boundaryAgent w lanes)
  let ends := s.wefts.flatMap fun w => ((w.subs.filterMap sysLanes).filter (lost w)).map fun m => (w, m)
  let s := ends.foldl (fun s e => loseBoundary s e.1 e.2) s
  let s := { s with postedW := s.postedW.filter fun y => !mine.any fun x => x.id == y.id }
  let s := ((s.msgs.filter fun m => m.data.isSome && !m.done && field m.dst 59 48 == src).map (·.id)).foldl
    (fun s id => setOutcome s id 4) s
  let gone := s.fetches.filter fun f => f.target == src && !f.done
  let s := (gone.filter byQueue).foldl spoilFetch s
  let s := (gone.filter fun f => !byQueue f).foldl (fun s f => match f.who with
    | .symbol k num slot => failSymFetch s f k num slot cPeerLost
    | _ => failUnit s f cPeerLost)
    { s with fetches := s.fetches.filter fun f => f.target ≠ src || f.done || byQueue f }
  let owned := (s.lines.filter fun r => r.remotes.contains src && ownedAway s r.line).map (·.line)
  let s := owned.foldl loseOwned s
  progress (sendPosts { s with lines := s.lines.map fun r => forgetRemote r src })

/-! ### VIRTUAL_CHANNEL_CREDIT (R383, R390) -/

/-- VIRTUAL_CHANNEL_CREDIT: a credit more, and the oldest packet that waits for it leaves. -/
def execVirtualChannelCredit (port vc : Nat) (s : State) : Host.Outcome State Fault Refusal :=
  let s := updPort s port fun x => { x with credits := tset x.credits vc (tgetD x.credits vc 0 + 1) }
  match s.buffers.find? fun b => b.port == some port && b.p.vc == vc && !frozenTag s b.p.tag with
  | some b =>
    if creditsOf s port vc > 0 then .next (leavePort { s with buffers := s.buffers.erase b } port b.p) else .next s
  | none => .next s

end Sys2Proof.Machine
end

