-- ==== Sys2Proof/Machine/Substitution.lean ====
section
/-!
DEFINITION. Gang substitution (R301, R394 to R399): GSUB and GRES, the sweep of a member, its save area, the reports, and
incarnation notices. A save area's address is physical (log entry 6).
-/
namespace Sys2Proof.Machine

/-! ### The job table (R394) -/

/-- The members of a job: up to 16 targets. -/
def jobMembers (s : State) (job : Nat) : List Nat :=
  (List.range (min 16 (physNum s (jobEntry s job + 8) 2))).map fun i => physNum s (jobEntry s job + 32 + 2 * i) 2 % 4096

/-- Whether a job is known: its entry marks a partition or names a member. -/
def jobKnown (s : State) (job : Nat) : Bool :=
  decide (1 ≤ job) && decide (job ≤ 4095) && s.tables.jobs != 0 && (jobParts s job != 0 || !(jobMembers s job).isEmpty)

/-- The partitions of a job here. -/
def jobPartsOf (s : State) (job : Nat) : List Nat := (List.range 64).filter fun p => bitOf (jobParts s job) p

/-- Whether a weft runs for a job. -/
def inJob (s : State) (job : Nat) (w : Weft) : Bool :=
  match w.key.part with | some p => bitOf (jobParts s job) p | none => false

/-- The substitution of a job on this package. -/
def getSubst (s : State) (job : Nat) : Option Subst := s.substs.find? fun x => x.job == job

/-- The state with a job's substitution replaced. -/
def setSubst (s : State) (x : Subst) : State := { s with substs := (s.substs.filter fun y => y.job ≠ x.job) ++ [x] }

/-! ### The save area (R396) -/

/-- The bytes of a record: its header, then the payload padded to 32. -/
def sweptRecord (e : Nat × Nat × Packet) : List Byte :=
  let data := payload e.2.2.op
  let head := (Config.packetHeader e.2.2.seq.toNat).take 16
  let word := data.length + e.2.2.target.toNat * 2 ^ 36 + e.2.1 % 256 * 2 ^ 48 + e.2.2.vc % 16 * 2 ^ 56 + e.1 % 16 * 2 ^ 60
  head ++ zeros (16 - head.length) ++ toBytes 8 word ++ toBytes 4 e.2.2.seq.toNat ++ zeros 4 ++ data ++
    zeros ((32 - data.length % 32) % 32)

/-- The header of a save area. -/
def saveHeader (s : State) (x : Subst) (state : Nat) : State :=
  writePhys s x.save (toBytes 4 state ++ toBytes 2 x.job ++ zeros 2 ++ toBytes 4 s.incarn.toNat ++ toBytes 4 x.nrec ++
    toBytes 8 x.used ++ toBytes 8 x.cap ++ zeros 32)

/-- One record written behind the earlier ones; none where it does not fit. -/
def writeSwept (s : State) (x : Subst) (e : Nat × Nat × Packet) : Option (State × Subst) :=
  let bs := sweptRecord e
  if 64 + x.used + bs.length > x.cap then none
  else some (writePhys s (x.save + 64 + x.used) bs, { x with nrec := x.nrec + 1, used := x.used + bs.length })

/-- A report sent to the package that issued a GSUB or a GRES, or kept where it was issued here. -/
def reportJob (s : State) (x : Subst) (status : Nat) : State :=
  match x.remoteIssuer with
  | some t => { s with outbox := s.outbox ++ [⟨some (4096 + t), 9, toBytes 2 x.job ++ toBytes 1 status⟩] }
  | none => setSubst s { x with reports := x.reports ++ [(s.pkgid.toNat, status)] }

/-- The status of a job's command: 1 where some member's save area was full, else the highest reported. -/
def jobStatus (x : Subst) : Nat :=
  if x.reports.any fun r => r.2 == 1 then 1 else x.reports.foldl (fun m r => max m r.2) 0

/-- When every party has reported, the GSUB or GRES that waits ends with the status (R301). -/
def settleJob (s : State) (job : Nat) : State :=
  match getSubst s job with
  | none => s
  | some x =>
    let missing := (s.pkgid.toNat :: x.members).any fun t => !(x.reports.any fun r => r.1 == t)
    match x.issuer, missing with
    | some (id, _), false =>
      let st := jobStatus x
      let go (w : Weft) : Weft :=
        { w with subs := w.subs.map fun b => if b.hold = .gang job then { b with hold := .gangDone st } else b }
      let s := if x.stage = 4 then { s with substs := s.substs.filter fun y => y.job ≠ job }
        else setSubst s { x with issuer := none, members := [], reports := [] }
      progress (updWeft s id go)
    | _, _ => s

/-- The sweep ends with the save area full (R396): the member reports status 1. -/
def sweepFull (s : State) (x : Subst) : State :=
  let x := { x with stage := 3, awaitPorts := [] }
  settleJob (reportJob (saveHeader (setSubst s x) x 1) x 1) x.job

/-- Step 6 of Table 4 of R395: the seal. -/
def sealSweep (s : State) (x : Subst) : State :=
  let x := { x with stage := 2, awaitPorts := [] }
  settleJob (reportJob (saveHeader (setSubst s x) x 2) x 0) x.job

/-- A packet that a sweep finds: its records, each an origin, a port and the packet, and its removal from where it stands. -/
abbrev Found := List (Nat × Nat × Packet) × (State → State)

/-- Packets of the job that step 3 or 4 finds, in their order. A multicast packet that has not left counts once for each of its
branches. -/
def sweepList (s : State) (job : Nat) : List Found :=
  let mine (b : BufPkt) : Bool := b.p.tag == job
  let taken (b : BufPkt) (s : State) : State := { s with buffers := s.buffers.erase b }
  let egress := (List.range 16).flatMap fun n =>
    (s.buffers.filter fun b => mine b && b.port == some n).map fun b => ([(0, n, b.p)], taken b)
  let branches (p : Packet) : List Nat := (List.range 16).filter fun b => bitOf (tgetD s.groups p.target.toNat (0, 0)).1 b
  let records (b : BufPkt) : List (Nat × Nat × Packet) :=
    if b.p.vc = 5 then (branches b.p).map fun n => (1, n, b.p)
    else [(1, (portsTo s b.p.target.toNat).headD 0, b.p)]
  let inner := (List.range 6).flatMap fun v =>
    let here (b : BufPkt) : Bool := mine b && b.port.isNone && b.p.vc == v
    ((s.buffers.filter here).map fun b => (records b, taken b)) ++
      (s.mcWait.filter here).map fun b => (records b, fun s : State => { s with mcWait := s.mcWait.erase b })
  let kept := (s.retained.filter fun r => r.p.tag == job).map fun r =>
    (r.branches.map fun n => (1, n, r.p), fun s : State => { s with retained := s.retained.erase r })
  egress ++ inner ++ kept

/-- Records written in order until one does not fit; those that remain. -/
def sweepWrite : List (Nat × Nat × Packet) → State → Subst → List (Nat × Nat × Packet) × State × Subst
  | [], s, x => ([], s, x)
  | e :: t, s, x =>
    match writeSwept s x e with
    | none => (e :: t, s, x)
    | some (s, x) => sweepWrite t s { x with swept := x.swept ++ [e] }

/-- Packets swept in order, each out of its buffer as its records are written, until one does not fit: it and those behind it
stay where they are (R301). The records of one multicast packet are written together or not at all (log entry 64). -/
def sweepTake : List Found → State → Subst → Bool × State × Subst
  | [], s, x => (true, s, x)
  | e :: t, s, x =>
    match sweepWrite e.1 s x with
    | ([], s, x) => sweepTake t (e.2 s) x
    | _ => (false, s, x)

/-- Steps 3 to 5 of Table 4 of R395. The records of an unsealed sweep come first (R396); of these, the ones that a smaller area
does not take remain records of the unsealed sweep. -/
def sweepBuffers (s : State) (x : Subst) : State :=
  let old := x.swept
  let x := { x with swept := [], nrec := 0, used := 0, stage := 1 }
  let (left, s, x) := sweepWrite old (saveHeader s x 1) x
  let (fits, s, x) := if left.isEmpty then sweepTake (sweepList s x.job) s x else (false, s, { x with swept := old })
  if !fits then sweepFull s x
  else
    let targets := s.routes.filter fun e => e.2 ≠ 0
    let ports := (List.range 16).filter fun n => targets.any fun e => bitOf e.2 n
    let s := { s with outbox := s.outbox ++ targets.map fun e => ⟨some (4096 + e.1), 8, toBytes 2 x.job⟩ }
    let x := { x with awaitPorts := ports }
    if ports.isEmpty then sealSweep s x else setSubst s x

/-- Steps 1 and 2 of Table 4 of R395, and the steps that follow. -/
def beginSweep (s : State) (x : Subst) : State :=
  let ids := (s.wefts.filter (inJob s x.job)).map (·.id)
  let s := wakeLines (forWefts s ids fun s id => updWeft (quiesceWeft s id) id fun w => { w with gangHeld := true })
  sweepBuffers (setSubst s { x with stage := 1 }) x

/-- Whether a job is being substituted or has been, so that a further GSUB answers status 3. -/
def jobTaken (s : State) (job : Nat) : Bool :=
  match getSubst s job with | some x => decide (x.stage ≠ 3) || x.issuer.isSome | none => false

/-- The records of an earlier unsealed sweep. -/
def oldSwept (s : State) (job : Nat) : List (Nat × Nat × Packet) :=
  match getSubst s job with | some x => x.swept | none => []

/-! ### GSUB (R301, R395) -/

/-- A control message to each other member; a member that no route reaches is lost. -/
def tellMembers (s : State) (job kind : Nat) (members : List Nat) : List (Nat × Nat) × State :=
  let lost := members.filter fun t => tgetD s.routes t 0 = 0
  let live := members.filter fun t => !lost.contains t
  (lost.map fun t => (t, 2),
   { s with outbox := s.outbox ++ live.map fun t => ⟨some (4096 + t), kind, toBytes 2 job⟩ })

/-- The operands of GSUB and GRES: the save area and the job. -/
def jobArgs (x : Ctx) : R (Nat × Nat) := do
  let a := (← rd1 x .a true).toNat
  let job ← num1 x .b
  if job = 0 then oops cIllegalOperand
  else if a % 4096 ≠ 0 then .error (.fault cAlign a 0)
  else .ok (a, job)

/-- The issuing unit ends with the job's status, or waits until every member has reported. -/
def waitJob (x : Ctx) (s : State) : R Out :=
  match ((getWeft s x.w.id).bind fun w => subAt w x.c.lane).map fun b : Sub => b.hold with
  | some (.gangDone st) => statusOut x s st
  | _ => .ok ⟨s, .wait, []⟩

/-- GSUB. -/
def gsubBody (x : Ctx) : R Out :=
  match x.b.hold with
  | .gang _ => .error .wait
  | .gangDone st => statusOut x x.s st
  | _ => do
    let (a, job) ← jobArgs x
    let pages ← num1 x .c
    if !jobKnown x.s job || jobTaken x.s job then statusOut x x.s 3
    else
      let members := ((jobMembers x.s job).filter (· ≠ x.s.pkgid.toNat)).eraseDups
      let (lost, s) := tellMembers x.s job 7 members
      let u : Subst := {
        job := job, save := a, cap := 4096 * pages, issuer := some (x.w.id, x.c.lane), stage := 1, nrec := 0, used := 0,
        awaitPorts := [], reports := lost, members := members, swept := oldSwept s job, remoteIssuer := none }
      let s := updCur s x.c fun b => { b with hold := .gang job }
      waitJob x (beginSweep s u)

def execGsub (f : Fields) (s : State) : Host.Outcome State Fault Refusal := onWeft .gsub f .once gsubBody s

/-! ### GRES (R301, R398) -/

/-- Posted writes to one line among the records take the places of that line in ascending SEQ. -/
def sortPosted (l : List (Nat × Nat × Packet)) : List (Nat × Nat × Packet) :=
  let same (a b : Packet) : Bool := a.vc == 1 && b.vc == 1 && a.target == b.target && a.offset / 128 == b.offset / 128
  let nth_ (i : Nat) : Option (Nat × Nat × Packet) := l[i]?
  let pick (i : Nat) (e : Nat × Nat × Packet) : Nat × Nat × Packet :=
    if e.2.2.vc ≠ 1 then e
    else
      let group := l.filter fun y => same e.2.2 y.2.2
      let rank := ((List.range i).filter fun j => match nth_ j with | some y => same e.2.2 y.2.2 | none => false).length
      let sorted := group.foldl (fun (acc : List (Nat × Nat × Packet)) y =>
        acc.takeWhile (fun z => z.2.2.seq.toNat ≤ y.2.2.seq.toNat) ++ [y] ++
          acc.dropWhile (fun z => z.2.2.seq.toNat ≤ y.2.2.seq.toNat)) []
      (e.1, e.2.1, (sorted.getD rank e).2.2)
  (List.range l.length).filterMap fun i => (nth_ i).map (pick i)

/-- A record's packet leaves by its port, or waits there for credit; it carries the current incarnations. -/
def reinject (s : State) (e : Nat × Nat × Packet) : State :=
  let p := { e.2.2 with sinc := s.incarn, dinc := tgetD s.peers e.2.2.target.toNat 0 }
  if creditsOf s e.2.1 p.vc > 0 then leavePort s e.2.1 p
  else if p.vc = 5 then
    match (List.range 16).find? fun k => !(s.retained.any fun r => r.slot == k) with
    | some k => { s with retained := s.retained ++ [⟨k, p, [e.2.1]⟩] }
    | none => { s with buffers := s.buffers ++ [⟨some e.2.1, p⟩] }
  else { s with buffers := s.buffers ++ [⟨some e.2.1, p⟩] }

/-- The hold of a job is cleared: injection and commands go on, and the packets that waited are injected. -/
def releaseJob (s : State) (x : Subst) : State :=
  let s := setSubst s { x with stage := 4, swept := [] }
  let free (w : Weft) : Weft := if inJob s x.job w then { w with gangHeld := false } else w
  let again := s.buffers.filter fun b => b.p.tag == x.job && b.port.isNone
  let s := wakeLines { s with wefts := s.wefts.map free, buffers := s.buffers.filter fun b => !(b.p.tag == x.job && b.port.isNone) }
  progress (again.foldl (fun s b => if b.p.vc = 5 then sendMulticast s b.p else injectPacket s b.p) s)

/-- The member's part of a resumption: the records are re-injected before new traffic, STATE becomes 3, and the hold is
cleared. -/
def resumeJob (s : State) (x : Subst) : State :=
  releaseJob (writeNum ((sortPosted x.swept).foldl reinject s) x.save 4 3) x

/-- GRES. -/
def gresBody (x : Ctx) : R Out :=
  match x.b.hold with
  | .gang _ => .error .wait
  | .gangDone st => statusOut x x.s st
  | _ => do
    let (a, job) ← jobArgs x
    let header := physNum x.s a 4 == 2 && physNum x.s (a + 4) 2 == job
    match getSubst x.s job with
    | none => statusOut x x.s 3
    | some u =>
      if u.stage ≠ 2 ∨ u.save ≠ a ∨ !header then statusOut x x.s 3
      else
        let members := ((jobMembers x.s job).filter (· ≠ x.s.pkgid.toNat)).eraseDups
        let (lost, s) := tellMembers x.s job 10 members
        let s := updCur s x.c fun b => { b with hold := .gang job }
        let u := { u with issuer := some (x.w.id, x.c.lane), members := members, reports := lost ++ [(s.pkgid.toNat, 0)], remoteIssuer := none }
        waitJob x (settleJob (resumeJob s u) job)

def execGres (f : Fields) (s : State) : Host.Outcome State Fault Refusal := onWeft .gres f .once gresBody s

/-! ### The events of a member -/

/-- SUBSTITUTION_REQUEST: the member acts with the SAVE and SCAP of its own entry. -/
def execSubstitutionRequest (job : Nat) (src : BitVec 12) (s : State) : Host.Outcome State Fault Refusal :=
  if !jobKnown s job || jobTaken s job then
    .next { s with outbox := s.outbox ++ [⟨some (4096 + src.toNat), 9, toBytes 2 job ++ toBytes 1 3⟩] }
  else
    let e := jobEntry s job
    .next (beginSweep s {
      job := job, save := physNum s (e + 16) 8, cap := 4096 * physNum s (e + 24) 4, issuer := none, stage := 1, nrec := 0,
      used := 0, awaitPorts := [], reports := [], members := [], swept := oldSwept s job, remoteIssuer := some src.toNat })

/-- SWEPT_PACKET_RETURN. -/
def execSweptPacketReturn (job port : Nat) (p : Packet) (s : State) : Host.Outcome State Fault Refusal :=
  match getSubst s job with
  | none => .next s
  | some x =>
    if x.stage ≠ 1 ∨ p.tag ≠ job then .next s
    else
      match writeSwept s x (2, port, p) with
      | some (s, x) => .next (setSubst s { x with swept := x.swept ++ [(2, port, p)] })
      | none => .next (sweepFull { s with buffers := s.buffers ++ [⟨some port, p⟩] } x)

/-- SWEEP_DONE_MARKER. -/
def execSweepDoneMarker (job port : Nat) (s : State) : Host.Outcome State Fault Refusal :=
  match getSubst s job with
  | none => .next s
  | some x =>
    if x.stage ≠ 1 ∨ !x.awaitPorts.contains port then .next s
    else
      let x := { x with awaitPorts := x.awaitPorts.filter (· ≠ port) }
      .next (if x.awaitPorts.isEmpty then sealSweep s x else setSubst s x)

/-- SWEEP_MARKER_TIMEOUT: each missing marker is a machine check. -/
def execSweepMarkerTimeout (job : Nat) (s : State) : Host.Outcome State Fault Refusal :=
  match getSubst s job with
  | none => .next s
  | some x =>
    if x.stage ≠ 1 then .next s
    else .next (sealSweep (x.awaitPorts.foldl (fun s n => machineCheck s 26 (323 + n) 0 0 (3 + 256 * n)) s) x)

/-- SEAL_REPORT: a member's report reaches the package that issued the command. -/
def execSealReport (job : Nat) (member : BitVec 12) (status : Nat) (s : State) : Host.Outcome State Fault Refusal :=
  match getSubst s job with
  | none => .next s
  | some x =>
    if !x.members.contains member.toNat || x.reports.any (fun r => r.1 == member.toNat) then .next s
    else .next (settleJob (setSubst s { x with reports := x.reports ++ [(member.toNat, status)] }) job)

/-- RESUME_REQUEST: a sealed member resumes and reports. -/
def execResumeRequest (job : Nat) (s : State) : Host.Outcome State Fault Refusal :=
  match getSubst s job with
  | none => .next s
  | some x =>
    match x.stage, x.remoteIssuer with
    | 2, some t =>
      let s := resumeJob s x
      let s := { s with substs := s.substs.filter fun y => y.job ≠ job }
      .next { s with outbox := s.outbox ++ [⟨some (4096 + t), 9, toBytes 2 job ++ toBytes 1 0⟩] }
    | _, _ => .next s

/-! ### INCARNATION_NOTICE (R388, R389, R399) -/

/-- A substitution outstanding with a lost peer: as a member of it the peer counts as lost, and as its issuer the hold
drops and the job's outstanding requests end. -/
def loseJob (src : Nat) (s : State) (job : Nat) : State :=
  match getSubst s job with
  | none => s
  | some x =>
    let s := if x.members.contains src && !(x.reports.any fun r => r.1 == src) then
        settleJob (setSubst s { x with reports := x.reports ++ [(src, 2)] }) job
      else s
    if x.remoteIssuer ≠ some src then s
    else
      let s := releaseJob s x
      let s := { s with substs := s.substs.filter fun y => y.job ≠ job }
      let mine (id : WId) : Bool := match getWeft s id with | some w => inJob s job w | none => false
      let s := ((s.outReqs.filter fun r => mine r.w).map (·.id)).eraseDups.foldl (fun s id => failRequests s id cPeerLost) s
      ((s.wefts.filter fun w => inJob s job w).map (·.id)).foldl loseRelease s

/-- INCARNATION_NOTICE. -/
def execIncarnationNotice (src : BitVec 12) (inc : Word32) (s : State) : Host.Outcome State Fault Refusal :=
  let old := tget s.peers src.toNat
  let t := { s with peers := tset s.peers src.toNat inc }
  if old = some inc then .next t
  else .next ((t.substs.map (·.job)).foldl (loseJob src.toNat) (losePeer t src.toNat))

end Sys2Proof.Machine
end

