-- ==== Sys2Proof/Machine/Agenda.lean ====
section
/-!
DEFINITION. What the outside does to the package beside its events (log entries 1 and 13): set-up by software that
the manual does not describe, the events that the device raises by itself, and the state in which a given
instruction is fetched next.
-/
namespace Sys2Proof.Machine

/-- A set-up action: ready queues by the supervisor (R58), the tables and vectors of bring-up (R404, R436), routes
and groups (R390, R391), credits (R387), bytes that the host places in memory, and a die that falls below 95 °C (R435). -/
def setUp (s : State) : Action → State
  | .event _ => s
  | .issue _ _ => s
  | .makeQueue part q shape ceiling =>
    updPart s part fun p =>
      if q < p.desc.nready ∧ (tget p.queues q).isNone then { p with queues := tset p.queues q ⟨shape, ceiling, []⟩ } else p
  | .bringUp t pkgid => { s with tables := t, pkgid := pkgid }
  | .route target mask => { s with routes := tset s.routes target mask }
  | .group n mask members => { s with groups := tset s.groups n (mask, members) }
  | .credit port vc n =>
    { s with ports := s.ports.map fun p => if p.num = port then { p with credits := tset p.credits vc n } else p }
  | .vector level v => if level = 2 then { s with htvec := v } else if level = 3 then { s with mtvec := v } else s
  | .place pa data => writePhys s pa data
  | .cool die => { s with hot := s.hot.filter (· ≠ die) }

/-! ### The events that the device raises by itself (log entry 1) -/

/-- Arrivals for wefts: translations, results, symbols and their faults, user interrupts, batches, and the saves of
TRANSLATION faults. -/
def weftEvents (s : State) : List Instr :=
  let slotOf (a : SymAcc) (id : WId) : List Instr :=
    if h : a.slot < 16 then [.symbolArrival id ⟨a.slot, h⟩] else []
  let symbol (a : SymAcc) : List Instr :=
    match s.wefts.find? fun w => w.key == a.key && w.num == a.num with
    | some w => if (symValue s a).isSome || symDue s a then slotOf a w.id else []
    | none =>
      match s.saved.findSome? fun v => v.wefts.find? fun w => w.key == a.key && w.num == a.num with
      | some w => if a.value.isSome then slotOf a w.id else []
      | none => []
  (s.walks.map fun k => .translationComplete (BitVec.ofNat 16 k.asid) k.vpage) ++
  ((s.landings.filter (mayLand s)).map fun l => .interlockedWriteLanding l.id) ++
  s.symAccs.flatMap symbol ++
  ((s.wefts.filter fun w => !w.symFaults.isEmpty && !entryHeld s w.id).map fun w => .symbolFault w.id) ++
  ((s.wefts.filter fun w => (uiSub s w).isSome && !entryHeld s w.id).map fun w => .userInterruptDelivery w.id) ++
  ((s.wefts.filter batchDue).map fun w => .serviceBatchSend w.id) ++
  ((s.panels.filter fun p => p.saveVa.isSome && !saveBusy s p.key).map fun p => .translationFaultSave p.key)

/-- The court, the bench and the reform bins. -/
def courtEvents (s : State) : List Instr :=
  let quarters := (s.wefts.map fun w => (w.id.core, w.quarter)).eraseDups
  ((s.wefts.filter fun w => w.onCourt && w.subs.all (fun b => b.park.isSome) && !w.subs.isEmpty).map
    fun w => .benchSubstitution w.id) ++
  ((quarters.filter fun q => !(readyBench s q.1 q.2).isEmpty && freeCourt s q.1 q.2 > 0).map fun q => .promotion q.1 q.2) ++
  ((quarters.filter fun q => rotationDue s q.1 q.2).map fun q => .rotation q.1 q.2) ++
  s.cores.flatMap fun c => c.bins.flatMap fun b =>
    (if binDue b && canDraw s c.num b then [.reformBinSlotDraw c.num b.id] else []) ++
    (if !b.due && decide (b.since + 256 ≤ coreNow s c.num) then [.reformBinTimeout c.num b.id] else [])

/-- Engines, queues, device areas, regions and messages. -/
def unitEvents (s : State) : List Instr :=
  let engines : List Engine := [.copy, .gather, .coll, .matrix]
  let perCore (c : CoreSt) : List Instr :=
    if c.cmds.isEmpty then []
    else engines.flatMap fun e =>
      (if chunkDue s c.num e then [.engineChunk c.num e] else []) ++
      (if (endedHead s c.num e).isSome then [.engineCompletion c.num e] else [])
  let perPart (e : Nat × Part) : List Instr :=
    ((e.2.heldStores.map fun h => h.q).eraseDups.map fun q => .heldWindowStore e.1 q) ++
    (if e.2.overflow.isEmpty then [] else [.overflowPlacement e.1]) ++
    (if e.2.work.isEmpty then [] else [.queueEnginePageResume e.1]) ++
    (if e.2.areaWork.isEmpty then [] else [.deviceAreaResume e.1]) ++
    (e.2.doms.filter fun d => d.2.slot.isNone && !(serialWaiters s e.1 d.1).isEmpty).map fun d => .serialSlotGrant e.1 d.1
  let commit (w : Weft) : Bool :=
    match w.region with
    | some r => (w.subs.any fun b => b.hold == .arend) && commitReady s r
    | none => false
  let inbox (m : InMsg) : List Instr :=
    match m.buf, getPart s m.part with
    | some _, _ => [.stagedMessagePlacement m.id]
    | none, some p => if !p.frozen && !(tgetD p.eps m.ep []).isEmpty then [.messageArrival m.id] else []
    | none, none => [.messageArrival m.id]
  let outgoing (m : Msg) : List Instr :=
    if m.done || (m.data.isSome && field m.dst 59 48 != s.pkgid.toNat) then [.sendCompletion m.id]
    else if m.data.isNone then [.messageArrival m.id]
    else []
  let forward (r : Retained) : List Instr :=
    (r.branches.filter fun b => creditsOf s b 5 > 0 && !frozenTag s r.p.tag).map fun b => .multicastForward r.slot b
  s.cores.flatMap perCore ++ s.parts.flatMap perPart ++ ((s.wefts.filter commit).map fun w => .regionCommit w.id) ++
    s.inMsgs.flatMap inbox ++ s.msgs.flatMap outgoing ++ s.retained.flatMap forward

/-- The homes, the migration engine, the ports, and a die that quiesces. -/
def homeEvents (s : State) : List Instr :=
  let perLine (r : LineRec) : List Instr :=
    let each (ask answer : Nat → Nat → Instr) : List Instr :=
      r.pending.map fun a => if heldAs r a = .i then answer a r.line else ask a r.line
    match r.home with
    | .stb => if ownedAway s r.line && !(s.waiting.isEmpty && s.atPorts.isEmpty && s.moves.isEmpty &&
        s.cores.all fun c => c.cmds.isEmpty) then [.forward r.line] else []
    | .fwd => if r.pending.isEmpty then [.forwardData r.line] else [.forward r.line]
    | .inv => each .invalidation .invalidationAck
    | .mrg => each .mergeRequest .mergeResponse
    | .rcl => each .recall .recallResponse
    | .recov => each .recall .recallResponse
    | _ => []
  let perMove (m : Move) : List Instr :=
    if switchReady s m then [.moveSwitch (BitVec.ofNat 16 m.asid) m.vpage] else [.moveLineCopy (BitVec.ofNat 16 m.asid) m.vpage]
  s.lines.flatMap perLine ++ (if s.moves.length < 64 && (nextReq s s.moveReqs).isSome then [.moveStart] else []) ++
    s.moves.flatMap perMove ++ s.atPorts.filter (atFront s) ++ s.quiescing.map .dieReset

/-- The event that the device raises next by itself: one of the court, the bench and the bins comes first (R64, R65, R68, R75);
else at every second tick one of those that are possible, in turn. -/
def autoEvent (s : State) : Option Instr :=
  match courtEvents s with
  | i :: _ => some i
  | [] =>
    if s.tick % 2 = 1 then none
    else
      let l := weftEvents s ++ unitEvents s ++ homeEvents s
      l[s.tick / 2 % l.length]?

/-- The state in which such an event is carried out: one tick later. -/
def tickOn (s : State) : State := { s with tick := s.tick + 1 }

/-! ### Issue (R63) -/

/-- The agenda's choice of a sub-weft issues where it is the one whose turn it is on its quarter: only which quarter issues next
is open (log entry 1). Nothing issues while the court, the bench or a bin has an event to come. -/
def claim (s : State) (id : WId) (lane : Nat) : Option Nat :=
  match getWeft s id with
  | none => none
  | some w =>
    match quarterPick s id.core w.quarter with
    | some (k, l) =>
      let turn := match subAt w lane with | some b => lowest b.mask == l | none => false
      if k == id && turn && (courtEvents s).isEmpty then some l else none
    | none => none

/-- A unit that waits in the scoreboard has not issued: the cycles and the issue records of its core are as before (R63). -/
def refund (pre : State) (id : WId) (lane : Nat) (t : State) : State :=
  if !t.waiting.contains (id, lane) then t
  else
    let c0 := getCore pre id.core
    let q := match getWeft pre id with | some w => w.quarter | none => 0
    let back (w : Weft) : Weft :=
      match getWeft pre w.id with
      | none => w
      | some v =>
        let w := { w with skipped := v.skipped, batchAge := v.batchAge }
        if w.id = id then { w with stall := v.stall, lastIssue := v.lastIssue } else w
    let t := updCore t id.core fun c => { c with cycle := c0.cycle, extra := c0.extra, busyCourt := c0.busyCourt }
    { t with wefts := t.wefts.map fun w => if w.id.core = id.core ∧ w.quarter = q then back w else w }

end Sys2Proof.Machine
end

