-- ==== Sys2Proof/Machine/EngineOps.lean ====
section
/-!
DEFINITION. The instructions that issue engine commands (R254 to R258, R262, R263, R266 to R273).
-/
namespace Sys2Proof.Machine

/-! ### Matrix operations -/

/-- The tile that a field names; t ≥ n faults ILLEGAL_OPERAND (R102). -/
def tileAt (x : Ctx) (o : Operand) : R Nat :=
  if modByte o < x.p.m.acc then .ok (modByte o) else oops cIllegalOperand

/-- A swatch record of the weft; a record that was never written has V = 0. -/
def swatchRec (w : Weft) (k : Nat) : BitVec 128 := tgetD w.swatches k 0

/-- A product that passes the checks of R267. -/
def matChecked (x : Ctx) (op : MatOp) : R MatOp := if matOk x.p.m.acc op then .ok op else oops cEngineDesc

/-- The operation of an MMA. -/
def mmaOp (x : Ctx) : R MatOp := do
  let t ← tileAt x x.f.c
  matChecked x (.mma (bitOf x.f.mod.toNat 1) (swatchRec x.w (modByte x.f.a)) (swatchRec x.w (modByte x.f.b)) t)

/-- The operation of an MMAC. -/
def mmacOp (x : Ctx) : R MatOp := do
  let t ← tileAt x x.f.c
  let g ← num1 x .a
  if field g 7 6 ≠ 0 ∨ field g 31 16 ≠ 0 then oops cEngineDesc
  else matChecked x (.mmac (bitOf x.f.mod.toNat 1) (field g 5 0) (field g 15 8 + 1) (swatchRec x.w (modByte x.f.b)) t)

/-- The last word of the unit that executes. -/
def wordOf (x : Ctx) : Word64 := fullWord x.m x.f

/-- A matrix operation accepted for a weft on its core. -/
def acceptMat (x : Ctx) (s : State) (w : Weft) (op : MatOp) (desc : Nat) (bytes : List Byte) (cq : Option Nat) : State :=
  acceptCmd s w.id.core {
    id := 0, engine := .matrix, key := w.key, num := w.num, lane := none, desc := desc, bytes := bytes, cq := cq,
    unc := false, mat := some op, word := wordOf x, ext := x.f.ext.getD 0, prog := 0, written := 0, status := 0, stage := 0 }

/-- The context of another member of a scrum that has arrived at the same instruction. -/
def memberCtx (x : Ctx) (w : Weft) (b : Sub) : Ctx :=
  { x with w := w, b := b, c := { x.c with w := w.id, lane := lowest b.mask }, act := b.mask, scalar := true, pops := [] }

/-- The members of a scrum that have arrived, each with its sub-weft; the issuing weft among them. -/
def arrivedMembers (x : Ctx) (e : Nat) : List (Weft × Sub) :=
  (weftsOf x.s x.w.key).filterMap fun w =>
    if w.id = x.w.id then some (w, x.b)
    else (w.subs.find? fun b => b.hold == .scrum e).map fun b => (w, b)

/-- An arrived member faults at its own instruction. -/
def failMember (x : Ctx) (code : Nat) (s : State) (m : Weft × Sub) : State :=
  let c := (memberCtx x m.1 m.2).c
  let s := wakeSub s c.w c.lane .none
  deliver s c false code noTval (causeLanes m.2 0) false false

/-- An arrived member retires its instruction: as finishUnit ends a unit at the next word. -/
def retireMember (x : Ctx) (s : State) (m : Weft × Sub) : State :=
  let c := (memberCtx x m.1 m.2).c
  let next := c.pc + BitVec.ofNat 64 (8 * c.words)
  let s := updCur (wakeSub s c.w c.lane .none) c fun b => { b with pc := next }
  let s := updWeft s c.w fun w => ageWindow w m.2.mask (c.words - 1) (max x.f.stl.toNat 1)
  match getPanel s m.1.key with
  | none => s
  | some p => match debugMatch p m.1 c.pc m.2.mask [] with | none => s | some d => applyMatch s c d

/-- The lead members: on each core the arrived member with the lowest `$weft` (R263). -/
def leadMembers (l : List (Weft × Sub)) : List (Weft × Sub) :=
  l.filter fun a => !(l.any fun b => b.1.id.core == a.1.id.core && decide (b.1.num < a.1.num))

/-- The acceptance of a scrum's operation when every member has arrived. -/
def scrumGoes (mk : Ctx → R MatOp) (x : Ctx) (e : Nat) : R Out :=
  let ms := arrivedMembers x e
  let others := ms.filter fun m => m.1.id != x.w.id
  let leads := leadMembers ms
  match leads.mapM fun m => (mk (memberCtx x m.1 m.2)).map fun op => (m.1, op) with
  | .error (.fault code tval lanes) =>
    let s := updPanel x.s x.w.key fun p => { p with latches := p.latches.filter fun l => l.entry ≠ e }
    .ok ⟨others.foldl (failMember x code) s, .fault code tval lanes false false, []⟩
  | .error stop => .error stop
  | .ok ops =>
    if ops.any fun o => !engineRoom x.s o.1.id.core .matrix then .error .wait
    else
      let s := updPanel x.s x.w.key fun p => { p with latches := p.latches.filter fun l => l.entry ≠ e }
      let s := ops.foldl (fun s o => acceptMat x s o.1 o.2 0 [] none) s
      Out.step (others.foldl (retireMember x) s)

/-- The arrival of a weft at the latch of its scrum (R263). -/
def scrumArrive (mk : Ctx → R MatOp) (x : Ctx) : R Out :=
  match x.b.hold, scrumOf x.w with
  | .scrumFault code, _ => oops code
  | _, none => oops cScrum
  | _, some e =>
    if x.p.broken.contains e then oops cScrum
    else
      let latch := (x.p.latches.find? fun l => l.entry == e).getD ⟨e, x.c.pc, []⟩
      if latch.pc ≠ x.c.pc then
        let others := (arrivedMembers x e).filter fun m => m.1.id != x.w.id
        let s := updPanel x.s x.w.key fun p => { p with latches := p.latches.filter fun l => l.entry ≠ e }
        let fail (s : State) (m : Weft × Sub) : State := failMember { x with c := { x.c with pc := m.2.pc } } cScrum s m
        .ok ⟨others.foldl fail s, .fault cScrum noTval 0 false false, []⟩
      else
        let members := addOnce latch.members x.w.num
        let count := match x.p.m.scrums[e]? with | some t => t.2 | none => 0
        if members.length < count then
          let s := updPanel x.s x.w.key fun p =>
            { p with latches := { latch with members := members } :: p.latches.filter fun l => l.entry ≠ e }
          .ok ⟨updCur s x.c fun b => { b with hold := .scrum e }, .park .scrum, []⟩
        else scrumGoes mk x e

/-- A matrix instruction: for the weft alone, or through the latch of its scrum. -/
def matBody (mk : Ctx → R MatOp) (x : Ctx) : R Out :=
  if bitOf x.f.mod.toNat 0 then scrumArrive mk x
  else
    match mk x with
    | .error e => .error e
    | .ok op => if engineRoom x.s x.w.id.core .matrix then Out.step (acceptMat x x.s x.w op 0 [] none) else .error .wait

def execMma (f : Fields) (s : State) : Host.Outcome State Fault Refusal := onWeft .mma f .once (matBody mmaOp) s
def execMmac (f : Fields) (s : State) : Host.Outcome State Fault Refusal := onWeft .mmac f .once (matBody mmacOp) s

/-! ### ACLR, ALD, AST (R268) -/

/-- The tiles t to t + c − 1 that a tile instruction names. -/
def tileRange (x : Ctx) (fld : Fld) : R (Nat × Nat) := do
  let t ← tileAt x x.f.c
  let c ← num1 x fld
  if c < 1 ∨ c > 64 ∨ t + c > x.p.m.acc then oops cIllegalOperand else .ok (t, c)

/-- A tile instruction: its operation, accepted where the engine has room. -/
def tileBody (mk : Ctx → R MatOp) (x : Ctx) : R Out := do
  let op ← mk x
  if engineRoom x.s x.w.id.core .matrix then Out.step (acceptMat x x.s x.w op 0 [] none) else .error .wait

/-- The operations. -/
def aclrOp (x : Ctx) : R MatOp := do
  let (t, c) ← tileRange x .a
  .ok (.aclr t c)
def aldOp (x : Ctx) : R MatOp := do
  let (t, c) ← tileRange x .b
  let a ← num1 x .a
  .ok (.ald (BitVec.ofNat 32 a) t c)
def astOp (x : Ctx) : R MatOp := do
  let (t, c) ← tileRange x .b
  let a ← num1 x .a
  .ok (.ast (BitVec.ofNat 32 a) t c)

def execAclr (f : Fields) (s : State) : Host.Outcome State Fault Refusal := onWeft .aclr f .once (tileBody aclrOp) s
def execAld (f : Fields) (s : State) : Host.Outcome State Fault Refusal := onWeft .ald f .once (tileBody aldOp) s
def execAst (f : Fields) (s : State) : Host.Outcome State Fault Refusal := onWeft .ast f .once (tileBody astOp) s

/-! ### Commands with a descriptor -/

/-- A command accepted by its engine, after the release that a TASK asks for (R345). A full copy, gather or collective
queue parks; a full matrix engine waits. -/
def issueCmd (x : Ctx) (s : State) (c : Cmd) : R Out :=
  let go (s : State) : R Out :=
    if engineRoom s x.w.id.core c.engine then Out.step (acceptCmd s x.w.id.core c)
    else if c.engine = .matrix then .error .wait
    else .error (.park .queue (.engine c.engine))
  if taskOf c = 0 then go s else withRelease { x with s := s } 4 go

/-- ADRAIN (R269). -/
def adrainBody (x : Ctx) : R Out := do
  let t ← tileAt x x.f.c
  let cq ← cqOf x
  let va ← rd1 x .a true
  let (n, s) ← readDesc x va.toNat 32 32
  if !drainOk (drainOf n) t x.p.m.acc then oops cEngineDesc
  else
    issueCmd x s {
      id := 0, engine := .matrix, key := x.w.key, num := x.w.num, lane := none, desc := va.toNat, bytes := toBytes 32 n,
      cq := cq, unc := false, mat := some (.drain t), word := wordOf x, ext := x.f.ext.getD 0, prog := 0, written := 0,
      status := 0, stage := 0 }

def execAdrain (f : Fields) (s : State) : Host.Outcome State Fault Refusal := onWeft .adrain f .once adrainBody s

/-- The command queue in B: a binding of the engine's kind (R255). -/
def commandQueue (x : Ctx) (kind : Nat) : R Unit :=
  match x.f.b with
  | .q n =>
    match tget x.w.binds n.val with
    | some b => if b.kind = kind then .ok () else oops cIllegalOperand
    | none => oops cIllegalOperand
  | _ => oops cIllegalOperand

/-- Whether operand-buffer bytes lie in ranges that wefts of the panel hold on the core (R271). A range that a matrix operation
in flight reads is held until the operation retires, whatever has been released since (R101). -/
def obHeld (x : Ctx) (a : Int) (n : Nat) : Bool :=
  let ws := (weftsOf x.s x.w.key).filter fun w => w.id.core == x.w.id.core
  let ops := (getCore x.s x.w.id.core).cmds.filter fun c => c.key == x.w.key
  let own := (ws.flatMap fun w => w.swatches).map (·.2)
  let held := ((own ++ ops.flatMap fun c => (c.mat.map matSwatches).getD []).map swatchOf).filter fun w => w.v
  (List.range n).all fun i =>
    held.any fun w => decide ((w.base * 128 : Int) ≤ a + i) && decide (a + i < ((w.base + w.len + 1) * 128 : Int))

/-- The operand-buffer check of a copy and of a gather. -/
def copyHeld (x : Ctx) (d : CopyDesc) : Bool :=
  d.dk != 2 || (List.range (copyTotal d)).all fun i => obHeld x (copyTuple d i).2.2 (2 ^ d.es)
def gathHeld (x : Ctx) (d : GathDesc) : Bool :=
  d.dk != 2 || (List.range d.nidx).all fun i => obHeld x (d.dst + i * d.ds : Nat) d.rowBytes

/-- A command with a descriptor of n bytes. -/
def descBody (e : Engine) (kind size align : Nat) (ok : Ctx → Nat → Bool) (x : Ctx) : R Out := do
  let cq ← cqOf x
  commandQueue x kind
  let va ← rd1 x .a true
  let (n, s) ← readDesc x va.toNat size align
  if !ok x n then oops cEngineDesc
  else
    issueCmd x s {
      id := 0, engine := e, key := x.w.key, num := x.w.num, lane := none, desc := va.toNat, bytes := toBytes size n,
      cq := cq, unc := uncounted x, mat := none, word := 0, ext := 0, prog := 0, written := 0, status := 0, stage := 0 }

def execCpy (f : Fields) (s : State) : Host.Outcome State Fault Refusal :=
  onWeft .cpy f .once (descBody .copy 0 256 64 fun x n => copyOk (copyOf n) && copyHeld x (copyOf n)) s
def execGath (f : Fields) (s : State) : Host.Outcome State Fault Refusal :=
  onWeft .gath f .once (descBody .gather 1 64 64 fun x n => gathOk (gathOf n) && gathHeld x (gathOf n)) s
def execColl (f : Fields) (s : State) : Host.Outcome State Fault Refusal :=
  onWeft .coll f .once (descBody .coll 2 32 32 fun x n => collOk (collOf n) x.p.cores.length) s

end Sys2Proof.Machine
end

