-- ==== Sys2Proof/Machine/Lanes.lean ====
section
/-!
DEFINITION. Lane operations (R211 to R217) and paired words (R114 to R117).
-/
namespace Sys2Proof.Machine

/-! ### Lane operations -/

/-- A source read in all lanes as they stand (R211). -/
def rdAll (x : Ctx) (fld : Fld) (wide : Bool) : R (List Word64) :=
  readVals x fld (opOf x.f fld) wide (allLanes x.w)

/-- On a supervisor core every other lane reads as lane 0 (R211). -/
def srcLane (w : Weft) (j : Nat) : Nat := if isSup w.id.core then 0 else j

/-- The lane that SHFL reads (R212). -/
def shflLane (m l b : Nat) : Nat :=
  let w := 16 / 2 ^ (m / 4)
  let base := l - l % w
  match m % 4 with
  | 0 => base + b % w
  | 1 => if b ≤ l - base then l - b else l
  | 2 => if l + b < base + w then l + b else l
  | _ => base + ((l - base) ^^^ (b % w))

/-- SHFL (R212). -/
def shflBody (x : Ctx) : R Out := do
  let wide := x.f.mod.toNat = 9
  let x ← popSources x
  let a ← rdAll x .a wide
  let b ← rd x .b false
  let m := modByte x.f.c
  let vs := lanes16.map fun l => a.getD (srcLane x.w (shflLane m l ((b.getD l 0).toNat % 2 ^ 32))) 0
  let s ← writeRes x wide vs none id
  Out.step s

def execShfl (f : Fields) (s : State) : Host.Outcome State Fault Refusal := onWeft .shfl f .auto shflBody s

/-- VOTE (R213): a predicate result goes into the bits of the active lanes. -/
def voteBody (x : Ctx) : R Out := do
  let a ← rd x .a false
  let m : Mask := (a.getD 0 0).setWidth 16
  let op := modByte x.f.c
  let yes := m &&& x.act
  if op = 3 then
    let s ← writeRes x false (splat (yes.setWidth 64)) none id
    Out.step s
  else
    let v := match op with
      | 0 => yes != 0
      | 1 => yes == x.act
      | _ => yes == 0 || yes == x.act
    Out.step (setWeft x.s (writePred x x.w (predNum x.f.d) x.act (if v then x.act else 0) none))

def execVote (f : Fields) (s : State) : Host.Outcome State Fault Refusal :=
  onWeft .vote f (if kindOf f.d = .p then .lanes else .auto) voteBody s

/-- BCAST (R214). -/
def bcastBody (x : Ctx) : R Out := do
  let wide := x.f.mod.toNat = 9
  let x ← popSources x
  let a ← rdAll x .a wide
  let j ← num1 x .b
  let s ← writeRes x wide (splat (a.getD (srcLane x.w (j % 16)) 0)) none id
  Out.step s

def execBcast (f : Fields) (s : State) : Host.Outcome State Fault Refusal := onWeft .bcast f .auto bcastBody s

/-- One step of SCAN and WRED on codes, with its flags (Table 9 of R215). -/
def reduceStep (fl : Bool) (op t : Nat) (a b : Word64) : Word64 × Flags :=
  if fl then
    let f := fmtOf t
    let x := decodeF f (codeIn f a)
    let y := decodeF f (codeIn f b)
    let r := match op with
      | 0 => faddV f .rne false x y
      | 1 => fminmaxV f false x y
      | _ => fminmaxV f true x y
    (BitVec.ofNat 64 r.1, r.2)
  else
    let x := opd t a
    let y := opd t b
    let n := intWidth t
    let r : Int := match op with
      | 0 => x + y
      | 1 => min x y
      | 2 => max x y
      | 3 => (((wrap n x) &&& (wrap n y) : Nat) : Int)
      | 4 => (((wrap n x) ||| (wrap n y) : Nat) : Int)
      | _ => (((wrap n x) ^^^ (wrap n y) : Nat) : Int)
    (resOf t r, Flags.none)

/-- The identity of an exclusive scan (Table 9 of R215). -/
def reduceId (fl : Bool) (op t : Nat) : Word64 :=
  if fl then
    let f := fmtOf t
    match op with
    | 0 => 0
    | 1 => BitVec.ofNat 64 f.infCode
    | _ => BitVec.ofNat 64 (f.signBit + f.infCode)
  else
    let r := typeRange t
    match op with
    | 1 => resOf t r.2
    | 2 => resOf t r.1
    | 3 => resOf t (-1)
    | _ => 0

/-- The steps over the active lanes in ascending order: for each lane the value before and after its own, and the
flags. -/
def reduceRun (fl : Bool) (op t : Nat) : List (Nat × Word64) → Option Word64 →
    List (Nat × Word64 × Word64) × Word64 × Flags
  | [], acc => ([], acc.getD 0, Flags.none)
  | (l, v) :: r, acc =>
    let (nv, f0) := match acc with | none => (v, Flags.none) | some a => reduceStep fl op t a v
    let (rest, last, f1) := reduceRun fl op t r (some nv)
    ((l, acc.getD (reduceId fl op t), nv) :: rest, last, f0.or f1)

/-- A source of a floating-point scan as a value of its format, a NaN made canonical (R191, R193). -/
def reduceSource (fl : Bool) (t : Nat) (v : Word64) : Word64 :=
  if fl then
    let f := fmtOf t
    if (decodeF f (codeIn f v)).isNan then BitVec.ofNat 64 f.nanCode else BitVec.ofNat 64 (codeIn f v)
  else v

/-- SCAN and WRED (R215). An inclusive form starts at the first active lane's value; an exclusive one at the
identity. -/
def reduceBody (isScan : Bool) (x : Ctx) : R Out := do
  let m := modByte x.f.c
  let t := x.f.mod.toNat
  let fl := bitOf m 4
  let op := m % 8
  let excl := isScan && bitOf m 3
  let wide := wideT x.m x.f
  let x ← popSources x
  let a ← rdAll x .a wide
  let ls := (lanesOf x.act).map fun l => (l, reduceSource fl t (a.getD l 0))
  let snan := fl && (lanesOf x.act).any fun l => (decodeF (fmtOf t) (codeIn (fmtOf t) (a.getD l 0))).isSnan
  let start := if excl then some (reduceId fl op t) else none
  -- an exclusive scan never adds the last lane's value
  let ran := reduceRun fl op t (if excl then ls.dropLast else ls) start
  let flags : Flags := { ran.2.2 with nv := ran.2.2.nv || snan }
  let steps := ran.1
  let val (l : Nat) : Word64 :=
    match steps.find? fun e => e.1 == l with
    | some e => if excl then e.2.1 else e.2.2
    | none => ran.2.1
  let vs := if isScan then lanes16.map val else splat ran.2.1
  let s ← writeRes x wide vs none fun w => orFpst w flags
  Out.step s

def execScan (f : Fields) (s : State) : Host.Outcome State Fault Refusal := onWeft .scan f .auto (reduceBody true) s

def execWred (f : Fields) (s : State) : Host.Outcome State Fault Refusal := onWeft .wred f .auto (reduceBody false) s

/-- MATCH (R216). -/
def matchBody (x : Ctx) : R Out := do
  let wide := decide (x.f.mod.toNat = 9)
  let x ← popSources x
  let a ← rdAll x .a wide
  let cut (v : Word64) : Word64 := if wide then v else (v.setWidth 32).setWidth 64
  let same (l : Nat) : Mask := maskOf ((lanesOf x.act).filter fun k => cut (a.getD k 0) == cut (a.getD l 0))
  let s ← writeRes x false (lanes16.map fun l => (same l).setWidth 64) none id
  Out.step s

def execMatchLanes (f : Fields) (s : State) : Host.Outcome State Fault Refusal :=
  onWeft .matchLanes f .auto matchBody s

/-- The word of SHAPEQ for a register (Table 10 of R217). -/
def shapeWord : VReg → Nat
  | .val .u _ => 0
  | .val .a _ => 1
  | .val .g _ => 2 + 2 ^ 12
  | .sym v => 3 + 16 * v.slot + 256 * v.steps.length + 2 ^ 12 * symCharge v
  | .symHi v => 3 + 16 * v.slot + 2 ^ 12 * (2 - symCharge v)

/-- SHAPEQ (R217): it never parks under SYMBOL. -/
def shapeqBody (x : Ctx) : R Out := do
  match x.f.a with
  | .v n =>
    let r ← readReg x.s x.w x.b x.pre (.v n.val) (allLanes x.w)
    let s ← writeRes x false (splat (BitVec.ofNat 64 (shapeWord r))) none id
    Out.step s
  | _ => oops cIllegalOperand

def execShapeq (f : Fields) (s : State) : Host.Outcome State Fault Refusal := onWeft .shapeq f .auto shapeqBody s

/-! ### Paired words (R114 to R116) -/

/-- The result of a slot for one lane (Table 5 of R115). -/
def slotOp (p : Pop) (d a : Word32) : Word32 × Flags :=
  let fp (op : Rnd → Bool → FVal → FVal → Nat × Flags) (z : Bool) : Word32 × Flags :=
    let r := op .rne z (readF .f32 z d.toNat) (readF .f32 z a.toNat)
    (BitVec.ofNat 32 r.1, r.2)
  let k := a.toNat % 32
  let int (x : Word32) : Word32 × Flags := (x, Flags.none)
  match p with
  | .addI32 => int (d + a)
  | .subI32 => int (d - a)
  | .mulI32 => int (d * a)
  | .andB32 => int (d &&& a)
  | .orB32 => int (d ||| a)
  | .xorB32 => int (d ^^^ a)
  | .andnB32 => int (d &&& ~~~a)
  | .shlB32 => int (d <<< k)
  | .shrN32 => int (d >>> k)
  | .sarI32 => int (d.sshiftRight k)
  | .minI32 => int (if d.toInt ≤ a.toInt then d else a)
  | .maxI32 => int (if d.toInt ≥ a.toInt then d else a)
  | .minN32 => int (if d.toNat ≤ a.toNat then d else a)
  | .maxN32 => int (if d.toNat ≥ a.toNat then d else a)
  | .movB32 => int a
  | .faddF32 => fp (faddV .f32) false
  | .fsubF32 => fp (fun r z x y => faddV .f32 r z x y.negate) false
  | .fmulF32 => fp (fmulV .f32) false
  | .fminF32 => fp (fun _ _ x y => fminmaxV .f32 false x y) false
  | .fmaxF32 => fp (fun _ _ x y => fminmaxV .f32 true x y) false
  | .faddFtz => fp (faddV .f32) true
  | .fsubFtz => fp (fun r z x y => faddV .f32 r z x y.negate) true
  | .fmulFtz => fp (fmulV .f32) true
  | .fminFtz => fp (fun _ _ x y => fminmaxV .f32 false x y) true
  | .fmaxFtz => fp (fun _ _ x y => fminmaxV .f32 true x y) true

/-- Whether a slot operation is a floating-point one. -/
def popFloat (p : Pop) : Bool := popCode p ≥ 0x10

/-- A slot's A for every lane. -/
def slotSrc (s : State) (w : Weft) (b : Sub) (y : Bool) (p : Pop) (use : Mask) : SlotA → R (List Word32)
  | .v n => readLanes s w b 0 (.v n.val) use
  | .o n => readLanes s w b 0 (.o n.val) use
  | .lat => readLanes s w b 0 (.lat y) use
  | .imm i =>
    let v : Word32 := if popFloat p then BitVec.ofNat 32 (cvtifV .f32 .rne i.toInt).1 else i.signExtend 32
    .ok (lanes16.map fun _ => v)

/-- What a slot writes: its lanes, its values and its flags. -/
def slotResult (s : State) (w : Weft) (b : Sub) (y : Bool) (t : Slot) : R (Mask × List Word32 × Flags) := do
  let m ← readPred s w b 0 t.gp.val
  let act := b.mask &&& m
  if act = 0 then .ok (0, [], Flags.none)
  else
    let d ← readLanes s w b 0 (.v t.d.val) act
    let a ← slotSrc s w b y t.pop act t.a
    let rs := lanes16.map fun l => slotOp t.pop (lane d l) (lane a l)
    .ok (act, rs.map (·.1), (lanesOf act).foldl (fun f l => f.or (rs.getD l (0, Flags.none)).2) Flags.none)

/-- The write of one slot: its register and its latch. -/
def slotWrite (b : Sub) (y : Bool) (t : Slot) (r : Mask × List Word32 × Flags) (w : Weft) : Weft :=
  if r.1 = 0 then w
  else orFpst (putReg (putReg w b (.v t.d.val) r.1 r.2.1 (some 4)) b (.lat y) r.1 r.2.1 (some 4)) r.2.2

/-- A paired word: both slots read before either writes, and SHAPE_OVER is decided for both together (R116). -/
def pairedOut (x y : Slot) (s : State) (w : Weft) (p : Panel) (b : Sub) : Mask × R Out :=
  match slotResult s w b false x, slotResult s w b true y with
  | .error e, _ | _, .error e => (b.mask, .error e)
  | .ok rx, .ok ry =>
    let act := rx.1 ||| ry.1
    let busy (n : Nat) (lat : Bool) (m : Mask) : Bool :=
      m != 0 && (outstanding s w (.v n) m || outstanding s w (.lat lat) m)
    if busy x.d.val false rx.1 || busy y.d.val true ry.1 then (act, .error .wait)
    else
      let w1 := slotWrite b true y ry (slotWrite b false x rx w)
      if overCharge s p w w1 then (act, oops cShapeOver) else (act, Out.step (setWeft s w1))

def execPaired (stl : BitVec 4) (x y : Slot) (s : State) : Host.Outcome State Fault Refusal :=
  match s.cur with
  | none => .fault .noIssuer
  | some c =>
    match getWeft s c.w with
    | none => .fault .noIssuer
    | some w =>
      match getPanel s w.key, subAt w c.lane with
      | some p, some b =>
        let r := pairedOut x y s w p b
        .next (finishUnit s c w p b stl r.1 r.2)
      | _, _ => .fault .noIssuer

end Sys2Proof.Machine
end

