-- ==== Sys2Proof/Machine/Dispatch.lean ====
section
/-!
DEFINITION. One arm per constructor of Instr: a direct call of its meaning.
-/
namespace Sys2Proof.Machine

/-- The outcome of carrying out one instruction or event in a state. -/
def exec (i : Instr) (s : State) : Host.Outcome State Fault Refusal :=
  match i with
  | .add f => Sys2Proof.Machine.execAdd f s
  | .sub f => Sys2Proof.Machine.execSub f s
  | .addc f => Sys2Proof.Machine.execAddc f s
  | .subb f => Sys2Proof.Machine.execSubb f s
  | .mul f => Sys2Proof.Machine.execMul f s
  | .mulh f => Sys2Proof.Machine.execMulh f s
  | .mad f => Sys2Proof.Machine.execMad f s
  | .div f => Sys2Proof.Machine.execDiv f s
  | .rem f => Sys2Proof.Machine.execRem f s
  | .min f => Sys2Proof.Machine.execMin f s
  | .max f => Sys2Proof.Machine.execMax f s
  | .abs f => Sys2Proof.Machine.execAbs f s
  | .neg f => Sys2Proof.Machine.execNeg f s
  | .and f => Sys2Proof.Machine.execAnd f s
  | .or f => Sys2Proof.Machine.execOr f s
  | .xor f => Sys2Proof.Machine.execXor f s
  | .andn f => Sys2Proof.Machine.execAndn f s
  | .shl f => Sys2Proof.Machine.execShl f s
  | .shr f => Sys2Proof.Machine.execShr f s
  | .sar f => Sys2Proof.Machine.execSar f s
  | .rot f => Sys2Proof.Machine.execRot f s
  | .bfx f => Sys2Proof.Machine.execBfx f s
  | .bfi f => Sys2Proof.Machine.execBfi f s
  | .clz f => Sys2Proof.Machine.execClz f s
  | .popc f => Sys2Proof.Machine.execPopc f s
  | .brev f => Sys2Proof.Machine.execBrev f s
  | .lea f => Sys2Proof.Machine.execLea f s
  | .sel f => Sys2Proof.Machine.execSel f s
  | .cmp f => Sys2Proof.Machine.execCmp f s
  | .pset f => Sys2Proof.Machine.execPset f s
  | .mov f => Sys2Proof.Machine.execMov f s
  | .cvti f => Sys2Proof.Machine.execCvti f s
  | .bra f => Sys2Proof.Machine.execBra f s
  | .brx f => Sys2Proof.Machine.execBrx f s
  | .call f => Sys2Proof.Machine.execCall f s
  | .callx f => Sys2Proof.Machine.execCallx f s
  | .loop f => Sys2Proof.Machine.execLoop f s
  | .ret f => Sys2Proof.Machine.execRet f s
  | .exit f => Sys2Proof.Machine.execExit f s
  | .nop f => Sys2Proof.Machine.execNop f s
  | .yieldWord f => Sys2Proof.Machine.execYieldWord f s
  | .reform f => Sys2Proof.Machine.execReform f s
  | .split f => Sys2Proof.Machine.execSplit f s
  | .join f => Sys2Proof.Machine.execJoin f s
  | .fadd f => Sys2Proof.Machine.execFadd f s
  | .fsub f => Sys2Proof.Machine.execFsub f s
  | .fmul f => Sys2Proof.Machine.execFmul f s
  | .fma f => Sys2Proof.Machine.execFma f s
  | .fmin f => Sys2Proof.Machine.execFmin f s
  | .fmax f => Sys2Proof.Machine.execFmax f s
  | .fcmp f => Sys2Proof.Machine.execFcmp f s
  | .fclass f => Sys2Proof.Machine.execFclass f s
  | .fdiv f => Sys2Proof.Machine.execFdiv f s
  | .fsqrt f => Sys2Proof.Machine.execFsqrt f s
  | .frcp f => Sys2Proof.Machine.execFrcp f s
  | .frsq f => Sys2Proof.Machine.execFrsq f s
  | .fexp2 f => Sys2Proof.Machine.execFexp2 f s
  | .flog2 f => Sys2Proof.Machine.execFlog2 f s
  | .fsin f => Sys2Proof.Machine.execFsin f s
  | .fcos f => Sys2Proof.Machine.execFcos f s
  | .ftanh f => Sys2Proof.Machine.execFtanh f s
  | .frnd f => Sys2Proof.Machine.execFrnd f s
  | .cvtf f => Sys2Proof.Machine.execCvtf f s
  | .cvtfi f => Sys2Proof.Machine.execCvtfi f s
  | .cvtif f => Sys2Proof.Machine.execCvtif f s
  | .bspack f => Sys2Proof.Machine.execBspack f s
  | .bsunpk f => Sys2Proof.Machine.execBsunpk f s
  | .bscale f => Sys2Proof.Machine.execBscale f s
  | .dot4 f => Sys2Proof.Machine.execDot4 f s
  | .shfl f => Sys2Proof.Machine.execShfl f s
  | .vote f => Sys2Proof.Machine.execVote f s
  | .bcast f => Sys2Proof.Machine.execBcast f s
  | .scan f => Sys2Proof.Machine.execScan f s
  | .wred f => Sys2Proof.Machine.execWred f s
  | .matchLanes f => Sys2Proof.Machine.execMatchLanes f s
  | .shapeq f => Sys2Proof.Machine.execShapeq f s
  | .paired stl x y => Sys2Proof.Machine.execPaired stl x y s
  | .ld f => Sys2Proof.Machine.execLd f s
  | .st f => Sys2Proof.Machine.execSt f s
  | .lds f => Sys2Proof.Machine.execLds f s
  | .sts f => Sys2Proof.Machine.execSts f s
  | .ldt f => Sys2Proof.Machine.execLdt f s
  | .stt f => Sys2Proof.Machine.execStt f s
  | .ldp f => Sys2Proof.Machine.execLdp f s
  | .stp f => Sys2Proof.Machine.execStp f s
  | .prf f => Sys2Proof.Machine.execPrf f s
  | .cctlWb f => Sys2Proof.Machine.execCctlWb f s
  | .cctlInv f => Sys2Proof.Machine.execCctlInv f s
  | .cctlFlush f => Sys2Proof.Machine.execCctlFlush f s
  | .cctlIc f => Sys2Proof.Machine.execCctlIc f s
  | .atom f => Sys2Proof.Machine.execAtom f s
  | .red f => Sys2Proof.Machine.execRed f s
  | .cas f => Sys2Proof.Machine.execCas f s
  | .phase f => Sys2Proof.Machine.execPhase f s
  | .bari f => Sys2Proof.Machine.execBari f s
  | .bara f => Sys2Proof.Machine.execBara f s
  | .barw f => Sys2Proof.Machine.execBarw f s
  | .barwNar f => Sys2Proof.Machine.execBarwNar f s
  | .arbegin f => Sys2Proof.Machine.execArbegin f s
  | .arend f => Sys2Proof.Machine.execArend f s
  | .arabort f => Sys2Proof.Machine.execArabort f s
  | .arbnd f => Sys2Proof.Machine.execArbnd f s
  | .pin f => Sys2Proof.Machine.execPin f s
  | .unpin f => Sys2Proof.Machine.execUnpin f s
  | .hint f => Sys2Proof.Machine.execHint f s
  | .msend f => Sys2Proof.Machine.execMsend f s
  | .mpost f => Sys2Proof.Machine.execMpost f s
  | .qbind f => Sys2Proof.Machine.execQbind f s
  | .qunbind f => Sys2Proof.Machine.execQunbind f s
  | .qstat f => Sys2Proof.Machine.execQstat f s
  | .qclose f => Sys2Proof.Machine.execQclose f s
  | .scrum f => Sys2Proof.Machine.execScrum f s
  | .scrumLeave f => Sys2Proof.Machine.execScrumLeave f s
  | .swres f => Sys2Proof.Machine.execSwres f s
  | .swrel f => Sys2Proof.Machine.execSwrel f s
  | .mma f => Sys2Proof.Machine.execMma f s
  | .mmac f => Sys2Proof.Machine.execMmac f s
  | .aclr f => Sys2Proof.Machine.execAclr f s
  | .ald f => Sys2Proof.Machine.execAld f s
  | .ast f => Sys2Proof.Machine.execAst f s
  | .adrain f => Sys2Proof.Machine.execAdrain f s
  | .cpy f => Sys2Proof.Machine.execCpy f s
  | .gath f => Sys2Proof.Machine.execGath f s
  | .coll f => Sys2Proof.Machine.execColl f s
  | .ownq f => Sys2Proof.Machine.execOwnq f s
  | .ownqW f => Sys2Proof.Machine.execOwnqW f s
  | .tdeq f => Sys2Proof.Machine.execTdeq f s
  | .tdeqPanel f => Sys2Proof.Machine.execTdeqPanel f s
  | .tdeqNb f => Sys2Proof.Machine.execTdeqNb f s
  | .tenq f => Sys2Proof.Machine.execTenq f s
  | .tdone f => Sys2Proof.Machine.execTdone f s
  | .tarm f => Sys2Proof.Machine.execTarm f s
  | .symw f => Sys2Proof.Machine.execSymw f s
  | .symwAll f => Sys2Proof.Machine.execSymwAll f s
  | .symq f => Sys2Proof.Machine.execSymq f s
  | .svc f => Sys2Proof.Machine.execSvc f s
  | .trap f => Sys2Proof.Machine.execTrap f s
  | .bkpt f => Sys2Proof.Machine.execBkpt f s
  | .tret f => Sys2Proof.Machine.execTret f s
  | .uiret f => Sys2Proof.Machine.execUiret f s
  | .uienOff f => Sys2Proof.Machine.execUienOff f s
  | .uienOn f => Sys2Proof.Machine.execUienOn f s
  | .uienPost f => Sys2Proof.Machine.execUienPost f s
  | .csrr f => Sys2Proof.Machine.execCsrr f s
  | .csrw f => Sys2Proof.Machine.execCsrw f s
  | .svcpop f => Sys2Proof.Machine.execSvcpop f s
  | .ctxsv f => Sys2Proof.Machine.execCtxsv f s
  | .ctxld f => Sys2Proof.Machine.execCtxld f s
  | .halt f => Sys2Proof.Machine.execHalt f s
  | .wake f => Sys2Proof.Machine.execWake f s
  | .wakeSvc f => Sys2Proof.Machine.execWakeSvc f s
  | .dbgrd f => Sys2Proof.Machine.execDbgrd f s
  | .dbgwr f => Sys2Proof.Machine.execDbgwr f s
  | .dstep f => Sys2Proof.Machine.execDstep f s
  | .tlbiPage f => Sys2Proof.Machine.execTlbiPage f s
  | .tlbiAsid f => Sys2Proof.Machine.execTlbiAsid f s
  | .tlbiPart f => Sys2Proof.Machine.execTlbiPart f s
  | .rflush f => Sys2Proof.Machine.execRflush f s
  | .rflushAsid f => Sys2Proof.Machine.execRflushAsid f s
  | .partcfgNew f => Sys2Proof.Machine.execPartcfgNew f s
  | .partcfgMod f => Sys2Proof.Machine.execPartcfgMod f s
  | .partcfgDel f => Sys2Proof.Machine.execPartcfgDel f s
  | .freeze f => Sys2Proof.Machine.execFreeze f s
  | .thaw f => Sys2Proof.Machine.execThaw f s
  | .gsub f => Sys2Proof.Machine.execGsub f s
  | .gres f => Sys2Proof.Machine.execGres f s
  | .migr f => Sys2Proof.Machine.execMigr f s
  | .panelStart r => Sys2Proof.Machine.execPanelStart r s
  | .preemptionRequest k => Sys2Proof.Machine.execPreemptionRequest k s
  | .translationFaultSave k => Sys2Proof.Machine.execTranslationFaultSave k s
  | .translationComplete asid vpage => Sys2Proof.Machine.execTranslationComplete asid vpage s
  | .interlockedWriteLanding id => Sys2Proof.Machine.execInterlockedWriteLanding id s
  | .symbolArrival w slot => Sys2Proof.Machine.execSymbolArrival w slot s
  | .symbolFault w => Sys2Proof.Machine.execSymbolFault w s
  | .benchSubstitution w => Sys2Proof.Machine.execBenchSubstitution w s
  | .promotion core quarter => Sys2Proof.Machine.execPromotion core quarter s
  | .rotation core quarter => Sys2Proof.Machine.execRotation core quarter s
  | .reformBinTimeout core bin => Sys2Proof.Machine.execReformBinTimeout core bin s
  | .reformBinSlotDraw core bin => Sys2Proof.Machine.execReformBinSlotDraw core bin s
  | .queueWindowStore port part q va bytes => Sys2Proof.Machine.execQueueWindowStore port part q va bytes s
  | .heldWindowStore part q => Sys2Proof.Machine.execHeldWindowStore part q s
  | .overflowPlacement part => Sys2Proof.Machine.execOverflowPlacement part s
  | .queueEnginePageResume part => Sys2Proof.Machine.execQueueEnginePageResume part s
  | .deviceAreaResume part => Sys2Proof.Machine.execDeviceAreaResume part s
  | .engineChunk core e => Sys2Proof.Machine.execEngineChunk core e s
  | .engineCompletion core e => Sys2Proof.Machine.execEngineCompletion core e s
  | .serviceBatchTimeout w => Sys2Proof.Machine.execServiceBatchTimeout w s
  | .serviceBatchSend w => Sys2Proof.Machine.execServiceBatchSend w s
  | .userInterruptDelivery w => Sys2Proof.Machine.execUserInterruptDelivery w s
  | .regionConflict access owner line write => Sys2Proof.Machine.execRegionConflict access owner line write s
  | .regionCommit w => Sys2Proof.Machine.execRegionCommit w s
  | .serialSlotGrant part dom => Sys2Proof.Machine.execSerialSlotGrant part dom s
  | .messageArrival id => Sys2Proof.Machine.execMessageArrival id s
  | .stagedMessagePlacement id => Sys2Proof.Machine.execStagedMessagePlacement id s
  | .stagingTimeout id => Sys2Proof.Machine.execStagingTimeout id s
  | .noBufferTimeout id => Sys2Proof.Machine.execNoBufferTimeout id s
  | .sendCompletion id => Sys2Proof.Machine.execSendCompletion id s
  | .multicastForward slot branch => Sys2Proof.Machine.execMulticastForward slot branch s
  | .rds agent line => Sys2Proof.Machine.execRds agent line s
  | .rdx agent line => Sys2Proof.Machine.execRdx agent line s
  | .upg agent line => Sys2Proof.Machine.execUpg agent line s
  | .prv agent line mask => Sys2Proof.Machine.execPrv agent line mask s
  | .wb agent line => Sys2Proof.Machine.execWb agent line s
  | .evc agent line => Sys2Proof.Machine.execEvc agent line s
  | .atm agent line => Sys2Proof.Machine.execAtm agent line s
  | .forward line => Sys2Proof.Machine.execForward line s
  | .forwardData line => Sys2Proof.Machine.execForwardData line s
  | .invalidation agent line => Sys2Proof.Machine.execInvalidation agent line s
  | .invalidationAck agent line => Sys2Proof.Machine.execInvalidationAck agent line s
  | .mergeRequest agent line => Sys2Proof.Machine.execMergeRequest agent line s
  | .mergeResponse agent line => Sys2Proof.Machine.execMergeResponse agent line s
  | .recall agent line => Sys2Proof.Machine.execRecall agent line s
  | .recallResponse agent line => Sys2Proof.Machine.execRecallResponse agent line s
  | .lostMessage line k => Sys2Proof.Machine.execLostMessage line k s
  | .moveStart => Sys2Proof.Machine.execMoveStart s
  | .moveLineCopy asid vpage => Sys2Proof.Machine.execMoveLineCopy asid vpage s
  | .migrationRegionWaitExpiry asid vpage => Sys2Proof.Machine.execMigrationRegionWaitExpiry asid vpage s
  | .moveSwitch asid vpage => Sys2Proof.Machine.execMoveSwitch asid vpage s
  | .hostMemoryRequest port part va op => Sys2Proof.Machine.execHostMemoryRequest port part va op s
  | .bisnp line data => Sys2Proof.Machine.execBisnp line data s
  | .devloadWindow port load held => Sys2Proof.Machine.execDevloadWindow port load held s
  | .fabricMemoryAccess port p => Sys2Proof.Machine.execFabricMemoryAccess port p s
  | .fabricRefusal id => Sys2Proof.Machine.execFabricRefusal id s
  | .postedWriteAck id => Sys2Proof.Machine.execPostedWriteAck id s
  | .sysReleaseTimeout w => Sys2Proof.Machine.execSysReleaseTimeout w s
  | .fabricResponseTimeout id => Sys2Proof.Machine.execFabricResponseTimeout id s
  | .incarnationNotice src inc => Sys2Proof.Machine.execIncarnationNotice src inc s
  | .substitutionRequest job src => Sys2Proof.Machine.execSubstitutionRequest job src s
  | .sweptPacketReturn job port p => Sys2Proof.Machine.execSweptPacketReturn job port p s
  | .sweepDoneMarker job port => Sys2Proof.Machine.execSweepDoneMarker job port s
  | .sweepMarkerTimeout job => Sys2Proof.Machine.execSweepMarkerTimeout job s
  | .sealReport job member status => Sys2Proof.Machine.execSealReport job member status s
  | .resumeRequest job => Sys2Proof.Machine.execResumeRequest job s
  | .dieReset die => Sys2Proof.Machine.execDieReset die s
  | .dieQuiesceDeadline die => Sys2Proof.Machine.execDieQuiesceDeadline die s
  | .packageReset => Sys2Proof.Machine.execPackageReset s
  | .setPowerLevel die level => Sys2Proof.Machine.execSetPowerLevel die level s
  | .thermalTrip die => Sys2Proof.Machine.execThermalTrip die s
  | .firmwareUpdate image => Sys2Proof.Machine.execFirmwareUpdate image s
  | .getVersion req => Sys2Proof.Machine.execGetVersion req s
  | .getCapabilities req => Sys2Proof.Machine.execGetCapabilities req s
  | .negotiateAlgorithms req => Sys2Proof.Machine.execNegotiateAlgorithms req s
  | .getDigests req => Sys2Proof.Machine.execGetDigests req s
  | .getCertificate req => Sys2Proof.Machine.execGetCertificate req s
  | .challenge req nonce => Sys2Proof.Machine.execChallenge req nonce s
  | .getMeasurements req index => Sys2Proof.Machine.execGetMeasurements req index s
  | .keyExchange req => Sys2Proof.Machine.execKeyExchange req s
  | .finish req => Sys2Proof.Machine.execFinish req s
  | .virtualChannelCredit port vc => Sys2Proof.Machine.execVirtualChannelCredit port vc s

end Sys2Proof.Machine
end

