-- ==== Sys2Proof/Machine/Loader.lean ====
section
/-!
DEFINITION. The load that stands behind State.withFetchWord (log entry 13): a partition, a panel of one weft on core 0
with one mapped page, and the instruction's words at its program counter.
-/
namespace Sys2Proof.Machine

/-- The metadata of the loaded panel: one weft, full budgets. -/
def loadMeta : Meta :=
  { entry := 0x1000, pbase := 0, pwords := 0, scratch := 4096, acc := 1, scrums := [], clines := 256, plines := 256,
    csregs := 1024, psregs := 1024, shape := 0, svcp := false, reform := false }

/-- The partition of the load: core 0, every channel, ASIDs 0 to 65,535. -/
def loadPart : Part :=
  { desc := { cores := 1, hbmch := 2 ^ 256 - 1, supc := 0, lpch := 65535, thresh := 0, asidHi := 65535, asidLo := 0,
              nep := 0, ord := false, uncen := false, cxl := false, nready := 0, errq := 0, mbox := 0, svcbase := 0,
              ovfl := 0, ovfcap := 0 },
    frozen := false, ktvec := 0, redcnt := 0, queues := [], comps := [], deqs := [], work := [], overflow := [], ovfHeld := none,
    heldStores := [], doms := [], eps := [], svcq := [], areaWork := [], areaNoted := [], pageNoted := [] }

/-- The panel of the load. -/
def loadPanel (k : PKey) : Panel :=
  { key := k, asid := 0, record := 0, metaVa := 0, m := loadMeta, level := 3, cores := [0], prio := 0,
    parts := [⟨0, 0, [], [], [], []⟩], barriers := [], cqs := [], chans := [], broken := [], latches := [], debug := [],
    stopped := false, saveVa := none }

/-- The virtual page of the load: readable, writable, executable, user, class DC, every affinity, A and D set, at
physical page 1. -/
def loadLeaf : Nat := 2 ^ 18 + 0xCE00 + 0x5F

/-- A resident weft that may issue, and where its next word lies in memory: a page of the fronts' caches. -/
def nextWord (s : State) : Option (WId × Nat × Nat) :=
  if !(courtEvents s).isEmpty then none
  else s.wefts.findSome? fun w =>
    match getPanel s w.key with
    | none => none
    | some p =>
      match w.subs.find? fun b => quarterPick s w.id.core w.quarter == some (w.id, lowest b.mask) && !takesUi w (lowest b.mask) with
      | none => none
      | some b =>
        match divAt w b.pc b.mask, xlCheck s w p b .exec 0 b.pc.toNat 8 with
        | none, .ok pa _ => if b.pc.toNat % 4096 ≤ 4072 then some (w.id, lowest b.mask, redirect s pa) else none
        | _, _ => none

/-- The state with the words of an instruction (the first lowest, none above 192 bits) where the next step fetches.
Where no weft can issue, the load first places a weft of its own. -/
def loadWord (s : State) (_nbits w : Nat) : State :=
  let bytes := bytesOf (tableWords w)
  match nextWord s with
  | some (id, lane, pa) => { writePhys s pa bytes with agenda := [.issue id lane] }
  | none =>
    let k : PKey := ⟨some 0, 0⟩
    let wf := launchWeft ⟨0, 0⟩ 0 k 0 1 3 0xFFFF 0x1000
    let s := { s with
      parts := tset s.parts 0 loadPart
      panels := [loadPanel k]
      wefts := [wf]
      cores := s.cores.map fun c => { c with bins := [] }
      waiting := []
      landings := []
      moves := []
      tlb := [⟨0, 1, 12, 0, loadLeaf, 0, none⟩] }
    { writePhys s 0x1000 bytes with agenda := [.issue ⟨0, 0⟩ 0] }

end Sys2Proof.Machine
end

