-- ==== Sys2Proof/Machine/Step.lean ====
section
/-!
DEFINITION. One step of the package: the head of the agenda, else an event that the device raises by itself, else
one unit of the sub-weft whose turn it is (R63), else a cycle in which nothing issues.
-/
namespace Sys2Proof.Machine

/-- One issue of a sub-weft: it arrives (R181), its unit is fetched and decoded (R105, R131), and carried out. One that waits
has cost nothing. -/
def issueAt (s : State) (id : WId) (lane : Nat) : Host.Outcome State Fault Refusal :=
  match arrival (passTime s id) id lane with
  | .ended t => .next t
  | .issue t w p b =>
    match fetchInstr t w p b with
    | .error e => .next (refund s id lane (failFetch t id lane w p b e))
    | .ok (i, n) =>
      match exec i (markCourt (prepare t id lane b.pc i n) id n) with
      | .next u => .next (refund s id lane u)
      | o => o

/-- One step. -/
def step (s : State) : Host.Outcome State Fault Refusal :=
  match s.agenda with
  | .event i :: t => exec i { s with agenda := t }
  | .issue id lane :: t =>
    match claim { s with agenda := t } id lane with
    | some l => issueAt { s with agenda := t } id l
    | none => .next { s with agenda := t }
  | a :: t => .next (setUp { s with agenda := t } a)
  | [] =>
    match autoEvent s with
    | some i => exec i (tickOn s)
    | none =>
      match pickIssuer s with
      | some (id, lane) => issueAt s id lane
      | none => .next (idleStep s)

/-- The state with an instruction stored where the next step fetches, in the environment that a load needs
(log entry 13). -/
def State.withFetchWord (s : State) (nbits w : Nat) : State := loadWord s nbits w

end Sys2Proof.Machine
end

