-- ==== Sys2Proof/Safety.lean ====
section
/-!
DEFINITION. The terms in which claims are stated: the invariant that every step keeps, when a unit passes the checks
before its body, how a unit ends at its next word, where a result stands, and what an instruction leaves as it was.
-/
namespace Sys2Proof.Safety

open Machine

/-- The memory of a state has its canonical form. -/
abbrev MemOk (s : State) : Prop := Memory.wf s.mem = true

/-! ### When a unit is carried out -/

/-- The unit x of a state is a full word of mnemonic m with fields f that is an instruction (R130) and passes every check
before its body: a sub-weft of a resident weft issues it, its core has the instruction (R129), its scalar registers are
within the budget (R79), its queue registers are bound (R81), the level suffices (R128), a return has what it returns from
(R286, R287), its guard is read and leaves x.act active (R80, R108), and no open region is aborted first (R242). -/
structure Runs (s : State) (m : Mnem) (f : Fields) (g : GuardKind) (x : Ctx) : Prop where
  cur : s.cur = some x.c
  weft : getWeft s x.c.w = some x.w
  panel : getPanel s x.w.key = some x.p
  sub : subAt x.w x.c.lane = some x.b
  state : x.s = s
  fields : x.f = f
  mnem : x.m = m
  words : x.pre = x.c.words - 1
  pops : x.pops = []
  scalar : x.scalar = guardOnce g f
  valid : fullOk m f = true
  engine : (isSup x.w.id.core && spemOnly m) = false
  budget : budgetOk x.p x.w m f = true
  bound : boundOk x.w m f = true
  level : levelOf m f ≤ x.w.level
  returns : (m = .tret → trapActive x.w x.w.level = true) ∧ (m = .uiret → uiAct x.w = true)
  guard : activeLanes s x.w x.b x.pre f.guard x.scalar = .ok x.act
  active : x.act ≠ 0
  region : (x.w.region.isSome && abortsRegion m) = false

/-- No debugger acts on the unit: its weft is not being stepped (R296), and no debug register of its panel is set or it
runs above user level (R417). -/
structure Unwatched (x : Ctx) : Prop where
  stepping : x.w.stepping = none
  watch : x.w.level ≠ 0 ∨ x.p.debug = []

/-- The address of the word after the unit. -/
def nextPc (x : Ctx) : Word64 := x.c.pc + BitVec.ofNat 64 (8 * x.c.words)

/-- In state t the unit's sub-weft stands at an address, with its threads, neither parked nor holding anything, and
nothing is being executed. -/
def StandsAt (x : Ctx) (t : State) (pc : Word64) : Prop :=
  t.cur = none ∧ ∃ w, getWeft t x.c.w = some w ∧ subAt w x.c.lane = some ⟨pc, x.b.mask, none, .none⟩

/-- The unit has ended at its next word. -/
def Ended (x : Ctx) (t : State) : Prop := StandsAt x t (nextPc x)

/-! ### Where a result stands -/

/-- Lane l of a register of a weft; a register with one value has it in lane 0. -/
def laneOf (w : Weft) (r : RegId) (l : Nat) : Word32 := lane (regLanes (regNow w r)) l

/-- The lanes of a result that a weft keeps apart: on a supervisor core lane 0 alone (R424). -/
def ownLanes (x : Ctx) : List Nat := (lanesOf x.act).filter fun l => !isSup x.w.id.core || l == 0

/-- A vector register, or pair, holds the values in the active lanes. -/
def HoldsLanes (x : Ctx) (w : Weft) (r : Nat → RegId) (wide : Bool) (vs : List Word64) : Prop :=
  ∀ l ∈ ownLanes x, laneOf w (r 0) l = (vs.getD l 0).setWidth 32 ∧
    (wide = true → laneOf w (r 1) l = (vs.getD l 0).extractLsb' 32 32)

/-- The weft's output latch holds the low halves in the active lanes (R76). -/
def Latched (x : Ctx) (w : Weft) (vs : List Word64) : Prop :=
  ∀ l ∈ ownLanes x, laneOf w (.lat false) l = (vs.getD l 0).setWidth 32

/-- The result of the unit stands in D (R76, R80, R81, R165): in the active lanes of a vector, operand or latch
register, in a scalar register the value of the lowest active lane, in a special register what its access allows, at
the end of the channel of a queue register; `zero` discards it but for the latch. -/
def InD (x : Ctx) (t : State) (wide : Bool) (vs : List Word64) : Prop :=
  ∃ w, getWeft t x.c.w = some w ∧
    match x.f.d with
    | .s n =>
      laneOf w (.s n.val) 0 = (vs.getD (lowest x.act) 0).setWidth 32 ∧
        (wide = true → laneOf w (.s (n.val + 1)) 0 = (vs.getD (lowest x.act) 0).extractLsb' 32 32)
    | .v n => HoldsLanes x w (fun k => .v (n.val + k)) wide vs ∧ Latched x w vs
    | .o n => HoldsLanes x w (fun _ => .o n.val) false vs ∧ Latched x w vs
    | .lat => Latched x w vs
    | .zero => x.scalar = true ∨ Latched x w vs
    | .q n =>
      ∀ b, tget x.w.binds n.val = some b → pendingPops x.s x.w.key b.obj = 0 →
        ∃ p, getPanel t x.w.key = some p ∧
          (getChan p b.obj).entries.getLast? = some (entryOf x.scalar wide x.act vs)
    | _ => True

/-! ### What stays -/

/-- The registers that the unit's D names, with the latch of a vector result. -/
def dstRegs (x : Ctx) (wide : Bool) : List RegId :=
  match x.f.d with
  | .s n => .s n.val :: if wide then [.s (n.val + 1)] else []
  | .v n => .lat false :: .v n.val :: if wide then [.v (n.val + 1)] else []
  | .o n => [.lat false, .o n.val]
  | .lat => [.lat false]
  | .zero => if x.scalar then [] else [.lat false]
  | _ => []

/-- A weft without its registers, window, sub-wefts, divisions and the entries that a unit issued again has taken from its
queues: its special registers, trap registers, bindings, symbols, region, level and everything else but when a wake last
found it on the bench. -/
def bare (w : Weft) : Weft :=
  { w with vregs := [], sregs := [], preds := [], oregs := [], latX := [], latY := [], window := [], subs := [],
           divs := [], popped := [], benchSince := 0 }

/-- A weft apart from which of its sub-wefts are parked: a queue operation may wake any of them. -/
def calm (w : Weft) : Weft :=
  { w with subs := w.subs.map fun b => { b with park := none }, benchSince := 0 }

/-- A state without what a register instruction with queue operands may change outside its weft. -/
def rest (s : State) : State := { s with wefts := [], cur := none, waiting := [], panels := [], symAccs := [] }

/-- Whether a field names a queue register. -/
def usesQueue (f : Fields) : Bool := (fieldsOf f).any fun o => (queueOf o).isSome

/-- What a register instruction leaves as it was. In its own weft: every register but those listed, and every special
register, flag, trap register, binding, symbol, the level and the region but for what `own` changes. In the state: every other weft but for wakes, and everything else,
every byte of memory included; panels and symbolic pops too where no field names a queue. -/
structure Kept (x : Ctx) (t : State) (ds : List RegId) (own : Weft → Weft) : Prop where
  regs : ∀ w, getWeft t x.c.w = some w → ∀ r, r ∉ ds → regNow w r = regNow x.w r
  specials : ∀ w, getWeft t x.c.w = some w → bare w = bare (own x.w)
  wefts : ∀ id, id ≠ x.c.w → (getWeft t id).map calm = (getWeft x.s id).map calm
  state : rest t = rest x.s
  memory : ∀ a, mget t.mem a = mget x.s.mem a
  queues : usesQueue x.f = false → t.panels = x.s.panels ∧ t.symAccs = x.s.symAccs

/-- What a weft takes from a result whose D is a special register: what the register's access allows (R6, R84). -/
def specD (x : Ctx) (vs : List Word64) (w : Weft) : Weft :=
  match x.f.d with
  | .spec r => specWrite w r (vs.getD (lowest x.act) 0)
  | _ => w

/-! ### Instructions that write one result -/

/-- No source of the unit is symbolic: nothing is deferred (R89 to R91). -/
def Known (x : Ctx) : Prop := symAt x .a = .ok none ∧ symAt x .b = .ok none

/-- The unit's D can take a result now: no outstanding write is aimed at it (R125), a symbol is not written in part
(R91), the line charge stays within the budget (R86), and a channel it pushes to is open and has room (R260). -/
def CanWrite (x : Ctx) (lat : Option Nat) (wide : Bool) (vs : List Word64) (own : Weft → Weft) : Prop :=
  ∃ s', writeRes x wide vs lat own = .ok s'

/-- The unit x, or what it became when it popped its queue sources (y), completes with its result: it goes on at its
next word, the result stands in D, and all else stays but what `own` does to its weft. -/
def Completes (i : Instr) (x y : Ctx) (wide : Bool) (vs : List Word64) (own : Weft → Weft) : Prop :=
  ∃ t, exec i x.s = .next t ∧ Ended x t ∧ InD y t wide vs ∧ Kept x t (dstRegs x wide) fun w => own (specD y vs w)

/-- An instruction that, where a condition holds of the unit, reads its sources, computes `val` in every active lane (a
scalar one in its lowest lane), writes it to D, ORs its flags into `$fpst`, and does nothing else. -/
def WritesWhen (cond : Ctx → Prop) (i : Fields → Instr) (m : Mnem) (wide : Fields → Bool × Bool × Bool × Bool)
    (val : Fields → Ctx → Nat → Word64 → Word64 → Word64 → Word64 × Flags) : Prop :=
  ∀ (s : State) (f : Fields) (x : Ctx) (v : Vals), Runs s m f .auto x → Unwatched x → Known x → cond x →
    readAll x (wide f).1 (wide f).2.1 (wide f).2.2.1 = .ok v →
    let at_ (l : Nat) : Word64 × Flags := val f x l (v.a.getD l 0) (v.b.getD l 0) (v.c.getD l 0)
    let vs := lanes16.map fun l => (at_ l).1
    let own (w : Weft) : Weft := orFpst w (flagsOver x fun l => (at_ l).2)
    CanWrite v.x (mnemLatency m f) (wide f).2.2.2 vs own → Completes (i f) x v.x (wide f).2.2.2 vs own

/-- The same without a condition. -/
abbrev WritesD := WritesWhen fun _ => True

/-! ### Results in the words of the manual: integers (R164 to R178) -/

/-- The width of an instruction's integer type. -/
abbrev wd (f : Fields) : Nat := intWidth f.mod.toNat

/-- Whether its integer type is signed. -/
abbrev sg (f : Fields) : Bool := intSigned f.mod.toNat

/-- The operand as a number of n bits (R164). -/
abbrev cut (n : Nat) (v : Word64) : BitVec n := v.setWidth n

/-- A result of n bits as it is written: extended to 32 bits from a narrow type by its sign or by zeros (R164). -/
def ext (n : Nat) (signed : Bool) (r : BitVec n) : Word64 :=
  if n < 32 ∧ signed = true then (r.signExtend 32).setWidth 64 else r.setWidth 64

/-- A result without flags of an instruction on one integer type, computed on numbers of its width. -/
def onType (g : (n : Nat) → Bool → BitVec n → BitVec n → BitVec n → BitVec n) (f : Fields) (_x : Ctx) (_l : Nat)
    (a b c : Word64) : Word64 × Flags :=
  (ext (wd f) (sg f) (g (wd f) (sg f) (cut (wd f) a) (cut (wd f) b) (cut (wd f) c)), Flags.none)

/-- Every operand and the result have the width of the type. -/
def allWide (f : Fields) : Bool × Bool × Bool × Bool :=
  let w := decide (wd f = 64)
  (w, w, w, w)

/-- A shift count is a 32-bit operand (R170). -/
def countNarrow (f : Fields) : Bool × Bool × Bool × Bool :=
  let w := decide (wd f = 64)
  (w, false, false, w)

/-- The upper half of the exact product (R167). -/
def mulHigh (n : Nat) (signed : Bool) (a b : BitVec n) : BitVec n :=
  if signed then (a.signExtend (2 * n) * b.signExtend (2 * n)).extractLsb' n n
  else (a.setWidth (2 * n) * b.setWidth (2 * n)).extractLsb' n n

/-- Whether a is below b under a type. -/
def below {n : Nat} (signed : Bool) (a b : BitVec n) : Bool := if signed then a.slt b else a.ult b

/-- The quotient with the edge cases of Table 7 of R46. -/
def quotient {n : Nat} (signed : Bool) (a b : BitVec n) : BitVec n :=
  if b = 0 then BitVec.allOnes n else if signed then a.sdiv b else a / b

/-- The remainder with the edge cases of Table 7 of R46. -/
def remainder {n : Nat} (signed : Bool) (a b : BitVec n) : BitVec n :=
  if b = 0 then a else if signed then a.srem b else a % b

/-- The count of a shift: the 32-bit B modulo the width (R170). -/
def count (n : Nat) (b : Word64) : Nat := (b.setWidth 32 : Word32).toNat % n

/-- A shift or rotation of A by the count in B. -/
def onShift (g : (n : Nat) → Bool → BitVec n → Nat → BitVec n) (f : Fields) (_x : Ctx) (_l : Nat) (a b _c : Word64) :
    Word64 × Flags :=
  (ext (wd f) (sg f) (g (wd f) (sg f) (cut (wd f) a) (count (wd f) b)), Flags.none)

/-- The number of n bits whose bits are given. -/
def ofBits (n : Nat) (bit : Nat → Bool) : BitVec n :=
  BitVec.ofNat n ((List.range n).foldl (fun k i => if bit i then k + 2 ^ i else k) 0)

/-- How many leading bits of a number are 0. -/
def leadingZeros (n : Nat) (a : BitVec n) : Nat := ((List.range n).reverse.takeWhile fun i => !a.getLsbD i).length

/-- How many bits of a number are 1. -/
def ones (n : Nat) (a : BitVec n) : Nat := ((List.range n).filter fun i => a.getLsbD i).length

/-- The bits of a number in reverse order. -/
def reversed (n : Nat) (a : BitVec n) : BitVec n := ofBits n fun i => a.getLsbD (n - 1 - i)

/-- The field that a field word names in a number of n bits: its lowest bit, and its length cut at the top (R171). -/
def bitField (n : Nat) (b : Word64) : Nat × Nat :=
  let pos := (b.extractLsb' 0 8).toNat
  let len := (b.extractLsb' 8 8).toNat
  (pos, if pos ≥ n then 0 else min len (n - pos))

/-- BFX: the field of A, extended by its top bit for a signed type; 0 for an empty one (R171). -/
def extracted (f : Fields) (_x : Ctx) (_l : Nat) (a b _c : Word64) : Word64 × Flags :=
  let n := wd f
  let (pos, len) := bitField n b
  let bit (i : Nat) : Bool :=
    if len = 0 then false else if i < len then a.getLsbD (pos + i) else sg f && a.getLsbD (pos + len - 1)
  (ext n (sg f) (ofBits n bit), Flags.none)

/-- BFI: A with the field replaced by the low bits of B (R171). -/
def inserted (f : Fields) (_x : Ctx) (_l : Nat) (a b c : Word64) : Word64 × Flags :=
  let n := wd f
  let (pos, len) := bitField n c
  let bit (i : Nat) : Bool := if pos ≤ i ∧ i < pos + len then b.getLsbD (i - pos) else a.getLsbD i
  (ext n (sg f) (ofBits n bit), Flags.none)

/-- LEA: a base and a scaled index, or an address relative to the program counter (R172). -/
def address (f : Fields) (x : Ctx) (_l : Nat) (a b c : Word64) : Word64 × Flags :=
  let i : Word64 := (b.setWidth 32 : Word32).signExtend 64
  (match f.mod.toNat with
   | 10 => x.c.pc + i * 8
   | 0 => a + i * 2 ^ c.toNat
   | 1 => a + (b.setWidth 32 : Word32).setWidth 64 * 2 ^ c.toNat
   | _ => a + b * 2 ^ c.toNat, Flags.none)

/-- SEL: A where the lane's bit of the predicate in C is 1, else B; a scalar instruction uses the bit of its lowest
active lane (R174, R80). -/
def selected (f : Fields) (x : Ctx) (l : Nat) (a b c : Word64) : Word64 × Flags :=
  let bit := c.getLsbD (if x.scalar then lowest x.act else l)
  (ext (wd f) (sg f) (cut (wd f) (if bit then a else b)), Flags.none)

/-- CVTI: the value of A under the source type in C, wrapped to the type of MOD, or saturated to it (R178). -/
def converted (f : Fields) (_x : Ctx) (_l : Nat) (a _b _c : Word64) : Word64 × Flags :=
  let u := modByte f.c % 8
  let v : Int := if intSigned u then (cut (intWidth u) a).toInt else (cut (intWidth u) a).toNat
  let lo : Int := if sg f then -(2 ^ (wd f - 1)) else 0
  let hi : Int := if sg f then 2 ^ (wd f - 1) - 1 else 2 ^ wd f - 1
  (ext (wd f) (sg f) (BitVec.ofInt (wd f) (if modByte f.c ≥ 16 then (if v < lo then lo else if v > hi then hi else v) else v)),
    Flags.none)

/-! ### Results in the words of the manual: floating point (R195 to R210) -/

/-- The floating-point format of MOD. -/
abbrev fm (f : Fields) : Fmt := fmtOf f.mod.toNat

/-- A result code with its flags as a value to be written. -/
def coded (r : Nat × Flags) : Word64 × Flags := (BitVec.ofNat 64 r.1, r.2)

/-- The rounding mode and FTZ of an instruction that has its modifier byte in C (R192). -/
abbrev roundOf (f : Fields) : Rnd := rndOf (modByte f.c)
abbrev flushOf (f : Fields) : Bool := ftzOf (modByte f.c)

/-- An instruction of one or two sources in the format of MOD. -/
def onFloats (op : Fmt → Rnd → Bool → FVal → FVal → Nat × Flags) (f : Fields) (_x : Ctx) (_l : Nat) (a b _c : Word64) :
    Word64 × Flags :=
  let v (w : Word64) : FVal := readF (fm f) (flushOf f) (codeIn (fm f) w)
  coded (op (fm f) (roundOf f) (flushOf f) (v a) (v b))

/-- Both sources and the result have the width of the format. -/
def twoFloats (f : Fields) : Bool × Bool × Bool × Bool :=
  let w := fm f == .f64
  (w, w, false, w)

/-- Narrow sources and a narrow result. -/
def narrow (_f : Fields) : Bool × Bool × Bool × Bool := (false, false, false, false)

/-- FMA: the product and the sum are rounded once; the format is in MOD[1:0] and the rounding in MOD[3:2] (R196). -/
def fused (f : Fields) (_x : Ctx) (_l : Nat) (a b c : Word64) : Word64 × Flags :=
  let t := f.mod.toNat
  let g := fmtOf (t % 4)
  let v (w : Word64) : FVal := decodeF g (codeIn g w)
  coded (fmaV g (rndOf (t / 4)) (v a) (v b) (v c))

/-- A special function in the format of MOD (R200). -/
def special (fn : SpecialFn) (f : Fields) (_x : Ctx) (_l : Nat) (a _b _c : Word64) : Word64 × Flags :=
  coded (specialV fn (fm f) (flushOf f) (codeIn (fm f) a))

/-- The format in the modifier byte of a conversion. -/
abbrev srcFmt (f : Fields) : Fmt := fmtOf (sfmtOf (modByte f.c))

/-- CVTF: a conversion between formats, with the random bits of B under RS (R203). -/
def floatToFloat (f : Fields) (_x : Ctx) (_l : Nat) (a b _c : Word64) : Word64 × Flags :=
  coded (cvtfV (fm f) (srcFmt f) (roundOf f) (flushOf f) (b.toNat % 2 ^ 16) (codeIn (srcFmt f) a))

/-- CVTFI: rounded to an integer and clamped to the type of MOD (R39, R204). -/
def floatToInt (f : Fields) (_x : Ctx) (_l : Nat) (a _b _c : Word64) : Word64 × Flags :=
  let r := cvtfiV (srcFmt f) (roundOf f) (flushOf f) (wd f) (sg f) (codeIn (srcFmt f) a)
  (ext (wd f) (sg f) (BitVec.ofInt (wd f) r.1), r.2)

/-- CVTIF: an integer of the type in the modifier byte rounded to a format (R205). -/
def intToFloat (f : Fields) (_x : Ctx) (_l : Nat) (a _b _c : Word64) : Word64 × Flags :=
  let t := sfmtOf (modByte f.c)
  let v : Int := if intSigned t then (cut (intWidth t) a).toInt else (cut (intWidth t) a).toNat
  coded (cvtifV (fm f) (roundOf f) v)

/-- BSCALE: the block-scale code of a magnitude under a band scale (R207). -/
def scaled (f : Fields) (_x : Ctx) (_l : Nat) (a b _c : Word64) : Word64 × Flags :=
  coded (blockScale (if f.mod.toNat = 7 then 6 else 480) (decodeF .f32 (codeIn .f32 a)) (codeIn .bf16 b))

/-- DOT4 (R210). -/
def dotted (f : Fields) (_x : Ctx) (_l : Nat) (a b c : Word64) : Word64 × Flags := coded (dot4Lane f.mod.toNat a b c)

/-! ### Predicate results (R80, R173, R175, R198, R199) -/

/-- A predicate of a weft; P7 reads 1 in every lane (R80). -/
def predBits (w : Weft) (n : Nat) : Mask := if n = 7 then 0xFFFF else nth w.preds n 0

/-- The predicate after a predicate result: a scalar instruction writes its one result to all sixteen bits, another one
those of its active lanes (R80). -/
def predAfter (x : Ctx) (old : Mask) (bit : Nat → Bool) : Mask :=
  if x.scalar then (if bit (lowest x.act) then 0xFFFF else 0)
  else ofBits 16 fun l => if x.act.getLsbD l then bit l else old.getLsbD l

/-- The unit completes with a predicate result in predicate n: its bits are those of `predAfter`, P7 discards them, and
all else stays but what `own` does to its weft. -/
def SetsPred (i : Instr) (x : Ctx) (n : Nat) (bit : Nat → Bool) (own : Weft → Weft) : Prop :=
  ∃ t, exec i x.s = .next t ∧ Ended x t ∧
    (∃ w, getWeft t x.c.w = some w ∧ (n ≠ 7 → predBits w n = predAfter x (predBits x.w n) bit)) ∧
    Kept x t [.p n] own

/-- An instruction that reads its sources and writes a predicate in D with the flags it raises. -/
def WritesP (g : GuardKind) (i : Fields → Instr) (m : Mnem) (wide : Fields → Bool × Bool)
    (val : Fields → Nat → Word64 → Word64 → Bool × Flags) : Prop :=
  ∀ (s : State) (f : Fields) (x : Ctx) (v : Vals), Runs s m f g x → Unwatched x →
    readAll x (wide f).1 (wide f).2 false = .ok v →
    let at_ (l : Nat) : Bool × Flags := val f l (v.a.getD l 0) (v.b.getD l 0)
    SetsPred (i f) x (predNum f.d) (fun l => (at_ l).1) fun w => orFpst w (flagsOver x fun l => (at_ l).2)

/-- CMP: the condition in C on numbers of the type of MOD (R173). -/
def compared (f : Fields) (_l : Nat) (a b : Word64) : Bool × Flags :=
  let x := cut (wd f) a
  let y := cut (wd f) b
  (match modByte f.c with
   | 0 => x == y
   | 1 => x != y
   | 2 => below (sg f) x y
   | 3 => !below (sg f) y x
   | 4 => below (sg f) y x
   | _ => !below (sg f) x y, Flags.none)

/-- PSET: bit l of a combination of two predicates (R175). -/
def combined (f : Fields) (l : Nat) (a b : Word64) : Bool × Flags :=
  let p := a.getLsbD l
  let q := b.getLsbD l
  (match modByte f.c with
   | 0 => p && q
   | 1 => p || q
   | 2 => p ^^ q
   | 3 => p && !q
   | 4 => !p
   | _ => p, Flags.none)

/-- FCMP and FCLASS (R198, R199). -/
def floatCompared (f : Fields) (_l : Nat) (a b : Word64) : Bool × Flags :=
  let m := modByte f.c
  let v (w : Word64) : FVal := readF (fm f) (ftzOf m) (codeIn (fm f) w)
  fcmpV (m % 8) (v a) (v b)
def floatClassed (f : Fields) (_l : Nat) (a _b : Word64) : Bool × Flags :=
  (fclassV (fm f) (modByte f.c) (codeIn (fm f) a), Flags.none)

/-! ### Lane operations and packed rows (R206 to R217) -/

/-- A lane-crossing instruction: A is read in the lanes given as they stand, B in the active ones, and the values given are
written to D as an interlocked result. -/
def WritesRow (i : Fields → Instr) (m : Mnem) (wa wd_ : Fields → Bool) (use : Fields → Ctx → Mask)
    (val : Fields → Ctx → List Word64 → List Word64 → Nat → Word64)
    (fl : Fields → Ctx → List Word64 → List Word64 → Flags) : Prop :=
  ∀ (s : State) (f : Fields) (x y : Ctx) (a b : List Word64), Runs s m f .auto x → Unwatched x → popSources x = .ok y →
    readVals y .a f.a (wa f) (use f x) = .ok a → rd y .b false = .ok b →
    let vs := lanes16.map (val f x a b)
    let own (w : Weft) : Weft := orFpst w (fl f x a b)
    CanWrite y none (wd_ f) vs own → Completes (i f) x y (wd_ f) vs own

/-- A is read in every lane. -/
def everyLane (_ : Fields) (x : Ctx) : Mask := allLanes x.w

/-- The lanes of BSUNPK's packed row: 3 for F4B8, 9 for F8B32 (R209). -/
def rowLanes (f : Fields) (x : Ctx) : Mask := allLanes x.w &&& if f.mod.toNat = 7 then 7 else 0x1FF

/-- Lane j as it is read: on a supervisor core every lane is lane 0 (R211). -/
def readLane (x : Ctx) (vs : List Word64) (j : Nat) : Word64 := vs.getD (if isSup x.w.id.core then 0 else j) 0

/-- The lane that SHFL gives to lane l, in a segment of 16, 8, 4 or 2 lanes (R212). -/
def shuffled (mode seg l b : Nat) : Nat :=
  let n := [16, 8, 4, 2].getD seg 2
  let first := l / n * n
  let at_ := l % n
  match mode with
  | 0 => first + b % n
  | 1 => if b ≤ at_ then l - b else l
  | 2 => if at_ + b < n then l + b else l
  | _ => first + (at_ ^^^ (b % n))

/-- The steps of a reduction over values in order, from a start or from the first value, with the flags raised. -/
def reduced (fl : Bool) (op t : Nat) (start : Option Word64) (vs : List Word64) : Word64 × Flags :=
  let go (p : Word64 × Flags) (v : Word64) : Word64 × Flags :=
    let r := reduceStep fl op t p.1 v
    (r.1, p.2.or r.2)
  match start, vs with
  | some a, vs => vs.foldl go (a, Flags.none)
  | none, v :: r => r.foldl go (v, Flags.none)
  | none, [] => (0, Flags.none)

/-- The active lanes' sources of SCAN and WRED among those that a test admits, in ascending order (R215). -/
def reduceArgs (f : Fields) (x : Ctx) (a : List Word64) (p : Nat → Bool) : List Word64 :=
  ((lanesOf x.act).filter p).map fun l => reduceSource (bitOf (modByte f.c) 4) f.mod.toNat (a.getD l 0)

/-- SCAN (R215): at each active lane the reduction of the active lanes up to it, or of those below it from the identity. -/
def scanned (f : Fields) (x : Ctx) (a _b : List Word64) (l : Nat) : Word64 :=
  let m := modByte f.c
  let fl := bitOf m 4
  let op := m % 8
  let t := f.mod.toNat
  let last := (lanesOf x.act).getLastD 0
  if bitOf m 3 then
    (reduced fl op t (some (reduceId fl op t)) (reduceArgs f x a fun k => if x.act.getLsbD l then k < l else k < last)).1
  else (reduced fl op t none (reduceArgs f x a fun k => if x.act.getLsbD l then k ≤ l else true)).1

/-- WRED (R215): the reduction over all active lanes. -/
def wholeReduced (f : Fields) (x : Ctx) (a _b : List Word64) (_l : Nat) : Word64 :=
  let m := modByte f.c
  (reduced (bitOf m 4) (m % 8) f.mod.toNat none (reduceArgs f x a fun _ => true)).1

/-- The flags of SCAN and WRED (R215): those of the steps made, and NV for a signalling NaN among the sources. -/
def reduceFlags (isScan : Bool) (f : Fields) (x : Ctx) (a _b : List Word64) : Flags :=
  let m := modByte f.c
  let fl := bitOf m 4
  let t := f.mod.toNat
  let last := (lanesOf x.act).getLastD 0
  let r :=
    if isScan && bitOf m 3 then
      reduced fl (m % 8) t (some (reduceId fl (m % 8) t)) (reduceArgs f x a fun k => k < last)
    else reduced fl (m % 8) t none (reduceArgs f x a fun _ => true)
  let snan := fl && (lanesOf x.act).any fun l => (decodeF (fmtOf t) (codeIn (fmtOf t) (a.getD l 0))).isSnan
  { r.2 with nv := r.2.nv || snan }

/-- MATCH (R216): the mask of the active lanes whose A equals the lane's own. -/
def matched (f : Fields) (x : Ctx) (a _b : List Word64) (l : Nat) : Word64 :=
  let v (k : Nat) : Word64 := if f.mod.toNat = 9 then a.getD k 0 else ((a.getD k 0).setWidth 32 : Word32).setWidth 64
  (ofBits 16 fun k => x.act.getLsbD k && v k == v l).setWidth 64

/-- An element of a packed row with its scale, times the band: FP32, with OF, UF and NX alone (R206, R209). -/
def unpackedOf (f : Fields) (row b : List Word64) (k l : Nat) : Nat × Flags :=
  let byte (i : Nat) : Nat := ((row.getD (i / 4) 0).extractLsb' (8 * (i % 4)) 8).toNat
  let band := codeIn .bf16 (b.getD l 0)
  if f.mod.toNat = 7 then
    unpackOne .e2m1 (byte (k / 2) / 16 ^ (k % 2) % 16) (byte (8 + k / 8)) band
  else unpackOne .e4m3 (byte k) (byte 32) band

/-- BSUNPK (R209): element l in lane l, and for F8B32 element l + 16 in the odd register of the pair. -/
def unpacked (f : Fields) (_x : Ctx) (row b : List Word64) (l : Nat) : Word64 :=
  let lo := (unpackedOf f row b l l).1
  BitVec.ofNat 64 (if f.mod.toNat = 7 then lo else lo + 2 ^ 32 * (unpackedOf f row b (l + 16) l).1)
def unpackedFlags (f : Fields) (x : Ctx) (row b : List Word64) : Flags :=
  flagsOver x fun l =>
    if f.mod.toNat = 7 then (unpackedOf f row b l l).2
    else (unpackedOf f row b l l).2.or (unpackedOf f row b (l + 16) l).2

/-- The blocks of BSPACK's source: 8 elements to an F4B8 block, 32 to an F8B32 one; a lane that is not active gives
selvedge elements (R42, R208). -/
def packedBlocks (f : Fields) (x : Ctx) (band : Nat) (a c : List Word64) : List (Nat × List Nat × Flags) :=
  let el (k : Nat) : Option Nat × Nat :=
    let w := a.getD (k % 16) 0
    (if x.act.getLsbD (k % 16) then some (if k < 16 then w.toNat % 2 ^ 32 else w.toNat / 2 ^ 32) else none,
      (c.getD (k % 16) 0).toNat % 2 ^ 16)
  let rs := decide (f.mod.toNat ≥ 9)
  if f.mod.toNat % 2 = 1 then
    [packBlock .e2m1 6 rs band ((List.range 8).map el), packBlock .e2m1 6 rs band ((List.range 8).map fun k => el (k + 8))]
  else [packBlock .e4m3 480 rs band ((List.range 32).map el)]

/-- BSPACK's packed row (Table 7 of R206). -/
def packedRow (bs : List (Nat × List Nat × Flags)) (l : Nat) : Word64 :=
  let codes (k w : Nat) (cs : List Nat) : Nat := (List.range k).foldl (fun n i => n + 2 ^ (w * i) * cs.getD i 0) 0
  BitVec.ofNat 64 (match bs with
    | [(s0, c0, _), (s1, c1, _)] =>
      if l = 0 then codes 8 4 c0 else if l = 1 then codes 8 4 c1 else if l = 2 then s0 + 256 * s1 else 0
    | [(s, cs, _)] => if l < 8 then codes 4 8 (cs.drop (4 * l)) else if l = 8 then s else 0
    | _ => 0)

/-- The word of SHAPEQ (Table 10 of R217): the class of the register, and for a symbol its slot, its steps and its
line charge. -/
def shapeAnswer (r : VReg) : Word64 :=
  BitVec.ofNat 64 (match r with
    | .val .u _ => 0
    | .val .a _ => 1
    | .val .g _ => 2 + 2 ^ 12
    | .sym v => 3 + 2 ^ 4 * v.slot + 2 ^ 8 * v.steps.length + 2 ^ 12 * chargeOf (.sym v)
    | .symHi v => 3 + 2 ^ 4 * v.slot + 2 ^ 12 * (2 - chargeOf (.sym v)))

/-! ### Paired words and transfers of control -/

/-- The context of a unit that a sub-weft of a resident weft issues. -/
structure Issued (s : State) (x : Ctx) : Prop where
  cur : s.cur = some x.c
  weft : getWeft s x.c.w = some x.w
  panel : getPanel s x.w.key = some x.p
  sub : subAt x.w x.c.lane = some x.b
  state : x.s = s

/-- A slot of a paired word as it is read: its guard leaves the lanes m, and where there are any its D holds d and its A
gives a (R114). -/
def SlotRead (x : Ctx) (y : Bool) (t : Slot) (m : Mask) (d a : List Word32) : Prop :=
  ∃ p, readPred x.s x.w x.b 0 t.gp.val = .ok p ∧ m = x.b.mask &&& p ∧
    (m ≠ 0 → readLanes x.s x.w x.b 0 (.v t.d.val) m = .ok d ∧ slotSrc x.s x.w x.b y t.pop m t.a = .ok a)

/-- The results of a slot stand in its D and in its latch, X's in the first and Y's in the second (R76, R114). -/
def SlotDone (x : Ctx) (w : Weft) (y : Bool) (t : Slot) (m : Mask) (d a : List Word32) : Prop :=
  ∀ l ∈ ownLanes { x with act := m }, laneOf w (.v t.d.val) l = (slotOp t.pop (lane d l) (lane a l)).1 ∧
    laneOf w (.lat y) l = (slotOp t.pop (lane d l) (lane a l)).1

/-- The flags of a slot. -/
def slotFlags (t : Slot) (m : Mask) (d a : List Word32) : Flags :=
  (lanesOf m).foldl (fun f l => f.or (slotOp t.pop (lane d l) (lane a l)).2) Flags.none

/-- Lane l of the weft stands in a ready sub-weft at an address with the lanes given. -/
def LaneAt (w : Weft) (l : Nat) (pc : Word64) (m : Mask) : Prop := subAt w l = some ⟨pc, m, none, .none⟩

/-- The unit ends with every lane of its sub-weft at a target of its own: lanes of one part stand together, a division is
recorded where there are several parts (R180, R181), `post` holds, and nothing else changes but the registers listed and
what `own` does to its weft. -/
def Transfers (i : Instr) (x : Ctx) (target : Nat → Word64) (same : Nat → Nat → Bool) (point : Option Word64)
    (ds : List RegId) (own : Weft → Weft) (post : State → Prop) : Prop :=
  ∃ t, exec i x.s = .next t ∧ t.cur = none ∧
    (∃ w, getWeft t x.c.w = some w ∧
      (∀ l ∈ lanesOf x.b.mask, LaneAt w l (target l) (ofBits 16 fun k => x.b.mask.getLsbD k && same k l)) ∧
      w.divs = (if (lanesOf x.b.mask).all (fun l => same l (lowest x.b.mask)) then x.w.divs
        else ⟨point, x.b.mask⟩ :: x.w.divs)) ∧ Kept x t ds own ∧ post t

/-- The same where the lanes part by their targets. -/
def TransfersTo (i : Instr) (x : Ctx) (target : Nat → Word64) (point : Option Word64) (ds : List RegId) (own : Weft → Weft)
    (post : State → Prop) : Prop :=
  Transfers i x target (fun k l => target k == target l) point ds own post

/-- A target that a transfer may take: a multiple of 8 that is an address (R180). -/
def GoodTarget (pc : Word64) : Prop := pc.extractLsb' 0 3 = 0 ∧ pc.extractLsb' 57 7 = 0

/-- The target of a word offset (R180). -/
def relative (x : Ctx) (off : Word64) : Word64 := x.c.pc + 8 * (off.setWidth 32 : Word32).signExtend 64

/-- The reconvergence point of a C modifier of words; 0 records none (R182). -/
def recPoint (x : Ctx) : Option Word64 :=
  match x.f.c with
  | .imm i => if i = 0 then none else some (x.c.pc + 8 * i.signExtend 64)
  | _ => none

/-- A release boundary of a scope passes for the unit's lanes at once: no write of theirs waits in a stall window for which it
must wait (R335, R362), no reduction of theirs has erred (R382), and every posted request that it waits for is acknowledged
and none of them lost (R323, R324, R331, R332). -/
structure Releases (x : Ctx) (scope : Nat) : Prop where
  held : heldBack x.s x.w x.act scope = false
  erred : erredOf x.s x.w x.act = []
  acked : unacked x.s x.w x.act scope = false
  kept : lostAt x.b = false

/-! ### Effects on the state beside one result -/

/-- A weft apart from its sub-wefts, its divisions, its stall window and what a unit issued again has taken from its queues. -/
def tidy (w : Weft) : Weft := { w with subs := [], divs := [], window := [], popped := [] }

/-- The unit completes with the state s' as its effect: its sub-weft goes on at its next word, and every other field of
the state, every other weft and all else of its own weft (its stall window and the waits under JOIN apart, which its end
moves on) is as s' has it. -/
def EndsWith (i : Instr) (x : Ctx) (s' : State) : Prop :=
  ∃ t, exec i x.s = .next t ∧ Ended x t ∧ t = { s' with cur := none, waiting := [], wefts := t.wefts } ∧
    (getWeft t x.c.w).map tidy = (getWeft s' x.c.w).map tidy ∧ ∀ k, k ≠ x.c.w → getWeft t k = getWeft s' k

/-- The unit completes with a result in D beside another effect on the state: it goes on at its next word, the result
stands in D, `post` holds, and all else is as the state s1 has it, but for the registers listed and what `own` does to
its weft. -/
def ResultIn (i : Instr) (x : Ctx) (s1 : State) (wide : Bool) (vs : List Word64) (ps : List RegId) (own : Weft → Weft)
    (post : State → Prop) : Prop :=
  ∃ t, exec i x.s = .next t ∧ Ended x t ∧ InD { x with s := s1 } t wide vs ∧
    Kept { x with s := s1 } t (dstRegs x wide ++ ps) (fun w => own (specD x vs w)) ∧ post t

/-- D can take the result in the state s1. -/
def CanWriteIn (x : Ctx) (s1 : State) (wide : Bool) (vs : List Word64) (own : Weft → Weft) : Prop :=
  ∃ s', writeRes { x with s := s1 } wide vs none own = .ok s'

/-- The state with a predicate of the unit's weft set to a result for the whole instruction (R80). -/
def predSet (x : Ctx) (n : Nat) (bit : Bool) (s : State) : State :=
  updWeft s x.c.w fun w =>
    if n = 7 then w else setReg w (.p n) (.val .u [(predAfter x (predBits w n) fun _ => bit).setWidth 32])

/-! ### Accesses to memory (R218 to R229) -/

/-- A value of w bytes as it is loaded under a memory type: sign- or zero-extended (R164, R224). -/
def loaded (t v : Nat) : Word64 :=
  if t ≤ 7 then ext (intWidth t) (intSigned t) (BitVec.ofNat _ v) else if t % 2 = 1 then BitVec.ofNat 64 v else BitVec.ofNat 64 (v % 2 ^ 32)

/-- The place of a lane's scratchpad access: the sum of A and B modulo 2^32, placed (R96, R225). -/
def padAt (x : Ctx) (n : Nat) (a b : List Word64) (l : Nat) : Nat × Nat :=
  placeOff x.p ((a.getD l 0 + b.getD l 0).setWidth 32 : Word32).toNat n

/-- Where the bytes of an access stand, while a page may be on the move (R362, R364). -/
def home (x : Ctx) (a : LaneAcc) : Nat := redirect x.s a.pa

/-- A line's record holds no shadow, no gather and no contribution that the routers keep (R20, R45, R234). -/
def Plain (r : LineRec) : Prop := r.shadows = [] ∧ r.gather = [] ∧ r.pend = []

/-- Accesses of n bytes that reach their homes at once: no region is open in the package (R243), no access lies in the
pool window behind which a peer may stand (R385), no line of theirs is being copied (R362), every home serves (R373,
R433), no line holds a shadow or a gather (R45, R234), and no symbolic access to one is on its way (R308). -/
structure Reach (x : Ctx) (accs : List LaneAcc) : Prop where
  regions : ∀ w ∈ x.s.wefts, w.region = none
  near : ∀ a ∈ accs, tierOf (home x a) ≠ 3
  still : ∀ a ∈ accs, copyingAt x.s a.pa = none
  served : ∀ a ∈ accs, lineServes x.s (lineOf (home x a)) (leafCC a.leaf) = true
  quiet : ∀ a ∈ accs, Plain (getLine x.s (lineOf (home x a)))
  arrived : ∀ a ∈ accs, symPends x.s (fun _ => true) (lineOf (home x a)) = false

/-- The bytes of the accesses are not poisoned (R381). -/
def Clean (x : Ctx) (accs : List LaneAcc) (n : Nat) : Prop := ∀ a ∈ accs, poisoned x.s (home x a) n = false

/-- The pages of the accesses have been written before, and have no duplicates that a write would end (R353, R366); in ordered
mode no earlier write of their agents is held (R335). -/
def Written (x : Ctx) (accs : List LaneAcc) : Prop :=
  ∀ a ∈ accs, (∃ e, tlbFind x.s x.p.asid x.w.key.part a.va = some e ∧ bitOf e.leaf 15 = true) ∧
    dupOf x.s (home x a / 4096) = none ∧ dupOf x.s (a.pa / 4096) = none ∧
    (orderedPart x.s x.w.key.part = true → heldWrites x.s (fun g => g == accAgent x a.lane) = false)

/-- What a plain load of an agent sees at a byte: the baseline of its phase, or the byte that stands there (R310). -/
def seen (s : State) (g : AgentId) (pa : Nat) : Byte :=
  match s.snaps.find? fun y => y.agent == g && y.pa == pa with
  | some y => y.val
  | none => mget s.mem pa

/-- The number of n bytes that an access reads. -/
def reads (x : Ctx) (g : Nat → AgentId) (n : Nat) (a : LaneAcc) : Nat × Nat :=
  (a.lane, ofBytes ((List.range n).map fun i => seen x.s (g a.lane) (home x a + i)))

/-- The memory after accesses have stored, one after another. -/
def stored (x : Ctx) (m : List Host.Cell) (ws : List (LaneAcc × List Byte)) : List Host.Cell :=
  ws.foldl (fun m e => mwrite m (home x e.1) e.2) m

/-- A state without what an access changes at the homes and in the fronts: the bytes, the lines' copies and the counts
of pages, baselines, synonyms, requests of moves, back-invalidations, and the numbers drawn. -/
def beside (s : State) : State :=
  { s with mem := [], lines := [], pages := [], snaps := [], synonyms := [], moveReqs := [], outbox := [], tick := 0,
           nextId := 0, landings := [], wefts := [], cur := none, waiting := [] }

/-- The unit completes as an access, from a state s0 in which its queue sources are taken: its sub-weft goes on at its next
word, every register and all else of its weft and of every other weft stays, the memory is m, the results on their way are l,
and nothing beside the homes and the fronts changes. -/
def AccessesFrom (i : Instr) (x : Ctx) (s0 : State) (m : List Host.Cell) (l : Nat → List Landing) : Prop :=
  ∃ t id, exec i x.s = .next t ∧ Ended x t ∧ t.mem = m ∧ t.landings = s0.landings ++ l id ∧
    (getWeft t x.c.w).map tidy = (getWeft s0 x.c.w).map tidy ∧ (∀ k, k ≠ x.c.w → getWeft t k = getWeft s0 k) ∧
    beside t = beside s0

/-- The same of a unit without queue sources. -/
abbrev Accesses (i : Instr) (x : Ctx) (m : List Host.Cell) (l : Nat → List Landing) : Prop := AccessesFrom i x x.s m l

/-- The replies of a load on their way to D, numbered from id: one, or one for each line under `.split`; a scalar load
into `zero` has none (R125, R70). -/
def replies (x : Ctx) (wide split : Bool) (accs : List LaneAcc) (vals : List Word64) (id : Nat) : List Landing :=
  if x.scalar && x.f.d == .zero then [] else (loadLandings x { x.s with nextId := id } x.f.d wide split accs vals).1

/-- D can take the replies: no outstanding write is aimed at its registers, a symbol is not written in part, and the
line charge fits (R86, R91, R125). -/
def CanLand (x : Ctx) (wide split : Bool) (accs : List LaneAcc) (vals : List Word64) : Prop :=
  x.scalar && x.f.d == .zero ∨
    ∀ id, replyOk x x.s x.f.d wide (loadLandings x { x.s with nextId := id } x.f.d wide split accs vals).1 = .ok ()

/-- The first register and the number of registers of a tile instruction (R226). -/
def tile (f : Fields) (o : Operand) : Nat × Nat := (2 ^ (f.mod.toNat % 4), match o with | .v k => k.val | _ => 0)

/-- The reply for register j of a tile: its active lanes take the words read for them. -/
def tileReplies (x : Ctx) (k n : Nat) (word : Nat → Nat → Nat) (id : Nat) : List Landing :=
  (List.range n).map fun j =>
    mkLanding x (id + j) (.v (Fin.ofNat 256 (k + j))) false x.act
      (lanes16.map fun l => if x.act.getLsbD l then BitVec.ofNat 64 (word j l) else 0) false []

/-- The value at an atomic's location after one application of an operation of Table 3 of R230, other than a shadowed
add: numbers of n bytes under type t. -/
def applied (op t n : Nat) (old b : Nat) : Nat :=
  let w := 8 * n
  let o := BitVec.ofNat w old
  let q := BitVec.ofNat w b
  let g := fmtOf t
  match op with
  | 0 => (o + q).toNat
  | 1 => if below (intSigned t) q o then b else old
  | 2 => if below (intSigned t) o q then b else old
  | 3 => (o &&& q).toNat
  | 4 => (o ||| q).toNat
  | 5 => (o ^^^ q).toNat
  | 6 => b
  | 7 => old
  | 8 => b
  | 9 => if old ≥ b then 0 else old + 1
  | 10 => (faddV g .rne false (decodeF g old) (decodeF g b)).1
  | 11 => (fminmaxV g false (decodeF g old) (decodeF g b)).1
  | _ => (fminmaxV g true (decodeF g old) (decodeF g b)).1

/-- Atomics applied one lane after another: the memory, and the old value of each lane (R231). -/
def inTurn (x : Ctx) (n : Nat) (new : LaneAcc → Nat → Nat) (accs : List LaneAcc) : List Host.Cell × List (Nat × Nat) :=
  accs.foldl (fun r a =>
    let old := mnum r.1 (home x a) n
    (mwrite r.1 (home x a) (toBytes n (new a old)), r.2 ++ [(a.lane, old)])) (x.s.mem, [])

/-- The reply of an ATOM or CAS that returns old values: none into `zero`. -/
def oldValues (x : Ctx) (n : Nat) (accs : List LaneAcc) (vals : List (Nat × Nat)) (id : Nat) : List Landing :=
  if x.f.d = .zero then []
  else
    let va (l : Nat) : Nat := match accs.find? fun a => a.lane == l with | some a => a.va | none => 0
    [{ mkLanding x id x.f.d (n = 8) x.act (spread x (BitVec.ofNat 64) vals) false (lanes16.map va) with atom := true }]

/-! ### Boundaries, barriers and regions (R236 to R248, R306) -/

/-- The state after a release boundary: from `.panel` on, the lines that the core holds under byte masks are merged
(R322). -/
def released (x : Ctx) (scope : Nat) (s : State) : State := if scope ≥ 2 then mergeCore s x.w.id.core else s

/-- The state after an acquire boundary: the baselines of the lanes' agents, and of the weft's scalar agent, end, and no access
on its way fixes one of theirs (R310). -/
def acquired (x : Ctx) (s : State) : State :=
  let others (l : List AgentId) : List AgentId := l.filter fun g => !boundaryAgent x.w x.act g
  { s with snaps := s.snaps.filter fun y => !boundaryAgent x.w x.act y.agent
           symAccs := s.symAccs.map fun y => { y with live := others y.live } }

/-- Whether D names a scalar register. -/
def isScalarD (f : Fields) : Bool := match f.d with | .s _ => true | _ => false

/-- A barrier's values set: once ARRIVED has reached EXPECT it completes, ARRIVED is 0, GEN counts up, and the sub-wefts
of the panel that wait for it under BARRIER go on (R237). -/
def barrierSet (x : Ctx) (s : State) (b expect arrived : Nat) (gen : Word32) : State :=
  let put (v : Barrier) : State := updPanel s x.w.key fun p => { p with barriers := tset p.barriers b v }
  if arrived ≥ expect then wakeIn (put ⟨expect, 0, gen + 1⟩) x.w.key .barrier (.barrier b) else put ⟨expect, arrived, gen⟩

/-- The bits of `$rstat` named are as given (Table 4 of R240). -/
structure Rstat (w : Weft) (cause openBit nabort : Nat) : Prop where
  cause : field w.rstat.toNat 3 0 = cause
  opened : field w.rstat.toNat 5 5 = openBit
  aborts : field w.rstat.toNat 12 8 = nabort

/-- The unit ends in an abort of its weft's region r: control stands at the abort target with every live thread, the
region is gone, `$rstat` tells the cause and counts the abort (R246). -/
def Aborts (i : Instr) (x : Ctx) (r : Region) (cause : Nat) : Prop :=
  ∃ t w, exec i x.s = .next t ∧ t.cur = none ∧ getWeft t x.c.w = some w ∧ w.region = none ∧
    w.subs = [⟨r.target, liveMask x.w, none, .none⟩] ∧ Rstat w cause 0 (min 16 (field x.w.rstat.toNat 12 8 + 1)) ∧
    ∀ q, regNow w q = regNow x.w q

/-- The weft joins as ARBEGIN and AREND demand: it is one sub-weft, or has been joined (R241). -/
def Joined (x : Ctx) : Prop := x.w.subs.length ≤ 1 ∨ x.b.hold = .joined

/-- The byte that memory holds after a region's commit: the buffered one where the region wrote (R244). -/
def committed (r : Region) (m : List Host.Cell) (a : Nat) : Byte :=
  match tget r.buf a with
  | some b => if r.writes.contains (lineOf a) then b else mget m a
  | none => mget m a

/-! ### Queues, engines and tasks (R254 to R278) -/

/-- The word of QSTAT (Table 3 of R261). -/
def queueWord (x : Ctx) (n : Nat) : Nat :=
  match tget x.w.binds n with
  | none => 0
  | some b =>
    2 ^ 31 + 2 ^ 28 * b.kind + (if (b.kind = 4 ∨ b.kind = 5) ∧ (getChan x.p b.obj).closed = true then 2 ^ 27 else 0) +
      (if b.seen = true then 2 ^ 26 else 0) + min 65535 (queueCount x b)

/-- The values of a queue entry for MOV's D: one, or one for each lane (R81, R260). -/
def entryVals (wide : Bool) (e : List Word32) : List Word64 :=
  if e.length ≤ 2 then lanes16.map fun _ => if wide then (e.getD 1 0 ++ e.getD 0 0 : BitVec 64) else (e.getD 0 0).setWidth 64
  else if e.length ≤ 16 then lanes16.map fun l => (e.getD l 0).setWidth 64
  else lanes16.map fun l => (e.getD (2 * l + 1) 0 ++ e.getD (2 * l) 0 : BitVec 64)

/-- A matrix operation as a command of the unit's weft. -/
def matCommand (x : Ctx) (op : MatOp) : Cmd :=
  ⟨0, .matrix, x.w.key, x.w.num, none, 0, [], none, false, some op, fullWord x.m x.f, x.f.ext.getD 0, 0, 0, 0, 0⟩

/-- A command with a descriptor of n bytes. -/
def descCommand (x : Ctx) (e : Engine) (va n d : Nat) (cq : Option Nat) (mat : Option MatOp) : Cmd :=
  ⟨0, e, x.w.key, x.w.num, none, va, toBytes n d, cq, mat.isNone && uncounted x, mat,
    if mat.isSome then fullWord x.m x.f else 0, if mat.isSome then x.f.ext.getD 0 else 0, 0, 0, 0, 0⟩

/-- The unit's command is accepted at the end of its engine's queue (R256): the unit completes, its spots are absent and
its tiles owned by the engine; a command with a TASK is a release at `.pkg` first (R345). -/
def Accepted (i : Instr) (x : Ctx) (s1 : State) (c : Cmd) : Prop :=
  engineRoom s1 x.w.id.core c.engine = true → (taskOf c ≠ 0 → Releases x 4) →
    EndsWith i x (acceptCmd (if taskOf c = 0 then s1 else released x 4 s1) x.w.id.core c)

/-- The tiles that a field and a count name lie within the panel's (R102, R268). -/
def TilesAt (x : Ctx) (fld : Fld) (t c : Nat) : Prop :=
  modByte x.f.c = t ∧ num1 x fld = .ok c ∧ 1 ≤ c ∧ c ≤ 64 ∧ t + c ≤ x.p.m.acc

/-! ### Exceptions and control registers (R286 to R289, R403 to R405) -/

/-- The level that takes a fault or trap (R403): from the first level on, the lowest whose vector is not 0 and whose trap
is not active. -/
def TakenAt (s : State) (w : Weft) (code l : Nat) : Prop :=
  let first := if classK code = false ∧ w.level = 0 ∧ w.ut.tvec ≠ 0 ∧ tget w.active 0 = none then 0 else max 1 w.level
  first ≤ l ∧ l ≤ 3 ∧ tget w.active l = none ∧ vectorOf s w l ≠ 0 ∧
    ∀ k, first ≤ k → k < l → tget w.active k ≠ none ∨ vectorOf s w k = 0

/-- The sub-weft b of weft w has entered the handler of level l from state s (R404): EPC, CAUSE (Table 2 of R405) and TVAL
are written, the level and its trap are taken, the latches are in the shadow, the sub-weft stands at the vector with its
own mask, and the others are held. -/
structure EnteredAt (s : State) (w : Weft) (b : Sub) (lane : Nat) (t : State) (l code : Nat) (tval : Option Nat)
    (lanes : Mask) (late : Bool) (epc : Word64) : Prop where
  done : t.cur = none
  weft : ∃ u, getWeft t w.id = some u ∧ u.level = l ∧
    (∃ v, trapRegs u l = ⟨(trapRegs w l).tvec, epc,
      BitVec.ofNat 32 (code + 2 ^ 8 * (w.level % 4) + (if late then 2 ^ 11 else 0) + 2 ^ 16 * lanes.toNat), v⟩ ∧
      ∀ n, tval = some n → v = BitVec.ofNat 64 n) ∧
    (∃ a, tget u.active l = some a ∧ a.mask = b.mask ∧ a.before = w.level) ∧
    (∀ k, k ≠ l → tget u.active k = tget w.active k ∧ (k ≤ 3 → trapRegs u k = trapRegs w k)) ∧
    u.shX = w.latX ∧ u.shY = w.latY ∧ subAt u lane = some ⟨vectorOf s w l, b.mask, none, .none⟩ ∧
    ((∀ k, l < k → tget w.active k = none) → ∀ y ∈ u.subs, y.mask &&& ~~~b.mask ≠ 0 → mayIssue t u y = false)

/-- The unit's sub-weft has entered the handler of level l, and every register and every byte of memory stays. -/
def Entered (x : Ctx) (t : State) (l code : Nat) (tval : Option Nat) (lanes : Mask) (epc : Word64) : Prop :=
  EnteredAt x.s x.w x.b x.c.lane t l code tval lanes false epc ∧
    (∃ u, getWeft t x.c.w = some u ∧ ∀ q, regNow u q = regNow x.w q) ∧ ∀ a, mget t.mem a = mget x.s.mem a

/-- The control registers of Table 3 of R289 with their values for a weft, SVCPOP apart; a weft of no partition reads 0 in
those of the partition. -/
def controlRegs (s : State) (w : Weft) : List (Nat × Word64) :=
  let part (f : Part → Word64) : Word64 := match w.key.part.bind (getPart s) with | some p => f p | none => 0
  [(0x00, w.ut.tvec), (0x01, w.ut.epc), (0x02, w.ut.cause.setWidth 64), (0x03, w.ut.tval),
   (0x20, part fun p => p.ktvec), (0x21, w.kt.epc), (0x22, w.kt.cause.setWidth 64), (0x23, w.kt.tval), (0x24, w.kscratch),
   (0x25, part fun p => BitVec.ofNat 64 p.desc.svcbase), (0x27, part fun p => BitVec.ofNat 64 p.redcnt),
   (0x50, s.htvec), (0x51, w.ht.epc), (0x52, w.ht.cause.setWidth 64), (0x53, w.ht.tval),
   (0x54, ofBits 64 fun n => s.parts.any fun e => e.1 == n && e.2.frozen), (0x55, s.incarn.setWidth 64),
   (0x70, s.mtvec), (0x71, w.mt.epc), (0x72, w.mt.cause.setWidth 64), (0x73, w.mt.tval)]

/-- A write of a control register of the partition or the package (Table 3 of R289). -/
def csrShared (x : Ctx) (n : Nat) (v : Word64) (s : State) : State :=
  match n, x.w.key.part with
  | 0x20, some p => updPart s p fun q => { q with ktvec := v }
  | 0x50, _ => { s with htvec := v }
  | 0x70, _ => { s with mtvec := v }
  | _, _ => s

/-- A write of a control register of the weft; read-only ones keep their value. -/
def csrOwn (n : Nat) (v : Word64) (w : Weft) : Weft :=
  match n with
  | 0x00 => { w with ut := { w.ut with tvec := v } }
  | 0x01 => { w with ut := { w.ut with epc := v } }
  | 0x21 => { w with kt := { w.kt with epc := v } }
  | 0x24 => { w with kscratch := v }
  | 0x51 => { w with ht := { w.ht with epc := v } }
  | 0x71 => { w with mt := { w.mt with epc := v } }
  | _ => w

/-- The register that A of a CSRR or CSRW names, with its width: the issuer's level suffices, and pairs are even and within
the budget (R79, R288). -/
structure NamesCsr (x : Ctx) (n : Nat) (wide : Bool) : Prop where
  number : num1 x .a = .ok n
  known : ∃ level, csrInfo n = some (wide, level) ∧ level ≤ x.w.level
  pairD : pairOkAt x wide x.f.d = true
  pairB : pairOkAt x wide x.f.b = true

/-- The handle in A is well-formed and of the issuer's partition, or the issuer has hypervisor level (R280). -/
def Handle (x : Ctx) (h : Word64) : Prop :=
  rd1 x .a true = .ok h ∧ h.extractLsb' 48 16 = 0 ∧
    (2 ≤ x.w.level ∨ (h.extractLsb' 42 6).toNat = x.w.key.part.getD 0)

/-- The weft that a handle names: its partition, panel and number (Table 1 of R280). -/
def named (s : State) (h : Word64) : Option Weft :=
  s.wefts.find? fun w => w.key.part.getD 0 * 2 ^ 42 + w.key.num.toNat * 2 ^ 10 + w.num == h.toNat

/-- No DSTEP acts at a weft that the unit's own weft acts at (R281). -/
def Unstepped (x : Ctx) (w : Weft) : Prop := w.id ≠ x.c.w → w.stepping = none ∧ w.stepped = none

/-- The unit completes with a status in D, the state otherwise being s1. -/
def StatusIn (i : Instr) (x : Ctx) (s1 : State) (n : Nat) (post : State → Prop) : Prop :=
  CanWriteIn x s1 false (splat (BitVec.ofNat 64 n)) id → ResultIn i x s1 false (splat (BitVec.ofNat 64 n)) [] id post

/-- The unit's ASID operand lies within its partition's range (R297, R298). -/
def OwnAsid (x : Ctx) (n : Nat) : Prop :=
  num1 x .b = .ok n ∧ n ≤ 65535 ∧
    ∀ p, x.w.key.part.bind (getPart x.s) = some p → p.desc.asidLo ≤ n ∧ n ≤ p.desc.asidHi

/-! ### The device's own steps -/

/-- A weft of a panel as its start leaves it (R50, R65): its number, role and level, its threads at the entry, every register
0, and its place on the bench with the priority of its panel's task record. -/
structure Launched (p : Panel) (n : Nat) (w : Weft) : Prop where
  num : w.num = n
  role : w.role = if n < shapeProd p.m then 0 else 1
  level : w.level = weftLevel p n
  core : nth p.cores (n / perCore p) 0 = w.id.core
  bench : w.onCourt = false ∧ w.prio = p.prio
  subs : ∃ m, w.subs = [⟨p.m.entry, m, none, .none⟩] ∧ m = if isSup w.id.core then 1 else 0xFFFF
  tids : ∀ l, l < 16 → nth w.tids l 0 = if isSup w.id.core then 16 * n else 16 * n + l
  regs : ∀ q l, q ≠ .p 7 → laneOf w q l = 0
  zero : w.fpst = 0 ∧ w.task = 0 ∧ w.index = 0 ∧ w.scrum = 0 ∧ w.rstat = 0 ∧ w.region = none ∧ w.halted = false

/-- The registers in which an interlocked result lands (R76, R125). -/
def landRegsOf (l : Landing) : List RegId :=
  match l.d with
  | .v n => .lat false :: .v n.val :: if l.wide then [.v (n.val + 1)] else []
  | .o n => [.lat false, .o n.val]
  | .s n => .s n.val :: if l.wide then [.s (n.val + 1)] else []
  | _ => [.lat false]

/-- An interlocked result stands in its registers, lane by lane. -/
def LandedIn (l : Landing) (w : Weft) : Prop :=
  let own (i : Nat) : Bool := l.lanes.getLsbD i && (!isSup w.id.core || i == 0)
  let low (r : RegId) : Prop := ∀ i, i < 16 → own i = true → laneOf w r i = (l.vals.getD i 0).setWidth 32
  let high (r : RegId) : Prop := ∀ i, i < 16 → own i = true → laneOf w r i = (l.vals.getD i 0).extractLsb' 32 32
  match l.d with
  | .v n => low (.v n.val) ∧ (l.wide = true → high (.v (n.val + 1))) ∧ low (.lat false)
  | .o n => low (.o n.val) ∧ low (.lat false)
  | .s n => laneOf w (.s n.val) 0 = (l.vals.getD 0 0).setWidth 32 ∧
      (l.wide = true → laneOf w (.s (n.val + 1)) 0 = (l.vals.getD 0 0).extractLsb' 32 32)
  | _ => low (.lat false)

/-- A record at its place on its ready queue, with a completion entry (R58, R62). -/
def Queued (s t : State) (part asid addr : Nat) (r : Rec) : Prop :=
  ∃ p q y u, getPart s part = some p ∧ tget p.queues r.qid = some q ∧ getPart t part = some u ∧
    tget u.queues r.qid = some { q with recs := q.recs ++ [y] } ∧ y.addr = addr ∧ y.level = min r.pri q.ceiling ∧
    y.arg = BitVec.ofNat 64 r.arg ∧ y.asid = asid ∧ y.next = 0 ∧ y.count = (if r.bolt then r.icount else 1) ∧
    ⟨addr, asid, if r.bolt then r.icount else 1⟩ ∈ u.comps

/-- A panel holds an allocation on each of its cores. -/
def HasCores (p : Panel) : Prop := ∀ k ∈ p.cores, ∃ y ∈ p.parts, y.core = k

/-- In state t the region that a weft had open in state s has been aborted (R246): nothing of it is left, its threads stand
at the abort target, its registers as they were. -/
def AbortedAt (s t : State) (id : WId) (cause : Nat) : Prop :=
  ∃ w r u, getWeft s id = some w ∧ w.region = some r ∧ getWeft t id = some u ∧ u.region = none ∧
    u.subs = [⟨r.target, liveMask w, none, .none⟩] ∧ Rstat u cause 0 (min 16 (field w.rstat.toNat 12 8 + 1)) ∧
    ∀ q, regNow u q = regNow w q

/-- Two open regions of wefts f and e, on which no other region depends, conflict at a line that f accesses (Table 5 of
R243). -/
structure Conflict (s : State) (f e : WId) (line : Nat) (write : Bool) (wf we : Weft) (rf re : Region) : Prop where
  wefts : getWeft s f = some wf ∧ getWeft s e = some we
  regions : wf.region = some rf ∧ we.region = some re
  apart : f ≠ e
  mine : if write then line ∈ rf.writes else line ∈ rf.reads
  marked : line ∈ re.writes ∨ write = true ∧ line ∈ re.reads
  free : ∀ w ∈ s.wefts, ∀ r, w.region = some r → f ∉ r.deps ∧ e ∉ r.deps

/-- The region of y is placed after that of x (Table 5 of R243). -/
def PlacedAfter (t : State) (x y : WId) (wx wy : Weft) (rx ry : Region) : Prop :=
  ∃ u v, getWeft t x = some u ∧ getWeft t y = some v ∧ v.region = some { ry with deps := x :: ry.deps } ∧
    v.rlo.toNat = max wy.rlo.toNat (wx.rlo.toNat + 1) ∧ v.rhi = wy.rhi ∧ u.region = some rx ∧ u.rlo = wx.rlo ∧
    u.rhi.toNat = if rx.serial then wx.rhi.toNat else min wx.rhi.toNat (wy.rhi.toNat - 1)

/-- Neither interval becomes empty when y is placed after x. -/
def Fits (wx wy : Weft) (rx : Region) : Prop :=
  wx.rlo < wy.rhi ∧ wy.rlo ≤ wy.rhi ∧ wx.rlo ≤ wx.rhi ∧ (rx.serial = false → wx.rlo.toNat ≤ wy.rhi.toNat - 1)

/-- A completion record stands at the end of a panel's completion queue; none where the command names no queue (R257), or where
the queue is full and nothing of the panel is left to read it (log entry 63). -/
def Pushed (s t : State) (k : PKey) (cq : Option Nat) (r : BitVec 128) : Prop :=
  ∀ q p, cq = some q → getPanel s k = some p → (tgetD p.cqs q []).length < 256 →
    ∃ u, getPanel t k = some u ∧ tgetD u.cqs q [] = tgetD p.cqs q [] ++ [r]

/-- A message has left its endpoint with an outcome, which its sender has: here, or through its package's hub (R253). -/
def Reported (s t : State) (m : InMsg) (st : Nat) : Prop :=
  (∀ y ∈ t.inMsgs, y.id ≠ m.id) ∧
  (m.src = s.pkgid.toNat → ∀ y ∈ t.msgs, y.id = m.sid → y.done = true ∧ st ≤ y.outcome) ∧
  (m.src ≠ s.pkgid.toNat → t.outbox = s.outbox ++ [⟨some (4096 + m.src), 3, toBytes 1 st ++ toBytes 4 m.len ++ toBytes 8 m.sid⟩])

/-- A message has ended with its buffer: the receive completion is pushed and the sender has the outcome (Table 9 of R253). -/
def Received (s t : State) (m : InMsg) (b : PostedBuf) (st : Nat) : Prop :=
  Reported s t m st ∧ Pushed s t b.key b.cq (mkCompletion b.desc m.ep st m.len)

/-- What the step i from s does with a message for which a buffer is at hand, the state being s1 (Table 9 of R253): its first
CAP bytes are placed, or it waits in receive staging for the buffer's page. -/
def TakesBuffer (i : Instr) (s s1 : State) (m : InMsg) (b : PostedBuf) : Prop :=
  let bytes := m.data.take b.cap
  let who : EngFor := ⟨b.asid, some m.part, false, 323, false⟩
  (∀ s2, engCanWrite s1 who b.buf bytes.length = none → engWrite s1 who b.buf bytes = (none, s2) →
    ∃ t, exec i s = .next t ∧ Received s2 t m b (if m.len ≤ b.cap then 0 else 1) ∧ t.mem = s2.mem) ∧
  (∀ va, engCanWrite s1 who b.buf bytes.length = some (.denied va) →
    let s2 := engAlias s1 who va
    ∃ t, exec i s = .next t ∧ Received s2 t m b 2 ∧ t.mem = s2.mem) ∧
  (∀ va, engCanWrite s1 who b.buf bytes.length = some (.absent va) →
    ∃ t y, exec i s = .next t ∧ y ∈ t.inMsgs ∧ y.id = m.id ∧ y.data = m.data ∧ y.buf = some b ∧ t.mem = s1.mem)

/-- Every posted write and reduction has left (R331). -/
def Settled (s : State) : Prop := ∀ w ∈ s.postedW, w.sent = true

/-- No posted write or reduction that has not left goes to a line (R331). -/
def Unposted (s : State) (line : Nat) : Prop := ∀ w ∈ s.postedW, w.sent = false → line ∉ postLines w

/-- No write of a request is held at a page that is being copied (R362). -/
def NoneHeld (s : State) (id : Nat) : Prop := ∀ m ∈ s.moves, ∀ h ∈ m.held, ∀ z, h.ret = some z → z.1 ≠ id

/-- A unicast packet has left by a port of its target's route with credit, or waits in a buffer: of a port, or, where its
injection is frozen, of none (R383, R395). -/
def Injected (s t : State) (p : Packet) : Prop :=
  if frozenTag s p.tag = true then t.buffers = s.buffers ++ [⟨none, p⟩] ∧ t.outbox = s.outbox
  else
    (∃ n ∈ portsTo s p.target.toNat, creditsOf s n p.vc = creditsOf t n p.vc + 1 ∧ t.buffers = s.buffers ∧
      t.outbox = s.outbox ++ [⟨some (4096 + p.target.toNat), 2, payload p.op⟩]) ∨
    (∀ n ∈ portsTo s p.target.toNat, creditsOf s n p.vc = 0) ∧ t.outbox = s.outbox ∧ t.ports = s.ports ∧
      t.buffers = s.buffers ++ [⟨(portsTo s p.target.toNat).head?, p⟩]

/-- A line's record at its home in home state h: no request waits there, no shadow, gather or copy outside the package is
kept, no open region marks the line, and every L1 and the LLC have room for it (R15, R16). -/
structure LineIs (s : State) (line : Nat) (r : LineRec) (h : HState) : Prop where
  now : getLine s line = r
  num : r.line = line
  home : r.home = h
  waiting : r.waiting = []
  sums : Plain r
  outside : r.remotes = [] ∧ r.overflow = false ∧ ∀ a ∈ r.sharers, a < 320
  copies : (r.l1.map (·.1)).Nodup ∧ ∀ a, r.owner = some a ↔ (heldAs r a = .m ∨ heldAs r a = .o ∨ heldAs r a = .e)
  unmarked : ∀ w ∈ s.wefts, ∀ g, w.region = some g → line ∉ g.reads ∧ line ∉ g.writes
  cached : classOfLine s line ≠ 0
  room : (∀ a, l1Room s a line = true) ∧ (s.lines.filter fun y => y.llc != .i).length < 32768

/-- A transaction for a request is open at a line's home, its copies as they were (R373). -/
def OpenedAt (t : State) (line : Nat) (r : LineRec) (q : Option (Nat × ReqKind)) (h : HState) (pending : List Nat) : Prop :=
  let y := getLine t line
  y.home = h ∧ y.open_ = q ∧ y.pending = pending ∧ y.l1 = r.l1 ∧ y.masks = r.masks ∧ y.owner = r.owner ∧ y.llc = r.llc

/-- The line is stable and an agent holds it as its request asked (Table 4 of R374): a reader shared, or exclusively where it
is alone; a writer alone and modified; a privatised writer with its bytes; for an atomic no copy is left. -/
def GrantedAt (t : State) (line : Nat) (r : LineRec) (a : Nat) (k : ReqKind) : Prop :=
  let y := getLine t line
  let alone : Prop := ∀ b, b ≠ a → heldAs y b = .i
  y.home = .stb ∧ y.open_ = none ∧
    match k with
    | .rds => heldAs y a = (if a < 320 ∧ otherHolders r a = [] ∧ r.llc = .i then CState.e else CState.s) ∧
        (∀ b, b ≠ a → heldAs y b = heldAs r b) ∧ y.llc = match r.llc with | .m => .o | .e => .s | c => c
    | .prv m => heldAs y a = .p ∧ (∀ b, b ≠ a → heldAs y b = .i ∨ heldAs y b = .p) ∧
        (∀ o ∈ m, o ∈ (tget y.masks a).getD []) ∧ ∀ b, b ≠ a → tget y.masks b = tget r.masks b
    | .atm => y.llc = .i ∧ ∀ b, heldAs y b = heldAs r b
    | _ => heldAs y a = .m ∧ alone ∧ y.llc = .i ∧ y.masks = []

/-- A response has been sent to a party, with the DevLoad code of its port (R380): kind 4 carries data, 5 refuses, 6
acknowledges. -/
def Responded (s t : State) (dest kind port : Nat) (data : List Byte) : Prop :=
  t.outbox = s.outbox ++ [⟨some dest, kind, toBytes 1 (tgetD s.devload port 0) ++ data⟩]

/-- An admitted access of n bytes at pa is served at once (R362, R366, R373, R386): its homes answer, its page is in no move
and has no duplicate, no serial region marks its lines, and no shadow or gather stands there. -/
def ServedAt (s : State) (pa n cc : Nat) : Prop :=
  moveOf s pa = none ∧ ∀ l ∈ linesOf pa n, lineServes s l cc = true ∧ serialMarks s l = false ∧ moveOf s (l * 128) = none ∧
    dupOf s (l / 32) = none ∧ Plain (getLine s l)

/-- The waits of a request's unit have ended in a fault, which it takes when it is issued again (R387, R389). -/
def RequestFailed (s t : State) (r : OutReq) (code : Nat) : Prop :=
  (∀ y ∈ t.outReqs, y.id ≠ r.id) ∧ ∀ w, getWeft s r.w = some w → ∃ u, getWeft t r.w = some u ∧
    ∀ b ∈ w.subs, ∃ c ∈ u.subs, c.pc = b.pc ∧ c.mask = b.mask ∧
      c.hold = match b.hold with
        | .remote k l => if k = r.id then .walkFault code r.va else .remote k l
        | h => h

/-- A message at its sender has ended with a status (R253). -/
def MessageEnded (t : State) (id st : Nat) : Prop := ∃ y ∈ t.msgs, y.id = id ∧ y.done = true ∧ y.outcome = st

/-- A posted write has been acknowledged: no release waits for it any more (R331). -/
def PostedDone (t : State) (id : Nat) : Prop := ∀ y ∈ t.postedW, y.id ≠ id

/-- The next step issues the sub-weft that holds a lane, from state t: by the agenda's choice of its quarter, or because its
turn has come (R63). -/
def Issues (s t : State) (id : WId) (lane : Nat) : Prop :=
  (∃ rest l, s.agenda = .issue id l :: rest ∧ claim { s with agenda := rest } id l = some lane ∧ t = { s with agenda := rest }) ∨
  (s.agenda = [] ∧ autoEvent s = none ∧ pickIssuer s = some (id, lane) ∧ t = s)

/-- A unit's fields without prefixes, under the guard `p7`. -/
def plain (stl mod : BitVec 4) (d a b c : Operand) : Fields := ⟨⟨false, 7⟩, stl, mod, d, a, b, c, none, none, false⟩

end Sys2Proof.Safety
end

