-- ==== Sys2Proof/Certificates/Slice0/Obligations.lean ====
section
/-!
DEFINITION. The statements about the model, from the numbered rules of the manual.
-/
open Sys2Proof Sys2Proof.Machine Sys2Proof.Safety

/-- R167 to R170, R46: the integer arithmetic, logic and shift instructions complete with the wrapped exact result in D,
in every lane and type, and change nothing else. -/
def Obligations.IntegerArithmetic : Prop :=
  WritesD .add .add allWide (onType fun _ _ a b _ => a + b) ∧
  WritesD .sub .sub allWide (onType fun _ _ a b _ => a - b) ∧
  WritesD .mul .mul allWide (onType fun _ _ a b _ => a * b) ∧
  WritesD .mulh .mulh allWide (onType fun n sg a b _ => mulHigh n sg a b) ∧
  WritesD .mad .mad allWide (onType fun _ _ a b c => a * b + c) ∧
  WritesD .div .div allWide (onType fun _ sg a b _ => quotient sg a b) ∧
  WritesD .rem .rem allWide (onType fun _ sg a b _ => remainder sg a b) ∧
  WritesD .min .min allWide (onType fun _ sg a b _ => if below sg b a then b else a) ∧
  WritesD .max .max allWide (onType fun _ sg a b _ => if below sg a b then b else a) ∧
  WritesD .abs .abs allWide (onType fun _ sg a _ _ => if sg && a.msb then -a else a) ∧
  WritesD .neg .neg allWide (onType fun _ _ a _ _ => -a) ∧
  WritesD .and .and allWide (onType fun _ _ a b _ => a &&& b) ∧
  WritesD .or .or allWide (onType fun _ _ a b _ => a ||| b) ∧
  WritesD .xor .xor allWide (onType fun _ _ a b _ => a ^^^ b) ∧
  WritesD .andn .andn allWide (onType fun _ _ a b _ => a &&& ~~~b) ∧
  WritesD .clz .clz allWide (onType fun n _ a _ _ => BitVec.ofNat n (leadingZeros n a)) ∧
  WritesD .popc .popc allWide (onType fun n _ a _ _ => BitVec.ofNat n (ones n a)) ∧
  WritesD .brev .brev allWide (onType fun n _ a _ _ => reversed n a) ∧
  WritesD .shl .shl countNarrow (onShift fun _ _ a k => a <<< k) ∧
  WritesD .shr .shr countNarrow (onShift fun _ sg a k => if sg then a.sshiftRight k else a >>> k) ∧
  WritesD .sar .sar countNarrow (onShift fun _ sg a k => if sg then a.sshiftRight k else a >>> k) ∧
  WritesD .rot .rot countNarrow (onShift fun _ _ a k => a.rotateLeft k)

/-- R171, R172, R174, R176, R178: bit fields, addresses, selection, plain copies and width conversions complete with their
result in D and change nothing else. -/
def Obligations.FieldsAddressesAndCopies : Prop :=
  WritesD .bfx .bfx (fun f => (decide (wd f = 64), false, false, decide (wd f = 64))) extracted ∧
  WritesD .bfi .bfi (fun f => (decide (wd f = 64), decide (wd f = 64), false, decide (wd f = 64))) inserted ∧
  WritesD .lea .lea (fun f => (true, decide (f.mod.toNat = 2), false, true)) address ∧
  WritesD .sel .sel (fun f => (decide (wd f = 64), decide (wd f = 64), false, decide (wd f = 64))) selected ∧
  WritesD .cvti .cvti (fun f => (decide (intWidth (modByte f.c % 8) = 64), false, false, decide (wd f = 64))) converted ∧
  WritesWhen (fun x => queueOf x.f.a = none ∧ queueOf x.f.d = none) .mov .mov
    (fun f => (decide (f.mod.toNat % 2 = 1), false, false, decide (f.mod.toNat % 2 = 1))) (fun _ _ _ a _ _ => (a, Flags.none))

/-- R195 to R197, R202: floating-point arithmetic completes with the exact result rounded once, in D, its flags ORed into
`$fpst`, and nothing else changed. -/
def Obligations.FloatArithmetic : Prop :=
  WritesD .fadd .fadd twoFloats (onFloats faddV) ∧
  WritesD .fsub .fsub twoFloats (onFloats fun g r z a b => faddV g r z a b.negate) ∧
  WritesD .fmul .fmul twoFloats (onFloats fmulV) ∧
  WritesD .fdiv .fdiv twoFloats (onFloats fdivV) ∧
  WritesD .fsqrt .fsqrt twoFloats (onFloats fun g r z a _ => fsqrtV g r z a) ∧
  WritesD .fma .fma (fun f => (fmtOf (f.mod.toNat % 4) == .f64, fmtOf (f.mod.toNat % 4) == .f64,
    fmtOf (f.mod.toNat % 4) == .f64, fmtOf (f.mod.toNat % 4) == .f64)) fused ∧
  WritesD .fmin .fmin twoFloats (onFloats fun g _ _ a b => fminmaxV g false a b) ∧
  WritesD .fmax .fmax twoFloats (onFloats fun g _ _ a b => fminmaxV g true a b) ∧
  WritesD .frnd .frnd twoFloats (onFloats fun g r _ a _ => frndV g r a)

/-- R200 to R205, R207, R210: special functions, conversions, block scales and four-term products complete with their
result in D, their flags ORed into `$fpst`, and nothing else changed. The model's own choices in it: log entry 12. -/
def Obligations.SpecialFunctionsAndConversions : Prop :=
  WritesD .frcp .frcp narrow (special .rcp) ∧ WritesD .frsq .frsq narrow (special .rsq) ∧
  WritesD .fexp2 .fexp2 narrow (special .exp2) ∧ WritesD .flog2 .flog2 narrow (special .log2) ∧
  WritesD .fsin .fsin narrow (special .sin) ∧ WritesD .fcos .fcos narrow (special .cos) ∧
  WritesD .ftanh .ftanh narrow (special .tanh) ∧
  WritesD .cvtf .cvtf (fun f => (srcFmt f == .f64, false, false, fm f == .f64)) floatToFloat ∧
  WritesD .cvtfi .cvtfi (fun f => (srcFmt f == .f64, false, false, decide (wd f = 64))) floatToInt ∧
  WritesD .cvtif .cvtif (fun f => (decide (intWidth (sfmtOf (modByte f.c)) = 64), false, false, fm f == .f64)) intToFloat ∧
  WritesD .bscale .bscale narrow scaled ∧
  WritesD .dot4 .dot4 (fun f => (decide (f.mod.toNat ≤ 3), decide (f.mod.toNat ≤ 3), false, false)) dotted

/-- R173, R175, R198, R199, R80: comparisons, predicate logic and classification complete with their bits in the predicate
of D, and nothing else changed but the flags of FCMP. -/
def Obligations.PredicateResults : Prop :=
  WritesP .auto .cmp .cmp (fun f => (decide (wd f = 64), decide (wd f = 64))) compared ∧
  WritesP .lanes .pset .pset (fun _ => (false, false)) combined ∧
  WritesP .auto .fcmp .fcmp (fun f => (fm f == .f64, fm f == .f64)) floatCompared ∧
  WritesP .auto .fclass .fclass (fun f => (fm f == .f64, false)) floatClassed

/-- R168: ADDC and SUBB complete with the sum or difference in D and the carry or borrow in the predicate that C names,
which they read first. -/
def Obligations.CarryChains : Prop :=
  ∀ (s : State) (f : Fields) (x : Ctx) (v : Vals) (add : Bool), Runs s (if add then .addc else .subb) f .auto x →
    Unwatched x → readAll x (decide (wd f = 64)) (decide (wd f = 64)) false = .ok v →
    let n := wd f
    let a (l : Nat) : BitVec n := cut n (v.a.getD l 0)
    let b (l : Nat) : BitVec n := cut n (v.b.getD l 0)
    let ci (l : Nat) : Bool := (v.c.getD l 0).getLsbD (if x.scalar then lowest x.act else l)
    let k (l : Nat) : BitVec n := if ci l then 1 else 0
    let out (l : Nat) : Bool :=
      if add then decide ((a l).toNat + (b l).toNat + (if ci l then 1 else 0) ≥ 2 ^ n)
      else decide ((a l).toNat < (b l).toNat + (if ci l then 1 else 0))
    let vs := lanes16.map fun l => ext n (sg f) (if add then a l + b l + k l else a l - b l - k l)
    ∀ s', writeRes v.x (decide (wd f = 64)) vs (mnemLatency x.m f) id = .ok s' →
      ∃ t, exec (if add then .addc f else .subb f) s = .next t ∧ Ended x t ∧ InD v.x t (decide (wd f = 64)) vs ∧
        (∃ w, getWeft t x.c.w = some w ∧
          (predNum f.c ≠ 7 → predBits w (predNum f.c) = predAfter x (predBits x.w (predNum f.c)) out)) ∧
        Kept x t (dstRegs x (decide (wd f = 64)) ++ [.p (predNum f.c)]) fun w => specD v.x vs w

/-- R211, R212, R214 to R216, R209: shuffles, broadcasts, scans, reductions, matches and unpacked rows complete with the
lanes that they read as they stand combined into D, and nothing else changed but the flags. -/
def Obligations.LaneOperations : Prop :=
  WritesRow .shfl .shfl (fun f => decide (f.mod.toNat = 9)) (fun f => decide (f.mod.toNat = 9)) everyLane
    (fun f x a b l => readLane x a (shuffled (modByte f.c % 4) (modByte f.c / 4) l ((b.getD l 0).setWidth 32 : Word32).toNat))
    (fun _ _ _ _ => Flags.none) ∧
  WritesRow .bcast .bcast (fun f => decide (f.mod.toNat = 9)) (fun f => decide (f.mod.toNat = 9)) everyLane
    (fun _ x a b _ => readLane x a ((b.getD (lowest x.act) 0).toNat % 16)) (fun _ _ _ _ => Flags.none) ∧
  WritesRow .scan .scan (fun f => wideT .scan f) (fun f => wideT .scan f) everyLane scanned (reduceFlags true) ∧
  WritesRow .wred .wred (fun f => wideT .wred f) (fun f => wideT .wred f) everyLane wholeReduced (reduceFlags false) ∧
  WritesRow .matchLanes .matchLanes (fun f => decide (f.mod.toNat = 9)) (fun _ => false) everyLane matched (fun _ _ _ _ => Flags.none) ∧
  WritesRow .bsunpk .bsunpk (fun _ => false) (fun f => !decide (f.mod.toNat = 7)) rowLanes unpacked unpackedFlags

/-- R208, R213, R217: BSPACK writes the packed row of its blocks to every lane of D; VOTE combines a predicate over the
active lanes into D, a scalar of the mask or a predicate's active bits; SHAPEQ tells the shape of a register. -/
def Obligations.RowsVotesAndShapes : Prop :=
  (∀ (s : State) (f : Fields) (x : Ctx) (v : Vals), Runs s .bspack f .lanes x → Unwatched x →
    readAll x (decide (f.mod.toNat % 2 = 0)) false false = .ok v →
    let bs := packedBlocks f x (codeIn .bf16 (v.b.getD (lowest x.act) 0)) v.a v.c
    let own (w : Weft) : Weft := orFpst w (bs.foldl (fun g b => g.or b.2.2) Flags.none)
    let y := { v.x with act := allLanes x.w }
    CanWrite y none false (lanes16.map (packedRow bs)) own →
      Completes (.bspack f) x y false (lanes16.map (packedRow bs)) own) ∧
  (∀ (s : State) (f : Fields) (x : Ctx) (a : List Word64), Runs s .vote f (if kindOf f.d = .p then .lanes else .auto) x →
    Unwatched x → rd x .a false = .ok a →
    let yes (l : Nat) : Bool := x.act.getLsbD l && (a.getD 0 0).getLsbD l
    let some_ := lanes16.any yes
    let all_ := lanes16.all fun l => !x.act.getLsbD l || yes l
    if modByte f.c = 3 then
      CanWrite x none false (splat ((ofBits 16 yes).setWidth 64)) id →
        Completes (.vote f) x x false (splat ((ofBits 16 yes).setWidth 64)) id
    else
      ∃ t, exec (.vote f) s = .next t ∧ Ended x t ∧
        (∃ w, getWeft t x.c.w = some w ∧ (predNum f.d ≠ 7 → predBits w (predNum f.d) = ofBits 16 fun l =>
          if x.act.getLsbD l then
            (if modByte f.c = 0 then some_ else if modByte f.c = 1 then all_ else !some_ || all_)
          else (predBits x.w (predNum f.d)).getLsbD l)) ∧ Kept x t [.p (predNum f.d)] id) ∧
  (∀ (s : State) (f : Fields) (x : Ctx) (n : VecNo) (r : VReg), Runs s .shapeq f .auto x → Unwatched x →
    f.a = .v n → readReg s x.w x.b x.pre (.v n.val) (allLanes x.w) = .ok r →
    CanWrite x none false (splat (shapeAnswer r)) id →
      Completes (.shapeq f) x x false (splat (shapeAnswer r)) id)

/-- R114 to R116: a paired word completes with both slots read before either is written: each slot's result in its D and
in its latch in the lanes its guard leaves, and nothing else changed but the flags. -/
def Obligations.PairedWords : Prop :=
  ∀ (s : State) (stl : BitVec 4) (sx sy : Slot) (x : Ctx) (mx my : Mask) (dx ax dy ay : List Word32) (s' : State),
    Issued s x → Unwatched x → usesQueue x.f = false → pairOk sx sy = true →
    SlotRead x false sx mx dx ax → SlotRead x true sy my dy ay →
    (pairedOut sx sy s x.w x.p x.b).2 = Out.step s' →
    ∃ t, exec (.paired stl sx sy) s = .next t ∧ Ended x t ∧
      (∃ w, getWeft t x.c.w = some w ∧ SlotDone x w false sx mx dx ax ∧ SlotDone x w true sy my dy ay) ∧
      Kept x t [.v sx.d.val, .v sy.d.val, .lat false, .lat true] fun w =>
        orFpst w ((if mx = 0 then Flags.none else slotFlags sx mx dx ax).or
          (if my = 0 then Flags.none else slotFlags sy my dy ay))

/-- R180 to R185: branches, calls, returns and loops complete with every lane at its target (BRA: the active lanes, the
others at the next word), a division recorded where the lanes part, the return address or the counter in D, and
nothing else changed. The model's own choices in it: log entry 76. -/
def Obligations.ControlTransfers : Prop :=
  (∀ s f x off, Runs s .bra f .lanes x → Unwatched x → rd1 x .a false = .ok off → GoodTarget (relative x off) →
    Transfers (.bra f) x (fun l => if x.act.getLsbD l then relative x off else nextPc x)
      (fun k l => x.act.getLsbD k == x.act.getLsbD l) (recPoint x) [] id fun _ => True) ∧
  (∀ s f x vs, Runs s .brx f .once x → Unwatched x → rd x .a true = .ok vs →
    (∀ l ∈ lanesOf x.b.mask, GoodTarget (vs.getD l 0)) →
    TransfersTo (.brx f) x (fun l => vs.getD l 0) (recPoint x) [] id fun _ => True) ∧
  (∀ s f x vs, Runs s .ret f .once x → Unwatched x → rd x .a true = .ok vs →
    (∀ l ∈ lanesOf x.b.mask, GoodTarget (vs.getD l 0)) →
    TransfersTo (.ret f) x (fun l => vs.getD l 0) none [] id fun _ => True) ∧
  (∀ s f x off, Runs s .call f .once x → Unwatched x → rd1 x .a false = .ok off → GoodTarget (relative x off) →
    CanWrite x none true (splat (nextPc x)) id →
    TransfersTo (.call f) x (fun _ => relative x off) none (dstRegs x true) (specD x (splat (nextPc x)))
      fun t => InD x t true (splat (nextPc x))) ∧
  (∀ s f x vs, Runs s .callx f .once x → Unwatched x → rd x .a true = .ok vs →
    (∀ l ∈ lanesOf x.b.mask, GoodTarget (vs.getD l 0)) → CanWrite x none true (splat (nextPc x)) id →
    TransfersTo (.callx f) x (fun l => vs.getD l 0) (some (nextPc x)) (dstRegs x true) (specD x (splat (nextPc x)))
      fun t => InD x t true (splat (nextPc x))) ∧
  (∀ s f x off vs, Runs s .loop f .once x → Unwatched x → readVals x .a f.d false x.act = .ok vs → rd1 x .a false = .ok off →
    let n : Word32 := (vs.getD 0 0).setWidth 32 - 1
    (n ≠ 0 → GoodTarget (relative x off)) → CanWrite x none false (splat (n.setWidth 64)) id →
    TransfersTo (.loop f) x (fun _ => if n = 0 then nextPc x else relative x off) none (dstRegs x false)
      (specD x (splat (n.setWidth 64))) fun t => InD x t false (splat (n.setWidth 64)))

/-- R73, R181, R186, R187, R189, R190: EXIT ends the active threads: they stand in no sub-weft any more, the other threads
of the sub-weft go on at the next word, and a weft whose threads have all ended is gone. NOP only advances; YIELD
advances, and leaves the court where another weft of its quarter is ready on the bench; SPLIT parts its lanes by the
bits of A, both parts at the next word; JOIN in a weft of one sub-weft advances and closes every division. -/
def Obligations.SchedulingWords : Prop :=
  (∀ s f x, Runs s .exit f .lanes x → Unwatched x → Releases x 2 →
    ∃ t, exec (.exit f) s = .next t ∧ t.cur = none ∧
      ((∃ b ∈ x.w.subs, b.mask &&& x.b.mask = 0 ∧ b.mask ≠ 0) ∨ x.act ≠ x.b.mask →
        ∃ w, getWeft t x.c.w = some w ∧ (∀ l ∈ lanesOf x.act, subAt w l = none) ∧
          ∀ l ∈ lanesOf (x.b.mask &&& ~~~x.act), LaneAt w l (nextPc x) (x.b.mask &&& ~~~x.act)) ∧
      (x.act = x.b.mask → (∀ b ∈ x.w.subs, b.mask &&& x.b.mask ≠ 0) → getWeft t x.c.w = none)) ∧
  (∀ s f x, Runs s .nop f .lanes x → Unwatched x → ∃ t, exec (.nop f) s = .next t ∧ Ended x t ∧ Kept x t [] id) ∧
  (∀ s f x, Runs s .yieldWord f .once x → Unwatched x → ∃ t, exec (.yieldWord f) s = .next t ∧ Ended x t ∧
    Kept x t [] fun w => if (readyBench s x.w.id.core x.w.quarter).isEmpty then w else { w with onCourt := false }) ∧
  (∀ s f x v, Runs s .split f .once x → Unwatched x → rd1 x .a false = .ok v →
    Transfers (.split f) x (fun _ => nextPc x) (fun k l => v.getLsbD k == v.getLsbD l) none [] id fun _ => True) ∧
  (∀ s f x, Runs s .join f .once x → Unwatched x → x.w.subs.length ≤ 1 → ∃ t, exec (.join f) s = .next t ∧ Ended x t ∧
    (∃ w, getWeft t x.c.w = some w ∧ w.divs = []) ∧ Kept x t [] id)

/-- R66, R67, R188: a REFORM that may not file clears its predicate and goes on; one that files takes its active threads
from the weft into a bin of its core for the next word, its panel and its role. The model's own choices in it: log
entry 53. -/
def Obligations.Reforms : Prop :=
  (∀ s f x, Runs s .reform f .once x → Unwatched x → reformRefused x.w x.p = true →
    ∃ t, exec (.reform f) s = .next t ∧ Ended x t ∧ (∃ w, getWeft t x.c.w = some w ∧
      (predNum f.d ≠ 7 → predBits w (predNum f.d) = predBits x.w (predNum f.d) &&& ~~~x.act)) ∧
      Kept x t [.p (predNum f.d)] id) ∧
  (∀ s f x, Runs s .reform f .once x → Unwatched x → reformRefused x.w x.p = false → (getCore s x.w.id.core).bins = [] →
    (∀ l ∈ s.landings, l.w ≠ x.w.id) → (∃ b ∈ x.w.subs, b.mask ≠ 0 ∧ b.mask &&& x.b.mask = 0) → countLanes x.act < 16 →
    ∃ t, exec (.reform f) s = .next t ∧ t.cur = none ∧ (∃ w, getWeft t x.c.w = some w ∧ ∀ l ∈ lanesOf x.act, subAt w l = none) ∧
      ∃ b, (getCore t x.w.id.core).bins = [b] ∧ b.key = x.w.key ∧ b.pc = nextPc x ∧ b.role = x.w.role ∧
        b.threads.map (·.tid) = (lanesOf x.act).map fun l => nth x.w.tids l 0)

/-- R95 to R98, R225: LDS completes with the bytes at its offsets in D where their lines are present, STS stores the low
bytes of C there where no tile is engine-owned and no symbolic LDS of the weft waits for them, in ascending lane
order, and nothing else changes. -/
def Obligations.ScratchpadAccesses : Prop :=
  (∀ s f x a b, Runs s .lds f .auto x → Unwatched x → rd x .a false = .ok a → rd x .b false = .ok b →
    symSlot x (bitOf (modByte f.c) 0) = none →
    let n := memBytes f.mod.toNat
    let at_ := padAt x n a b
    (∀ l ∈ accLanes x, padAbsent x.p (at_ l).1 (at_ l).2 = false) →
    let vs := spread x (loaded f.mod.toNat) ((accLanes x).map fun l => (l, padNum x.p (at_ l).1 (at_ l).2 n))
    CanWrite x none (n = 8) vs id → Completes (.lds f) x x (n = 8) vs id) ∧
  (∀ s f x a b c, Runs s .sts f .auto x → Unwatched x → rd x .a false = .ok a → rd x .b false = .ok b →
    let n := memBytes f.mod.toNat
    let at_ := padAt x n a b
    rd x .c (n = 8) = .ok c → (∀ l ∈ accLanes x, padOwned x.p (at_ l).1 (at_ l).2 = false) →
    (∀ l ∈ accLanes x, padPends s x.w x.p (at_ l).1 (at_ l).2 n = false) →
    EndsWith (.sts f) x ((accLanes x).foldl
      (fun t l => padWrite t x.w.key (at_ l).1 (at_ l).2 (toBytes n (c.getD l 0).toNat)) s))

/-- R219, R220, R223, R224, R226 to R228, R310: loads that pass their checks and reach their homes complete, the bytes
that their agents see on their way to D (one reply for each register of a tile, one for each line under `.split`); an
LDT.aon reads the bytes that stand there under an even version. The model's own choices in it: log entries 8, 29, 67
and 74. -/
def Obligations.Loads : Prop :=
  (∀ s f x vas accs, Runs s .ld f .auto x → Unwatched x → laneAddrs x = .ok vas →
    symSlot x (bitOf (modByte f.c) 0) = none →
    let n := memBytes f.mod.toNat
    let split := bitOf (modByte f.c) 1
    checkAll x .read 0 n vas = .ok accs → Reach x accs → Clean x accs n →
    let vals := spread x (loaded f.mod.toNat) (accs.map (reads x (accAgent x) n))
    CanLand x (n = 8) split accs vals → Accesses (.ld f) x s.mem (replies x (n = 8) split accs vals)) ∧
  (∀ s f x accs, Runs s .ldp f .lanes x → Unwatched x →
    let wide := bitOf f.mod.toNat 0
    privAccs x .read wide = .ok accs → Reach x accs → Clean x accs 4 →
    let part (i l : Nat) : Nat :=
      match ((accs.drop (i * countLanes x.act)).take (countLanes x.act)).find? fun a => a.lane == l with
      | some a => (reads x (agentAt x.w false) 4 a).2
      | none => 0
    let vals := lanes16.map fun l => BitVec.ofNat 64 (part 0 l + part 1 l * 2 ^ 32)
    CanLand x wide false accs vals → Accesses (.ldp f) x s.mem (replies x wide false accs vals)) ∧
  (∀ s f x base accs, Runs s .ldt f .lanes x → Unwatched x → rd1 x .a true = .ok base →
    let n := (tile f f.d).1
    let k := (tile f f.d).2
    checkTile x .read base.toNat n = .ok accs → Reach x (tileWords accs n) → Clean x (tileWords accs n) 4 →
    dstFree x (.lat false :: (List.range n).map fun j => .v (k + j)) = .ok () →
    cutSym x.w ((List.range n).map fun j => k + j) x.act = .ok () →
    let acc (j l : Nat) : LaneAcc := match accs.find? fun a => a.lane == l with
      | some a => ⟨l, a.va + 64 * j, a.pa + 64 * j, a.leaf⟩
      | none => ⟨l, 0, 0, 0⟩
    let plain (j l : Nat) : Nat := (reads x (agentAt x.w false) 4 (acc j l)).2
    let fresh (j l : Nat) : Nat := mnum s.mem (home x (acc j l)) 4
    let fits (word : Nat → Nat → Nat) : Prop :=
      chargeAll { s with landings := s.landings ++ tileReplies x k n word 0 } x.w ≤ max (chargeAll s x.w) (lineBudget x.p x.w)
    (bitOf f.mod.toNat 2 = false → fits plain → Accesses (.ldt f) x s.mem (tileReplies x k n plain)) ∧
    (∀ ver va, bitOf f.mod.toNat 2 = true → rd1 x .b true = .ok ver → checkVersion x .read base.toNat n ver.toNat = .ok va →
      Reach x [va] → Clean x [va] 4 → mnum s.mem (home x va) 8 % 2 = 0 → fits fresh →
      Accesses (.ldt f) x s.mem (tileReplies x k n fresh)))

/-- R219, R220, R224, R226 to R228, R353: stores that pass their checks and reach their homes complete, and change exactly
the bytes stored, lane after lane; STT.aon raises its version by 2 besides; the first store through a page sets D of
its leaf entry. The model's own choices in it: log entries 8 and 31. -/
def Obligations.Stores : Prop :=
  (∀ s f x vas vs accs, Runs s .st f .auto x → Unwatched x → laneAddrs x = .ok vas →
    let n := memBytes f.mod.toNat
    let bytes (a : LaneAcc) : List Byte := toBytes n (vs.getD a.lane 0).toNat
    rd x .c (n = 8) = .ok vs → checkAll x .write 0 n vas = .ok accs → Reach x accs →
    (Written x accs → Accesses (.st f) x (stored x s.mem (accs.map fun a => (a, bytes a))) fun _ => []) ∧
    (∀ a e, accs = [a] → tlbFind s x.p.asid x.w.key.part a.va = some e → bitOf e.leaf 15 = false →
      dupOf s (a.pa / 4096) = none →
      (orderedPart s x.w.key.part = true → heldWrites s (fun g => g == accAgent x a.lane) = false) →
      ∃ t, exec (.st f) s = .next t ∧ Ended x t ∧
        t.mem = mwrite (mwrite s.mem e.leafPa (toBytes 8 (mnum s.mem e.leafPa 8 ||| 2 ^ 15))) (home x a) (bytes a))) ∧
  (∀ s f x vs accs, Runs s .stp f .lanes x → Unwatched x →
    let wide := bitOf f.mod.toNat 0
    rd x .b wide = .ok vs → privAccs x .write wide = .ok accs → Reach x accs → Written x accs →
    let c := countLanes x.act
    let word (high : Bool) (a : LaneAcc) : LaneAcc × List Byte :=
      (a, toBytes 4 ((vs.getD a.lane 0).toNat / (if high then 2 ^ 32 else 1)))
    Accesses (.stp f) x (stored x s.mem ((accs.take c).map (word false) ++ (accs.drop c).map (word true))) fun _ => []) ∧
  (∀ s f x base vals accs, Runs s .stt f .lanes x → Unwatched x → rd1 x .a true = .ok base →
    let n := (tile f f.c).1
    let k := (tile f f.c).2
    tileVals x k n = .ok vals → checkTile x .write base.toNat n = .ok accs →
    Reach x (tileWords accs n) → Written x (tileWords accs n) →
    let ws := (List.range n).flatMap fun j => accs.map fun a =>
      ((⟨a.lane, a.va + 64 * j, a.pa + 64 * j, a.leaf⟩ : LaneAcc), toBytes 4 ((vals.getD j []).getD a.lane 0).toNat)
    let m := stored x s.mem ws
    (bitOf f.mod.toNat 2 = false → Accesses (.stt f) x m fun _ => []) ∧
    (∀ ver va, bitOf f.mod.toNat 2 = true → rd1 x .b true = .ok ver → checkVersion x .write base.toNat n ver.toNat = .ok va →
      Reach x [va] → Written x [va] →
      Accesses (.stt f) x (mwrite m (home x va) (toBytes 8 (mnum m (home x va) 8 + 2))) fun _ => []))

/-- R106, R229, R372: PRF completes and changes neither a register nor a byte; CCTL completes with no byte changed, the
lines' dirty copies clean (`.wb`), the core's copies gone and their dirty bytes in the LLC (`.inv`), or both copies
gone (`.flush`); CCTL.ic discards what the core's instruction cache holds of a peer's lines. The model's own choices
in it: log entries 8, 44 and 48. -/
def Obligations.PrefetchAndCacheControl : Prop :=
  (∀ s f x vas, Runs s .prf f .auto x → Unwatched x → laneAddrs x = .ok vas →
    (∀ e ∈ vas, 2 ^ 57 ≤ e.2 ∨ (tlbFind s x.p.asid x.w.key.part e.2).isSome) → (∀ w ∈ s.wefts, w.region = none) →
    Accesses (.prf f) x s.mem fun _ => []) ∧
  (∀ s f x vas, Runs s .cctlIc f .auto x → Unwatched x → laneAddrs x = .ok vas →
    (∀ e ∈ vas.filterMap fun e => tagLine s x e.2, lineServes s e.1 e.2 = true) →
    let tags := [x.p.asid, 65536 + partNum x.w.key]
    EndsWith (.cctlIc f) x { s with
      fetches := s.fetches.filter fun y => !(y.done && (tags.any fun t => y.who == .code x.w.id.core t) &&
        vas.any fun e => y.va / 128 == e.2 / 128) }) ∧
  ∀ s f x vas (m : Mnem) (i : Fields → Instr), Runs s m f .auto x → Unwatched x → laneAddrs x = .ok vas →
    (m = .cctlWb ∧ i = .cctlWb ∨ m = .cctlInv ∧ i = .cctlInv ∨ m = .cctlFlush ∧ i = .cctlFlush) →
    (∀ w ∈ s.wefts, w.region = none) →
    let ls := vas.filterMap fun e => tagLine s x e.2
    (∀ e ∈ ls, lineServes s e.1 e.2 = true ∧ Plain (getLine s e.1) ∧
      ∀ c ∈ (getLine s e.1).l1, c.2 = .p → ∃ k ∈ (getLine s e.1).masks, k.1 = c.1) →
    ∃ t, exec (i f) s = .next t ∧ Ended x t ∧ t.mem = s.mem ∧ (getWeft t x.c.w).map tidy = some (tidy x.w) ∧
      (∀ k, k ≠ x.c.w → getWeft t k = getWeft s k) ∧ beside t = beside s ∧
      ∀ e ∈ ls,
        let old := tgetD (getLine s e.1).l1 x.w.id.core CState.i
        let new := tgetD (getLine t e.1).l1 x.w.id.core CState.i
        let llc := (getLine t e.1).llc
        match m with
        | .cctlWb => new ≠ .m ∧ new ≠ .o ∧ (old = .i ↔ new = .i) ∧ llc ≠ .m ∧ llc ≠ .o
        | .cctlInv => new = .i ∧
          (old = .m → (s.lines.filter fun r => r.llc != .i).length + vas.length ≤ 32768 → llc = .m)
        | _ => new = .i ∧ llc = .i

/-- R20, R218, R230 to R235: ATOM, CAS and RED that pass their checks and reach their homes complete with their queue
sources taken: the lanes act one after another on the bytes that stand there, ATOM and CAS return the old values, RED
none; an add of RED may also wait in a router to be merged; an add on a shadowed format adds to the shadow and a
`.det` one joins the gather of its line, with no byte changed. The model's own choices in it: log entry 9. -/
def Obligations.Atomics : Prop :=
  (∀ s f x y vas bs accs, Runs s .atom f .auto x → Unwatched x → popSources x = .ok y → wholeAddrs y = .ok vas →
    let op := modByte f.c % 16
    let n := atomBytes y
    rd y .b (n = 8) = .ok bs → symSlot y (bitOf (modByte f.c) 7) = none → x.w.lose = none → (∀ l, x.b.hold ≠ .remoteDone l) →
    (∀ g, addFmt y = some g → shadowed g = false) → checkAll y .write (modByte f.c / 16 % 8) n vas = .ok accs →
    Reach y accs → Clean y accs n → Written y accs →
    let r := inTurn y n (fun a old => applied op f.mod.toNat n old ((bs.getD a.lane 0).toNat % 2 ^ (8 * n))) accs
    (f.d ≠ .zero → ∀ id, replyOk y s f.d (n = 8) (oldValues y n accs r.2 id) = .ok ()) →
    AccessesFrom (.atom f) x (commitPops y s) r.1 (oldValues y n accs r.2)) ∧
  (∀ s f x y vas bs cs accs, Runs s .cas f .auto x → Unwatched x → popSources x = .ok y → wholeAddrs y = .ok vas →
    let wide := bitOf f.mod.toNat 0
    let n := if wide then 8 else 4
    rd y .b wide = .ok bs → rd y .c wide = .ok cs → x.w.lose = none → (∀ l, x.b.hold ≠ .remoteDone l) →
    checkAll y .write (f.mod.toNat / 2) n vas = .ok accs → Reach y accs → Clean y accs n → Written y accs →
    let val (vs : List Word64) (a : LaneAcc) : Nat := (vs.getD a.lane 0).toNat % 2 ^ (8 * n)
    let r := inTurn y n (fun a old => if old = val bs a then val cs a else old) accs
    (f.d ≠ .zero → ∀ id, replyOk y s f.d wide (oldValues y n accs r.2 id) = .ok ()) →
    AccessesFrom (.cas f) x (commitPops y s) r.1 (oldValues y n accs r.2)) ∧
  (∀ s f x y vas bs accs, Runs s .red f .auto x → Unwatched x → popSources x = .ok y → wholeAddrs y = .ok vas →
    let m := modByte f.c
    let n := atomBytes y
    let val (a : LaneAcc) : Nat := (bs.getD a.lane 0).toNat % 2 ^ (8 * n)
    let turns (l : List LaneAcc) : List Host.Cell := (inTurn y n (fun a old => applied (m % 16) f.mod.toNat n old (val a)) l).1
    rd y .b (n = 8) = .ok bs → x.w.lose = none → checkAll y .write (m / 16 % 8) n vas = .ok accs → Reach y accs →
    Written y accs →
    (addFmt y = none → AccessesFrom (.red f) x (commitPops y s) (turns accs) fun _ => []) ∧
    (∀ g, addFmt y = some g → shadowed g = false → bitOf m 7 = false → (accs.map (home y)).Nodup → MemOk s →
      ∃ (now : LaneAcc → Bool) (k : List Host.Cell), AccessesFrom (.red f) x (commitPops y s) k (fun _ => []) ∧
        (∀ p, mget k p = mget (turns (accs.filter now)) p) ∧ ∀ t, exec (.red f) s = .next t → ∀ a ∈ accs, now a = false →
          ∃ c ∈ (getLine t (lineOf (home y a))).pend, c.pa = home y a ∧ c.fmt = g ∧ c.code = val a) ∧
    (∀ a g, accs = [a] → addFmt y = some g → leafCC a.leaf ≠ 0 → (∀ r ∈ s.lines, Plain r) →
      (bitOf m 7 = true → ∃ t o, exec (.red f) s = .next t ∧ Ended x t ∧ t.mem = s.mem ∧
        (getLine t (lineOf (home y a))).gather = [⟨home y a, g, x.w.id.core, x.w.num, if x.scalar then 16 else a.lane,
          partNum x.w.key, x.w.key.num.toNat, o, val a⟩]) ∧
      (bitOf m 7 = false → shadowed g = true → ∃ t, exec (.red f) s = .next t ∧ Ended x t ∧ t.mem = s.mem ∧
        let r := getLine t (lineOf (home y a))
        (r.shadows = [addShadow (loadShadow s (home y a) g)
          (if g = .bf16 then 0 else fixOf g (val a)) (if g = .bf16 then exactCode .f32 (decodeF .bf16 (val a)) else 0)] ∨
        g = .bf16 ∧ r.shadows = [] ∧ r.pend = [⟨home y a, g, val a, false, partNum x.w.key⟩]))))

/-- R236 to R238, R306, R310: PHASE completes with its release and then its acquire; BARI sets EXPECT; BARA arrives with
its active threads and gives GEN before; BARW completes where its arrival completes the barrier, or once GEN has
changed, with an acquire; BARW.nar where GEN is not B. The model's own choices in it: log entries 8 and 52. -/
def Obligations.PhasesAndBarriers : Prop :=
  (∀ s f x, Runs s .phase f .lanes x → Unwatched x →
    let rel := bitOf f.mod.toNat 0
    let acq := bitOf f.mod.toNat 1
    (rel = true → Releases x (modByte f.c)) →
    let s1 := if rel then released x (modByte f.c) s else s
    EndsWith (.phase f) x (if acq then acquired x s1 else s1)) ∧
  (∀ s f x b n, Runs s .bari f .once x → Unwatched x → num1 x .a = .ok b → num1 x .b = .ok n → b ≤ 15 → 1 ≤ n → n ≤ 16384 →
    EndsWith (.bari f) x (barrierSet x s b n (getBarrier x.p b).arrived (getBarrier x.p b).gen)) ∧
  (∀ s f x b, Runs s .bara f (if isScalarD f then .once else .lanes) x → Unwatched x → num1 x .a = .ok b → b ≤ 15 →
    let v := getBarrier x.p b
    let s1 := barrierSet x s b v.expect (v.arrived + countLanes x.act) v.gen
    (f.d = .zero → EndsWith (.bara f) x s1) ∧
    (f.d ≠ .zero → CanWrite x none false (splat (v.gen.setWidth 64)) id →
      ResultIn (.bara f) x s1 false (splat (v.gen.setWidth 64)) [] id fun _ => True)) ∧
  (∀ s f x b, Runs s .barw f .lanes x → Unwatched x → num1 x .a = .ok b → b ≤ 15 →
    let v := getBarrier x.p b
    (∀ k g, x.b.hold = .barrier k g → g ≠ v.gen → EndsWith (.barw f) x (acquired x s)) ∧
    ((∀ k g, x.b.hold ≠ .barrier k g) → Releases x 2 → v.expect ≤ v.arrived + countLanes x.act →
      EndsWith (.barw f) x (acquired x (barrierSet x (released x 2 s) b v.expect (v.arrived + countLanes x.act) v.gen)))) ∧
  (∀ s f x b g, Runs s .barwNar f .lanes x → Unwatched x → num1 x .a = .ok b → b ≤ 15 → num1 x .b = .ok g →
    (getBarrier x.p b).gen.toNat ≠ g → EndsWith (.barwNar f) x (acquired x s))

/-- R245: ARABORT aborts the open region with CAUSE 4, A[7:0] in UCODE; ARBND raises `$rlo` or lowers `$rhi`, and an
emptied interval aborts with CAUSE 1; without a region neither has an effect. ARBND `.hi` in a serial region, whose
`$rhi` R248 keeps at the top, is in RegionCommits. -/
def Obligations.RegionInstructions : Prop :=
  (∀ s f x c, Runs s .arabort f .once x → Unwatched x → num1 x .a = .ok c →
    (x.w.region = none → EndsWith (.arabort f) x s) ∧
    (∀ r, x.w.region = some r → Aborts (.arabort f) x r 4 ∧ ∀ t w, exec (.arabort f) s = .next t → getWeft t x.c.w = some w →
      field w.rstat.toNat 31 24 = c % 256)) ∧
  (∀ s f x a, Runs s .arbnd f .once x → Unwatched x → rd1 x .a true = .ok a →
    (x.w.region = none → EndsWith (.arbnd f) x s) ∧
    (∀ r, x.w.region = some r → (bitOf f.mod.toNat 0 = true → r.serial = false) →
      let lo := if bitOf f.mod.toNat 0 = false ∧ x.w.rlo < a then a else x.w.rlo
      let hi := if bitOf f.mod.toNat 0 = true ∧ a < x.w.rhi then a else x.w.rhi
      (lo ≤ hi → EndsWith (.arbnd f) x (updWeft s x.c.w fun w => { w with rlo := lo, rhi := hi })) ∧
      (hi < lo → Aborts (.arbnd f) x r 1)))

/-- R239 to R244, R247, R248, R310: ARBEGIN opens a region with its domain's floor and the top as bounds, in serial mode
after 16 aborts; inside one it aborts that one with CAUSE 7. ARBND `.hi` leaves a serial region's bounds as they are.
AREND without a region has no effect; with one that depends on no other it commits: memory holds the buffered bytes
and no other byte changes, `$rhi` is the position, CAUSE, OPEN and NABORT are 0, and the domain's floor lies above the
position. The model's own choices in it: log entry 34. -/
def Obligations.RegionCommits : Prop :=
  (∀ s f x off, Runs s .arbegin f .once x → Unwatched x → rd1 x .a false = .ok off → Joined x →
    let part := partNum x.w.key
    let dom := modByte f.c % 16
    let d := getDom s part dom
    let r (serial : Bool) : Region := ⟨bitOf f.mod.toNat 0, serial, dom, modByte f.c / 16, relative x off, [], [], [], [], [], s.nextId⟩
    let open_ (t : State) (serial : Bool) : State := updWeft { t with nextId := s.nextId + 1 } x.c.w fun w =>
      { w with rlo := BitVec.ofNat 64 d.floor, rhi := BitVec.allOnes 64, region := some (r serial),
               rstat := BitVec.ofNat 32 (setField (setField w.rstat.toNat 5 5 1) 6 6 (if serial then 1 else 0)) }
    (x.w.region = none → field x.w.rstat.toNat 12 8 < 16 → EndsWith (.arbegin f) x (open_ s false)) ∧
    (x.w.region = none → field x.w.rstat.toNat 12 8 ≥ 16 → x.b.hold ≠ .serialGo → x.b.hold ≠ .serialWait → d.slot = none →
      (∀ w ∈ s.wefts, ∀ b ∈ w.subs, b.hold ≠ .serialWait) →
      EndsWith (.arbegin f) x (open_ (setDom s part dom { d with slot := some x.c.w }) true)) ∧
    (∀ q, x.w.region = some q → Aborts (.arbegin f) x q 7)) ∧
  (∀ s f x a r, Runs s .arbnd f .once x → Unwatched x → rd1 x .a true = .ok a → x.w.region = some r → r.serial = true →
    bitOf f.mod.toNat 0 = true → x.w.rlo ≤ x.w.rhi →
    EndsWith (.arbnd f) x (updWeft s x.c.w fun w => { w with rlo := x.w.rlo, rhi := x.w.rhi })) ∧
  ∀ s f x, Runs s .arend f .once x → Unwatched x → Joined x →
    (x.w.region = none → EndsWith (.arend f) x s) ∧
    ∀ r p, x.w.region = some r → Releases x 0 → commitReady s r = true → r.versions = [] → MemOk s →
      getPart s (partNum x.w.key) = some p → x.w.rlo ≠ BitVec.allOnes 64 →
      (∀ c ∈ r.buf, tierOf (redirect s c.1) ≠ 3 ∧ dupOf s (c.1 / 4096) = none) → (∀ l ∈ r.writes, Plain (getLine s l)) →
      ∃ t w, exec (.arend f) s = .next t ∧ Ended x t ∧ getWeft t x.c.w = some w ∧ w.region = none ∧ Rstat w 0 0 0 ∧
        w.rlo = x.w.rlo ∧ w.rhi = x.w.rlo ∧ (∀ q, regNow w q = regNow x.w q) ∧
        (getDom t (partNum x.w.key) r.dom).floor = max (getDom s (partNum x.w.key) r.dom).floor (x.w.rlo.toNat + 1) ∧
        ∀ a, mget t.mem a = committed r s.mem a

/-- R249 to R252, R357, R361: PIN, UNPIN and HINT complete with the pin counts and the requests of moves that they name;
MSEND completes with its message at the message engine, and MPOST with its buffer at the end of the endpoint's list.
The model's own choices in it: log entries 50 and 65. -/
def Obligations.PlacementAndMessages : Prop :=
  (∀ s f x ps, Runs s .pin f .once x → Unwatched x → pagesFor x false = .ok ps →
    let tier := f.mod.toNat % 4
    (tier ≠ 0 → moveForbidden s ps tier = none) →
    let s1 := if tier = 0 then s else (ps.filter fun p => p.tier != tier).foldl (fun t p => askMove t (movePart x) p tier 3 false) s
    EndsWith (.pin f) x (ps.foldl (fun t p => updPage t p.frame fun r => { r with pins := min 65535 (r.pins + 1) }) s1)) ∧
  (∀ s f x ps, Runs s .unpin f .once x → Unwatched x → pagesFor x false = .ok ps →
    EndsWith (.unpin f) x (ps.foldl (fun t p => updPage t p.frame fun r => { r with pins := r.pins - 1 }) s)) ∧
  (∀ s f x ps, Runs s .hint f .once x → Unwatched x → pagesFor x true = .ok ps →
    let kind := f.mod.toNat % 4
    (kind = 3 → (∀ p ∈ ps, leafW p.e.leaf = false) → EndsWith (.hint f) x
      ((ps.filter fun p => trackedPage p.e && p.tier == 1).foldl (fun t p => askMove t (movePart x) p 1 4 true) s)) ∧
    (kind ≠ 3 → moveForbidden s ps (kind + 1) = none → EndsWith (.hint f) x
      ((ps.filter fun p => p.tier != kind + 1).foldl (fun t p => askMove t (movePart x) p (kind + 1) 2 false) s))) ∧
  (∀ s f x cq va d s1 len dst src, Runs s .msend f .once x → Unwatched x → cqOf x = .ok cq → rd1 x .a true = .ok va →
    readDesc x va.toNat 32 32 = .ok (d, s1) → sendDesc d = some (len, dst, src) →
    EndsWith (.msend f) x { s1 with
      nextId := s1.nextId + 1
      msgs := s1.msgs ++ [⟨s1.nextId, x.w.key, cq, va.toNat, src, len, dst, x.p.asid, none, 0, 0, false, x.w.id.core,
        decide (x.w.level = 0), uncounted x⟩] }) ∧
  (∀ s f x cq va ep d s1 n p, Runs s .mpost f .once x → Unwatched x → cqOf x = .ok cq → rd1 x .a true = .ok va →
    num1 x .b = .ok ep → readDesc x va.toNat 32 32 = .ok (d, s1) → x.w.key.part = some n → getPart s1 n = some p →
    field d 255 96 = 0 → 1 ≤ field d 95 64 → field d 95 64 ≤ 2 ^ 20 → ep < p.desc.nep → (tgetD p.eps ep []).length < 4096 →
    let buf : PostedBuf := ⟨va.toNat, field d 63 0, field d 95 64, x.w.key, cq, x.p.asid⟩
    let s2 := updPart s1 n fun q => { q with eps := tset q.eps ep (tgetD p.eps ep [] ++ [buf]) }
    EndsWith (.mpost f) x { s2 with waiting := [] })

/-- R81, R177, R259 to R261: QBIND, QUNBIND, QSTAT and QCLOSE complete with the binding, its end, its word in D and the
closed channel. The model's own choices in it: log entries 27 and 70. -/
def Obligations.QueueBindings : Prop :=
  (∀ s f x obj, Runs s .qbind f .once x → Unwatched x → num1 x .a = .ok obj →
    let n := queueNum f.d
    let kind := f.mod.toNat % 8
    let chan := decide (kind = 4 ∨ kind = 5)
    objectOk x kind obj = true →
    let s1 := updWeft (unbind s x.c.w n) x.c.w fun w =>
      { w with binds := tset w.binds n ⟨kind, obj, if chan then modByte f.b else 0, false⟩ }
    let more (p : Panel) : Panel :=
      let c := getChan p obj
      { p with chans := tset p.chans obj { c with producers := c.producers + 1 } }
    EndsWith (.qbind f) x (if kind = 4 then updPanel s1 x.w.key more else s1)) ∧
  (∀ s f x b, Runs s .qunbind f .once x → Unwatched x → tget x.w.binds (queueNum f.d) = some b →
    EndsWith (.qunbind f) x (unbind s x.c.w (queueNum f.d))) ∧
  (∀ s f x, Runs s .qstat f .once x → Unwatched x →
    let vs := splat (BitVec.ofNat 64 (queueWord x (queueNum f.a)))
    CanWrite x none false vs id → Completes (.qstat f) x x false vs id) ∧
  (∀ s f x b, Runs s .qclose f .once x → Unwatched x → tget x.w.binds (queueNum f.a) = some b → b.kind = 4 →
    EndsWith (.qclose f) x (if (getChan x.p b.obj).closed then s else closeChan s x.w.key b.obj))

/-- R81, R176, R177, R260: MOV pops the first entry of a queue into D, pushes its source behind the last one, or does
both; a non-blocking one tells in its predicate whether it did, and else changes nothing but SEEN of a closed channel.
The model's own choices in it: log entry 27. -/
def Obligations.ChannelMoves : Prop :=
  ∀ s f x, Runs s .mov f .auto x → Unwatched x → f.mod.toNat < 10 →
    let wide := decide (f.mod.toNat % 2 = 1)
    let n := predNum f.c
    (∀ q nb b, queueOf f.a = some (q, nb) → queueOf f.d = none → tget x.w.binds q = some b → popFits f b = true →
      (∀ e, frontOf x b = some e → CanWrite x none wide (entryVals wide e) id →
        ResultIn (.mov f) x (dropFront x b s) wide (entryVals wide e) (if nb then [.p n] else []) id fun t =>
          t.panels = (dropFront x b s).panels ∧ (nb = true → n ≠ 7 → ∃ w, getWeft t x.c.w = some w ∧
            predBits w n = predAfter x (predBits x.w n) fun _ => true)) ∧
      (nb = true → frontOf x b = none → EndsWith (.mov f) x (predSet x n false
        (if closedQueue x b then updWeft s x.c.w (setSeen · q) else s)))) ∧
    (∀ q nb b e, queueOf f.a = none → queueOf f.d = some (q, nb) → tget x.w.binds q = some b → pushFits x b = true →
      movEntry x = .ok e →
      (canPush x b.obj = .ok () → EndsWith (.mov f) x
        (let s1 := pushEntry s x.w.key b.obj e; if nb then predSet x n true s1 else s1)) ∧
      (nb = true → canPush x b.obj ≠ .ok () → EndsWith (.mov f) x (predSet x n false s))) ∧
    (∀ qa qd nb k a d e, queueOf f.a = some (qa, nb) → queueOf f.d = some (qd, k) → tget x.w.binds qa = some a →
      tget x.w.binds qd = some d → a.kind = 5 → d.kind = 4 → a.fmt = d.fmt → a.fmt % 2 = f.mod.toNat % 2 →
      frontOf x a = some e → canPush x d.obj = .ok () → EndsWith (.mov f) x
        (let s1 := pushEntry (dropEntry s x.w.key a.obj 0) x.w.key d.obj e; if nb then predSet x n true s1 else s1))

/-- R99 to R101, R262, R264, R274, R278: SCRUM and its leave set `$scrum`; SWRES and SWREL set and release a swatch
record; OWNQ tells who owns a tile and whether it is present; SYMW passes with its slots free of what it waits for,
and SYMQ tells a slot's state, fault and registers. -/
def Obligations.ScrumsSwatchesAndSymbols : Prop :=
  (∀ s f x k first count, Runs s .scrum f .once x → Unwatched x → num1 x .a = .ok k → x.p.m.scrums[k]? = some (first, count) →
    first ≤ x.w.num → x.w.num < first + count → k ∉ x.p.broken → EndsWith (.scrum f) x (updWeft s x.c.w fun w =>
      { w with scrum := BitVec.ofNat 32 (2 ^ 20 + k * 2 ^ 16 + count % 16 * 2 ^ 10 + first % 1024) })) ∧
  (∀ s f x, Runs s .scrumLeave f .once x → Unwatched x →
    EndsWith (.scrumLeave f) x (updWeft s x.c.w fun w => { w with scrum := 0 })) ∧
  (∀ s f x n a b c d, Runs s .swres f .once x → Unwatched x → f.b = .s n → scalarAt x n.val = .ok a →
    scalarAt x (n.val + 1) = .ok b → scalarAt x (n.val + 2) = .ok c → scalarAt x (n.val + 3) = .ok d →
    let k := modByte f.a
    let r : BitVec 128 := BitVec.ofNat 128 (a + b * 2 ^ 32 + c * 2 ^ 64 + d * 2 ^ 96) ||| 1
    let u := swatchOf r
    swatchOk u = true → (∀ h ∈ heldRanges s x.c.w k (tget x.w.swatches k), u.base + u.len < h.1 ∨ h.1 + h.2 ≤ u.base) →
    EndsWith (.swres f) x (updWeft s x.c.w fun w => { w with swatches := tset w.swatches k r })) ∧
  (∀ s f x, Runs s .swrel f .once x → Unwatched x → EndsWith (.swrel f) x (updWeft s x.c.w fun w =>
    match tget w.swatches (modByte f.a) with
    | some r => { w with swatches := tset w.swatches (modByte f.a) (r &&& ~~~1) }
    | none => w)) ∧
  (∀ s f x off (m : Mnem) (i : Fields → Instr), Runs s m f .once x → Unwatched x → num1 x .a = .ok off →
    let (core, at_) := placeOff x.p off 1
    let absent := (panelCore x.p core).absent.any fun e => e.1 / 32 == at_ / 4096
    (m = .ownq ∧ i = .ownq ∨ m = .ownqW ∧ i = .ownqW ∧ padOwned x.p core at_ = false) →
    let vs := splat (BitVec.ofNat 64 ((if padOwned x.p core at_ then 1 else 0) + if absent then 0 else 2))
    CanWrite x none false vs id → Completes (i f) x x false vs id) ∧
  (∀ s f x k, Runs s .symw f .once x → Unwatched x → num1 x .a = .ok k → k ≤ 15 → slotState x.w k = 0 →
    EndsWith (.symw f) x s) ∧
  (∀ s f x, Runs s .symwAll f .once x → Unwatched x → (∀ e ∈ x.w.syms, e.2.state ≠ 1) → EndsWith (.symwAll f) x s) ∧
  (∀ s f x k, Runs s .symq f .once x → Unwatched x → num1 x .a = .ok k → k ≤ 15 →
    let vs := splat (BitVec.ofNat 64 (symWord x.w k))
    CanWrite x none false vs id → Completes (.symq f) x x false vs id)

/-- R41, R102, R254 to R258, R263, R266 to R269: the matrix instructions complete with their command accepted by the
matrix engine of their core; a member of a scrum that is not the last to arrive waits at the latch, the last one
completes with the operations of the lead members accepted and every member at its next word. -/
def Obligations.MatrixCommands : Prop :=
  (∀ s f x, Runs s .mma f .once x → Unwatched x → bitOf f.mod.toNat 0 = false → modByte f.c < x.p.m.acc →
    let op : MatOp := .mma (bitOf f.mod.toNat 1) (tgetD x.w.swatches (modByte f.a) 0) (tgetD x.w.swatches (modByte f.b) 0) (modByte f.c)
    matOk x.p.m.acc op = true → Accepted (.mma f) x s (matCommand x op)) ∧
  (∀ s f x g, Runs s .mmac f .once x → Unwatched x → bitOf f.mod.toNat 0 = false → modByte f.c < x.p.m.acc →
    num1 x .a = .ok g → field g 7 6 = 0 → field g 31 16 = 0 →
    let op : MatOp := .mmac (bitOf f.mod.toNat 1) (field g 5 0) (field g 15 8 + 1) (tgetD x.w.swatches (modByte f.b) 0) (modByte f.c)
    matOk x.p.m.acc op = true → Accepted (.mmac f) x s (matCommand x op)) ∧
  (∀ s f x t c, Runs s .aclr f .once x → Unwatched x → TilesAt x .a t c → Accepted (.aclr f) x s (matCommand x (.aclr t c))) ∧
  (∀ s f x t c off, Runs s .ald f .once x → Unwatched x → TilesAt x .b t c → num1 x .a = .ok off →
    Accepted (.ald f) x s (matCommand x (.ald (BitVec.ofNat 32 off) t c))) ∧
  (∀ s f x t c off, Runs s .ast f .once x → Unwatched x → TilesAt x .b t c → num1 x .a = .ok off →
    Accepted (.ast f) x s (matCommand x (.ast (BitVec.ofNat 32 off) t c))) ∧
  (∀ s f x cq va d s1, Runs s .adrain f .once x → Unwatched x → modByte f.c < x.p.m.acc → cqOf x = .ok cq →
    rd1 x .a true = .ok va → readDesc x va.toNat 32 32 = .ok (d, s1) → drainOk (drainOf d) (modByte f.c) x.p.m.acc = true →
    Accepted (.adrain f) x s1 (descCommand x .matrix va.toNat 32 d cq (some (.drain (modByte f.c))))) ∧
  ∀ s f x e (m : Mnem) (i : Fields → Instr) (mk : Ctx → R MatOp), Runs s m f .once x → Unwatched x →
    (m = .mma ∧ i = .mma ∧ mk = mmaOp ∨ m = .mmac ∧ i = .mmac ∧ mk = mmacOp) → bitOf f.mod.toNat 0 = true →
    (∀ c, x.b.hold ≠ .scrumFault c) → scrumOf x.w = some e → e ∉ x.p.broken →
    let latch := (x.p.latches.find? fun l => l.entry == e).getD ⟨e, x.c.pc, []⟩
    let ms := arrivedMembers x e
    let count := match x.p.m.scrums[e]? with | some t => t.2 | none => 0
    latch.pc = x.c.pc →
    ((addOnce latch.members x.w.num).length < count → ∃ t w b, exec (i f) s = .next t ∧ getWeft t x.c.w = some w ∧
      subAt w x.c.lane = some b ∧ b.pc = x.b.pc ∧ b.mask = x.b.mask ∧ b.park = some .scrum ∧ b.hold = .scrum e) ∧
    (∀ ops, ¬ (addOnce latch.members x.w.num).length < count → x.p.debug = [] →
      (∀ m ∈ ms, m.1.id ≠ x.c.w → getWeft s m.1.id = some m.1 ∧ subAt m.1 (lowest m.2.mask) = some m.2) →
      ((leadMembers ms).mapM fun m => (mk (memberCtx x m.1 m.2)).map fun op => (m.1, op)) = .ok ops →
      (∀ o ∈ ops, engineRoom s o.1.id.core .matrix = true) →
      ∃ t, exec (i f) s = .next t ∧ Ended x t ∧
        (∀ m ∈ ms, m.1.id ≠ x.c.w → ∃ w, getWeft t m.1.id = some w ∧
          subAt w (lowest m.2.mask) = some ⟨nextPc x, m.2.mask, none, .none⟩) ∧
        ∀ o ∈ ops, ∃ c ∈ engineCmds t o.1.id.core .matrix, c.mat = some o.2 ∧ c.num = o.1.num ∧ c.key = o.1.key)

/-- R255 to R258, R271 to R273, R345: CPY, GATH and COLL complete with their descriptor accepted by the engine of their
command queue. -/
def Obligations.DescriptorCommands : Prop :=
  (∀ s f x cq va d s1, Runs s .cpy f .once x → Unwatched x → cqOf x = .ok cq → commandQueue x 0 = .ok () →
    rd1 x .a true = .ok va → readDesc x va.toNat 256 64 = .ok (d, s1) → copyOk (copyOf d) = true → copyHeld x (copyOf d) = true →
    Accepted (.cpy f) x s1 (descCommand x .copy va.toNat 256 d cq none)) ∧
  (∀ s f x cq va d s1, Runs s .gath f .once x → Unwatched x → cqOf x = .ok cq → commandQueue x 1 = .ok () →
    rd1 x .a true = .ok va → readDesc x va.toNat 64 64 = .ok (d, s1) → gathOk (gathOf d) = true → gathHeld x (gathOf d) = true →
    Accepted (.gath f) x s1 (descCommand x .gather va.toNat 64 d cq none)) ∧
  (∀ s f x cq va d s1, Runs s .coll f .once x → Unwatched x → cqOf x = .ok cq → commandQueue x 2 = .ok () →
    rd1 x .a true = .ok va → readDesc x va.toNat 32 32 = .ok (d, s1) → collOk (collOf d) x.p.cores.length = true →
    Accepted (.coll f) x s1 (descCommand x .coll va.toNat 32 d cq none))

/-- R54 to R62, R275 to R277: a dequeue completes with ARG in D, `$task`, `$index` and the priority of the oldest record
of the highest level, and an acquire; `.nb` tells in its predicate; `.panel` gives it to every weft of the panel. TENQ
places a ready record, TDONE counts an index off its completion, TARM adds to DEP, at a peer by a compare-and-swap
there. The model's own choices in it: log entries 51 and 61. -/
def Obligations.TaskQueues : Prop :=
  (∀ s part q asid agent r s1, takeRec s part q asid agent = some (r, s1) → ∃ p rq, getPart s part = some p ∧
    tget p.queues q = some rq ∧ r ∈ rq.recs ∧ (∀ y ∈ rq.recs, y.level ≤ r.level) ∧
    (rq.recs.filter fun y => y.level = r.level).head? = some r) ∧
  (∀ s f x part q r s1, Runs s .tdeq f .once x → Unwatched x → readyQueue x = .ok (part, q) → deqFirst x part q false = true →
    takeRec s part q x.p.asid x.w.id.core = some (r, s1) →
    let s2 := leaveLine x s1 part q false
    CanWriteIn x s2 true (splat r.arg) (takeTask r) →
    ResultIn (.tdeq f) x (acquired x s2) true (splat r.arg) [] (takeTask r) fun _ => True) ∧
  (∀ s f x part q, Runs s .tdeqNb f .once x → Unwatched x → readyQueue x = .ok (part, q) →
    let n := predNum f.c
    let got := takeRec s part q x.p.asid x.w.id.core
    (deqLine s part q ≠ [] ∨ got = none → EndsWith (.tdeqNb f) x (predSet x n false s)) ∧
    (∀ r s1, deqLine s part q = [] → got = some (r, s1) →
      CanWriteIn x s1 true (splat r.arg) (takeTask r) →
      ResultIn (.tdeqNb f) x (acquired x s1) true (splat r.arg) [.p n] (takeTask r) fun t =>
        n ≠ 7 → ∃ w, getWeft t x.c.w = some w ∧ predBits w n = 0xFFFF)) ∧
  (∀ s f x part q r s1, Runs s .tdeqPanel f .once x → Unwatched x → readyQueue x = .ok (part, q) →
    let others := (weftsOf s x.w.key).filter fun w => w.id ≠ x.c.w
    (∀ w ∈ others, getWeft s w.id = some w ∧ ∃ b d n, panelDeq w = some (b, q, d, n)) → deqFirst x part q true = true →
    takeRec s part q x.p.asid x.w.id.core = some (r, s1) → CanWriteIn x s1 true (splat r.arg) (takeTask r) →
    ∃ t, exec (.tdeqPanel f) s = .next t ∧ Ended x t ∧ InD x t true (splat r.arg) ∧
      ∀ w, (w = x.w ∨ w ∈ others) → ∃ u, getWeft t w.id = some u ∧ u.task = BitVec.ofNat 64 r.addr ∧ u.index = indexOf r ∧
        u.prio = r.level) ∧
  (∀ s f x a r s1 part p, Runs s .tenq f .once x → Unwatched x → ownRec x .read = .ok (a, r, s1) →
    x.w.key.part = some part → getPart s1 part = some p → recOk p a.va r = true → r.q = false → Releases x 4 →
    (r.dep ≠ 0 → EndsWith (.tenq f) x (released x 4 s1)) ∧
    (∀ s2, r.dep = 0 → queueRoom p r.qid = true → placeRec (released x 4 s1) part x.p.asid a.va r = (none, s2) →
      EndsWith (.tenq f) x s2)) ∧
  (∀ s f x part p c k s0, Runs s .tdone f .once x → Unwatched x → x.w.key.part = some part → x.w.task ≠ 0 →
    x.b.hold ≠ .tdone → seeRec s part x.p.asid x.w.task.toNat = (k, s0) → (∀ e, k = .error e → e ≠ .wait) →
    let scope := doneScope s0 part x.p.asid k
    let s1 := released x scope s0
    Releases x scope → getPart s1 part = some p → taskEntry p x.w = some c → heldUp p = false →
    let low (y : CompEnt) : CompEnt := if y.addr = c.addr ∧ y.asid = c.asid then { y with left := y.left - 1 } else y
    let s2 := updPart s1 part fun q => { q with comps := q.comps.map low }
    let s3 := completeTask s2 part x.p.asid c.addr c.asid 0 x.w.id.core
    (c.left ≠ 1 → EndsWith (.tdone f) x s2) ∧
    (c.left = 1 → taskHeld s3 part c.addr = false → EndsWith (.tdone f) x s3)) ∧
  (∀ s f x n a r s1, Runs s .tarm f .once x → Unwatched x → num1 x .b = .ok n → ownRec x .write = .ok (a, r, s1) →
    r.v = true → r.q = false → r.dep + n < 2 ^ 32 →
    (∀ s2, (∀ t off, placeOf s a.pa ≠ .peer t off) →
      putNum s1 (partNum x.w.key) x.p.asid (a.va + 24) 4 (r.dep + n) = (none, s2) →
      EndsWith (.tarm f) x (markDirty s2 x.p.asid x.w.key.part a.va)) ∧
    (∀ t off l rest, placeOf s a.pa = .peer t off → placeOf s (a.pa + 24) = .peer t (off + 24) →
      x.b.hold = .remoteDone ((l, r.dep) :: rest) →
      EndsWith (.tarm f) x (markDirty s1 x.p.asid x.w.key.part a.va)))

/-- R285, R402 to R405: TRAP and BKPT enter the handler of the level that takes them, with the next word as EPC and their
code in TVAL. The model's own choices in it: log entry 20. -/
def Obligations.TrapsOnPurpose : Prop :=
  ∀ s f x a l (m : Mnem) (i : Fields → Instr) code, (m = .trap ∧ i = .trap ∧ code = 25 ∨ m = .bkpt ∧ i = .bkpt ∧ code = 21) →
    Runs s m f .once x → Unwatched x → x.w.region = none → num1 x .a = .ok a → heldWrites s (agentOf x.w) = false →
    TakenAt s x.w code l →
    ∃ t, exec (i f) s = .next t ∧ Entered x t l code (some a) (laneBit (lowest x.b.mask)) (nextPc x)

/-- R128, R402 to R404: the levels that instructions require; a word of an instruction whose issuer is below its level
takes PRIVILEGE at kernel level or above, with its own first word as EPC, and has no other effect. -/
def Obligations.PrivilegeFaults : Prop :=
  (∀ m : Mnem, mnemLevel m =
    if m ∈ [Mnem.partcfgNew, .partcfgMod, .partcfgDel, .freeze, .thaw, .gsub, .gres] then 2
    else if m ∈ [Mnem.ctxsv, .ctxld, .halt, .wake, .wakeSvc, .dbgrd, .dbgwr, .dstep, .tlbiPage, .tlbiAsid, .tlbiPart, .rflush,
      .rflushAsid, .migr] then 1
    else 0) ∧
  ∀ s x i m f l, viewInstr i = some (m, f) → x.m = m → x.f = f → Issued s x → x.w.stepping = none → x.w.region = none →
    (isSup x.w.id.core && spemOnly m) = false → budgetOk x.p x.w m f = true → boundOk x.w m f = true →
    x.w.level < levelOf m f → heldWrites s (agentOf x.w) = false → TakenAt s x.w 7 l → 1 ≤ l ∧ x.w.level ≤ l ∧
    ∃ t, exec i s = .next t ∧ Entered x t l 7 none (laneBit (lowest x.b.mask)) x.c.pc

/-- R105, R286, R287: TRET and UIRET complete at the address saved at entry with the latches of the shadow, TRET at the
level before, or with ALIGN where that address is no multiple of 8; UIEN turns delivery on or off and tells what it
was, and `.post` sets a pending bit of another weft. -/
def Obligations.ReturnsAndUserInterrupts : Prop :=
  (∀ s f x a, Runs s .tret f .once x → Unwatched x → tget x.w.active x.w.level = some a →
    Releases { x with act := liveMask x.w } 1 → (trapRegs x.w x.w.level).epc.extractLsb' 0 3 = 0 →
    ∃ t w h, exec (.tret f) s = .next t ∧ t.cur = none ∧
      getWeft t x.c.w = some w ∧ w.level = a.before ∧ w.active = tdel x.w.active x.w.level ∧
      w.latX = x.w.shX ∧ w.latY = x.w.shY ∧ subAt w x.c.lane = some ⟨(trapRegs x.w x.w.level).epc, x.b.mask, none, h⟩ ∧
      (∀ q, (∀ y, q ≠ .lat y) → regNow w q = regNow x.w q) ∧ ∀ b, mget t.mem b = mget s.mem b) ∧
  (∀ s f x l, Runs s .tret f .once x → Unwatched x → trapActive x.w x.w.level = true → x.w.stepping = none →
    x.w.region = none → heldWrites s (agentOf x.w) = false → TakenAt s x.w 11 l →
    let epc := (trapRegs x.w x.w.level).epc
    epc.extractLsb' 0 3 ≠ 0 →
    ∃ t, exec (.tret f) s = .next t ∧ Entered x t l 11 (some epc.toNat) (laneBit (lowest x.b.mask)) x.c.pc) ∧
  (∀ s f x, Runs s .uiret f .once x → Unwatched x → uiAct x.w = true → Releases { x with act := liveMask x.w } 1 →
    ∃ t w h, exec (.uiret f) s = .next t ∧ t.cur = none ∧ getWeft t x.c.w = some w ∧ w.level = x.w.level ∧
      uiAct w = false ∧ uiEn w = true ∧ w.latX = x.w.shX ∧ w.latY = x.w.shY ∧
      subAt w x.c.lane = some ⟨x.w.uiret, x.b.mask, none, h⟩ ∧ (∀ q, (∀ y, q ≠ .lat y) → regNow w q = regNow x.w q) ∧
      ∀ b, mget t.mem b = mget s.mem b) ∧
  (∀ s f x en, Runs s (if en then .uienOn else .uienOff) f .once x → Unwatched x →
    EndsWith (if en then .uienOn f else .uienOff f) x
      (updWeft (predSet x (predNum f.d) (uiEn x.w) s) x.c.w fun w => setUi w (uiAct x.w) en)) ∧
  ∀ s f x n k, Runs s .uienPost f .once x → Unwatched x → num1 x .a = .ok n → num1 x .b = .ok k → k ≤ 31 → Releases x 2 →
    let s1 := released x 2 s
    (weftNum s1 x.w.key n = none → EndsWith (.uienPost f) x (predSet x (predNum f.d) false s1)) ∧
    ∀ u, weftNum s1 x.w.key n = some u → EndsWith (.uienPost f) x (predSet x (predNum f.d) true
      (updWeft s1 u.id fun w => { w with uistat := w.uistat ||| BitVec.ofNat 32 (2 ^ k) }))

/-- R282, R284: SVC adds its lanes with their numbers and arguments to the weft's open batch and parks under SVC; once its
batch is answered it completes with the results in D, and its acquire. The model's own choices in it: log entry 38. -/
def Obligations.ServiceCalls : Prop :=
  (∀ s f x no arg, Runs s .svc f .once x → Unwatched x → (∀ m, x.b.hold ≠ .svc m) →
    let y := { x with scalar := !svcVector f, act := if svcVector f then x.act else laneBit (lowest x.act) }
    let old := x.w.batch.getD ⟨0, [], []⟩
    rd y .a false = .ok no → rd y .b true = .ok arg → Releases y 4 → old.mask &&& y.act = 0 →
    ∃ t w b, exec (.svc f) s = .next t ∧ t.cur = none ∧ getWeft t x.c.w = some w ∧ w.batch = some b ∧
      b.mask = old.mask ||| y.act ∧ (∀ l ∈ lanesOf y.act, tgetD b.svcno l 0 = (no.getD l 0).setWidth 32 ∧
        tgetD b.arg l 0 = arg.getD l 0) ∧
      subAt w x.c.lane = some ⟨x.b.pc, x.b.mask, some .svc, .svc y.act⟩ ∧ ∀ q, regNow w q = regNow x.w q) ∧
  ∀ s f x lanes, Runs s .svc f .once x → Unwatched x → x.b.hold = .svc lanes → svcAnswered x.w lanes = true →
    let y := { x with scalar := !svcVector f, act := lanes }
    let vs := lanes16.map fun l => tgetD x.w.results l 0
    CanWriteIn y s true vs id →
    ResultIn (.svc f) y (acquired y s) true vs []
      (fun w => svcOver lanes (updSub w x.c.lane fun b => { b with hold := .none })) fun _ => True

/-- R288, R289: CSRR writes a control register's value to D, SVCPOP's the oldest batch address, which it pops; CSRW writes
the old value to D and the new one, with bits set or cleared under MOD, to the register where its access allows it.
The model's own choices in it: log entry 38. -/
def Obligations.ControlRegisters : Prop :=
  (∀ s f x n wide v, Runs s .csrr f .once x → Unwatched x → NamesCsr x n wide → (n, v) ∈ controlRegs s x.w →
    CanWrite x none wide (splat v) id → Completes (.csrr f) x x wide (splat v) id) ∧
  (∀ s f x, Runs s .svcpop f .once x → Unwatched x → NamesCsr x 0x26 true →
    (∀ pn p a t, x.w.key.part = some pn → getPart s pn = some p → svcQueue p (dieOf x.w.id.core) = a :: t →
      let s1 := updPart s pn fun p => { p with svcq := tset p.svcq (dieOf x.w.id.core) t }
      let vs := splat (BitVec.ofNat 64 a)
      CanWriteIn x s1 true vs id → ResultIn (.svcpop f) x s1 true vs [] id fun _ => True) ∧
    (((x.w.key.part.bind (getPart s)).all fun p => (svcQueue p (dieOf x.w.id.core)).isEmpty) = true →
      CanWrite x none true (splat 0) id → Completes (.svcpop f) x x true (splat 0) id)) ∧
  ∀ s f x n wide v b, Runs s .csrw f .once x → Unwatched x → NamesCsr x n wide → (n, v) ∈ controlRegs s x.w →
    rd1 x .b wide = .ok b →
    let new := match f.mod.toNat with | 8 => b | 9 => v ||| b | _ => v &&& ~~~b
    CanWrite x none wide (splat v) id →
    ResultIn (.csrw f) x (csrShared x n new s) wide (splat v) [] (csrOwn n new) fun _ => True

/-- R280, R281, R284, R292, R293: HALT and WAKE complete with the weft that the handle names halted or not, and tell in D
whether that changed it; WAKE.svc answers the batch in flight at an address. The model's own choices in it: log entry
38. -/
def Obligations.HaltsAndWakes : Prop :=
  (∀ s f x h, Runs s .halt f .once x → Unwatched x → Handle x h → (∀ w, named s h = some w → Unstepped x w) →
    EndsWith (.halt f) x (match named s h with
      | none => predSet x (predNum f.d) false s
      | some w => predSet x (predNum f.d) (!w.halted) (if w.halted then s else haltWeft s w.id))) ∧
  (∀ s id w, getWeft s id = some w → ∃ u, getWeft (haltWeft s id) id = some u ∧ u.halted = true ∧ u.region = none ∧
    (∀ q, regNow u q = regNow w q) ∧ u.binds = w.binds ∧ (w.stepping = none → ∀ b, mayIssue (haltWeft s id) u b = false)) ∧
  (∀ s f x h, Runs s .wake f .once x → Unwatched x → Handle x h → (∀ w, named s h = some w → Unstepped x w) →
    EndsWith (.wake f) x (match named s h with
      | none => predSet x (predNum f.d) false s
      | some w => predSet x (predNum f.d) w.halted (wakeLines (updWeft s w.id fun w => { w with halted := false })))) ∧
  ∀ s f x a, Runs s .wakeSvc f .once x → Unwatched x → rd1 x .a true = .ok a → a.toNat % 256 = 0 →
    (∀ w res s1, s.wefts.find? (inFlight x.w.key.part a.toNat) = some w → Unstepped x w →
      readBatch s w.key.part a.toNat = some (res, s1) →
      EndsWith (.wakeSvc f) x (predSet x (predNum f.d) true (updWeft s1 w.id (answerBatch s1.tick res)))) ∧
    (s.wefts.find? (inFlight x.w.key.part a.toNat) = none →
      (∀ v w res s1,
        (s.saved.findSome? fun v => (v.wefts.find? (inFlight x.w.key.part a.toNat)).map fun w => (v, w)) = some (v, w) →
        readBatch s w.key.part a.toNat = some (res, s1) →
        EndsWith (.wakeSvc f) x (predSet x (predNum f.d) true (answerSaved s1 v w res))) ∧
      ((∀ v ∈ s.saved, ∀ w ∈ v.wefts, inFlight x.w.key.part a.toNat w = false) →
        EndsWith (.wakeSvc f) x (predSet x (predNum f.d) false s)))

/-- R290, R291, R407 to R411: CTXSV completes with the frame's size in D, the panel gone from its cores and kept in its
frame; with a size or a number that does not fit, or none, it tells so. CTXLD completes with a status, and with status
0 its panel stands again on the cores named. The model's own choices in it: log entries 35 and 36. -/
def Obligations.Contexts : Prop :=
  (∀ s f x va n cap, Runs s .ctxsv f .once x → Unwatched x → rd1 x .a true = .ok va → num1 x .b = .ok n →
    num1 x .c = .ok cap → va.toNat % 4096 = 0 →
    let k : PKey := ⟨x.w.key.part, BitVec.ofNat 32 n⟩
    k ≠ x.w.key →
    (getPanel s k = none → StatusIn (.ctxsv f) x s (2 ^ 31) fun _ => True) ∧
    ∀ p, getPanel s k = some p →
      let s1 := stopPanel s k
      let z := frameSize s1 k
      (cap < z → StatusIn (.ctxsv f) x (resumePanel s1 k) (2 ^ 31 + z) fun _ => True) ∧
      ∀ accs s2, z ≤ cap → checkAll x .write 0 0 ((rangePages va.toNat z).map fun a => (lowest x.act, max va.toNat a)) = .ok accs →
        saveBusy s1 k = false → savePanel s1 k va.toNat x.p.asid 0 0 = .ok (z, s2) →
        let s3 := (rangePages va.toNat z).foldl (fun t a => markDirty t x.p.asid x.w.key.part (max va.toNat a)) s2
        StatusIn (.ctxsv f) x s3 z fun t => getPanel t k = none ∧ (∀ w ∈ t.wefts, w.key ≠ k) ∧
          ∃ v ∈ t.saved, v.key = k ∧ v.frame = va.toNat) ∧
  ∀ s f x va b accs, Runs s .ctxld f .once x → Unwatched x → rd1 x .a true = .ok va → num1 x .b = .ok b →
    checkAll x .read 0 0 ((rangePages va.toNat 256).map fun a => (lowest x.act, max va.toNat a)) = .ok accs →
    let head := match deviceRead s x.p.asid x.w.key.part va.toNat 256 with | .ok h => h | .error _ => []
    (frameOwner s x.w.key.part head = none → StatusIn (.ctxld f) x s 2 fun _ => True) ∧
    ∀ v, frameOwner s x.w.key.part head = some v →
      (restoreSet v b = none → StatusIn (.ctxld f) x s 3 fun _ => True) ∧
      ∀ cs, restoreSet v b = some cs →
        (restoreFits s v cs = false → StatusIn (.ctxld f) x s 1 fun _ => True) ∧
        ∀ accs1 accs2, restoreFits s v cs = true → v.key ≠ x.w.key → v.panel.key = v.key → getPanel s v.key = none →
          let z := at8 head 32 8
          checkAll x .read 0 0 ((rangePages va.toNat z).map fun a => (lowest x.act, max va.toNat a)) = .ok accs1 →
          checkAll x .write 0 0 [(lowest x.act, va.toNat)] = .ok accs2 → CanWrite x none false (splat 0) id →
          ∃ t p, exec (.ctxld f) s = .next t ∧ Ended x t ∧ InD x t false (splat 0) ∧ getPanel t v.key = some p ∧
            p.cores = cs ∧ p.m.shape = v.panel.m.shape ∧ ∀ y ∈ t.saved, y.key ≠ v.key

/-- R294 to R296, R417, R418: DBGRD completes with an item of a halted weft in D, DBGWR with the item changed, and each
tells whether the selector and the weft were valid; DSTEP waits while its target issues one unit, and completes with
the status of that. The model's own choices in it: log entries 37 and 69. -/
def Obligations.DebugAccess : Prop :=
  (∀ s f x h sel, Runs s .dbgrd f .once x → Unwatched x → Handle x h → num1 x .b = .ok sel →
    (∀ w, named s h = some w → Unstepped x w) →
    let r := (named s h).bind fun w => if w.halted then (getPanel s w.key).bind fun p => debugRead s p w sel else none
    let vs := splat (BitVec.ofNat 64 (r.getD 0))
    let n := predNum f.c
    CanWriteIn x s true vs id → ResultIn (.dbgrd f) x s true vs [.p n] id fun t =>
      n ≠ 7 → ∃ w, getWeft t x.c.w = some w ∧ predBits w n = if r.isSome then 0xFFFF else 0) ∧
  (∀ s f x h sel v, Runs s .dbgwr f .once x → Unwatched x → Handle x h → num1 x .b = .ok sel → rd1 x .c true = .ok v →
    (∀ w, named s h = some w → Unstepped x w) →
    let r := (named s h).bind fun w => if w.halted then (getPanel s w.key).bind fun p => debugWrite s p w sel v else none
    EndsWith (.dbgwr f) x (predSet x (predNum f.d) r.isSome (r.getD s))) ∧
  (∀ s f x h n, Runs s .dstep f .once x → Unwatched x → Handle x h → num1 x .b = .ok n → x.b.hold = .none →
    (∀ w b, named s h = some w → w.stepping = none → w.stepped = none → w.halted = true → (subsInOrder w)[n]? = some b →
      b.park = none → b.mask &&& ~~~handlerLanes w = 0 → w.id ≠ x.c.w →
      ∃ t u, exec (.dstep f) s = .next t ∧ t.cur = none ∧ getWeft t w.id = some u ∧ u.stepping = some (lowest b.mask) ∧
        ∃ v c, getWeft t x.c.w = some v ∧ subAt v x.c.lane = some c ∧ c.pc = x.b.pc ∧ c.hold = .stepping) ∧
    ((∀ w, named s h = some w → (w.halted = false ∨ (subsInOrder w)[n]? = none) ∧ w.stepping = none ∧ w.stepped = none) →
      StatusIn (.dstep f) x s 3 fun _ => True) ∧
    ∀ w b, named s h = some w → w.stepping = none → w.stepped = none → w.halted = true → (subsInOrder w)[n]? = some b →
      b.park ≠ none ∨ b.mask &&& ~~~handlerLanes w ≠ 0 → StatusIn (.dstep f) x s 1 fun _ => True) ∧
  ∀ s f x h n w st, Runs s .dstep f .once x → Unwatched x → Handle x h → num1 x .b = .ok n → x.b.hold = .stepping →
    named s h = some w → w.stepped = some st →
    StatusIn (.dstep f) x (updWeft s w.id fun u => { u with stepped := none }) st fun _ => True

/-- R297, R298, R354, R355: TLBI and RFLUSH complete with the translations and the entries of the fronts' remap filters
gone that they name, and no others: TLBI.page takes the entry of any page size that covers the address, RFLUSH the
entries of the whole page. The model's own choices in it: log entry 10. -/
def Obligations.TranslationsDropped : Prop :=
  let atFront (y : Synonym) : Bool := match y.place with | .front _ => true | .core _ => false
  let synDropped (s : State) (drop : Synonym → Bool) : State :=
    { s with synonyms := s.synonyms.filter fun y => !(atFront y && drop y) }
  let still (s : State) (drop : TlbEnt → Bool) : Prop := ∀ t ∈ s.tlb, drop t = true → entryBusy s t = false
  (∀ s drop, (dropTlb s drop).tlb = s.tlb.filter fun t => !drop t) ∧
  (∀ s f x va n, Runs s .tlbiPage f .once x → Unwatched x → rd1 x .a true = .ok va → OwnAsid x n →
    let drop (t : TlbEnt) : Bool := t.vpage * 4096 / 2 ^ t.bits == va.toNat / 2 ^ t.bits &&
      (t.asid == n || (leafG t.leaf && t.part == asidPart x n))
    still s drop → EndsWith (.tlbiPage f) x (dropTlb s drop)) ∧
  (∀ s f x n, Runs s .tlbiAsid f .once x → Unwatched x → OwnAsid x n →
    let drop (t : TlbEnt) : Bool := t.asid == n && !leafG t.leaf
    still s drop → EndsWith (.tlbiAsid f) x (dropTlb s drop)) ∧
  (∀ s f x, Runs s .tlbiPart f .once x → Unwatched x →
    let drop (t : TlbEnt) : Bool := t.part == partNum x.w.key
    still s drop → EndsWith (.tlbiPart f) x (dropTlb s drop)) ∧
  (∀ s f x va n, Runs s .rflush f .once x → Unwatched x → rd1 x .a true = .ok va → OwnAsid x n →
    let bits := pageBits s n (asidPart x n) va.toNat
    let lies (tag page : Nat) : Bool :=
      (tag == n || tag == 65536 + asidPart x n) && page * 4096 / 2 ^ bits == va.toNat / 2 ^ bits
    still s (fun _ => true) → EndsWith (.rflush f) x (synDropped s fun y => lies y.asid y.vpage || lies y.leadAsid y.leadPage)) ∧
  ∀ s f x n, Runs s .rflushAsid f .once x → Unwatched x → OwnAsid x n →
    still s (fun _ => true) → EndsWith (.rflushAsid f) x (synDropped s fun y => y.asid == n || y.leadAsid == n)

/-- R298 to R300, R430: PARTCFG completes with the partition created, changed or destroyed and status 0, or with the
status that says why not; FREEZE and THAW complete with the partition frozen or not and tell in D whether that changed
it. The model's own choices in it: log entry 39. -/
def Obligations.Partitions : Prop :=
  (∀ s f x n va d s1, Runs s .partcfgNew f .once x → Unwatched x → num1 x .b = .ok n → n ≤ 63 → rd1 x .a true = .ok va →
    readDesc x va.toNat 128 128 = .ok (d, s1) → partDescOk d (partDescOf d) = true →
    (getPart s1 n ≠ none → StatusIn (.partcfgNew f) x s1 2 fun _ => True) ∧
    (getPart s1 n = none → partHeld s1 n (partDescOf d) = true → StatusIn (.partcfgNew f) x s1 1 fun _ => True) ∧
    (getPart s1 n = none → partHeld s1 n (partDescOf d) = false →
      StatusIn (.partcfgNew f) x (extendSlot { s1 with parts := tset s1.parts n (newPart (partDescOf d)) } (3 + n) (toBytes 128 d)) 0
        fun t => ∃ p, getPart t n = some p ∧ p.desc = partDescOf d ∧ p.frozen = false ∧ p.ktvec = 0)) ∧
  (∀ s f x n va d s1, Runs s .partcfgMod f .once x → Unwatched x → num1 x .b = .ok n → n ≤ 63 → rd1 x .a true = .ok va →
    readDesc x va.toNat 128 128 = .ok (d, s1) → partDescOk d (partDescOf d) = true →
    let lost := (panelsOf s1 n).any fun q => q.cores.any fun c => !coreOwned (partDescOf d) c
    (getPart s1 n = none → StatusIn (.partcfgMod f) x s1 2 fun _ => True) ∧
    (getPart s1 n ≠ none → partHeld s1 n (partDescOf d) = true → StatusIn (.partcfgMod f) x s1 1 fun _ => True) ∧
    (getPart s1 n ≠ none → partHeld s1 n (partDescOf d) = false → lost = true → StatusIn (.partcfgMod f) x s1 3 fun _ => True) ∧
    (getPart s1 n ≠ none → partHeld s1 n (partDescOf d) = false → lost = false →
      StatusIn (.partcfgMod f) x (updPart s1 n fun q => { q with desc := partDescOf d }) 0 fun _ => True)) ∧
  (∀ s f x n, Runs s .partcfgDel f .once x → Unwatched x → num1 x .b = .ok n → n ≤ 63 →
    (getPart s n = none → StatusIn (.partcfgDel f) x s 2 fun _ => True) ∧
    (getPart s n ≠ none → panelsOf s n ≠ [] → StatusIn (.partcfgDel f) x s 3 fun _ => True) ∧
    (getPart s n ≠ none → panelsOf s n = [] →
      let s1 := { s with parts := tdel s.parts n, saved := s.saved.filter fun v => v.key.part != some n }
      let sec : SecProc := { s.sec with slots := tdel s.sec.slots (3 + n) }
      StatusIn (.partcfgDel f) x { s1 with sec := sec } 0 fun t => getPart t n = none)) ∧
  (∀ s f x n, Runs s .freeze f .once x → Unwatched x → num1 x .a = .ok n → EndsWith (.freeze f) x (match getPart s n with
    | none => predSet x (predNum f.d) false s
    | some q => predSet x (predNum f.d) (!q.frozen) (if q.frozen then s else freezePart s n))) ∧
  ∀ s f x n, Runs s .thaw f .once x → Unwatched x → num1 x .a = .ok n → EndsWith (.thaw f) x (match getPart s n with
    | none => predSet x (predNum f.d) false s
    | some q => predSet x (predNum f.d) q.frozen (wakePlace (wakeLines (updPart s n fun r => { r with frozen := false })) n))

/-- R301, R302, R395, R398: GSUB and GRES complete with status 3 for a job that they cannot act on, else with the job's
status once every member has reported; MIGR completes with its pages' moves asked for, and `.sync` once they are done.
The model's own choices in it: log entries 41 and 49. -/
def Obligations.SubstitutionAndMoves : Prop :=
  (∀ s f x st (g : Bool), Runs s (if g then .gsub else .gres) f .once x → Unwatched x → x.b.hold = .gangDone st →
    StatusIn (if g then .gsub f else .gres f) x s st fun _ => True) ∧
  (∀ s f x a job n, Runs s .gsub f .once x → Unwatched x → x.b.hold = .none → rd1 x .a true = .ok a → a.toNat % 4096 = 0 →
    num1 x .b = .ok job → job ≠ 0 → num1 x .c = .ok n →
    (jobKnown s job = false ∨ jobTaken s job = true → StatusIn (.gsub f) x s 3 fun _ => True) ∧
    (jobKnown s job = true → jobTaken s job = false → (∀ st, CanWrite x none false (splat st) id) →
      ∃ t, exec (.gsub f) s = .next t ∧ t.cur = none ∧
      ∀ w ∈ s.wefts, inJob s job w = true → w.id ≠ x.c.w → ∃ u, getWeft t w.id = some u ∧ u.gangHeld = true)) ∧
  (∀ s f x a job, Runs s .gres f .once x → Unwatched x → x.b.hold = .none → rd1 x .a true = .ok a → a.toNat % 4096 = 0 →
    num1 x .b = .ok job → job ≠ 0 → (∀ u, getSubst s job = some u → u.stage ≠ 2 ∨ u.save ≠ a.toNat) →
    StatusIn (.gres f) x s 3 fun _ => True) ∧
  (∀ s f x ps, Runs s .migr f .once x → Unwatched x → x.b.hold = .none → pagesFor x true .none = .ok ps →
    let tier := f.mod.toNat % 4
    moveForbidden s ps tier = none → (bitOf f.mod.toNat 2 = false ∨ ∀ p ∈ ps, p.tier = tier) →
    EndsWith (.migr f) x ((ps.filter fun p => p.tier != tier).foldl (fun t p => askMove t (movePart x) p tier 1 false) s)) ∧
  ∀ s f x ids, Runs s .migr f .once x → Unwatched x → x.b.hold = .migrWait ids → movePending s ids = false →
    EndsWith (.migr f) x s

/-- R48 to R51, R71, R95, R155, R407: PANEL_START completes with the panel on its cores and its wefts as R50 leaves them;
PREEMPTION_REQUEST halts every weft of a panel at a boundary and aborts its regions; the save of a translation fault
takes the panel from its cores into a frame of the pool, or halts its wefts where there is none. The model's own
choices in it: log entries 57 and 73. -/
def Obligations.PanelsStartAndLeave : Prop :=
  (∀ s r p, s.started = true → startPanel s r = some p → (∀ w ∈ s.wefts, w.key ≠ r.key) →
    (∀ c ∈ p.cores, (s.wefts.filter fun w => w.id.core == c).length + perCore p ≤ 256) →
    ∃ t q, exec (.panelStart r) s = .next t ∧ getPanel t r.key = some q ∧ q.cores = p.cores ∧ q.m = p.m ∧
      q.asid = r.asid.toNat ∧ (∀ n, n < shapeWefts p.m → ∃ w, weftNum t r.key n = some w ∧ Launched p n w)) ∧
  (∀ s k, ∃ t, exec (.preemptionRequest k) s = .next t ∧
    (∀ p, getPanel s k = some p → ∃ q, getPanel t k = some q ∧ q.stopped = true) ∧
    ∀ w, getWeft s w.id = some w → w.key = k → ∃ u, getWeft t w.id = some u ∧ u.region = none ∧
      (∀ q, regNow u q = regNow w q) ∧ (highTrap u = false → ∀ b, mayIssue t u b = false)) ∧
  (∀ s k p va core lanes, getPanel s k = some p → p.saveVa = some (va, core, lanes) → saveBusy s k = false →
    (∀ f s1, savePool s k va = some (f, s1) → ∃ t v, exec (.translationFaultSave k) s = .next t ∧ getPanel t k = none ∧
      (∀ w ∈ t.wefts, w.key ≠ k) ∧ v ∈ t.saved ∧ v.key = k ∧ v.frame = f) ∧
    (savePool s k va = none → ∃ t q, exec (.translationFaultSave k) s = .next t ∧ getPanel t k = some q ∧ q.saveVa = none ∧
      ∀ w ∈ t.wefts, w.key = k → w.halted = true))

/-- R70, R76, R92, R93, R125, R222, R406: what arrives for a weft. A completed walk ends the waits for its page, with the
page's fault where it has one; an interlocked result lands in its registers; a symbol's value goes into every register
that holds it; the fault of a symbolic access, and a user interrupt that is due, are taken at a boundary. The model's
own choices in it: log entries 29, 30 and 31. -/
def Obligations.Arrivals : Prop :=
  (∀ s asid vpage, ∃ t, exec (.translationComplete asid vpage) s = .next t ∧
    (∀ k ∈ t.walks, ¬(k.asid = asid.toNat ∧ k.vpage = vpage)) ∧
    (∀ k s1, s.walks = [k] → k.asid = asid.toNat → k.vpage = vpage →
      finishAt { s with walks := [] } k.front k.asid k.part (vpage * 4096) = .ok s1 →
      (∃ e ∈ t.tlb, e.asid = k.asid ∧ e.vpage = vpage ∧ e.front = some k.front) ∧
        ∀ w ∈ t.wefts, w.key.part = k.part → ∀ b ∈ w.subs, b.park = some .xlate → waitOf w b ≠ .page k.asid vpage k.front) ∧
    ∀ k id code w, s.walks = [k] → k.asid = asid.toNat → k.vpage = vpage → k.w = some id →
      finishAt { s with walks := [] } k.front k.asid k.part (vpage * 4096) = .error code → getWeft s id = some w →
      ∃ u, getWeft t id = some u ∧ u.subs = w.subs.map fun b =>
        if b.park = some .xlate && waitOf w b == .page k.asid vpage k.front then
          { b with park := none, hold := .walkFault code (vpage * 4096) } else b) ∧
  (∀ s l w, (s.landings.find? fun y => y.id == l.id) = some l → mayLand s l = true → l.err = 0 → getWeft s l.w = some w →
    ∃ t u, exec (.interlockedWriteLanding l.id) s = .next t ∧ t.landings = s.landings.filter (fun y => y.id ≠ l.id) ∧
      getWeft t l.w = some u ∧ LandedIn l u ∧ t.mem = s.mem ∧
      ∀ q, q ∉ landRegsOf l → regNow u q = regNow w q) ∧
  (∀ s id (slot : SlotNo) w p a v, getWeft s id = some w → getPanel s w.key = some p →
    (s.symAccs.find? fun y => y.key == w.key && y.num == w.num && y.slot == slot.val) = some a → symValue s a = some v →
    isSup id.core = false → ∃ t u, exec (.symbolArrival id slot) s = .next t ∧
      getWeft t id = some u ∧ t.symAccs = s.symAccs.erase a ∧ tget u.syms slot.val = none ∧
      ∀ n y, y.slot = slot.val → ∀ i, i < 16 →
        let z := compLane y.scale i * v.getD i 0 + compLane y.offset i
        (regNow w (.v n) = .sym y → y.kind ≤ 1 → laneOf u (.v n) i = z.setWidth 32) ∧
        (regNow w (.v n) = .symHi y → y.kind = 1 → laneOf u (.v n) i = z.extractLsb' 32 32)) ∧
  (∀ s id w slot code tval lanes va rest b l, s.cur = none → getWeft s id = some w → w.symFaults = (slot, code, tval, lanes, va) :: rest →
    (w.subs.find? fun y => y.mask &&& ~~~handlerLanes w == 0 && !w.halted && holdFree y.hold) = some b → b.mask ≠ 0 →
    code < 256 → tval < 2 ^ 64 → slot < 16 → (∀ y ∈ w.subs, y ≠ b → y.mask &&& b.mask = 0) →
    w.region = none → heldWrites s (agentOf w) = false → TakenAt s w code l → ∃ t u, exec (.symbolFault id) s = .next t ∧
      EnteredAt s w b (lowest b.mask) t l code (some tval) lanes true va ∧ getWeft t id = some u ∧ u.symFaults = rest ∧
      tget u.syms slot = none ∧ field u.symstF.toNat 19 16 = slot ∧ bitOf u.symstF.toNat 20 = true ∧
      ∀ n y, regNow w (.v n) = .sym y → y.slot = slot → regNow u (.v n) = .val .u []) ∧
  ∀ s id w l b, getWeft s id = some w → uiSub s w = some l → subAt w l = some b → w.region = none →
    heldWrites s (agentOf w) = false →
    ∃ t u, exec (.userInterruptDelivery id) s = .next t ∧ getWeft t id = some u ∧ uiAct u = true ∧ u.uiret = b.pc ∧
      u.uistat = w.uistat ∧ u.level = w.level ∧ u.shX = w.latX ∧ u.shY = w.latY ∧
      subAt u l = some ⟨w.uivec &&& 0x01FF_FFFF_FFFF_FFF8, b.mask, none, .none⟩ ∧ (∀ q, regNow u q = regNow w q) ∧
      ∀ y ∈ u.subs, y.mask &&& ~~~b.mask ≠ 0 → mayIssue t u y = false

/-- R63 to R66, R68, R69: a court weft whose sub-wefts are all parked goes to the bench; a free slot goes to the ready
bench weft of highest priority, and at a rotation the slot held longest to the weft ready longest; a bin that is due
or old, the oldest such of its panel on the core, gives a fresh weft of its threads with the lowest `$tid`, in
ascending order. The model's own choices in it: log entries 7 and 53. -/
def Obligations.CourtBenchAndBins : Prop :=
  (∀ s id w, getWeft s id = some w → w.onCourt = true → w.subs ≠ [] → (∀ b ∈ w.subs, b.park ≠ none) →
    ∃ t, exec (.benchSubstitution id) s = .next t ∧ t = { s with wefts := t.wefts } ∧
      getWeft t id = some { w with onCourt := false, benchSince := s.tick } ∧ ∀ k, k ≠ id → getWeft t k = getWeft s k) ∧
  (∀ s core q, readyBench s core q ≠ [] → 0 < freeCourt s core q → (s.wefts.map (·.id)).Nodup →
    ∃ t w u, exec (.promotion core q) s = .next t ∧ w ∈ readyBench s core q ∧
      (∀ y ∈ readyBench s core q, y.prio ≤ w.prio ∧ (y.prio = w.prio → w.benchSince ≤ y.benchSince)) ∧
      getWeft t w.id = some u ∧ u.onCourt = true ∧ (getCore s core).cycle + 2 ≤ u.stall ∧ (∀ r, regNow u r = regNow w r)) ∧
  (∀ s core q, rotationDue s core q = true → (∃ a ∈ quarterWefts s core q, a.onCourt = true) → (s.wefts.map (·.id)).Nodup →
    ∃ t a b u v, exec (.rotation core q) s = .next t ∧ a ∈ quarterWefts s core q ∧ a.onCourt = true ∧ b ∈ readyBench s core q ∧
      (∀ y ∈ quarterWefts s core q, y.onCourt = true → a.courtSince ≤ y.courtSince) ∧
      (∀ y ∈ readyBench s core q, b.benchSince ≤ y.benchSince) ∧ getWeft t a.id = some u ∧ u.onCourt = false ∧
      getWeft t b.id = some v ∧ v.onCourt = true) ∧
  ∀ s core bin b p num slot (late : Bool), getBin s core bin = some b → getPanel s b.key = some p → freeNum s p core = some num →
    freeResident s core = some slot → (b.threads.map (·.tid)).Nodup → b.threads ≠ [] →
    (∀ y ∈ (getCore s core).bins, y.key = b.key → binDue y = true → y = b ∨ b.since < y.since) →
    (if late then b.since + 256 ≤ coreNow s core else binDue b = true) →
    ∃ t w, exec (if late then .reformBinTimeout core bin else .reformBinSlotDraw core bin) s = .next t ∧
      getWeft t ⟨core, slot⟩ = some w ∧ w.key = b.key ∧ w.num = num ∧ w.role = b.role ∧
      w.subs = [⟨b.pc, maskOf (List.range (min 16 b.threads.length)), none, .none⟩] ∧
      (∀ i j, i < j → j < min 16 b.threads.length → nth w.tids i 0 < nth w.tids j 0) ∧
      (∀ i, i < min 16 b.threads.length → ∃ y ∈ b.threads, y.tid = nth w.tids i 0 ∧
        (∀ r, r < 256 → laneOf w (.v r) i = tgetD y.regs r 0) ∧
        ∀ k, k < 7 → (nth w.preds k 0).getLsbD i = y.preds.getLsbD k) ∧
      ∀ y ∈ b.threads, (∀ i, i < min 16 b.threads.length → y.tid ≠ nth w.tids i 0) →
        ∀ i, i < min 16 b.threads.length → nth w.tids i 0 < y.tid

/-- R58 to R62, R282, R283, R415, R439, R440: the queue engine. A store to a queue window places a ready record, leaves
one whose DEP is not 0 armed, drops one that is malformed, and of a wrong width freezes the partition; held stores,
the overflow area, waiting completions and device areas are tried again; a due service batch is written and queued.
The model's own choices in it: log entries 51 and 61. -/
def Obligations.QueueEngine : Prop :=
  (∀ s t part asid addr r p q, getPart s part = some p → tget p.queues r.qid = some q →
    placeRec s part asid addr r = (none, t) → Queued s t part asid addr r) ∧
  (∀ s port part q va p, getPart s part = some p → q < 64 → p.frozen = false → (∀ h ∈ p.heldStores, h.port ≠ port) →
    ∀ r s1, seeRec s part p.desc.asidLo (BitVec.toNat va) = (.ok r, s1) →
      let good : Prop := recOk p va.toNat r = true ∧ r.q = false ∧ r.qid = q
      let ends (s2 : State) : Prop := exec (.queueWindowStore port part q va 8) s = .next (served s2 part va.toNat 64)
      (good → r.dep ≠ 0 → ends s1) ∧
      (∀ s2, good → r.dep = 0 → queueRoom p q = true → placeRec s1 part p.desc.asidLo va.toNat r = (none, s2) → ends s2) ∧
      (¬ good → ends (errRecord s1 (some part) 2 0 0 (320 + port) 1 va.toNat 0))) ∧
  (∀ s port part q va n p, getPart s part = some p → n ≠ 8 ∨ 64 ≤ q →
    ∃ t u, exec (.queueWindowStore port part q va n) s = .next t ∧ getPart t part = some u ∧ u.frozen = true) ∧
  (∀ s part h rest p s1, getPart s part = some p → p.heldStores = h :: rest → windowStore s part h.port h.q h.va = (true, s1) →
    exec (.heldWindowStore part h.q) s = .next (updPart s1 part fun u => { u with heldStores := u.heldStores.erase h })) ∧
  (∀ s part p addr asid qid rest r s1 s2, getPart s part = some p → p.overflow = (addr, asid, qid) :: rest →
    seeRec s part asid addr = (.ok r, s1) → queueRoom p r.qid = true → placeRec s1 part asid addr r = (none, s2) →
    ∃ t u, exec (.overflowPlacement part) s = .next t ∧ getPart t part = some u ∧ u.overflow = rest ∧
      Queued s1 t part asid addr r) ∧
  (∀ s part p addr asid placed i agent r s1 s2, getPart s part = some p → p.work = [.complete addr asid placed i agent] →
    seeRec (updPart s part fun u => { u with work := [] }) part asid addr = (.ok r, s1) → r.nsucc ≤ i → r.done = 0 →
    putNum s1 part asid (addr + 28) 4 (setField r.flags 3 3 0) = (none, s2) →
    ∃ t u, exec (.queueEnginePageResume part) s = .next t ∧ getPart t part = some u ∧ u.work = [] ∧
      ∀ c ∈ u.comps, ¬(c.addr = addr ∧ c.asid = placed)) ∧
  (∀ s part p w s1, getPart s part = some p → p.areaWork = [w] →
    doArea (updPart s part fun u => { u with areaWork := [] }) part w = some s1 →
    ∃ t u, exec (.deviceAreaResume part) s = .next t ∧ getPart t part = some u ∧ u.areaWork = [] ∧
      (∀ a ∈ u.areaNoted, areaAbsent t part u a = true) ∧ t.mem = s1.mem) ∧
  ∀ s id w b n p s1 (late : Bool), getWeft s id = some w → w.batch = some b → (if late then 64 ≤ w.batchAge else batchDue w = true) →
    w.key.part = some n → getPart s n = some p → (w.flight = none ∨ w.answered = true) → (svcQueue p (dieOf id.core)).length < 16384 →
    let addr := p.desc.svcbase + if isSup id.core then 2 ^ 24 + 256 * (4 * (id.core - 256) + id.slot) else 256 * (256 * id.core + id.slot)
    deviceWrite s p.desc.asidLo (some n) addr (batchBytes w b) = .ok s1 →
    ∃ t u v, exec (if late then .serviceBatchTimeout id else .serviceBatchSend id) s = .next t ∧ getWeft t id = some u ∧
      u.batch = none ∧ u.flight = some (addr, b.mask) ∧ u.answered = false ∧ getPart t n = some v ∧
      svcQueue v (dieOf id.core) = svcQueue p (dieOf id.core) ++ [addr] ∧ t.mem = s1.mem

/-- R41, R42, R97, R98, R256, R265, R267, R268, R271 to R273: a chunk of an engine's first command advances its progress
and leaves the elements it computes; a write that is denied ends it with its status; a record for a full completion
queue that nothing of its panel is left to read is dropped. The model's own choices in it: log entries 48, 54, 63, 80
and 81. -/
def Obligations.EngineSteps : Prop :=
  (∀ s core c p pl, chunkHead s core .copy = some (p, c, pl) → chunkAsks s (engFor p core c.unc) c = none →
    let d := copyOf (ofBytes c.bytes)
    let es := 2 ^ d.es
    let k := min (4096 / es) (copyTotal d - c.prog)
    let r := copyChunk s (engFor p core c.unc) c
    (r.stop = none → ∃ t y, exec (.engineChunk core .copy) s = .next t ∧ y ∈ engineCmds t core .copy ∧ y.id = c.id ∧
      y.prog = c.prog + k ∧ y.written = c.written + es * k ∧ y.status = 0) ∧
    (∀ va wr, r.stop = some (.denied va, wr) → ∃ t y, exec (.engineChunk core .copy) s = .next t ∧
      y ∈ engineCmds t core .copy ∧ y.id = c.id ∧ y.prog = c.prog + r.n ∧ r.n < k ∧ y.status = if wr then 6 else 5) ∧
    (d.dk = 2 → d.sk = 1 → ∃ t, exec (.engineChunk core .copy) s = .next t ∧ t.mem = s.mem ∧ ∀ i, i < k →
      let at_ (i : Nat) : Nat := (copyTuple d (c.prog + i)).2.2.toNat
      (∀ j, i < j → j < k → at_ j + es ≤ at_ i ∨ at_ i + es ≤ at_ j) →
      mread (getCore t core).obuf (at_ i) es = if (copyTuple d (c.prog + i)).1 then
        let l := placeOff p (wrap 32 (copyTuple d (c.prog + i)).2.1) es
        mread (panelCore p l.1).pad l.2 es
      else toBytes es d.fill)) ∧
  (∀ s core c p pl, chunkHead s core .gather = some (p, c, pl) → chunkAsks s (engFor p core c.unc) c = none →
    let d := gathOf (ofBytes c.bytes)
    let m := engFor p core c.unc
    let x := gathIndex s m c c.prog
    ((gathChunk s m c).stop = none → ∃ t y, exec (.engineChunk core .gather) s = .next t ∧ y ∈ engineCmds t core .gather ∧
      y.id = c.id ∧ y.prog = c.prog + 1 ∧ y.written = c.written + d.rowBytes / 4 * 4) ∧
    (∀ va wr, (gathChunk s m c).stop = some (.absent va, wr) → ∃ t y, exec (.engineChunk core .gather) s = .next t ∧
      y ∈ engineCmds t core .gather ∧ y.id = c.id ∧ y.prog = c.prog ∧ y.written = c.written ∧ y.status = 0) ∧
    (x < 0 ∨ (d.limit : Int) ≤ x → d.dk = 2 → ∃ t, exec (.engineChunk core .gather) s = .next t ∧ ∀ j, j < d.rowBytes / 4 →
      mread (getCore t core).obuf (d.dst + c.prog * d.ds + 4 * j) 4 = toBytes 4 d.fill)) ∧
  (∀ s core c p pl op, chunkHead s core .matrix = some (p, c, pl) → c.mat = some op → core ∈ p.cores → HasCores p →
    let acc := (panelCore p core).acc
    let tile (n : Nat) : Nat := (n + c.prog) * 4096
    let goes (got : State → Panel → Prop) : Prop := ∃ t q y, exec (.engineChunk core .matrix) s = .next t ∧
      getPanel t c.key = some q ∧ y ∈ engineCmds t core .matrix ∧ y.id = c.id ∧ y.prog = c.prog + 1 ∧ t.mem = s.mem ∧ got t q
    (∀ n k, op = .aclr n k → goes fun _ q => mread (panelCore q core).acc (tile n) 4096 = zeros 4096 ∧
      ∀ a, a < tile n ∨ tile n + 4096 ≤ a → mget (panelCore q core).acc a = mget acc a) ∧
    (∀ off n k, op = .ald off n k → let l := placeOff p ((off.toNat + 4096 * c.prog) % 2 ^ 32) 4096
      goes fun _ q => mread (panelCore q core).acc (tile n) 4096 = mread (panelCore p l.1).pad l.2 4096 ∧
        ∀ a, a < tile n ∨ tile n + 4096 ≤ a → mget (panelCore q core).acc a = mget acc a) ∧
    (∀ off n k, op = .ast off n k → let l := placeOff p ((off.toNat + 4096 * c.prog) % 2 ^ 32) 4096
      goes fun _ q => mread (panelCore q l.1).pad l.2 4096 = mread acc (tile n) 4096 ∧
        ∀ a, a < l.2 ∨ l.2 + 4096 ≤ a → mget (panelCore q l.1).pad a = mget (panelCore p l.1).pad a) ∧
    (∀ z a b n g, op = .mma z a b n → matGeo op = some g →
      let ct := (g.n + g.w - 1) / g.w
      let es := if g.w = 16 then 8 else 4
      let ks := ((List.range 256).map fun k => 256 * (c.prog % kChunks g) + k).filter fun k => k < g.kr
      let mine (i j : Nat) : Prop := i < g.m ∧ j < g.n ∧ i / 32 = c.prog / kChunks g / ct ∧ j / g.w = c.prog / kChunks g % ct
      goes fun _ q =>
        (∀ i j, mine i j → let e := accAt g.t g.n g.w i j
          mread (panelCore q core).acc e es = toBytes es (matElem (getCore s core).obuf acc g (swatchOf a) (swatchOf b) i j ks
            (if z ∧ c.prog % kChunks g = 0 then 0 else mnum acc e es))) ∧
        ∀ e, (∀ i j, mine i j → e < accAt g.t g.n g.w i j ∨ accAt g.t g.n g.w i j + es ≤ e) →
          mget (panelCore q core).acc e = mget acc e)) ∧
  (∀ s core e c p n, endedHead s core e = some c → c.stage = 0 → taskOf c = 0 → getPanel s c.key = some p → c.cq = some n →
    256 ≤ (tgetD p.cqs n []).length → cqRead s c.key = false → ∃ t, exec (.engineCompletion core e) s = .next t ∧
      (∀ y ∈ (getCore t core).cmds, y.id ≠ c.id) ∧ (∀ q, getPanel t c.key = some q → q.cqs = p.cqs) ∧
      ((∀ k ∈ s.cores, ∀ y ∈ k.cmds, y.key = c.key → k.num = core ∧ y.id = c.id) → getPanel t c.key = none)) ∧
  (∀ s core c p pl l, chunkHead s core .coll = some (p, c, pl) → collParty s c = some l → partyReady s p l = true →
    core ∈ p.cores → HasCores p →
    let d := collOf (ofBytes c.bytes)
    let desc (e : Nat × Cmd) : CollDesc := collOf (ofBytes e.2.bytes)
    let same : Prop := ∀ e ∈ l, (desc e).op = d.op ∧ (desc e).ty = d.ty ∧ (desc e).root = d.root ∧ (desc e).bytes = d.bytes
    ∃ t, exec (.engineChunk core .coll) s = .next t ∧
      (same → ∀ e ∈ l, ∃ y ∈ engineCmds t e.1 .coll, y.id = e.2.id ∧ y.prog = 1 ∧ y.status = 0 ∧
        y.written = if collWrites d (partyPos p e.1) then d.bytes else e.2.written) ∧
      (¬ same → ∀ e ∈ l, ∃ y ∈ engineCmds t e.1 .coll, y.id = e.2.id ∧ y.status = 8) ∧
      (same → d.root < l.length → d.bytes % 4 = 0 →
        let srcs := l.map fun e => collBytes p e.1 (desc e).src d.bytes
        ∀ e ∈ l, collWrites d (partyPos p e.1) = true → (desc e).dst % 2 ^ 20 + d.bytes ≤ min (padBytes p) (2 ^ 20) →
          ∃ q, getPanel t c.key = some q ∧ ∀ i, i < d.bytes / 4 →
            mread (panelCore q e.1).pad (localAt p ((desc e).dst + 4 * i)) 4 = ((collResult d srcs).drop (4 * i)).take 4))

/-- R257: an ended command of an engine returns its tiles, applies its decrement, pushes its completion record of 16 bytes
(ep 1 copy, 2 gather, 3 collective, 4 accumulator drain) and leaves; without room for the record it waits. What a full
queue that nothing of its panel is left to read does is in EngineSteps. -/
def Obligations.EngineCompletions : Prop :=
  ∀ s core e c, endedHead s core e = some c →
    let ep : Nat := match c.engine with | .copy => 1 | .gather => 2 | .coll => 3 | .matrix => 4
    let record : BitVec 128 := BitVec.ofNat 128 (2 ^ 64 * c.desc + 2 ^ 48 * ep + 2 ^ 32 * (c.status % 256) + min (2 ^ 32 - 1) c.written)
    let gone (t : State) : Prop := (∀ y ∈ (getCore t core).cmds, y.id ≠ c.id) ∧
      ∀ p q n, getPanel s c.key = some p → getPanel t c.key = some q → pushesRecord c = true → c.cq = some n →
        (tgetD p.cqs n []).length < 256 → tgetD q.cqs n [] = tgetD p.cqs n [] ++ [record]
    let room : Prop := pushesRecord c = true → cqRoom s c.key c.cq = true ∧
      ∀ p n, getPanel s c.key = some p → c.cq = some n → (tgetD p.cqs n []).length < 256
    (c.stage = 0 → taskOf c = 0 → (room → ∃ t, exec (.engineCompletion core e) s = .next t ∧ gone t ∧
        ∀ q, getPanel t c.key = some q → ∀ k ∈ q.parts, ∀ o ∈ k.owned, o.2 ≠ c.id) ∧
      (pushesRecord c = true → cqRoom s c.key c.cq = false →
        ∃ t y, exec (.engineCompletion core e) s = .next t ∧ y ∈ engineCmds t core e ∧ y.id = c.id ∧ y.stage = 2)) ∧
    ∀ part p s1, c.stage = 1 → taskOf c ≠ 0 → c.status = 0 → room → c.key.part = some part → getPanel s c.key = some p →
      decRec s part p.asid (taskOf c) c.desc core = (true, s1) →
      ∃ t, exec (.engineCompletion core e) s = .next t ∧ gone t ∧ t.mem = s1.mem ∧ t.parts = s1.parts

/-- R243, R244, R246, R248: where open regions conflict, one of another domain aborts, a rigid one aborts with CAUSE 2,
and of two elastic ones the later is placed after the earlier or aborts when its interval is empty; beside a serial
one the other is placed after it, or aborts where it has read what the serial one writes; a region that waits at AREND
commits when it can; a free serial slot goes to the first that waits. The model's own choices in it: log entries 32,
33 and 68. -/
def Obligations.RegionEvents : Prop :=
  (∀ s f e line write wf we rf re, Conflict s f e line write wf we rf re →
    let goes (p : State → Prop) : Prop := ∃ t, exec (.regionConflict f e line write) s = .next t ∧ p t
    let rigid (r : Region) : Prop := r.elastic = false ∧ r.serial = false
    let cross : Prop := partNum wf.key ≠ partNum we.key ∨ rf.dom ≠ re.dom
    let first : Prop := re.serial = true ∨ write = false ∨ line ∈ re.reads ∨ we.rlo < wf.rlo ∨
      we.rlo = wf.rlo ∧ 256 * e.core + e.slot < 256 * f.core + f.slot
    (cross → goes fun t => AbortedAt s t f 1 ∧ getWeft t e = some we) ∧
    (¬ cross → rigid rf → goes fun t => AbortedAt s t f 2 ∧ (¬ rigid re → getWeft t e = some we)) ∧
    (¬ cross → rigid re → goes fun t => AbortedAt s t e 2 ∧ (¬ rigid rf → getWeft t f = some wf)) ∧
    (¬ cross → ¬ rigid rf → ¬ rigid re →
      (rf.serial = true → write = true → line ∈ re.reads → goes fun t => AbortedAt s t e 1) ∧
      (rf.serial = true → ¬(write = true ∧ line ∈ re.reads) → Fits wf we rf → goes fun t => PlacedAfter t f e wf we rf re) ∧
      (rf.serial = false → first → Fits we wf re → goes fun t => PlacedAfter t e f we wf re rf) ∧
      (rf.serial = false → ¬ first → Fits wf we rf → goes fun t => PlacedAfter t f e wf we rf re) ∧
      (rf.serial = false → first → wf.rhi < wf.rlo ∨ wf.rhi ≤ we.rlo → goes fun t => AbortedAt s t f 1) ∧
      (rf.serial = false → ¬ first → we.rhi < we.rlo ∨ we.rhi ≤ wf.rlo → goes fun t => AbortedAt s t e 1))) ∧
  (∀ s id w r p, getWeft s id = some w → w.region = some r → (∃ b ∈ w.subs, b.hold = .arend) → commitReady s r = true →
    r.versions = [] → MemOk s → getPart s (partNum w.key) = some p → w.rlo ≠ BitVec.allOnes 64 →
    (∀ c ∈ r.buf, (∀ k off, placeOf s c.1 ≠ .peer k off) ∧ dupOf s (c.1 / 4096) = none) →
    ∃ t u, exec (.regionCommit id) s = .next t ∧ getWeft t id = some u ∧ u.region = none ∧ Rstat u 0 0 0 ∧ u.rlo = w.rlo ∧
      u.rhi = w.rlo ∧ (∀ q, regNow u q = regNow w q) ∧
      (∀ b ∈ w.subs, b.hold = .arend → ∃ c ∈ u.subs, c.pc = b.pc ∧ c.mask = b.mask ∧ c.hold = .joined) ∧
      (getDom t (partNum w.key) r.dom).floor = max (getDom s (partNum w.key) r.dom).floor (w.rlo.toNat + 1) ∧
      ∀ a, Plain (getLine s (lineOf a)) → mget t.mem a = committed r s.mem a) ∧
  ∀ s part dom p, getPart s part = some p → (getDom s part dom).slot = none → serialWaiters s part dom ≠ [] →
    ∃ t id u, exec (.serialSlotGrant part dom) s = .next t ∧ (serialWaiters s part dom).head? = some id ∧
      (getDom t part dom).slot = some id ∧ id ∉ serialWaiters t part dom ∧ getWeft t id = some u ∧
      (∀ b ∈ u.subs, b.hold ≠ .serialWait) ∧ (∃ b ∈ u.subs, b.hold = .serialGo)

/-- R251 to R253, R387, R391, R392: the message engine reads a source and delivers it here, sends it or refuses it; a
message takes the oldest posted buffer, or waits in staging for its page; the limits end it with STATUS 2 or 3; the
outcome is pushed at the sender; a retained multicast copy leaves by the branches as they have credit. The model's own
choices in it: log entries 1, 48, 50 and 80. -/
def Obligations.MessageEvents : Prop :=
  (∀ s m, (∀ y ∈ s.inMsgs, y.id ≠ m.id) → (s.msgs.find? fun y => y.id == m.id) = some m → m.data = none → m.done = false →
    let i : Instr := .messageArrival m.id
    let got := engRead s ⟨m.asid, m.key.part, m.user, m.core, m.unc⟩ m.src m.len
    let target := field m.dst 59 48
    let part := field m.dst 13 8
    let ep := field m.dst 7 0
    let ended (t : State) (st : Nat) : Prop := ∃ y ∈ t.msgs, y.id = m.id ∧ y.done = true ∧ y.outcome = st
    (∀ t, sourceAsks s m = some t → exec i s = .next t ∧ t.mem = s.mem ∧ t.msgs = s.msgs ∧ t.inMsgs = s.inMsgs) ∧
    (sourceAsks s m = none →
      (∀ va, got = .error (.denied va) → ∃ t, exec i s = .next t ∧ ended t 5) ∧
      ∀ bs s1, got = .ok (bs, s1) →
        (∀ p, target = s.pkgid.toNat → getPart s1 part = some p → ep < p.desc.nep → ∃ t y, exec i s = .next t ∧
          t.inMsgs = s.inMsgs ++ [y] ∧ y.id = m.id ∧ y.part = part ∧ y.ep = ep ∧ y.data = bs ∧ y.len = m.len ∧ y.buf = none) ∧
        (target = s.pkgid.toNat → (∀ p, getPart s1 part = some p → p.desc.nep ≤ ep) → ∃ t, exec i s = .next t ∧ ended t 3) ∧
        (target ≠ s.pkgid.toNat → target < 0xF00 → tgetD s.routes target 0 = 0 → ∃ t, exec i s = .next t ∧ ended t 3) ∧
        (target ≠ s.pkgid.toNat → target < 0xF00 → tgetD s.routes target 0 ≠ 0 → Settled s1 → ∃ t p, exec i s = .next t ∧
          Injected s1 t p ∧ p.target = BitVec.ofNat 12 target ∧ p.src = s.pkgid ∧ p.vc = 4 ∧ p.sinc = s.incarn ∧
          p.dinc = tgetD s.peers target 0 ∧ p.tag = jobTag s1 m.key.part ∧ p.op = .msg part ep bs m.id) ∧
        (target ≠ s.pkgid.toNat → 0xF00 ≤ target → frozenTag s1 (jobTag s1 m.key.part) = false → s1.retained = [] → Settled s1 →
          let branches := (List.range 16).filter fun b => bitOf (tgetD s1.groups target (0, 0)).1 b
          ∃ t, exec i s = .next t ∧ (∀ b ∈ branches, creditsOf t b 5 = creditsOf s1 b 5 - 1) ∧
            t.outbox.length = s1.outbox.length + (branches.filter fun b => decide (0 < creditsOf s1 b 5)).length ∧
            ∀ b ∈ branches, creditsOf s1 b 5 = 0 → ∃ r ∈ t.retained, b ∈ r.branches))) ∧
  (∀ s m p, (s.inMsgs.find? fun y => y.id == m.id) = some m → m.buf = none → getPart s m.part = some p →
    ∀ b rest, p.frozen = false → tgetD p.eps m.ep [] = b :: rest → cqRoom s b.key b.cq = true →
      TakesBuffer (.messageArrival m.id) s
        (wakeFor (updPart s m.part fun q => { q with eps := tset q.eps m.ep rest }) .queue fun w _ y =>
          w.key.part == some m.part && y == .endpoint m.ep) m b) ∧
  (∀ s m, (s.inMsgs.find? fun y => y.id == m.id) = some m → m.buf = none → getPart s m.part = none →
    ∃ t, exec (.messageArrival m.id) s = .next t ∧ Reported s t m 3 ∧ t.mem = s.mem) ∧
  (∀ s m b, (s.inMsgs.find? fun y => y.id == m.id) = some m → m.buf = some b → cqRoom s b.key b.cq = true →
    TakesBuffer (.stagedMessagePlacement m.id) s s m b ∧
    (limitsHeld s m.part = false → ∃ t, exec (.stagingTimeout m.id) s = .next t ∧ Received s t m b 2 ∧ t.mem = s.mem)) ∧
  (∀ s m, (s.inMsgs.find? fun y => y.id == m.id) = some m → m.buf = none → limitsHeld s m.part = false →
    ∃ t, exec (.noBufferTimeout m.id) s = .next t ∧ Reported s t m 3 ∧ t.mem = s.mem) ∧
  (∀ s m, (s.msgs.find? fun y => y.id == m.id) = some m → cqRoom s m.key m.cq = true →
    let goes (st : Nat) : Prop := ∃ t, exec (.sendCompletion m.id) s = .next t ∧ (∀ y ∈ t.msgs, y.id ≠ m.id) ∧
      Pushed s t m.key m.cq (mkCompletion m.desc 0 st m.len)
    (m.done = true → goes m.outcome) ∧
    (m.done = false → m.data ≠ none → field m.dst 59 48 ≠ s.pkgid.toNat → ∃ st, st < 4 ∧ goes st)) ∧
  ∀ s r branch, (s.retained.find? fun y => y.slot == r.slot) = some r → branch ∈ r.branches → 0 < creditsOf s branch 5 →
    r.p.vc = 5 → frozenTag s r.p.tag = false → s.mcWait = [] → ∃ t, exec (.multicastForward r.slot branch) s = .next t ∧
      creditsOf s branch 5 = creditsOf t branch 5 + 1 ∧
      t.outbox = s.outbox ++ [⟨some (4096 + r.p.target.toNat), 2, payload r.p.op⟩] ∧
      ((∀ k ∈ r.branches, k = branch) → ∀ y ∈ t.retained, y.slot ≠ r.slot) ∧
      ∀ k ∈ r.branches, k ≠ branch → ∃ y ∈ t.retained, y.slot = r.slot ∧ y.p = r.p ∧ k ∈ y.branches ∧ branch ∉ y.branches

/-- R370 to R377: a request at a stable home is granted, or opens the transaction that Table 4 gives: a forward from the
owner, invalidations of the other copies, or a merge of the privatised bytes. A write-back or eviction ends the
sender's copy, and answers a forward or an invalidation that is under way. The model's own choices in it: log entries
42 and 43. -/
def Obligations.DirectoryRequests : Prop :=
  (∀ s line r a, LineIs s line r .stb → r.open_ = none →
    let goes (i : Instr) (p : State → Prop) : Prop := ∃ t, exec i s = .next t ∧ t.wefts = s.wefts ∧ t.mem = s.mem ∧ p t
    let merges (t : State) (k : ReqKind) : Prop := OpenedAt t line r (some (a, k)) .mrg (r.masks.map (·.1))
    let ends (t : State) (k : ReqKind) (others : List Nat) : Prop :=
      (others = [] → GrantedAt t line r a k) ∧ (others ≠ [] → OpenedAt t line r (some (a, k)) .inv others)
    let written (t : State) : Prop :=
      (r.masks ≠ [] → merges t .rdx) ∧
      (∀ o, r.masks = [] → r.owner = some o → o ≠ a → heldAs r o ≠ .o → OpenedAt t line r (some (a, .rdx)) .fwd [o]) ∧
      (r.masks = [] → (∀ o, r.owner = some o → o = a ∨ heldAs r o = .o) → ends t .rdx (otherHolders r a))
    ((a < 320 ∨ a < 322 ∧ classOfLine s line = 2) → goes (.rds a line) fun t =>
      (heldAs r a = .i → r.masks ≠ [] → merges t .rds) ∧
      (∀ o, heldAs r a = .i → r.masks = [] → r.owner = some o → OpenedAt t line r (some (a, .rds)) .fwd [o]) ∧
      (heldAs r a = .i → r.masks = [] → r.owner = none → GrantedAt t line r a .rds)) ∧
    (a < 320 → goes (.rdx a line) written ∧
      goes (.upg a line) (fun t => ((heldAs r a = .s ∨ heldAs r a = .o) → ends t .upg (otherHolders r a)) ∧
        (heldAs r a ≠ .s → heldAs r a ≠ .o → written t)) ∧
      (∀ mask, goes (.prv a line mask) fun t =>
        let m := (mask.filter (· < 128)).eraseDups
        let ok := privOk s r a m (orderedPart s (linePart s line))
        (ok = true → ends t (.prv m) ((otherHolders r a).filter fun o => heldAs r o != .p)) ∧ (ok = false → written t)) ∧
      goes (.atm a line) fun t => (r.masks ≠ [] → merges t .atm) ∧
        (r.masks = [] → ends t .atm (otherHolders r 512)))) ∧
  ∀ s line r a h (dirty : Bool), LineIs s line r h → heldAs r a ≠ .i →
    let goes (p : State → Prop) : Prop := ∃ t, exec (if dirty then .wb a line else .evc a line) s = .next t ∧
      t.wefts = s.wefts ∧ t.mem = s.mem ∧ p t
    (h = .stb → heldAs r a ≠ .p → goes fun t => heldAs (getLine t line) a = .i ∧ (getLine t line).home = .stb ∧
      ∀ b, b ≠ a → heldAs (getLine t line) b = heldAs r b) ∧
    (h = .stb → heldAs r a = .p → goes fun t => OpenedAt t line r none .mrg (r.masks.map (·.1))) ∧
    (∀ b k, (h = .fwd ∧ (k = .rds ∨ k = .rdx)) ∨ (h = .inv ∧ (k = .rdx ∨ k = .upg)) → r.open_ = some (b, k) → r.pending = [a] →
      r.masks = [] → b ≠ a → (k = .rds → heldAs r b = .i ∧ ∀ o, o ≠ a → heldAs r o ≠ .m ∧ heldAs r o ≠ .e) →
      goes fun t => GrantedAt t line (setCopy r a .i) b k)

/-- R371, R373, R376, R378, R381, R382: the messages inside a transaction. A forward downgrades or drops the holder's copy
and its data serves the request; an invalidated copy is gone and the last acknowledgement grants; a merge returns the
masks' bytes; a recall drops the copies and frees the entry; a lost message starts the recovery of the line, and what
only a lost write-back held is poisoned. The model's own choices in it: log entry 42. -/
def Obligations.DirectoryMessages : Prop :=
  ∀ s line r h, LineIs s line r h →
    let goes (i : Instr) (p : State → Prop) : Prop := ∃ t, exec i s = .next t ∧ t.wefts = s.wefts ∧ t.mem = s.mem ∧ p t
    let same (t : State) (a : Nat) : Prop := ∀ b, b ≠ a → heldAs (getLine t line) b = heldAs r b
    let stays (t : State) : Prop := (getLine t line).home = h ∧ (getLine t line).open_ = r.open_ ∧ (getLine t line).waiting = []
    (∀ o b k, h = .fwd → r.pending = [o] → r.open_ = some (b, k) → heldAs r o ≠ .i → goes (.forward line) fun t =>
      stays t ∧ same t o ∧
      (k = .rds → heldAs r o = .m ∨ heldAs r o = .e ∨ heldAs r o = .o → (getLine t line).pending = [] ∧
        heldAs (getLine t line) o = match heldAs r o with | .m => .o | .e => .s | c => c) ∧
      (k ≠ .rds → (getLine t line).pending = [] ∧ heldAs (getLine t line) o = .i)) ∧
    (∀ b k, h = .fwd → r.pending = [] → r.open_ = some (b, k) → k = .rds ∨ k = .rdx → r.masks = [] →
      (k = .rds → heldAs r b = .i ∧ ∀ o, o ≠ b → heldAs r o ≠ .m ∧ heldAs r o ≠ .e) →
      goes (.forwardData line) fun t => GrantedAt t line r b k) ∧
    (∀ a, h = .inv → a ∈ r.pending → goes (.invalidation a line) fun t => stays t ∧ same t a ∧
      heldAs (getLine t line) a = .i ∧ (getLine t line).pending = r.pending) ∧
    (∀ a, h = .inv → a ∈ r.pending → heldAs r a = .i →
      ((∃ o ∈ r.pending, o ≠ a) → goes (.invalidationAck a line) fun t => stays t ∧ (getLine t line).l1 = r.l1 ∧
        (getLine t line).pending = r.pending.filter fun o => o ≠ a) ∧
      (∀ b k, (∀ o ∈ r.pending, o = a) → r.open_ = some (b, k) → k ≠ .rds →
        (∀ o, o ≠ b → heldAs r o = .i ∨ heldAs r o = .p) → goes (.invalidationAck a line) fun t => GrantedAt t line r b k)) ∧
    (∀ a, h = .mrg → a ∈ r.pending → goes (.mergeRequest a line) fun t => stays t ∧ same t a ∧
      heldAs (getLine t line) a = .i ∧ (getLine t line).pending = r.pending) ∧
    (∀ a, h = .mrg → (∀ o ∈ r.pending, o = a) → a ∈ r.pending → heldAs r a = .i → r.owner = none →
      (r.open_ = none → goes (.mergeResponse a line) fun t => (getLine t line).home = .stb ∧ (getLine t line).masks = [] ∧
        (getLine t line).llc = .m) ∧
      (∀ b, r.open_ = some (b, .rds) → heldAs r b = .i → goes (.mergeResponse a line) fun t => (getLine t line).home = .stb ∧
        (getLine t line).masks = [] ∧ heldAs (getLine t line) b = .s ∧ (getLine t line).llc = .o)) ∧
    (∀ a, h = .stb → r.masks = [] → heldAs r a ≠ .i → goes (.recall a line) fun t => (getLine t line).home = .rcl ∧ same t a ∧
      heldAs (getLine t line) a = .i ∧ (getLine t line).pending = holders r) ∧
    (∀ a, h = .rcl → a ∈ r.pending → heldAs r a = .i → r.lost = none → r.open_ = none →
      ((∃ o ∈ r.pending, o ≠ a) → goes (.recallResponse a line) fun t => stays t ∧
        (getLine t line).pending = r.pending.filter fun o => o ≠ a) ∧
      ((∀ o ∈ r.pending, o = a) → goes (.recallResponse a line) fun t => (getLine t line).home = .stb ∧
        (getLine t line).l1 = [] ∧ (getLine t line).owner = none ∧ (getLine t line).sharers = [] ∧ (getLine t line).llc = .i)) ∧
    (∀ a, h ≠ .mig → h ≠ .recov → r.masks = [] → holders r ≠ [] →
      let begun (t : State) : Prop := (getLine t line).home = .recov ∧ (getLine t line).pending = holders r ∧
        (getLine t line).lost = some a ∧ (getLine t line).l1 = r.l1
      goes (.lostMessage line (.ack a)) begun ∧ goes (.lostMessage line (.update a)) begun) ∧
    (∀ a mask, h ≠ .mig → h ≠ .recov → r.masks = [] → heldAs r a = .m → holders r = [a] → r.open_ = none →
      s.tables.mcLog = 0 ∨ line * 128 + 128 ≤ s.tables.mcLog → ∃ t,
      exec (.lostMessage line (.writeBack a mask)) s = .next t ∧ heldAs (getLine t line) a = .i ∧
      (getLine t line).home = .stb ∧ ∀ o ∈ mask, o < 128 → o ∈ (getLine t line).poison) ∧
    ∀ id w lanes, getWeft s id = some w → w.lose = none → ∀ applied : Bool, ∃ t u,
      exec (.lostMessage line (.atomic id lanes applied)) s = .next t ∧ getWeft t id = some u ∧
      u.lose = some (if applied then (lanes, 0) else (0, lanes))

/-- R360 to R367: a request is accepted with a frame from its stack and BUSY set, or dropped; a line is prepared, then
copied with its entry, and its held write follows it; the newest region that marks the line aborts with CAUSE 6 after
the wait; the switch gives the leaf entry the new frame and drops its translations, or the move goes back. The model's
own choices in it: log entries 41, 48, 65 and 66. -/
def Obligations.PageMoves : Prop :=
  (∀ s q leaf at_ f s1, s.moves.length < 64 → nextReq s s.moveReqs = some (q, .accept leaf at_) →
    dupOf s (leafPa leaf / 4096) = none → popFrame s (stackOf s q.part q.tier) = some (f, s1) →
    ∃ t m, exec .moveStart s = .next t ∧ m ∈ t.moves ∧ m.id = q.id ∧ m.oldF = leafPa leaf / 4096 ∧ m.newF = f ∧
      m.stage = .copy ∧ m.c = 0 ∧ m.dup = q.dup ∧ m.held = [] ∧ (∀ y ∈ t.moveReqs, y.id ≠ q.id) ∧
      physNum t at_ 8 = physNum s1 at_ 8 ||| 2 ^ 17 ∧ ∀ a, a < at_ ∨ at_ + 8 ≤ a → mget t.mem a = mget s1.mem a) ∧
  (∀ s q, s.moves.length < 64 → nextReq s s.moveReqs = some (q, .drop) → ∃ t, exec .moveStart s = .next t ∧
    t.moves = s.moves ∧ t.mem = s.mem ∧ ∀ y ∈ t.moveReqs, y.id ≠ q.id) ∧
  (∀ s (asid : BitVec 16) vpage m r, moveAt s asid.toNat vpage = some m → r.masks = [] →
    let o := m.oldF * 32 + m.c
    let n := m.newF * 32 + m.c
    let goes (p : State → Prop) : Prop := ∃ t, exec (.moveLineCopy asid vpage) s = .next t ∧ p t
    let now (t : State) (stage : MoveStage) (c : Nat) : Prop := ∃ y ∈ t.moves, y.id = m.id ∧ y.stage = stage ∧ y.c = c
    let only (t : State) (line : Nat) : Prop := ∀ a, lineOf a ≠ line → mget t.mem a = mget s.mem a
    (m.c < 32 → m.stage = .copy ∨ m.stage = .waitMarks → LineIs s o r .stb → goes fun t => now t .copying m.c ∧ t.mem = s.mem ∧
      (getLine t o).home = .mig ∧ ∀ a, heldAs (getLine t o) a = match heldAs r a with | .m | .o | .e => .s | c => c) ∧
    (m.c < 32 → m.stage = .copy → (getLine s o).home = .stb → ownedAway s o = false → (∃ w ∈ s.wefts, getWeft s w.id = some w ∧
      ∃ g, w.region = some g ∧ (o ∈ g.reads ∨ o ∈ g.writes)) → goes fun t => now t .waitMarks m.c) ∧
    (m.stage = .copying → m.dup = false → m.c < 32 → LineIs s o r .mig → moveAsks s m o = none →
      (m.held = [] → goes fun t => now t .copy (m.c + 1) ∧ only t n ∧ (getLine t n).home = .stb ∧
        (∀ a, heldAs (getLine t n) a = heldAs r a) ∧ ∀ i, i < 128 → mget t.mem (n * 128 + i) = mget s.mem (o * 128 + i)) ∧
      (∀ h, m.held = [h] → h.op = none → lineOf h.pa = o → h.pa % 128 + h.data.length ≤ 128 →
        goes fun t => now t .copy (m.c + 1) ∧ only t n ∧
        ∀ i, i < 128 → mget t.mem (n * 128 + i) =
          if h.pa % 128 ≤ i ∧ i < h.pa % 128 + h.data.length then h.data.getD (i - h.pa % 128) 0 else mget s.mem (o * 128 + i))) ∧
    (m.stage = .copying → m.dup = true → LineIs s o r .mig → moveAsks s m o = none →
      (m.c < 31 → goes fun t => now t .copy (m.c + 1) ∧ only t n ∧ (getLine t o).home = .stb ∧
        ∀ i, i < 128 → mget t.mem (n * 128 + i) = mget s.mem (o * 128 + i)) ∧
      (m.c = 31 → goes fun t => (∀ y ∈ t.moves, y.id ≠ m.id) ∧ ∃ d ∈ t.dups, d.frame = m.oldF ∧ d.copy = m.newF)) ∧
    (m.stage = .back → m.c < 32 → LineIs s n r .stb → moveAsks s m n = none → goes fun t => now t .back (m.c + 1) ∧ only t o ∧
      ∀ i, i < 128 → mget t.mem (o * 128 + i) = mget s.mem (n * 128 + i)) ∧
    (m.stage = .back → 32 ≤ m.c → stackLocked s (stackOf s m.part (tierOf (m.newF * 4096))) = false →
      goes fun t => ∀ y ∈ t.moves, y.id ≠ m.id)) ∧
  (∀ s (asid : BitVec 16) vpage m, moveAt s asid.toNat vpage = some m → m.stage = .waitMarks → (s.wefts.map (·.id)).Nodup →
    let mine (w : Weft) (g : Region) : Prop := w.region = some g ∧ g.serial = false ∧
      (m.oldF * 32 + m.c ∈ g.reads ∨ m.oldF * 32 + m.c ∈ g.writes)
    (∃ w ∈ s.wefts, ∃ g, mine w g) → ∃ t w g, exec (.migrationRegionWaitExpiry asid vpage) s = .next t ∧ w ∈ s.wefts ∧
      mine w g ∧ AbortedAt s t w.id 6 ∧ ∀ v ∈ s.wefts, ∀ k, mine v k → k.opened ≤ g.opened) ∧
  ∀ s (asid : BitVec 16) vpage m, moveAt s asid.toNat vpage = some m → switchReady s m = true →
    let e := physNum s m.leafPa 8
    let rest (x : Nat) : Nat := setField x 15 14 0
    (rest e ≠ rest m.expect → ∃ t y, exec (.moveSwitch asid vpage) s = .next t ∧ y ∈ t.moves ∧ y.id = m.id ∧ y.stage = .back ∧
      y.c = 0 ∧ t.mem = s.mem) ∧
    (rest e = rest m.expect → m.oldF ≠ m.newF →
      let s1 := writeNum s m.leafPa 8 (setField (setField e 57 18 m.newF) 17 17 0)
      ∃ t, exec (.moveSwitch asid vpage) s = .next t ∧ (∀ y ∈ t.moves, y.id ≠ m.id) ∧
        (∀ y ∈ t.tlb, ¬(y.vpage = m.vpage ∧ y.asid = m.asid)) ∧ (getPage t m.newF).pins = (getPage s m.oldF).pins ∧
        (getPage t m.newF).leader = (getPage s m.oldF).leader ∧ (getPage t m.newF).counts = [] ∧
        t.mem = (moveRecord (pushFrame s1 m.part m.asid m.vpage m.oldF) m.part m.count m.cause m.asid m.vpage m.newF m.oldF).mem)

/-- R334, R380, R415, R416, R427, R428: a host client reads and writes memory, its mailbox and its queue windows through
its virtual function; an access that its tables refuse freezes the partition; a memory node's back-invalidation ends
every copy of the line and is answered; a port's DevLoad code follows its load and its limit. The model's own choices
in it: log entries 18, 48 and 56. -/
def Obligations.HostAndPool : Prop :=
  (∀ s port part va p, getPart s part = some p → port ≤ 1 → (∀ y ∈ s.atPorts, portOf y ≠ some (256 + port)) →
    let m : EngFor := ⟨p.desc.asidLo, some part, true, 320 + port, false⟩
    let goes (op : HostOp) (q : State → Prop) : Prop := ∃ t, exec (.hostMemoryRequest port part va op) s = .next t ∧ q t
    let frozen (t : State) : Prop := ∃ u, getPart t part = some u ∧ u.frozen = true
    (∀ n bs s1, engRead s m va.toNat n = .ok (bs, s1) → hostAsks s port part p va.toNat (.read n) = none → Settled s1 →
      goes (.read n) fun t => Responded s1 t (320 + port) 4 port bs ∧ t.mem = s1.mem) ∧
    (∀ n a, engRead s m va.toNat n = .error (.denied a) ∨ engRead s m va.toNat n = .error (.absent a) →
      hostAsks s port part p va.toNat (.read n) = none → goes (.read n) frozen) ∧
    (∀ data s1, engCanWrite s m va.toNat data.length = none → engWrite s m va.toNat data = (none, s1) → Settled s1 →
      goes (.write data) fun t => Responded s1 t (320 + port) 6 port [] ∧ t.mem = s1.mem) ∧
    (∀ data a, engCanWrite s m va.toNat data.length = some (.denied a) ∨ engCanWrite s m va.toNat data.length = some (.absent a) →
      goes (.write data) frozen) ∧
    goes (.bar 0x2000) (fun t => t.mem = s.mem ∧ (Settled s →
      Responded s t (320 + port) 4 port (toBytes 8 (p.frozen.toNat + 256 * part + 65536 * s.incarn.toNat)))) ∧
    (∀ off bs, 0x1000 ≤ off → off + 8 ≤ 0x2000 →
      deviceRead s p.desc.asidLo (some part) (p.desc.mbox + (off - 0x1000)) 8 = .ok bs →
      goes (.bar off) fun t => (Settled s → Responded s t (320 + port) 4 port bs) ∧
        t.mem = (deviceTouch s p.desc.asidLo (some part) (p.desc.mbox + (off - 0x1000)) 8).mem) ∧
    (∀ off data s1, 0x1000 ≤ off → off + data.length ≤ 0x2000 →
      deviceWrite s p.desc.asidLo (some part) (p.desc.mbox + (off - 0x1000)) data = .ok s1 →
      goes (.barWrite off data) fun t => (Settled s1 → Responded s1 t (320 + port) 6 port []) ∧ t.mem = s1.mem) ∧
    (∀ off data, off < 0x200 → off % 8 ≠ 0 ∨ data.length ≠ 8 → goes (.barWrite off data) frozen) ∧
    ∀ off data, off < 0x200 → off % 8 = 0 → data.length = 8 →
      ∃ t, exec (.queueWindowStore port part (off / 8) (BitVec.ofNat 64 (ofBytes data)) 8) s = .next t ∧
        goes (.barWrite off data) fun u => u = dropFetches t (.port port)) ∧
  (∀ s line data r, tierOf (line * 128) = 3 → LineIs s line r .stb → homeAwake s line = true → data.length = 128 →
    (∀ y ∈ s.atPorts, portOf y ≠ some 512) → ∃ t, exec (.bisnp line data) s = .next t ∧
      (∀ i, i < 128 → mget t.mem (line * 128 + i) = data.getD i 0) ∧ (∀ a, lineOf a ≠ line → mget t.mem a = mget s.mem a) ∧
      (∀ a, a ≠ 512 → heldAs (getLine t line) a = .i) ∧ (getLine t line).llc = .i ∧
      t.outbox = s.outbox ++ [⟨some (4096 + (fabricOf s (line * 128)).1), 11, toBytes 8 (line * 128)⟩]) ∧
  ∀ s port load (held : Bool), port < 18 →
    let e := physNum s (s.tables.limits + 8 * port) 8
    let limit := if s.tables.limits = 0 ∨ field e 63 16 ≠ 0 then 0 else field e 15 0
    ∃ t c, exec (.devloadWindow port load held) s = .next t ∧ tget t.devload port = some c ∧ (limit = 0 → c = 0) ∧
      (limit ≠ 0 → (held = true → c = 3) ∧ (held = false → (2 * load < limit → c = 0) ∧
        (limit ≤ 2 * load → 10 * load ≤ 9 * limit → c = 1) ∧ (9 * limit < 10 * load → c = 2)))

/-- R253, R331, R332, R334, R383, R386 to R390: a packet of an old incarnation is dropped and counted; an admitted access
is carried out at its home and answered, any other refused; a response, a refusal, an acknowledgement or the end of a
wait goes to the unit, the posted write, the message or the asker of a line that it concerns; a credit lets the oldest
packet leave. The model's own choices in it: log entries 18, 47 and 48. -/
def Obligations.FabricEvents : Prop :=
  (∀ s port p x, port ≤ 15 → (s.ports.find? fun y => y.num == port) = some x →
    let i : Instr := .fabricMemoryAccess port p
    let dest := 4096 + p.src.toNat
    let stale : Prop := p.dinc ≠ s.incarn ∨ p.sinc ≠ if p.src = s.pkgid then s.incarn else tgetD s.peers p.src.toNat 0
    let count (t : State) (drops refusals : Nat) : Prop := ∃ y ∈ t.ports, y.num = port ∧ y.drops = drops ∧ y.refusals = refusals
    (stale → ∃ t, exec i s = .next t ∧ t.mem = s.mem ∧ t.outbox = s.outbox ∧ count t (x.drops + 1) x.refusals) ∧
    (¬ stale → p.tag = 0 → (∀ y ∈ s.atPorts, portOf y ≠ some port) →
      let write : Bool := match p.op with | .read => false | _ => true
      (∀ part ep data sid, p.op = .msg part ep data sid →
        (∀ q, getPart s part = some q → ep < q.desc.nep → ∃ t m, exec i s = .next t ∧ t.inMsgs = s.inMsgs ++ [m] ∧ m.sid = sid ∧
          m.part = part ∧ m.ep = ep ∧ m.data = data ∧ m.src = p.src.toNat ∧ m.buf = none) ∧
        (getPart s part = none → p.src ≠ s.pkgid → ∃ t, exec i s = .next t ∧ t.inMsgs = s.inMsgs ∧ count t x.drops (x.refusals + 1) ∧
          t.outbox = s.outbox ++ [⟨some dest, 3, toBytes 1 3 ++ toBytes 4 data.length ++ toBytes 8 sid⟩])) ∧
      ((∀ part ep data sid, p.op ≠ .msg part ep data sid) → p.vc ≠ 2 → p.src ≠ s.pkgid →
        mmuFrame s p.offset p.src.toNat write = none ∨ p.op = .own ∧ mmuFrame s p.offset p.src.toNat false = none →
        ∃ t, exec i s = .next t ∧ t.mem = s.mem ∧ Responded s t dest 5 (port + 2) [] ∧ count t x.drops (x.refusals + 1)) ∧
      (∀ pa cc part, p.vc ≠ 2 → p.src ≠ s.pkgid → mmuFrame s p.offset p.src.toNat write = some (pa, cc, part) →
        let goes (n : Nat) (q : State → Prop) : Prop := ServedAt s pa n cc → ∃ t, exec i s = .next t ∧
          (∀ a, a < pa ∨ pa + n ≤ a → mget t.mem a = mget s.mem a) ∧ q t
        let old (k : Nat) : Nat := physNum s pa k
        let answered (t : State) (kind : Nat) (bs : List Byte) : Prop := ∃ s1, s1.devload = s.devload ∧ Responded s1 t dest kind (port + 2) bs
        (p.op = .read → goes p.bytes fun t => t.mem = s.mem ∧ answered t 4 (mread s.mem pa p.bytes)) ∧
        (p.op = .own → (∃ y, mmuFrame s p.offset p.src.toNat false = some y) → goes p.bytes fun t =>
          t.mem = s.mem ∧ answered t 4 (mread s.mem pa p.bytes)) ∧
        (∀ d, p.op = .write d → goes d.length fun t => mread t.mem pa d.length = d ∧ answered t 6 []) ∧
        (∀ o mod v, o ≠ 10 → p.op = .atom o mod v → let k := atomWidth o mod
          goes k fun t => physNum t pa k = atomNew o mod k (old k) (v.toNat % 2 ^ (8 * k)) % 2 ^ (8 * k) ∧
            answered t 4 (toBytes k (old k))) ∧
        (∀ wide v w, p.op = .cas wide v w → let k := if wide then 8 else 4
          goes k fun t => physNum t pa k = (if old k = v.toNat % 2 ^ (8 * k) then w.toNat % 2 ^ (8 * k) else old k) ∧
            answered t 4 (toBytes k (old k))) ∧
        (∀ o mod v, o ≠ 10 → p.op = .red o mod v none → let k := atomWidth o mod
          goes k fun t => physNum t pa k = atomNew o mod k (old k) (v.toNat % 2 ^ (8 * k)) % 2 ^ (8 * k) ∧ answered t 6 []) ∧
        (∀ mod v, p.op = .atom 10 mod v → let k := atomWidth 10 mod
          let g := fmtOf mod
          (shadowed g = false → goes k fun t => answered t 4 (toBytes k (old k)) ∧
            physNum t pa k = (faddV g .rne false (decodeF g (old k)) (decodeF g (v.toNat % 2 ^ (8 * k)))).1 % 2 ^ (8 * k)) ∧
          (shadowed g = true → fullShadowSlice s (lineOf pa) = none → goes k fun t => t.mem = s.mem ∧
            (∃ h, (getLine t (lineOf pa)).shadows = [h] ∧ h.pa = pa) ∧ ∃ bs, answered t 4 bs)) ∧
        (∀ o mod v key, p.op = .red o mod v (some key) → fullGatherSlice s (lineOf pa) = none →
          goes (atomWidth o mod) fun t => t.mem = s.mem ∧ answered t 6 [] ∧
            (getLine t (lineOf pa)).gather.map (·.val) = [v.toNat % 2 ^ (8 * atomWidth o mod)])) ∧
      (∀ d r w, p.op = .write d → p.vc = 2 → d.length ≤ 128 - p.offset % 128 →
        s.outReqs.find? (answers p) = some r → asksAtom r = false → getWeft s r.w = some w → Unposted s (r.pa / 128) →
        NoneHeld s r.id → ∃ t u, exec i s = .next t ∧ t.outReqs = s.outReqs.erase r ∧
          mread t.mem (r.pa / 128 * 128 + p.offset % 128) d.length = d ∧ getWeft t r.w = some u ∧
          ((∀ y ∈ t.outReqs, y.id ≠ r.id) → ∀ b ∈ w.subs, ∀ l, b.hold = .remote r.id l →
            ∃ c ∈ u.subs, c.pc = b.pc ∧ c.mask = b.mask ∧ c.hold = .remoteDone l)) ∧
      (∀ d f, p.op = .write d → p.vc = 2 → d.length ≤ 128 - p.offset % 128 → s.outReqs.find? (answers p) = none →
        s.fetches.find? (feeds p) = some f → ∃ t, exec i s = .next t ∧
          (∃ y ∈ t.fetches, y = { f with done := true, old := ofBytes d }) ∧ (f.op ≠ .read → t.mem = s.mem) ∧
          (f.op = .read → Unposted s (f.pa / 128) →
            let at_ := f.pa / 128 * 128 + p.offset % 128
            mread t.mem at_ d.length = d ∧ ∀ a, a < at_ ∨ at_ + d.length ≤ a → mget t.mem a = mget s.mem a)) ∧
      (∀ d r w, p.op = .write d → p.vc = 2 → s.outReqs.find? (answers p) = some r → asksAtom r = true → getWeft s r.w = some w →
        NoneHeld s r.id → ∃ t u, exec i s = .next t ∧ t.outReqs = s.outReqs.erase r ∧ t.mem = s.mem ∧ getWeft t r.w = some u ∧
          ∀ b ∈ w.subs, ∀ l, b.hold = .remote r.id l → ∃ c ∈ u.subs, c.pc = b.pc ∧ c.mask = b.mask ∧
            c.hold = (if ∃ y ∈ t.outReqs, y.id = r.id then .remote r.id (l ++ [(r.lane, ofBytes d)])
              else .remoteDone (l ++ [(r.lane, ofBytes d)]))))) ∧
  (∀ s r, (s.outReqs.find? fun y => y.id == r.id) = some r →
    (∃ t, exec (.fabricRefusal r.id) s = .next t ∧ RequestFailed s t r 9) ∧
    (waitsHeld s ((getWeft s r.w).bind fun w => w.key.part) = false →
      ∃ t, exec (.fabricResponseTimeout r.id) s = .next t ∧ RequestFailed s t r 20 ∧ t.mem = s.mem)) ∧
  (∀ s f w lane v b, (∀ y ∈ s.outReqs, y.id ≠ f.id) → (∀ y ∈ s.postedW, y.id ≠ f.id) → (∀ y ∈ s.msgs, y.id ≠ f.id) →
    (s.fetches.find? fun y => y.id == f.id) = some f → f.done = false → f.unit = some (w, lane) →
    (∀ n, f.who ≠ .device n) → (∀ k n q, f.who ≠ .symbol k n q) → (∀ n, f.who ≠ .queue n) →
    getWeft s w = some v → subAt v lane = some b → b.hold = .none →
    let failed (t : State) (code : Nat) : Prop := ∃ u c, getWeft t w = some u ∧ c ∈ u.subs ∧ c.pc = b.pc ∧ c.mask = b.mask ∧
      c.hold = .walkFault code f.va
    (∃ t, exec (.fabricRefusal f.id) s = .next t ∧ failed t 9 ∧ ∀ y ∈ t.fetches, y.who = f.who → y.done = true) ∧
    (waitsHeld s f.part = false → ∃ t, exec (.fabricResponseTimeout f.id) s = .next t ∧ failed t 20 ∧ t.mem = s.mem ∧
      ∀ y ∈ t.fetches, y.id ≠ f.id)) ∧
  (∀ s w, (s.postedW.find? fun y => y.id == w.id) = some w → w.sent = true →
    ((∀ y ∈ s.outReqs, y.id ≠ w.id) → ∃ t, exec (.fabricRefusal w.id) s = .next t ∧ PostedDone t w.id) ∧
    ∃ t, exec (.postedWriteAck w.id) s = .next t ∧ PostedDone t w.id ∧ t.mem = s.mem ∧
      ∀ l y r, (s.postedW.filter fun y => y.id ≠ w.id) = l ++ y :: r → y.sent = false → BitVec.ofNat 12 y.target ≠ s.pkgid →
        (∀ k ∈ postLines y, readsOut s k = false ∧ ∀ z ∈ l, k ∉ postLines z) →
        (∃ z ∈ t.postedW, z.id = y.id ∧ z.sent = true) ∧ ∃ (p : Packet) (out : List Reply) (bufs : List BufPkt), p.op = y.op ∧
          p.target = BitVec.ofNat 12 y.target ∧ p.offset = y.offset ∧ p.vc = 1 ∧ t.outbox = s.outbox ++ out ∧
          t.buffers = s.buffers ++ bufs ∧
          (⟨some (4096 + p.target.toNat), 2, payload p.op⟩ ∈ out ∨ ∃ b ∈ bufs, b.p = p)) ∧
  (∀ s m, (s.msgs.find? fun y => y.id == m.id) = some m → m.done = false → m.data ≠ none →
    (∀ y ∈ s.outReqs, y.id ≠ m.id) → (∀ y ∈ s.postedW, y.id ≠ m.id) →
    (∃ t, exec (.fabricRefusal m.id) s = .next t ∧ MessageEnded t m.id 3) ∧
    (field m.dst 59 48 ≠ s.pkgid.toNat → waitsHeld s m.key.part = false →
      ∃ t, exec (.fabricResponseTimeout m.id) s = .next t ∧ MessageEnded t m.id 4)) ∧
  (∀ s id w m, getWeft s id = some w → w.subs.findSome? sysLanes = some m → waitsHeld s w.key.part = false → ∃ t u,
    exec (.sysReleaseTimeout id) s = .next t ∧ getWeft t id = some u ∧ t.mem = s.mem ∧
    (u.subs = w.subs.map fun b => if b.hold = .sysWait m then { b with hold := .walkFault 20 0 } else b) ∧
    (∀ y ∈ t.postedW, y.owner.any (boundaryAgent w m) = false) ∧
    ∀ y ∈ s.postedW, y.owner.any (boundaryAgent w m) = false → y ∈ t.postedW) ∧
  (∀ s (src : BitVec 12) inc,
    let old := tget s.peers src.toNat
    ∃ t, exec (.incarnationNotice src inc) s = .next t ∧ tget t.peers src.toNat = some inc ∧
      (old = some inc → t = { s with peers := t.peers }) ∧
      (old ≠ some inc → s.substs = [] → (∀ y ∈ t.outReqs, y.target ≠ src.toNat) ∧
        (∀ y ∈ s.postedW, y.target = src.toNat → y.sent = true → ∀ z ∈ t.postedW, z.id ≠ y.id) ∧
        (∀ m ∈ s.msgs, m.data ≠ none → m.done = false → field m.dst 59 48 = src.toNat → MessageEnded t m.id 4) ∧
        (∀ y ∈ t.lines, src.toNat ∉ y.remotes))) ∧
  ∀ s port vc x, (s.ports.find? fun y => y.num == port) = some x →
    let waits (b : BufPkt) : Bool := b.port == some port && b.p.vc == vc && !frozenTag s b.p.tag
    ∃ t, exec (.virtualChannelCredit port vc) s = .next t ∧
      (s.buffers.find? waits = none → creditsOf t port vc = creditsOf s port vc + 1 ∧ t.buffers = s.buffers ∧ t.outbox = s.outbox) ∧
      ∀ b, s.buffers.find? waits = some b → creditsOf t port vc = creditsOf s port vc ∧ t.buffers = s.buffers.erase b ∧
        t.outbox = s.outbox ++ [⟨some (4096 + b.p.target.toNat), 2, payload b.p.op⟩]

/-- R397: a packet of a sealed job that arrives at a port of the member is dropped and counted in the port's drop counter,
with a FABRIC_LATE record in the error queue of each of the job's partitions; no weft of the package sees anything. -/
def Obligations.LatePackets : Prop :=
  ∀ s port p x, port ≤ 15 → (s.ports.find? fun y => y.num == port) = some x → p.tag ≠ 0 →
    p.dinc = s.incarn → (p.sinc = if p.src = s.pkgid then s.incarn else tgetD s.peers p.src.toNat 0) →
    (∃ y ∈ s.substs, y.job = p.tag ∧ y.stage = 2) →
    let late (u : State) (k : Nat) : State := errRecord u (some k) 6 19 0 (323 + port) p.tag 0 0
    ∃ t, exec (.fabricMemoryAccess port p) s = .next t ∧ t.wefts = s.wefts ∧
      (∃ y ∈ t.ports, y.num = port ∧ y.drops = x.drops + 1 ∧ y.refusals = x.refusals) ∧
      t = { ((List.range 64).filter fun k => bitOf (jobParts s p.tag) k).foldl late { s with ports := t.ports } with
        atPorts := t.atPorts }

/-- R301, R394 to R398: a member freezes and sweeps its job, or answers status 3; a returned packet becomes a record of
the save area, or finds it full; the last marker, or the end of the wait for markers, seals the sweep; the last report
ends the command with its status; a resumed member sends its records again, lets the job go on and reports. The
model's own choices in it: log entries 6, 18, 49 and 64. -/
def Obligations.SubstitutionEvents : Prop :=
  let report (t : Nat) (job st : Nat) : Reply := ⟨some (4096 + t), 9, toBytes 2 job ++ toBytes 1 st⟩
  (∀ s job (src : BitVec 12),
    let i : Instr := .substitutionRequest job src
    let e := s.tables.jobs + 64 * job
    let save := physNum s (e + 16) 8
    let targets := s.routes.filter fun e => e.2 ≠ 0
    (jobKnown s job = false ∨ jobTaken s job = true → exec i s = .next { s with outbox := s.outbox ++ [report src.toNat job 3] }) ∧
    (jobKnown s job = true → s.substs = [] → (∀ b ∈ s.buffers ++ s.mcWait, b.p.tag ≠ job) → (∀ r ∈ s.retained, r.p.tag ≠ job) →
      ∃ t x, exec i s = .next t ∧ getSubst t job = some x ∧ x.save = save ∧ x.cap = 4096 * physNum s (e + 24) 4 ∧
        x.nrec = 0 ∧ x.remoteIssuer = some src.toNat ∧
        (∀ w ∈ s.wefts, getWeft s w.id = some w → inJob s job w = true → ∃ u, getWeft t w.id = some u ∧ u.gangHeld = true ∧
          u.region = none ∧ ∀ q, regNow u q = regNow w q) ∧
        ((∀ n, n < 16 → ∀ y ∈ targets, bitOf y.2 n = false) → x.stage = 2 ∧ physNum t save 4 = 2 ∧
          t.outbox = s.outbox ++ targets.map (fun y => ⟨some (4096 + y.1), 8, toBytes 2 job⟩) ++ [report src.toNat job 0]) ∧
        ((∃ n, n < 16 ∧ ∃ y ∈ targets, bitOf y.2 n = true) → x.stage = 1 ∧ physNum t save 4 = 1 ∧
          (∀ n, n ∈ x.awaitPorts ↔ n < 16 ∧ ∃ y ∈ targets, bitOf y.2 n = true) ∧
          t.outbox = s.outbox ++ targets.map fun y => ⟨some (4096 + y.1), 8, toBytes 2 job⟩))) ∧
  (∀ s job x, getSubst s job = some x → x.stage = 1 →
    let sealed (i : Instr) : Prop := ∃ t y, exec i s = .next t ∧ getSubst t job = some y ∧ y.stage = 2 ∧ y.awaitPorts = [] ∧
      physNum t x.save 4 = 2 ∧ physNum t (x.save + 4) 2 = job % 2 ^ 16 ∧ physNum t (x.save + 12) 4 = x.nrec % 2 ^ 32 ∧
      ∀ k, x.remoteIssuer = some k → t.outbox = s.outbox ++ [report k job 0]
    (∀ port p, p.tag = job →
      let bs := sweptRecord (2, port, p)
      (64 + x.used + bs.length ≤ x.cap → ∃ t, exec (.sweptPacketReturn job port p) s = .next t ∧
        getSubst t job = some { x with nrec := x.nrec + 1, used := x.used + bs.length, swept := x.swept ++ [(2, port, p)] } ∧
        mread t.mem (x.save + 64 + x.used) bs.length = bs) ∧
      (x.cap < 64 + x.used + bs.length → ∃ t y, exec (.sweptPacketReturn job port p) s = .next t ∧ getSubst t job = some y ∧
        y.stage = 3 ∧ physNum t x.save 4 = 1 ∧ t.buffers = s.buffers ++ [⟨some port, p⟩] ∧
        ∀ k, x.remoteIssuer = some k → t.outbox = s.outbox ++ [report k job 1])) ∧
    (∀ port, port ∈ x.awaitPorts →
      ((∃ n ∈ x.awaitPorts, n ≠ port) → ∃ t, exec (.sweepDoneMarker job port) s = .next t ∧ t.mem = s.mem ∧
        getSubst t job = some { x with awaitPorts := x.awaitPorts.filter fun n => n ≠ port }) ∧
      ((∀ n ∈ x.awaitPorts, n = port) → sealed (.sweepDoneMarker job port))) ∧
    sealed (.sweepMarkerTimeout job)) ∧
  (∀ s job x (member : BitVec 12) st, getSubst s job = some x → member.toNat ∈ x.members → (∀ r ∈ x.reports, r.1 ≠ member.toNat) →
    let reports := x.reports ++ [(member.toNat, st)]
    let missing := ∃ k ∈ s.pkgid.toNat :: x.members, ∀ r ∈ reports, r.1 ≠ k
    (missing → ∃ t, exec (.sealReport job member st) s = .next t ∧ getSubst t job = some { x with reports := reports }) ∧
    (∀ id lane w, ¬ missing → x.issuer = some (id, lane) → getWeft s id = some w →
      ∃ t u n, exec (.sealReport job member st) s = .next t ∧
      getWeft t id = some u ∧ u.subs = w.subs.map (fun b => if b.hold = .gang job then { b with hold := .gangDone n } else b) ∧
      ((∃ r ∈ reports, r.2 = 1) → n = 1) ∧
        ((∀ r ∈ reports, r.2 ≠ 1) → (∀ r ∈ reports, r.2 ≤ n) ∧ (n = 0 ∨ ∃ r ∈ reports, r.2 = n)))) ∧
  ∀ s job x k, getSubst s job = some x → x.stage = 2 → x.remoteIssuer = some k →
    (∀ b ∈ s.buffers, b.p.tag = job → b.port ≠ none) →
    ∃ t, exec (.resumeRequest job) s = .next t ∧ (∀ y ∈ t.substs, y.job ≠ job) ∧
      (∀ w ∈ s.wefts, getWeft s w.id = some w → ∃ u, getWeft t w.id = some u ∧ u.gangHeld = (w.gangHeld && !inJob t job w)) ∧
      physNum t x.save 4 = 3 ∧ t.outbox.getLast? = some (report k job 0) ∧
      (x.swept = [] → t.outbox = s.outbox ++ [report k job 0]) ∧
      ∀ e, x.swept = [e] → 0 < creditsOf s e.2.1 e.2.2.vc → creditsOf t e.2.1 e.2.2.vc + 1 = creditsOf s e.2.1 e.2.2.vc ∧
        t.outbox = s.outbox ++ [⟨some (4096 + e.2.2.target.toNat), 2, payload e.2.2.op⟩, report k job 0]

/-- R388, R393, R429, R430, R433 to R437: a compute die that holds no line resets once its panels are destroyed, else at
its deadline; any other die, or the package reset itself, leaves no panel and no partition and raises INCARN once the
monitor has been verified; power commands are refused or set the level; a die at its limit goes to PL3 and the host
hears of it. The model's own choices in it: log entries 15, 16 and 18. -/
def Obligations.DiesAndPower : Prop :=
  (∀ s die, die ≤ 3 →
    let left (t : State) : Prop := (∀ p ∈ t.panels, ∀ c ∈ p.cores, dieOf c ≠ die) ∧
      ∀ w ∈ t.wefts, ∀ p ∈ s.panels, p.key = w.key → ∀ c ∈ p.cores, dieOf c ≠ die
    let clear (t : State) : Prop := (∀ c ∈ t.cores, dieOf c.num ≠ die) ∧ die ∉ t.quiescing ∧
      ∀ r ∈ t.lines, ∀ a, a < 320 → dieOf a = die → heldAs r a = .i
    let idle : Prop := (s.lines.map (·.line)).Nodup ∧ ∀ r ∈ s.lines, r.home = .stb ∧ r.pending = [] ∧ r.open_ = none ∧ r.waiting = []
    (∃ t, exec (.dieReset die) s = .next t ∧ left t) ∧
    (idle → ∃ t, exec (.dieReset die) s = .next t ∧ clear t) ∧
    (die ∈ s.quiescing → (s.lines.map (·.line)).Nodup → ∃ t, exec (.dieQuiesceDeadline die) s = .next t ∧ clear t) ∧
    (∀ r a, die ∈ s.quiescing → s.lines = [r] → s.tables.mcLog = 0 → r.home = .stb → r.open_ = none → r.waiting = [] →
      Plain r → r.masks = [] → r.l1 = [(a, .m)] → a < 320 → dieOf a = die → ∃ t, exec (.dieQuiesceDeadline die) s = .next t ∧
        ∀ o, o < 128 → o ∈ (getLine t r.line).poison)) ∧
  (∀ s, let image := if s.sec.image = [] then Config.firmwareImage 1 else s.sec.image
    let fresh (t : State) : Prop := t.panels = [] ∧ t.wefts = [] ∧ (∀ p, getPart t p = none) ∧ t.lines = [] ∧ t.tlb = [] ∧
      t.landings = [] ∧ t.buffers = [] ∧ t.outReqs = [] ∧ t.sec.index = s.sec.index ∧ t.sec.session = 0 ∧ t.sec.ideKeys = []
    ∃ t, exec .packageReset s = .next t ∧ fresh t ∧ (Config.xmssVerify image = false → t.started = false) ∧
      (Config.xmssVerify image = true → t.started = true ∧ t.incarn = s.incarn + 1 ∧ (∀ n, n < 16 → ∃ p ∈ t.ports, p.num = n) ∧
        tget t.sec.slots 1 = some (Config.shake256 (zeros 64 ++ image)) ∧
        ∀ e ∈ s.routes, e.2 ≠ 0 → e.1 ≠ s.pkgid.toNat → ⟨some (4096 + e.1), 12, toBytes 4 (s.incarn + 1).toNat⟩ ∈ t.outbox) ∧
      ∀ die, 4 ≤ die → die ≤ 7 → exec (.dieReset die) s = .next t) ∧
  (∀ s die level,
    let old := powerOf s die
    let told (t : State) (st : Nat) : Prop := t.outbox.getLast? = some ⟨none, 13, toBytes 1 st ++ toBytes 1 die ++ toBytes 1 (powerOf t die)⟩
    let resident : Prop := ∃ p ∈ s.panels, ∃ c ∈ p.cores, if die ≤ 3 then dieOf c = die else c < 256
    let goes (p : State → Prop) : Prop := ∃ t, exec (.setPowerLevel die level) s = .next t ∧ p t
    (7 < die ∨ 5 < level ∨ 4 ≤ level ∧ resident ∨ die ∈ s.hot ∧ old = 3 ∧ level ≠ 3 →
      goes fun t => t = { s with outbox := t.outbox } ∧ told t 1) ∧
    (die ≤ 7 → level ≤ 3 → old ≤ 3 → level ≠ old → die ∉ s.hot → goes fun t => powerOf t die = level ∧ told t 0 ∧ t.mem = s.mem ∧
      (die ≤ 3 → ∀ w ∈ s.wefts, getWeft s w.id = some w → dieOf w.id.core = die → ∃ u, getWeft t w.id = some u ∧
        (∀ q, regNow u q = regNow w q) ∧ u.halted = w.halted ∧ (level = 3 → u.plHeld = true ∧ u.region = none) ∧
        (old = 3 → u.plHeld = false))) ∧
    (die ≤ 3 → level = 4 ∨ level = 5 → ¬ resident → old < 4 → die ∉ s.hot → goes fun t => powerOf t die = level ∧ told t 0 ∧
      ∀ c ∈ t.cores, dieOf c.num ≠ die)) ∧
  ∀ s die, die ≤ 7 → ∃ t, exec (.thermalTrip die) s = .next t ∧ die ∈ t.hot ∧ powerOf t die = max 3 (powerOf s die) ∧
    t.outbox.getLast? = some ⟨none, 13, toBytes 1 2 ++ toBytes 1 die ++ toBytes 1 (powerOf t die)⟩ ∧
    (die ≤ 3 → powerOf s die < 3 → ∀ w ∈ s.wefts, getWeft s w.id = some w → dieOf w.id.core = die →
      ∃ u, getWeft t w.id = some u ∧ u.plHeld = true ∧ u.region = none)

/-- R429 to R431: an image is accepted where its signature holds; the responder answers each request; a signature takes
the next index, which never reaches 2^20; a virtual function sees four measurements and the management bus all; a
finished exchange sets the keys. The model's own choices in it: log entries 11, 17 and 18. -/
def Obligations.SecurityProcessor : Prop :=
  ∀ s, let answer (i : Instr) (req : Option Nat) (kind : Nat) (p : List Byte → State → Prop) : Prop :=
    ∃ t data, exec i s = .next t ∧ t.outbox = s.outbox ++ [⟨req.map (8192 + ·), kind, data⟩] ∧
      t = { s with outbox := t.outbox, sec := t.sec } ∧ p data t
  let still : List Byte → State → Prop := fun _ t => t.sec = s.sec
  (∀ image, ∃ t, exec (.firmwareUpdate image) s = .next t ∧
    (Config.xmssVerify image = true → t.sec.image = image ∧ t.outbox = s.outbox ++ [⟨none, 13, [0]⟩]) ∧
    (Config.xmssVerify image = false → t.sec = s.sec ∧ t.outbox = s.outbox ++ [⟨none, 13, [1]⟩])) ∧
  ∀ req : Option Nat,
    answer (.getVersion req) req 14 (fun data t => data = [0x12, 0x13] ∧ t.sec = s.sec) ∧
    answer (.getCapabilities req) req 14 still ∧ answer (.negotiateAlgorithms req) req 14 still ∧
    answer (.getDigests req) req 14 still ∧ answer (.getCertificate req) req 14 still ∧
    (∀ nonce, (s.sec.index < 2 ^ 20 → answer (.challenge req nonce) req 14 fun _ t => t.sec = { s.sec with index := s.sec.index + 1 }) ∧
      (2 ^ 20 ≤ s.sec.index → answer (.challenge req nonce) req 15 still)) ∧
    (let slot (n : Nat) : List Byte := (tget s.sec.slots n).getD (zeros 64)
     let seen (n : Nat) : Prop := match req with | none => n < 67 | some p => n < 3 ∨ n = 3 + p
     answer (.getMeasurements req 0) req 14 (fun data t => data = [if req = none then 67 else 4] ∧ t.sec = s.sec) ∧
     (∀ n, n < 67 → seen n → answer (.getMeasurements req (n + 1)) req 14 fun data t => data = slot n ∧ t.sec = s.sec) ∧
     (∀ n, n < 254 → ¬ seen n → answer (.getMeasurements req (n + 1)) req 15 still) ∧
     answer (.getMeasurements req 255) req 14 (fun data t => t.sec = s.sec ∧
       data = ((match req with | none => List.range 67 | some p => [0, 1, 2, 3 + p]).map slot).flatten)) ∧
    (s.sec.index < 2 ^ 20 → answer (.keyExchange req) req 14 fun _ t => t.sec.index = s.sec.index + 1 ∧
      t.sec.session = s.sec.session + 1) ∧
    (2 ^ 20 ≤ s.sec.index → answer (.keyExchange req) req 15 still) ∧
    (s.sec.session ≠ 0 → answer (.finish req) req 14 fun _ t => t.sec.ideKeys ≠ [] ∧ t.sec.index = s.sec.index) ∧
    (s.sec.session = 0 → answer (.finish req) req 15 still)

/-- R63, R105, R119, R122, R130, R131, R404: where the words at a sub-weft's program counter decode to an instruction, the
step is exec of that instruction for that sub-weft, the core's cycle and the weft's stall count moved on, but that a
unit which waits in the scoreboard has cost nothing; where they do not, the step takes the fault that names them. An
event that the agenda names, or that the device raises, is carried out. The model's own choices in it: log entries 1
and 7. -/
def Obligations.StepRunsDecoded : Prop :=
  (∀ s r id lane w p b ws, Issues s r id lane →
    let t := passTime r id
    getWeft t id = some w → (t.wefts.map (·.id)).Nodup → subAt w lane = some b →
    getPanel t w.key = some p → takesUi w lane = false → divAt w b.pc b.mask = none → w.freshShape = false →
    (∀ k, k < ws.length → fetchWord t w p b ((b.pc.toNat + 8 * k) % 2 ^ 64) = .ok (ws.getD k 0)) →
    (∀ i, decodeUnit ws = .ok (i, ws.length) →
      let u := markCourt (prepare t id lane b.pc i ws.length) id ws.length
      (step s = match exec i u with
        | .next v => .next (if (id, lane) ∈ v.waiting then refund r id lane v else v)
        | o => o) ∧
        u.cur = some ⟨id, lane, b.pc, ws.length⟩ ∧ u.mem = s.mem ∧ u.panels = s.panels ∧
        (getCore u id.core).cycle = (getCore t id.core).cycle + ws.length ∧
        ∃ v, getWeft u id = some v ∧ (∀ q, regNow v q = regNow w q) ∧ subAt v lane = some b ∧ v.level = w.level ∧
          v.stall = (getCore t id.core).cycle + (ws.length - 1) + max (stlOf i) 1) ∧
    (∀ e code l, decodeUnit ws = .error e →
      (e = .illegalOp ∧ code = 1 ∨ e = .illegalOperand ∧ id.core < 256 ∧ code = 2 ∨ e = .illegalPrefix ∧ code = 3 ∨
        e = .pairing ∧ code = 4) → w.region = none → w.stepping = none → heldWrites t (agentOf w) = false →
      TakenAt t w code l →
      ∃ u, step s = .next u ∧ EnteredAt t w b lane u l code none (laneBit (lowest b.mask)) false b.pc ∧ u.mem = s.mem)) ∧
  (∀ s i rest, s.agenda = .event i :: rest → step s = exec i { s with agenda := rest }) ∧
  ∀ s i, s.agenda = [] → (∀ y ∈ s.atPorts, portOf y ≠ none) → autoEvent s = some i →
    i.isWord = false ∧ step s = exec i { s with tick := s.tick + 1 }

/-- R393, R436: after reset there is no weft, no panel and no partition, every cache line is invalid and every core's
`$cycle` is 0, no host request is served, and the memory has its canonical form; the first step finds nothing to
issue. The model's own choices in it: log entries 4 and 13. -/
def Obligations.ResetState : Prop :=
  let s := State.reset
  MemOk s ∧ s.wefts = [] ∧ s.panels = [] ∧ (∀ n, getPart s n = none) ∧ (∀ line a, heldAs (getLine s line) a = .i) ∧
    (∀ asid part va, tlbFind s asid part va = none) ∧ (∀ core, (getCore s core).cycle = 0 ∧ (getCore s core).cmds = []) ∧
    (∀ port part va op, exec (.hostMemoryRequest port part va op) s = .next s) ∧
    (∀ r, exec (.panelStart r) s = .next s) ∧ ∃ t, step s = .next t ∧ t = { s with tick := t.tick }

/-- R107, R114, R118: words written out from the encodings of the manual decode to the instructions that they stand for.
-/
def Obligations.WordsDecode : Prop :=
  decodeUnit [0x0174080900601509] = .ok (.add (plain 4 0 (.v 4) (.v 1) (.v 2) .zero), 1) ∧
  decodeUnit [0x7E70012345678000, 0x0170000400F00509] =
    .ok (.add { plain 0 0 (.s 2) (.s 3) (.imm 0) .zero with ext := some 0x12345678 }, 2) ∧
  decodeUnit [0xA01C10021240B030] = .ok (.paired 4 ⟨.addI32, 7, 4, .v 1⟩ ⟨.fmulF32, 2, 5, .imm 3⟩, 1) ∧
  decodeUnit [0x3376180D00601403] = .ok (.fma (plain 6 1 (.v 6) (.v 1) (.v 2) (.v 3)), 1) ∧
  decodeUnit [0x20100A1381684E09] = .ok (.bra { plain 0 0 .zero (.imm 5) .zero (.imm 9) with guard := ⟨false, 1⟩ }, 1) ∧
  decodeUnit [0x5070180601308600] = .ok (.ld (plain 0 1 (.v 3) (.s 4) (.imm 0x10) (.imm 0)), 1) ∧
  decodeUnit [0x51701A1201300601] = .ok (.st (plain 0 1 .zero (.s 4) (.imm 0) (.imm 1)), 1) ∧
  decodeUnit [0x5C701A1380284E40] = .ok (.arbegin (plain 0 1 .zero (.imm 0) .zero (.imm 0x40)), 1) ∧
  decodeUnit [0x64701A1380300E00] = .ok (.mma (plain 0 1 .zero (.imm 0) (.imm 1) (.imm 0)), 1) ∧
  decodeUnit [0x67700A86012A0D09] = .ok (.cpy (plain 0 0 (.q 3) (.s 4) (.q 1) .zero), 1) ∧
  decodeUnit [0x7370001188684D09] = .ok (.csrr (plain 0 0 (.s 8) (.imm 0x21) .zero .zero), 1) ∧
  decodeUnit [0x72702E0381701D09] = .ok (.uienPost (plain 0 2 (.p 1) (.imm 5) (.imm 3) .zero), 1)

/-- R2: an invariant of the model: the memory keeps its canonical form, in which equal memories are equal data, through
every step. The form is the model's own (log entry 4). -/
def Obligations.StepKeepsMemory : Prop := ∀ s t, MemOk s → step s = .next t → MemOk t

/-- R105 to R109, R114, R115, R118 to R120, R130, R131: every instruction of the manual, with every operand, is read back
from the words that it is written in; and words that decode are an instruction of the manual and are the only words it
is written in. -/
def Obligations.DecodeAndEncodeAgree : Prop :=
  (∀ i, i.isWord = true → i.wellFormed = true → decodeUnit (encode i) = .ok (i, (encode i).length)) ∧
  ∀ ws i n, decodeUnit ws = .ok (i, n) → i.isWord = true ∧ i.wellFormed = true ∧ encode i = ws.take n ∧ 1 ≤ n ∧ n ≤ 3
end

