-- ==== Sys2Proof/Laws/State.lean ====
section
/-!
SUPPORT. One lemma per field of State and per update of the records in it: what an update does not name stays.
-/

set_option Elab.async false
namespace Sys2Proof.Machine

/-! ### setWeft -/

@[simp] theorem setWeft_agenda (s : State) (w : Weft) : (setWeft s w).agenda = s.agenda := rfl
@[simp] theorem setWeft_cur (s : State) (w : Weft) : (setWeft s w).cur = s.cur := rfl
@[simp] theorem setWeft_tick (s : State) (w : Weft) : (setWeft s w).tick = s.tick := rfl
@[simp] theorem setWeft_nextId (s : State) (w : Weft) : (setWeft s w).nextId = s.nextId := rfl
@[simp] theorem setWeft_waiting (s : State) (w : Weft) : (setWeft s w).waiting = s.waiting := rfl
@[simp] theorem setWeft_mem (s : State) (w : Weft) : (setWeft s w).mem = s.mem := rfl
@[simp] theorem setWeft_panels (s : State) (w : Weft) : (setWeft s w).panels = s.panels := rfl
@[simp] theorem setWeft_cores (s : State) (w : Weft) : (setWeft s w).cores = s.cores := rfl
@[simp] theorem setWeft_parts (s : State) (w : Weft) : (setWeft s w).parts = s.parts := rfl
@[simp] theorem setWeft_saved (s : State) (w : Weft) : (setWeft s w).saved = s.saved := rfl
@[simp] theorem setWeft_landings (s : State) (w : Weft) : (setWeft s w).landings = s.landings := rfl
@[simp] theorem setWeft_symAccs (s : State) (w : Weft) : (setWeft s w).symAccs = s.symAccs := rfl
@[simp] theorem setWeft_snaps (s : State) (w : Weft) : (setWeft s w).snaps = s.snaps := rfl
@[simp] theorem setWeft_erred (s : State) (w : Weft) : (setWeft s w).erred = s.erred := rfl
@[simp] theorem setWeft_lines (s : State) (w : Weft) : (setWeft s w).lines = s.lines := rfl
@[simp] theorem setWeft_pages (s : State) (w : Weft) : (setWeft s w).pages = s.pages := rfl
@[simp] theorem setWeft_tlb (s : State) (w : Weft) : (setWeft s w).tlb = s.tlb := rfl
@[simp] theorem setWeft_walks (s : State) (w : Weft) : (setWeft s w).walks = s.walks := rfl
@[simp] theorem setWeft_synonyms (s : State) (w : Weft) : (setWeft s w).synonyms = s.synonyms := rfl
@[simp] theorem setWeft_moves (s : State) (w : Weft) : (setWeft s w).moves = s.moves := rfl
@[simp] theorem setWeft_moveReqs (s : State) (w : Weft) : (setWeft s w).moveReqs = s.moveReqs := rfl
@[simp] theorem setWeft_dups (s : State) (w : Weft) : (setWeft s w).dups = s.dups := rfl
@[simp] theorem setWeft_tables (s : State) (w : Weft) : (setWeft s w).tables = s.tables := rfl
@[simp] theorem setWeft_htvec (s : State) (w : Weft) : (setWeft s w).htvec = s.htvec := rfl
@[simp] theorem setWeft_mtvec (s : State) (w : Weft) : (setWeft s w).mtvec = s.mtvec := rfl
@[simp] theorem setWeft_incarn (s : State) (w : Weft) : (setWeft s w).incarn = s.incarn := rfl
@[simp] theorem setWeft_pkgid (s : State) (w : Weft) : (setWeft s w).pkgid = s.pkgid := rfl
@[simp] theorem setWeft_peers (s : State) (w : Weft) : (setWeft s w).peers = s.peers := rfl
@[simp] theorem setWeft_routes (s : State) (w : Weft) : (setWeft s w).routes = s.routes := rfl
@[simp] theorem setWeft_groups (s : State) (w : Weft) : (setWeft s w).groups = s.groups := rfl
@[simp] theorem setWeft_ports (s : State) (w : Weft) : (setWeft s w).ports = s.ports := rfl
@[simp] theorem setWeft_buffers (s : State) (w : Weft) : (setWeft s w).buffers = s.buffers := rfl
@[simp] theorem setWeft_outReqs (s : State) (w : Weft) : (setWeft s w).outReqs = s.outReqs := rfl
@[simp] theorem setWeft_fetches (s : State) (w : Weft) : (setWeft s w).fetches = s.fetches := rfl
@[simp] theorem setWeft_postedW (s : State) (w : Weft) : (setWeft s w).postedW = s.postedW := rfl
@[simp] theorem setWeft_seq (s : State) (w : Weft) : (setWeft s w).seq = s.seq := rfl
@[simp] theorem setWeft_msgs (s : State) (w : Weft) : (setWeft s w).msgs = s.msgs := rfl
@[simp] theorem setWeft_inMsgs (s : State) (w : Weft) : (setWeft s w).inMsgs = s.inMsgs := rfl
@[simp] theorem setWeft_retained (s : State) (w : Weft) : (setWeft s w).retained = s.retained := rfl
@[simp] theorem setWeft_mcWait (s : State) (w : Weft) : (setWeft s w).mcWait = s.mcWait := rfl
@[simp] theorem setWeft_substs (s : State) (w : Weft) : (setWeft s w).substs = s.substs := rfl
@[simp] theorem setWeft_power (s : State) (w : Weft) : (setWeft s w).power = s.power := rfl
@[simp] theorem setWeft_hot (s : State) (w : Weft) : (setWeft s w).hot = s.hot := rfl
@[simp] theorem setWeft_quiescing (s : State) (w : Weft) : (setWeft s w).quiescing = s.quiescing := rfl
@[simp] theorem setWeft_devload (s : State) (w : Weft) : (setWeft s w).devload = s.devload := rfl
@[simp] theorem setWeft_sec (s : State) (w : Weft) : (setWeft s w).sec = s.sec := rfl
@[simp] theorem setWeft_outbox (s : State) (w : Weft) : (setWeft s w).outbox = s.outbox := rfl
@[simp] theorem setWeft_atPorts (s : State) (w : Weft) : (setWeft s w).atPorts = s.atPorts := rfl
@[simp] theorem setWeft_started (s : State) (w : Weft) : (setWeft s w).started = s.started := rfl

/-! ### updWeft -/

@[simp] theorem updWeft_agenda (s : State) (id : WId) (f : Weft → Weft) : (updWeft s id f).agenda = s.agenda := rfl
@[simp] theorem updWeft_cur (s : State) (id : WId) (f : Weft → Weft) : (updWeft s id f).cur = s.cur := rfl
@[simp] theorem updWeft_tick (s : State) (id : WId) (f : Weft → Weft) : (updWeft s id f).tick = s.tick := rfl
@[simp] theorem updWeft_nextId (s : State) (id : WId) (f : Weft → Weft) : (updWeft s id f).nextId = s.nextId := rfl
@[simp] theorem updWeft_waiting (s : State) (id : WId) (f : Weft → Weft) : (updWeft s id f).waiting = s.waiting := rfl
@[simp] theorem updWeft_mem (s : State) (id : WId) (f : Weft → Weft) : (updWeft s id f).mem = s.mem := rfl
@[simp] theorem updWeft_panels (s : State) (id : WId) (f : Weft → Weft) : (updWeft s id f).panels = s.panels := rfl
@[simp] theorem updWeft_cores (s : State) (id : WId) (f : Weft → Weft) : (updWeft s id f).cores = s.cores := rfl
@[simp] theorem updWeft_parts (s : State) (id : WId) (f : Weft → Weft) : (updWeft s id f).parts = s.parts := rfl
@[simp] theorem updWeft_saved (s : State) (id : WId) (f : Weft → Weft) : (updWeft s id f).saved = s.saved := rfl
@[simp] theorem updWeft_landings (s : State) (id : WId) (f : Weft → Weft) : (updWeft s id f).landings = s.landings := rfl
@[simp] theorem updWeft_symAccs (s : State) (id : WId) (f : Weft → Weft) : (updWeft s id f).symAccs = s.symAccs := rfl
@[simp] theorem updWeft_snaps (s : State) (id : WId) (f : Weft → Weft) : (updWeft s id f).snaps = s.snaps := rfl
@[simp] theorem updWeft_erred (s : State) (id : WId) (f : Weft → Weft) : (updWeft s id f).erred = s.erred := rfl
@[simp] theorem updWeft_lines (s : State) (id : WId) (f : Weft → Weft) : (updWeft s id f).lines = s.lines := rfl
@[simp] theorem updWeft_pages (s : State) (id : WId) (f : Weft → Weft) : (updWeft s id f).pages = s.pages := rfl
@[simp] theorem updWeft_tlb (s : State) (id : WId) (f : Weft → Weft) : (updWeft s id f).tlb = s.tlb := rfl
@[simp] theorem updWeft_walks (s : State) (id : WId) (f : Weft → Weft) : (updWeft s id f).walks = s.walks := rfl
@[simp] theorem updWeft_synonyms (s : State) (id : WId) (f : Weft → Weft) : (updWeft s id f).synonyms = s.synonyms := rfl
@[simp] theorem updWeft_moves (s : State) (id : WId) (f : Weft → Weft) : (updWeft s id f).moves = s.moves := rfl
@[simp] theorem updWeft_moveReqs (s : State) (id : WId) (f : Weft → Weft) : (updWeft s id f).moveReqs = s.moveReqs := rfl
@[simp] theorem updWeft_dups (s : State) (id : WId) (f : Weft → Weft) : (updWeft s id f).dups = s.dups := rfl
@[simp] theorem updWeft_tables (s : State) (id : WId) (f : Weft → Weft) : (updWeft s id f).tables = s.tables := rfl
@[simp] theorem updWeft_htvec (s : State) (id : WId) (f : Weft → Weft) : (updWeft s id f).htvec = s.htvec := rfl
@[simp] theorem updWeft_mtvec (s : State) (id : WId) (f : Weft → Weft) : (updWeft s id f).mtvec = s.mtvec := rfl
@[simp] theorem updWeft_incarn (s : State) (id : WId) (f : Weft → Weft) : (updWeft s id f).incarn = s.incarn := rfl
@[simp] theorem updWeft_pkgid (s : State) (id : WId) (f : Weft → Weft) : (updWeft s id f).pkgid = s.pkgid := rfl
@[simp] theorem updWeft_peers (s : State) (id : WId) (f : Weft → Weft) : (updWeft s id f).peers = s.peers := rfl
@[simp] theorem updWeft_routes (s : State) (id : WId) (f : Weft → Weft) : (updWeft s id f).routes = s.routes := rfl
@[simp] theorem updWeft_groups (s : State) (id : WId) (f : Weft → Weft) : (updWeft s id f).groups = s.groups := rfl
@[simp] theorem updWeft_ports (s : State) (id : WId) (f : Weft → Weft) : (updWeft s id f).ports = s.ports := rfl
@[simp] theorem updWeft_buffers (s : State) (id : WId) (f : Weft → Weft) : (updWeft s id f).buffers = s.buffers := rfl
@[simp] theorem updWeft_outReqs (s : State) (id : WId) (f : Weft → Weft) : (updWeft s id f).outReqs = s.outReqs := rfl
@[simp] theorem updWeft_fetches (s : State) (id : WId) (f : Weft → Weft) : (updWeft s id f).fetches = s.fetches := rfl
@[simp] theorem updWeft_postedW (s : State) (id : WId) (f : Weft → Weft) : (updWeft s id f).postedW = s.postedW := rfl
@[simp] theorem updWeft_seq (s : State) (id : WId) (f : Weft → Weft) : (updWeft s id f).seq = s.seq := rfl
@[simp] theorem updWeft_msgs (s : State) (id : WId) (f : Weft → Weft) : (updWeft s id f).msgs = s.msgs := rfl
@[simp] theorem updWeft_inMsgs (s : State) (id : WId) (f : Weft → Weft) : (updWeft s id f).inMsgs = s.inMsgs := rfl
@[simp] theorem updWeft_retained (s : State) (id : WId) (f : Weft → Weft) : (updWeft s id f).retained = s.retained := rfl
@[simp] theorem updWeft_mcWait (s : State) (id : WId) (f : Weft → Weft) : (updWeft s id f).mcWait = s.mcWait := rfl
@[simp] theorem updWeft_substs (s : State) (id : WId) (f : Weft → Weft) : (updWeft s id f).substs = s.substs := rfl
@[simp] theorem updWeft_power (s : State) (id : WId) (f : Weft → Weft) : (updWeft s id f).power = s.power := rfl
@[simp] theorem updWeft_hot (s : State) (id : WId) (f : Weft → Weft) : (updWeft s id f).hot = s.hot := rfl
@[simp] theorem updWeft_quiescing (s : State) (id : WId) (f : Weft → Weft) : (updWeft s id f).quiescing = s.quiescing := rfl
@[simp] theorem updWeft_devload (s : State) (id : WId) (f : Weft → Weft) : (updWeft s id f).devload = s.devload := rfl
@[simp] theorem updWeft_sec (s : State) (id : WId) (f : Weft → Weft) : (updWeft s id f).sec = s.sec := rfl
@[simp] theorem updWeft_outbox (s : State) (id : WId) (f : Weft → Weft) : (updWeft s id f).outbox = s.outbox := rfl
@[simp] theorem updWeft_atPorts (s : State) (id : WId) (f : Weft → Weft) : (updWeft s id f).atPorts = s.atPorts := rfl
@[simp] theorem updWeft_started (s : State) (id : WId) (f : Weft → Weft) : (updWeft s id f).started = s.started := rfl

/-! ### updPanel -/

@[simp] theorem updPanel_agenda (s : State) (k : PKey) (f : Panel → Panel) : (updPanel s k f).agenda = s.agenda := rfl
@[simp] theorem updPanel_cur (s : State) (k : PKey) (f : Panel → Panel) : (updPanel s k f).cur = s.cur := rfl
@[simp] theorem updPanel_tick (s : State) (k : PKey) (f : Panel → Panel) : (updPanel s k f).tick = s.tick := rfl
@[simp] theorem updPanel_nextId (s : State) (k : PKey) (f : Panel → Panel) : (updPanel s k f).nextId = s.nextId := rfl
@[simp] theorem updPanel_waiting (s : State) (k : PKey) (f : Panel → Panel) : (updPanel s k f).waiting = s.waiting := rfl
@[simp] theorem updPanel_mem (s : State) (k : PKey) (f : Panel → Panel) : (updPanel s k f).mem = s.mem := rfl
@[simp] theorem updPanel_wefts (s : State) (k : PKey) (f : Panel → Panel) : (updPanel s k f).wefts = s.wefts := rfl
@[simp] theorem updPanel_cores (s : State) (k : PKey) (f : Panel → Panel) : (updPanel s k f).cores = s.cores := rfl
@[simp] theorem updPanel_parts (s : State) (k : PKey) (f : Panel → Panel) : (updPanel s k f).parts = s.parts := rfl
@[simp] theorem updPanel_saved (s : State) (k : PKey) (f : Panel → Panel) : (updPanel s k f).saved = s.saved := rfl
@[simp] theorem updPanel_landings (s : State) (k : PKey) (f : Panel → Panel) : (updPanel s k f).landings = s.landings := rfl
@[simp] theorem updPanel_symAccs (s : State) (k : PKey) (f : Panel → Panel) : (updPanel s k f).symAccs = s.symAccs := rfl
@[simp] theorem updPanel_snaps (s : State) (k : PKey) (f : Panel → Panel) : (updPanel s k f).snaps = s.snaps := rfl
@[simp] theorem updPanel_erred (s : State) (k : PKey) (f : Panel → Panel) : (updPanel s k f).erred = s.erred := rfl
@[simp] theorem updPanel_lines (s : State) (k : PKey) (f : Panel → Panel) : (updPanel s k f).lines = s.lines := rfl
@[simp] theorem updPanel_pages (s : State) (k : PKey) (f : Panel → Panel) : (updPanel s k f).pages = s.pages := rfl
@[simp] theorem updPanel_tlb (s : State) (k : PKey) (f : Panel → Panel) : (updPanel s k f).tlb = s.tlb := rfl
@[simp] theorem updPanel_walks (s : State) (k : PKey) (f : Panel → Panel) : (updPanel s k f).walks = s.walks := rfl
@[simp] theorem updPanel_synonyms (s : State) (k : PKey) (f : Panel → Panel) : (updPanel s k f).synonyms = s.synonyms := rfl
@[simp] theorem updPanel_moves (s : State) (k : PKey) (f : Panel → Panel) : (updPanel s k f).moves = s.moves := rfl
@[simp] theorem updPanel_moveReqs (s : State) (k : PKey) (f : Panel → Panel) : (updPanel s k f).moveReqs = s.moveReqs := rfl
@[simp] theorem updPanel_dups (s : State) (k : PKey) (f : Panel → Panel) : (updPanel s k f).dups = s.dups := rfl
@[simp] theorem updPanel_tables (s : State) (k : PKey) (f : Panel → Panel) : (updPanel s k f).tables = s.tables := rfl
@[simp] theorem updPanel_htvec (s : State) (k : PKey) (f : Panel → Panel) : (updPanel s k f).htvec = s.htvec := rfl
@[simp] theorem updPanel_mtvec (s : State) (k : PKey) (f : Panel → Panel) : (updPanel s k f).mtvec = s.mtvec := rfl
@[simp] theorem updPanel_incarn (s : State) (k : PKey) (f : Panel → Panel) : (updPanel s k f).incarn = s.incarn := rfl
@[simp] theorem updPanel_pkgid (s : State) (k : PKey) (f : Panel → Panel) : (updPanel s k f).pkgid = s.pkgid := rfl
@[simp] theorem updPanel_peers (s : State) (k : PKey) (f : Panel → Panel) : (updPanel s k f).peers = s.peers := rfl
@[simp] theorem updPanel_routes (s : State) (k : PKey) (f : Panel → Panel) : (updPanel s k f).routes = s.routes := rfl
@[simp] theorem updPanel_groups (s : State) (k : PKey) (f : Panel → Panel) : (updPanel s k f).groups = s.groups := rfl
@[simp] theorem updPanel_ports (s : State) (k : PKey) (f : Panel → Panel) : (updPanel s k f).ports = s.ports := rfl
@[simp] theorem updPanel_buffers (s : State) (k : PKey) (f : Panel → Panel) : (updPanel s k f).buffers = s.buffers := rfl
@[simp] theorem updPanel_outReqs (s : State) (k : PKey) (f : Panel → Panel) : (updPanel s k f).outReqs = s.outReqs := rfl
@[simp] theorem updPanel_fetches (s : State) (k : PKey) (f : Panel → Panel) : (updPanel s k f).fetches = s.fetches := rfl
@[simp] theorem updPanel_postedW (s : State) (k : PKey) (f : Panel → Panel) : (updPanel s k f).postedW = s.postedW := rfl
@[simp] theorem updPanel_seq (s : State) (k : PKey) (f : Panel → Panel) : (updPanel s k f).seq = s.seq := rfl
@[simp] theorem updPanel_msgs (s : State) (k : PKey) (f : Panel → Panel) : (updPanel s k f).msgs = s.msgs := rfl
@[simp] theorem updPanel_inMsgs (s : State) (k : PKey) (f : Panel → Panel) : (updPanel s k f).inMsgs = s.inMsgs := rfl
@[simp] theorem updPanel_retained (s : State) (k : PKey) (f : Panel → Panel) : (updPanel s k f).retained = s.retained := rfl
@[simp] theorem updPanel_mcWait (s : State) (k : PKey) (f : Panel → Panel) : (updPanel s k f).mcWait = s.mcWait := rfl
@[simp] theorem updPanel_substs (s : State) (k : PKey) (f : Panel → Panel) : (updPanel s k f).substs = s.substs := rfl
@[simp] theorem updPanel_power (s : State) (k : PKey) (f : Panel → Panel) : (updPanel s k f).power = s.power := rfl
@[simp] theorem updPanel_hot (s : State) (k : PKey) (f : Panel → Panel) : (updPanel s k f).hot = s.hot := rfl
@[simp] theorem updPanel_quiescing (s : State) (k : PKey) (f : Panel → Panel) : (updPanel s k f).quiescing = s.quiescing := rfl
@[simp] theorem updPanel_devload (s : State) (k : PKey) (f : Panel → Panel) : (updPanel s k f).devload = s.devload := rfl
@[simp] theorem updPanel_sec (s : State) (k : PKey) (f : Panel → Panel) : (updPanel s k f).sec = s.sec := rfl
@[simp] theorem updPanel_outbox (s : State) (k : PKey) (f : Panel → Panel) : (updPanel s k f).outbox = s.outbox := rfl
@[simp] theorem updPanel_atPorts (s : State) (k : PKey) (f : Panel → Panel) : (updPanel s k f).atPorts = s.atPorts := rfl
@[simp] theorem updPanel_started (s : State) (k : PKey) (f : Panel → Panel) : (updPanel s k f).started = s.started := rfl

/-! ### updPart -/

@[simp] theorem updPart_agenda (s : State) (p : Nat) (f : Part → Part) :
    (updPart s p f).agenda = s.agenda := by
  unfold updPart; split <;> rfl
@[simp] theorem updPart_cur (s : State) (p : Nat) (f : Part → Part) :
    (updPart s p f).cur = s.cur := by
  unfold updPart; split <;> rfl
@[simp] theorem updPart_tick (s : State) (p : Nat) (f : Part → Part) :
    (updPart s p f).tick = s.tick := by
  unfold updPart; split <;> rfl
@[simp] theorem updPart_nextId (s : State) (p : Nat) (f : Part → Part) :
    (updPart s p f).nextId = s.nextId := by
  unfold updPart; split <;> rfl
@[simp] theorem updPart_waiting (s : State) (p : Nat) (f : Part → Part) :
    (updPart s p f).waiting = s.waiting := by
  unfold updPart; split <;> rfl
@[simp] theorem updPart_mem (s : State) (p : Nat) (f : Part → Part) :
    (updPart s p f).mem = s.mem := by
  unfold updPart; split <;> rfl
@[simp] theorem updPart_wefts (s : State) (p : Nat) (f : Part → Part) :
    (updPart s p f).wefts = s.wefts := by
  unfold updPart; split <;> rfl
@[simp] theorem updPart_panels (s : State) (p : Nat) (f : Part → Part) :
    (updPart s p f).panels = s.panels := by
  unfold updPart; split <;> rfl
@[simp] theorem updPart_cores (s : State) (p : Nat) (f : Part → Part) :
    (updPart s p f).cores = s.cores := by
  unfold updPart; split <;> rfl
@[simp] theorem updPart_saved (s : State) (p : Nat) (f : Part → Part) :
    (updPart s p f).saved = s.saved := by
  unfold updPart; split <;> rfl
@[simp] theorem updPart_landings (s : State) (p : Nat) (f : Part → Part) :
    (updPart s p f).landings = s.landings := by
  unfold updPart; split <;> rfl
@[simp] theorem updPart_symAccs (s : State) (p : Nat) (f : Part → Part) :
    (updPart s p f).symAccs = s.symAccs := by
  unfold updPart; split <;> rfl
@[simp] theorem updPart_snaps (s : State) (p : Nat) (f : Part → Part) :
    (updPart s p f).snaps = s.snaps := by
  unfold updPart; split <;> rfl
@[simp] theorem updPart_erred (s : State) (p : Nat) (f : Part → Part) :
    (updPart s p f).erred = s.erred := by
  unfold updPart; split <;> rfl
@[simp] theorem updPart_lines (s : State) (p : Nat) (f : Part → Part) :
    (updPart s p f).lines = s.lines := by
  unfold updPart; split <;> rfl
@[simp] theorem updPart_pages (s : State) (p : Nat) (f : Part → Part) :
    (updPart s p f).pages = s.pages := by
  unfold updPart; split <;> rfl
@[simp] theorem updPart_tlb (s : State) (p : Nat) (f : Part → Part) :
    (updPart s p f).tlb = s.tlb := by
  unfold updPart; split <;> rfl
@[simp] theorem updPart_walks (s : State) (p : Nat) (f : Part → Part) :
    (updPart s p f).walks = s.walks := by
  unfold updPart; split <;> rfl
@[simp] theorem updPart_synonyms (s : State) (p : Nat) (f : Part → Part) :
    (updPart s p f).synonyms = s.synonyms := by
  unfold updPart; split <;> rfl
@[simp] theorem updPart_moves (s : State) (p : Nat) (f : Part → Part) :
    (updPart s p f).moves = s.moves := by
  unfold updPart; split <;> rfl
@[simp] theorem updPart_moveReqs (s : State) (p : Nat) (f : Part → Part) :
    (updPart s p f).moveReqs = s.moveReqs := by
  unfold updPart; split <;> rfl
@[simp] theorem updPart_dups (s : State) (p : Nat) (f : Part → Part) :
    (updPart s p f).dups = s.dups := by
  unfold updPart; split <;> rfl
@[simp] theorem updPart_tables (s : State) (p : Nat) (f : Part → Part) :
    (updPart s p f).tables = s.tables := by
  unfold updPart; split <;> rfl
@[simp] theorem updPart_htvec (s : State) (p : Nat) (f : Part → Part) :
    (updPart s p f).htvec = s.htvec := by
  unfold updPart; split <;> rfl
@[simp] theorem updPart_mtvec (s : State) (p : Nat) (f : Part → Part) :
    (updPart s p f).mtvec = s.mtvec := by
  unfold updPart; split <;> rfl
@[simp] theorem updPart_incarn (s : State) (p : Nat) (f : Part → Part) :
    (updPart s p f).incarn = s.incarn := by
  unfold updPart; split <;> rfl
@[simp] theorem updPart_pkgid (s : State) (p : Nat) (f : Part → Part) :
    (updPart s p f).pkgid = s.pkgid := by
  unfold updPart; split <;> rfl
@[simp] theorem updPart_peers (s : State) (p : Nat) (f : Part → Part) :
    (updPart s p f).peers = s.peers := by
  unfold updPart; split <;> rfl
@[simp] theorem updPart_routes (s : State) (p : Nat) (f : Part → Part) :
    (updPart s p f).routes = s.routes := by
  unfold updPart; split <;> rfl
@[simp] theorem updPart_groups (s : State) (p : Nat) (f : Part → Part) :
    (updPart s p f).groups = s.groups := by
  unfold updPart; split <;> rfl
@[simp] theorem updPart_ports (s : State) (p : Nat) (f : Part → Part) :
    (updPart s p f).ports = s.ports := by
  unfold updPart; split <;> rfl
@[simp] theorem updPart_buffers (s : State) (p : Nat) (f : Part → Part) :
    (updPart s p f).buffers = s.buffers := by
  unfold updPart; split <;> rfl
@[simp] theorem updPart_outReqs (s : State) (p : Nat) (f : Part → Part) :
    (updPart s p f).outReqs = s.outReqs := by
  unfold updPart; split <;> rfl
@[simp] theorem updPart_fetches (s : State) (p : Nat) (f : Part → Part) :
    (updPart s p f).fetches = s.fetches := by
  unfold updPart; split <;> rfl
@[simp] theorem updPart_postedW (s : State) (p : Nat) (f : Part → Part) :
    (updPart s p f).postedW = s.postedW := by
  unfold updPart; split <;> rfl
@[simp] theorem updPart_seq (s : State) (p : Nat) (f : Part → Part) :
    (updPart s p f).seq = s.seq := by
  unfold updPart; split <;> rfl
@[simp] theorem updPart_msgs (s : State) (p : Nat) (f : Part → Part) :
    (updPart s p f).msgs = s.msgs := by
  unfold updPart; split <;> rfl
@[simp] theorem updPart_inMsgs (s : State) (p : Nat) (f : Part → Part) :
    (updPart s p f).inMsgs = s.inMsgs := by
  unfold updPart; split <;> rfl
@[simp] theorem updPart_retained (s : State) (p : Nat) (f : Part → Part) :
    (updPart s p f).retained = s.retained := by
  unfold updPart; split <;> rfl
@[simp] theorem updPart_mcWait (s : State) (p : Nat) (f : Part → Part) :
    (updPart s p f).mcWait = s.mcWait := by
  unfold updPart; split <;> rfl
@[simp] theorem updPart_substs (s : State) (p : Nat) (f : Part → Part) :
    (updPart s p f).substs = s.substs := by
  unfold updPart; split <;> rfl
@[simp] theorem updPart_power (s : State) (p : Nat) (f : Part → Part) :
    (updPart s p f).power = s.power := by
  unfold updPart; split <;> rfl
@[simp] theorem updPart_hot (s : State) (p : Nat) (f : Part → Part) :
    (updPart s p f).hot = s.hot := by
  unfold updPart; split <;> rfl
@[simp] theorem updPart_quiescing (s : State) (p : Nat) (f : Part → Part) :
    (updPart s p f).quiescing = s.quiescing := by
  unfold updPart; split <;> rfl
@[simp] theorem updPart_devload (s : State) (p : Nat) (f : Part → Part) :
    (updPart s p f).devload = s.devload := by
  unfold updPart; split <;> rfl
@[simp] theorem updPart_sec (s : State) (p : Nat) (f : Part → Part) :
    (updPart s p f).sec = s.sec := by
  unfold updPart; split <;> rfl
@[simp] theorem updPart_outbox (s : State) (p : Nat) (f : Part → Part) :
    (updPart s p f).outbox = s.outbox := by
  unfold updPart; split <;> rfl
@[simp] theorem updPart_atPorts (s : State) (p : Nat) (f : Part → Part) :
    (updPart s p f).atPorts = s.atPorts := by
  unfold updPart; split <;> rfl
@[simp] theorem updPart_started (s : State) (p : Nat) (f : Part → Part) :
    (updPart s p f).started = s.started := by
  unfold updPart; split <;> rfl

/-! ### updCore -/

@[simp] theorem updCore_agenda (s : State) (n : Nat) (f : CoreSt → CoreSt) :
    (updCore s n f).agenda = s.agenda := by
  unfold updCore; split <;> rfl
@[simp] theorem updCore_cur (s : State) (n : Nat) (f : CoreSt → CoreSt) :
    (updCore s n f).cur = s.cur := by
  unfold updCore; split <;> rfl
@[simp] theorem updCore_tick (s : State) (n : Nat) (f : CoreSt → CoreSt) :
    (updCore s n f).tick = s.tick := by
  unfold updCore; split <;> rfl
@[simp] theorem updCore_nextId (s : State) (n : Nat) (f : CoreSt → CoreSt) :
    (updCore s n f).nextId = s.nextId := by
  unfold updCore; split <;> rfl
@[simp] theorem updCore_waiting (s : State) (n : Nat) (f : CoreSt → CoreSt) :
    (updCore s n f).waiting = s.waiting := by
  unfold updCore; split <;> rfl
@[simp] theorem updCore_mem (s : State) (n : Nat) (f : CoreSt → CoreSt) :
    (updCore s n f).mem = s.mem := by
  unfold updCore; split <;> rfl
@[simp] theorem updCore_wefts (s : State) (n : Nat) (f : CoreSt → CoreSt) :
    (updCore s n f).wefts = s.wefts := by
  unfold updCore; split <;> rfl
@[simp] theorem updCore_panels (s : State) (n : Nat) (f : CoreSt → CoreSt) :
    (updCore s n f).panels = s.panels := by
  unfold updCore; split <;> rfl
@[simp] theorem updCore_parts (s : State) (n : Nat) (f : CoreSt → CoreSt) :
    (updCore s n f).parts = s.parts := by
  unfold updCore; split <;> rfl
@[simp] theorem updCore_saved (s : State) (n : Nat) (f : CoreSt → CoreSt) :
    (updCore s n f).saved = s.saved := by
  unfold updCore; split <;> rfl
@[simp] theorem updCore_landings (s : State) (n : Nat) (f : CoreSt → CoreSt) :
    (updCore s n f).landings = s.landings := by
  unfold updCore; split <;> rfl
@[simp] theorem updCore_symAccs (s : State) (n : Nat) (f : CoreSt → CoreSt) :
    (updCore s n f).symAccs = s.symAccs := by
  unfold updCore; split <;> rfl
@[simp] theorem updCore_snaps (s : State) (n : Nat) (f : CoreSt → CoreSt) :
    (updCore s n f).snaps = s.snaps := by
  unfold updCore; split <;> rfl
@[simp] theorem updCore_erred (s : State) (n : Nat) (f : CoreSt → CoreSt) :
    (updCore s n f).erred = s.erred := by
  unfold updCore; split <;> rfl
@[simp] theorem updCore_lines (s : State) (n : Nat) (f : CoreSt → CoreSt) :
    (updCore s n f).lines = s.lines := by
  unfold updCore; split <;> rfl
@[simp] theorem updCore_pages (s : State) (n : Nat) (f : CoreSt → CoreSt) :
    (updCore s n f).pages = s.pages := by
  unfold updCore; split <;> rfl
@[simp] theorem updCore_tlb (s : State) (n : Nat) (f : CoreSt → CoreSt) :
    (updCore s n f).tlb = s.tlb := by
  unfold updCore; split <;> rfl
@[simp] theorem updCore_walks (s : State) (n : Nat) (f : CoreSt → CoreSt) :
    (updCore s n f).walks = s.walks := by
  unfold updCore; split <;> rfl
@[simp] theorem updCore_synonyms (s : State) (n : Nat) (f : CoreSt → CoreSt) :
    (updCore s n f).synonyms = s.synonyms := by
  unfold updCore; split <;> rfl
@[simp] theorem updCore_moves (s : State) (n : Nat) (f : CoreSt → CoreSt) :
    (updCore s n f).moves = s.moves := by
  unfold updCore; split <;> rfl
@[simp] theorem updCore_moveReqs (s : State) (n : Nat) (f : CoreSt → CoreSt) :
    (updCore s n f).moveReqs = s.moveReqs := by
  unfold updCore; split <;> rfl
@[simp] theorem updCore_dups (s : State) (n : Nat) (f : CoreSt → CoreSt) :
    (updCore s n f).dups = s.dups := by
  unfold updCore; split <;> rfl
@[simp] theorem updCore_tables (s : State) (n : Nat) (f : CoreSt → CoreSt) :
    (updCore s n f).tables = s.tables := by
  unfold updCore; split <;> rfl
@[simp] theorem updCore_htvec (s : State) (n : Nat) (f : CoreSt → CoreSt) :
    (updCore s n f).htvec = s.htvec := by
  unfold updCore; split <;> rfl
@[simp] theorem updCore_mtvec (s : State) (n : Nat) (f : CoreSt → CoreSt) :
    (updCore s n f).mtvec = s.mtvec := by
  unfold updCore; split <;> rfl
@[simp] theorem updCore_incarn (s : State) (n : Nat) (f : CoreSt → CoreSt) :
    (updCore s n f).incarn = s.incarn := by
  unfold updCore; split <;> rfl
@[simp] theorem updCore_pkgid (s : State) (n : Nat) (f : CoreSt → CoreSt) :
    (updCore s n f).pkgid = s.pkgid := by
  unfold updCore; split <;> rfl
@[simp] theorem updCore_peers (s : State) (n : Nat) (f : CoreSt → CoreSt) :
    (updCore s n f).peers = s.peers := by
  unfold updCore; split <;> rfl
@[simp] theorem updCore_routes (s : State) (n : Nat) (f : CoreSt → CoreSt) :
    (updCore s n f).routes = s.routes := by
  unfold updCore; split <;> rfl
@[simp] theorem updCore_groups (s : State) (n : Nat) (f : CoreSt → CoreSt) :
    (updCore s n f).groups = s.groups := by
  unfold updCore; split <;> rfl
@[simp] theorem updCore_ports (s : State) (n : Nat) (f : CoreSt → CoreSt) :
    (updCore s n f).ports = s.ports := by
  unfold updCore; split <;> rfl
@[simp] theorem updCore_buffers (s : State) (n : Nat) (f : CoreSt → CoreSt) :
    (updCore s n f).buffers = s.buffers := by
  unfold updCore; split <;> rfl
@[simp] theorem updCore_outReqs (s : State) (n : Nat) (f : CoreSt → CoreSt) :
    (updCore s n f).outReqs = s.outReqs := by
  unfold updCore; split <;> rfl
@[simp] theorem updCore_fetches (s : State) (n : Nat) (f : CoreSt → CoreSt) :
    (updCore s n f).fetches = s.fetches := by
  unfold updCore; split <;> rfl
@[simp] theorem updCore_postedW (s : State) (n : Nat) (f : CoreSt → CoreSt) :
    (updCore s n f).postedW = s.postedW := by
  unfold updCore; split <;> rfl
@[simp] theorem updCore_seq (s : State) (n : Nat) (f : CoreSt → CoreSt) :
    (updCore s n f).seq = s.seq := by
  unfold updCore; split <;> rfl
@[simp] theorem updCore_msgs (s : State) (n : Nat) (f : CoreSt → CoreSt) :
    (updCore s n f).msgs = s.msgs := by
  unfold updCore; split <;> rfl
@[simp] theorem updCore_inMsgs (s : State) (n : Nat) (f : CoreSt → CoreSt) :
    (updCore s n f).inMsgs = s.inMsgs := by
  unfold updCore; split <;> rfl
@[simp] theorem updCore_retained (s : State) (n : Nat) (f : CoreSt → CoreSt) :
    (updCore s n f).retained = s.retained := by
  unfold updCore; split <;> rfl
@[simp] theorem updCore_mcWait (s : State) (n : Nat) (f : CoreSt → CoreSt) :
    (updCore s n f).mcWait = s.mcWait := by
  unfold updCore; split <;> rfl
@[simp] theorem updCore_substs (s : State) (n : Nat) (f : CoreSt → CoreSt) :
    (updCore s n f).substs = s.substs := by
  unfold updCore; split <;> rfl
@[simp] theorem updCore_power (s : State) (n : Nat) (f : CoreSt → CoreSt) :
    (updCore s n f).power = s.power := by
  unfold updCore; split <;> rfl
@[simp] theorem updCore_hot (s : State) (n : Nat) (f : CoreSt → CoreSt) :
    (updCore s n f).hot = s.hot := by
  unfold updCore; split <;> rfl
@[simp] theorem updCore_quiescing (s : State) (n : Nat) (f : CoreSt → CoreSt) :
    (updCore s n f).quiescing = s.quiescing := by
  unfold updCore; split <;> rfl
@[simp] theorem updCore_devload (s : State) (n : Nat) (f : CoreSt → CoreSt) :
    (updCore s n f).devload = s.devload := by
  unfold updCore; split <;> rfl
@[simp] theorem updCore_sec (s : State) (n : Nat) (f : CoreSt → CoreSt) :
    (updCore s n f).sec = s.sec := by
  unfold updCore; split <;> rfl
@[simp] theorem updCore_outbox (s : State) (n : Nat) (f : CoreSt → CoreSt) :
    (updCore s n f).outbox = s.outbox := by
  unfold updCore; split <;> rfl
@[simp] theorem updCore_atPorts (s : State) (n : Nat) (f : CoreSt → CoreSt) :
    (updCore s n f).atPorts = s.atPorts := by
  unfold updCore; split <;> rfl
@[simp] theorem updCore_started (s : State) (n : Nat) (f : CoreSt → CoreSt) :
    (updCore s n f).started = s.started := by
  unfold updCore; split <;> rfl

/-! ### setLine -/

@[simp] theorem setLine_agenda (s : State) (r : LineRec) : (setLine s r).agenda = s.agenda := by
  unfold setLine; split <;> rfl
@[simp] theorem setLine_cur (s : State) (r : LineRec) : (setLine s r).cur = s.cur := by
  unfold setLine; split <;> rfl
@[simp] theorem setLine_tick (s : State) (r : LineRec) : (setLine s r).tick = s.tick := by
  unfold setLine; split <;> rfl
@[simp] theorem setLine_nextId (s : State) (r : LineRec) : (setLine s r).nextId = s.nextId := by
  unfold setLine; split <;> rfl
@[simp] theorem setLine_waiting (s : State) (r : LineRec) :
    (setLine s r).waiting = s.waiting := by
  unfold setLine; split <;> rfl
@[simp] theorem setLine_mem (s : State) (r : LineRec) : (setLine s r).mem = s.mem := by
  unfold setLine; split <;> rfl
@[simp] theorem setLine_wefts (s : State) (r : LineRec) : (setLine s r).wefts = s.wefts := by
  unfold setLine; split <;> rfl
@[simp] theorem setLine_panels (s : State) (r : LineRec) : (setLine s r).panels = s.panels := by
  unfold setLine; split <;> rfl
@[simp] theorem setLine_cores (s : State) (r : LineRec) : (setLine s r).cores = s.cores := by
  unfold setLine; split <;> rfl
@[simp] theorem setLine_parts (s : State) (r : LineRec) : (setLine s r).parts = s.parts := by
  unfold setLine; split <;> rfl
@[simp] theorem setLine_saved (s : State) (r : LineRec) : (setLine s r).saved = s.saved := by
  unfold setLine; split <;> rfl
@[simp] theorem setLine_landings (s : State) (r : LineRec) :
    (setLine s r).landings = s.landings := by
  unfold setLine; split <;> rfl
@[simp] theorem setLine_symAccs (s : State) (r : LineRec) :
    (setLine s r).symAccs = s.symAccs := by
  unfold setLine; split <;> rfl
@[simp] theorem setLine_snaps (s : State) (r : LineRec) : (setLine s r).snaps = s.snaps := by
  unfold setLine; split <;> rfl
@[simp] theorem setLine_erred (s : State) (r : LineRec) : (setLine s r).erred = s.erred := by
  unfold setLine; split <;> rfl
@[simp] theorem setLine_pages (s : State) (r : LineRec) : (setLine s r).pages = s.pages := by
  unfold setLine; split <;> rfl
@[simp] theorem setLine_tlb (s : State) (r : LineRec) : (setLine s r).tlb = s.tlb := by
  unfold setLine; split <;> rfl
@[simp] theorem setLine_walks (s : State) (r : LineRec) : (setLine s r).walks = s.walks := by
  unfold setLine; split <;> rfl
@[simp] theorem setLine_synonyms (s : State) (r : LineRec) :
    (setLine s r).synonyms = s.synonyms := by
  unfold setLine; split <;> rfl
@[simp] theorem setLine_moves (s : State) (r : LineRec) : (setLine s r).moves = s.moves := by
  unfold setLine; split <;> rfl
@[simp] theorem setLine_moveReqs (s : State) (r : LineRec) :
    (setLine s r).moveReqs = s.moveReqs := by
  unfold setLine; split <;> rfl
@[simp] theorem setLine_dups (s : State) (r : LineRec) : (setLine s r).dups = s.dups := by
  unfold setLine; split <;> rfl
@[simp] theorem setLine_tables (s : State) (r : LineRec) : (setLine s r).tables = s.tables := by
  unfold setLine; split <;> rfl
@[simp] theorem setLine_htvec (s : State) (r : LineRec) : (setLine s r).htvec = s.htvec := by
  unfold setLine; split <;> rfl
@[simp] theorem setLine_mtvec (s : State) (r : LineRec) : (setLine s r).mtvec = s.mtvec := by
  unfold setLine; split <;> rfl
@[simp] theorem setLine_incarn (s : State) (r : LineRec) : (setLine s r).incarn = s.incarn := by
  unfold setLine; split <;> rfl
@[simp] theorem setLine_pkgid (s : State) (r : LineRec) : (setLine s r).pkgid = s.pkgid := by
  unfold setLine; split <;> rfl
@[simp] theorem setLine_peers (s : State) (r : LineRec) : (setLine s r).peers = s.peers := by
  unfold setLine; split <;> rfl
@[simp] theorem setLine_routes (s : State) (r : LineRec) : (setLine s r).routes = s.routes := by
  unfold setLine; split <;> rfl
@[simp] theorem setLine_groups (s : State) (r : LineRec) : (setLine s r).groups = s.groups := by
  unfold setLine; split <;> rfl
@[simp] theorem setLine_ports (s : State) (r : LineRec) : (setLine s r).ports = s.ports := by
  unfold setLine; split <;> rfl
@[simp] theorem setLine_buffers (s : State) (r : LineRec) :
    (setLine s r).buffers = s.buffers := by
  unfold setLine; split <;> rfl
@[simp] theorem setLine_outReqs (s : State) (r : LineRec) :
    (setLine s r).outReqs = s.outReqs := by
  unfold setLine; split <;> rfl
@[simp] theorem setLine_fetches (s : State) (r : LineRec) :
    (setLine s r).fetches = s.fetches := by
  unfold setLine; split <;> rfl
@[simp] theorem setLine_postedW (s : State) (r : LineRec) :
    (setLine s r).postedW = s.postedW := by
  unfold setLine; split <;> rfl
@[simp] theorem setLine_seq (s : State) (r : LineRec) : (setLine s r).seq = s.seq := by
  unfold setLine; split <;> rfl
@[simp] theorem setLine_msgs (s : State) (r : LineRec) : (setLine s r).msgs = s.msgs := by
  unfold setLine; split <;> rfl
@[simp] theorem setLine_inMsgs (s : State) (r : LineRec) : (setLine s r).inMsgs = s.inMsgs := by
  unfold setLine; split <;> rfl
@[simp] theorem setLine_retained (s : State) (r : LineRec) :
    (setLine s r).retained = s.retained := by
  unfold setLine; split <;> rfl
@[simp] theorem setLine_mcWait (s : State) (r : LineRec) : (setLine s r).mcWait = s.mcWait := by
  unfold setLine; split <;> rfl
@[simp] theorem setLine_substs (s : State) (r : LineRec) : (setLine s r).substs = s.substs := by
  unfold setLine; split <;> rfl
@[simp] theorem setLine_power (s : State) (r : LineRec) : (setLine s r).power = s.power := by
  unfold setLine; split <;> rfl
@[simp] theorem setLine_hot (s : State) (r : LineRec) : (setLine s r).hot = s.hot := by
  unfold setLine; split <;> rfl
@[simp] theorem setLine_quiescing (s : State) (r : LineRec) :
    (setLine s r).quiescing = s.quiescing := by
  unfold setLine; split <;> rfl
@[simp] theorem setLine_devload (s : State) (r : LineRec) :
    (setLine s r).devload = s.devload := by
  unfold setLine; split <;> rfl
@[simp] theorem setLine_sec (s : State) (r : LineRec) : (setLine s r).sec = s.sec := by
  unfold setLine; split <;> rfl
@[simp] theorem setLine_outbox (s : State) (r : LineRec) : (setLine s r).outbox = s.outbox := by
  unfold setLine; split <;> rfl
@[simp] theorem setLine_atPorts (s : State) (r : LineRec) :
    (setLine s r).atPorts = s.atPorts := by
  unfold setLine; split <;> rfl
@[simp] theorem setLine_started (s : State) (r : LineRec) :
    (setLine s r).started = s.started := by
  unfold setLine; split <;> rfl

/-! ### updPage -/

@[simp] theorem updPage_agenda (s : State) (a : Nat) (f : PageRec → PageRec) :
    (updPage s a f).agenda = s.agenda := by
  unfold updPage; split <;> rfl
@[simp] theorem updPage_cur (s : State) (a : Nat) (f : PageRec → PageRec) :
    (updPage s a f).cur = s.cur := by
  unfold updPage; split <;> rfl
@[simp] theorem updPage_tick (s : State) (a : Nat) (f : PageRec → PageRec) :
    (updPage s a f).tick = s.tick := by
  unfold updPage; split <;> rfl
@[simp] theorem updPage_nextId (s : State) (a : Nat) (f : PageRec → PageRec) :
    (updPage s a f).nextId = s.nextId := by
  unfold updPage; split <;> rfl
@[simp] theorem updPage_waiting (s : State) (a : Nat) (f : PageRec → PageRec) :
    (updPage s a f).waiting = s.waiting := by
  unfold updPage; split <;> rfl
@[simp] theorem updPage_mem (s : State) (a : Nat) (f : PageRec → PageRec) :
    (updPage s a f).mem = s.mem := by
  unfold updPage; split <;> rfl
@[simp] theorem updPage_wefts (s : State) (a : Nat) (f : PageRec → PageRec) :
    (updPage s a f).wefts = s.wefts := by
  unfold updPage; split <;> rfl
@[simp] theorem updPage_panels (s : State) (a : Nat) (f : PageRec → PageRec) :
    (updPage s a f).panels = s.panels := by
  unfold updPage; split <;> rfl
@[simp] theorem updPage_cores (s : State) (a : Nat) (f : PageRec → PageRec) :
    (updPage s a f).cores = s.cores := by
  unfold updPage; split <;> rfl
@[simp] theorem updPage_parts (s : State) (a : Nat) (f : PageRec → PageRec) :
    (updPage s a f).parts = s.parts := by
  unfold updPage; split <;> rfl
@[simp] theorem updPage_saved (s : State) (a : Nat) (f : PageRec → PageRec) :
    (updPage s a f).saved = s.saved := by
  unfold updPage; split <;> rfl
@[simp] theorem updPage_landings (s : State) (a : Nat) (f : PageRec → PageRec) :
    (updPage s a f).landings = s.landings := by
  unfold updPage; split <;> rfl
@[simp] theorem updPage_symAccs (s : State) (a : Nat) (f : PageRec → PageRec) :
    (updPage s a f).symAccs = s.symAccs := by
  unfold updPage; split <;> rfl
@[simp] theorem updPage_snaps (s : State) (a : Nat) (f : PageRec → PageRec) :
    (updPage s a f).snaps = s.snaps := by
  unfold updPage; split <;> rfl
@[simp] theorem updPage_erred (s : State) (a : Nat) (f : PageRec → PageRec) :
    (updPage s a f).erred = s.erred := by
  unfold updPage; split <;> rfl
@[simp] theorem updPage_lines (s : State) (a : Nat) (f : PageRec → PageRec) :
    (updPage s a f).lines = s.lines := by
  unfold updPage; split <;> rfl
@[simp] theorem updPage_tlb (s : State) (a : Nat) (f : PageRec → PageRec) :
    (updPage s a f).tlb = s.tlb := by
  unfold updPage; split <;> rfl
@[simp] theorem updPage_walks (s : State) (a : Nat) (f : PageRec → PageRec) :
    (updPage s a f).walks = s.walks := by
  unfold updPage; split <;> rfl
@[simp] theorem updPage_synonyms (s : State) (a : Nat) (f : PageRec → PageRec) :
    (updPage s a f).synonyms = s.synonyms := by
  unfold updPage; split <;> rfl
@[simp] theorem updPage_moves (s : State) (a : Nat) (f : PageRec → PageRec) :
    (updPage s a f).moves = s.moves := by
  unfold updPage; split <;> rfl
@[simp] theorem updPage_moveReqs (s : State) (a : Nat) (f : PageRec → PageRec) :
    (updPage s a f).moveReqs = s.moveReqs := by
  unfold updPage; split <;> rfl
@[simp] theorem updPage_dups (s : State) (a : Nat) (f : PageRec → PageRec) :
    (updPage s a f).dups = s.dups := by
  unfold updPage; split <;> rfl
@[simp] theorem updPage_tables (s : State) (a : Nat) (f : PageRec → PageRec) :
    (updPage s a f).tables = s.tables := by
  unfold updPage; split <;> rfl
@[simp] theorem updPage_htvec (s : State) (a : Nat) (f : PageRec → PageRec) :
    (updPage s a f).htvec = s.htvec := by
  unfold updPage; split <;> rfl
@[simp] theorem updPage_mtvec (s : State) (a : Nat) (f : PageRec → PageRec) :
    (updPage s a f).mtvec = s.mtvec := by
  unfold updPage; split <;> rfl
@[simp] theorem updPage_incarn (s : State) (a : Nat) (f : PageRec → PageRec) :
    (updPage s a f).incarn = s.incarn := by
  unfold updPage; split <;> rfl
@[simp] theorem updPage_pkgid (s : State) (a : Nat) (f : PageRec → PageRec) :
    (updPage s a f).pkgid = s.pkgid := by
  unfold updPage; split <;> rfl
@[simp] theorem updPage_peers (s : State) (a : Nat) (f : PageRec → PageRec) :
    (updPage s a f).peers = s.peers := by
  unfold updPage; split <;> rfl
@[simp] theorem updPage_routes (s : State) (a : Nat) (f : PageRec → PageRec) :
    (updPage s a f).routes = s.routes := by
  unfold updPage; split <;> rfl
@[simp] theorem updPage_groups (s : State) (a : Nat) (f : PageRec → PageRec) :
    (updPage s a f).groups = s.groups := by
  unfold updPage; split <;> rfl
@[simp] theorem updPage_ports (s : State) (a : Nat) (f : PageRec → PageRec) :
    (updPage s a f).ports = s.ports := by
  unfold updPage; split <;> rfl
@[simp] theorem updPage_buffers (s : State) (a : Nat) (f : PageRec → PageRec) :
    (updPage s a f).buffers = s.buffers := by
  unfold updPage; split <;> rfl
@[simp] theorem updPage_outReqs (s : State) (a : Nat) (f : PageRec → PageRec) :
    (updPage s a f).outReqs = s.outReqs := by
  unfold updPage; split <;> rfl
@[simp] theorem updPage_fetches (s : State) (a : Nat) (f : PageRec → PageRec) :
    (updPage s a f).fetches = s.fetches := by
  unfold updPage; split <;> rfl
@[simp] theorem updPage_postedW (s : State) (a : Nat) (f : PageRec → PageRec) :
    (updPage s a f).postedW = s.postedW := by
  unfold updPage; split <;> rfl
@[simp] theorem updPage_seq (s : State) (a : Nat) (f : PageRec → PageRec) :
    (updPage s a f).seq = s.seq := by
  unfold updPage; split <;> rfl
@[simp] theorem updPage_msgs (s : State) (a : Nat) (f : PageRec → PageRec) :
    (updPage s a f).msgs = s.msgs := by
  unfold updPage; split <;> rfl
@[simp] theorem updPage_inMsgs (s : State) (a : Nat) (f : PageRec → PageRec) :
    (updPage s a f).inMsgs = s.inMsgs := by
  unfold updPage; split <;> rfl
@[simp] theorem updPage_retained (s : State) (a : Nat) (f : PageRec → PageRec) :
    (updPage s a f).retained = s.retained := by
  unfold updPage; split <;> rfl
@[simp] theorem updPage_mcWait (s : State) (a : Nat) (f : PageRec → PageRec) :
    (updPage s a f).mcWait = s.mcWait := by
  unfold updPage; split <;> rfl
@[simp] theorem updPage_substs (s : State) (a : Nat) (f : PageRec → PageRec) :
    (updPage s a f).substs = s.substs := by
  unfold updPage; split <;> rfl
@[simp] theorem updPage_power (s : State) (a : Nat) (f : PageRec → PageRec) :
    (updPage s a f).power = s.power := by
  unfold updPage; split <;> rfl
@[simp] theorem updPage_hot (s : State) (a : Nat) (f : PageRec → PageRec) :
    (updPage s a f).hot = s.hot := by
  unfold updPage; split <;> rfl
@[simp] theorem updPage_quiescing (s : State) (a : Nat) (f : PageRec → PageRec) :
    (updPage s a f).quiescing = s.quiescing := by
  unfold updPage; split <;> rfl
@[simp] theorem updPage_devload (s : State) (a : Nat) (f : PageRec → PageRec) :
    (updPage s a f).devload = s.devload := by
  unfold updPage; split <;> rfl
@[simp] theorem updPage_sec (s : State) (a : Nat) (f : PageRec → PageRec) :
    (updPage s a f).sec = s.sec := by
  unfold updPage; split <;> rfl
@[simp] theorem updPage_outbox (s : State) (a : Nat) (f : PageRec → PageRec) :
    (updPage s a f).outbox = s.outbox := by
  unfold updPage; split <;> rfl
@[simp] theorem updPage_atPorts (s : State) (a : Nat) (f : PageRec → PageRec) :
    (updPage s a f).atPorts = s.atPorts := by
  unfold updPage; split <;> rfl
@[simp] theorem updPage_started (s : State) (a : Nat) (f : PageRec → PageRec) :
    (updPage s a f).started = s.started := by
  unfold updPage; split <;> rfl

/-! ### writePhys -/

@[simp] theorem writePhys_agenda (s : State) (a : Nat) (d : List Byte) : (writePhys s a d).agenda = s.agenda := rfl
@[simp] theorem writePhys_cur (s : State) (a : Nat) (d : List Byte) : (writePhys s a d).cur = s.cur := rfl
@[simp] theorem writePhys_tick (s : State) (a : Nat) (d : List Byte) : (writePhys s a d).tick = s.tick := rfl
@[simp] theorem writePhys_nextId (s : State) (a : Nat) (d : List Byte) : (writePhys s a d).nextId = s.nextId := rfl
@[simp] theorem writePhys_waiting (s : State) (a : Nat) (d : List Byte) : (writePhys s a d).waiting = s.waiting := rfl
@[simp] theorem writePhys_wefts (s : State) (a : Nat) (d : List Byte) : (writePhys s a d).wefts = s.wefts := rfl
@[simp] theorem writePhys_panels (s : State) (a : Nat) (d : List Byte) : (writePhys s a d).panels = s.panels := rfl
@[simp] theorem writePhys_cores (s : State) (a : Nat) (d : List Byte) : (writePhys s a d).cores = s.cores := rfl
@[simp] theorem writePhys_parts (s : State) (a : Nat) (d : List Byte) : (writePhys s a d).parts = s.parts := rfl
@[simp] theorem writePhys_saved (s : State) (a : Nat) (d : List Byte) : (writePhys s a d).saved = s.saved := rfl
@[simp] theorem writePhys_landings (s : State) (a : Nat) (d : List Byte) : (writePhys s a d).landings = s.landings := rfl
@[simp] theorem writePhys_symAccs (s : State) (a : Nat) (d : List Byte) : (writePhys s a d).symAccs = s.symAccs := rfl
@[simp] theorem writePhys_snaps (s : State) (a : Nat) (d : List Byte) : (writePhys s a d).snaps = s.snaps := rfl
@[simp] theorem writePhys_erred (s : State) (a : Nat) (d : List Byte) : (writePhys s a d).erred = s.erred := rfl
@[simp] theorem writePhys_pages (s : State) (a : Nat) (d : List Byte) : (writePhys s a d).pages = s.pages := rfl
@[simp] theorem writePhys_tlb (s : State) (a : Nat) (d : List Byte) : (writePhys s a d).tlb = s.tlb := rfl
@[simp] theorem writePhys_walks (s : State) (a : Nat) (d : List Byte) : (writePhys s a d).walks = s.walks := rfl
@[simp] theorem writePhys_synonyms (s : State) (a : Nat) (d : List Byte) : (writePhys s a d).synonyms = s.synonyms := rfl
@[simp] theorem writePhys_moves (s : State) (a : Nat) (d : List Byte) : (writePhys s a d).moves = s.moves := rfl
@[simp] theorem writePhys_moveReqs (s : State) (a : Nat) (d : List Byte) : (writePhys s a d).moveReqs = s.moveReqs := rfl
@[simp] theorem writePhys_dups (s : State) (a : Nat) (d : List Byte) : (writePhys s a d).dups = s.dups := rfl
@[simp] theorem writePhys_tables (s : State) (a : Nat) (d : List Byte) : (writePhys s a d).tables = s.tables := rfl
@[simp] theorem writePhys_htvec (s : State) (a : Nat) (d : List Byte) : (writePhys s a d).htvec = s.htvec := rfl
@[simp] theorem writePhys_mtvec (s : State) (a : Nat) (d : List Byte) : (writePhys s a d).mtvec = s.mtvec := rfl
@[simp] theorem writePhys_incarn (s : State) (a : Nat) (d : List Byte) : (writePhys s a d).incarn = s.incarn := rfl
@[simp] theorem writePhys_pkgid (s : State) (a : Nat) (d : List Byte) : (writePhys s a d).pkgid = s.pkgid := rfl
@[simp] theorem writePhys_peers (s : State) (a : Nat) (d : List Byte) : (writePhys s a d).peers = s.peers := rfl
@[simp] theorem writePhys_routes (s : State) (a : Nat) (d : List Byte) : (writePhys s a d).routes = s.routes := rfl
@[simp] theorem writePhys_groups (s : State) (a : Nat) (d : List Byte) : (writePhys s a d).groups = s.groups := rfl
@[simp] theorem writePhys_ports (s : State) (a : Nat) (d : List Byte) : (writePhys s a d).ports = s.ports := rfl
@[simp] theorem writePhys_buffers (s : State) (a : Nat) (d : List Byte) : (writePhys s a d).buffers = s.buffers := rfl
@[simp] theorem writePhys_outReqs (s : State) (a : Nat) (d : List Byte) : (writePhys s a d).outReqs = s.outReqs := rfl
@[simp] theorem writePhys_fetches (s : State) (a : Nat) (d : List Byte) : (writePhys s a d).fetches = s.fetches := rfl
@[simp] theorem writePhys_postedW (s : State) (a : Nat) (d : List Byte) : (writePhys s a d).postedW = s.postedW := rfl
@[simp] theorem writePhys_seq (s : State) (a : Nat) (d : List Byte) : (writePhys s a d).seq = s.seq := rfl
@[simp] theorem writePhys_msgs (s : State) (a : Nat) (d : List Byte) : (writePhys s a d).msgs = s.msgs := rfl
@[simp] theorem writePhys_inMsgs (s : State) (a : Nat) (d : List Byte) : (writePhys s a d).inMsgs = s.inMsgs := rfl
@[simp] theorem writePhys_retained (s : State) (a : Nat) (d : List Byte) : (writePhys s a d).retained = s.retained := rfl
@[simp] theorem writePhys_mcWait (s : State) (a : Nat) (d : List Byte) : (writePhys s a d).mcWait = s.mcWait := rfl
@[simp] theorem writePhys_substs (s : State) (a : Nat) (d : List Byte) : (writePhys s a d).substs = s.substs := rfl
@[simp] theorem writePhys_power (s : State) (a : Nat) (d : List Byte) : (writePhys s a d).power = s.power := rfl
@[simp] theorem writePhys_hot (s : State) (a : Nat) (d : List Byte) : (writePhys s a d).hot = s.hot := rfl
@[simp] theorem writePhys_quiescing (s : State) (a : Nat) (d : List Byte) : (writePhys s a d).quiescing = s.quiescing := rfl
@[simp] theorem writePhys_devload (s : State) (a : Nat) (d : List Byte) : (writePhys s a d).devload = s.devload := rfl
@[simp] theorem writePhys_sec (s : State) (a : Nat) (d : List Byte) : (writePhys s a d).sec = s.sec := rfl
@[simp] theorem writePhys_outbox (s : State) (a : Nat) (d : List Byte) : (writePhys s a d).outbox = s.outbox := rfl
@[simp] theorem writePhys_atPorts (s : State) (a : Nat) (d : List Byte) : (writePhys s a d).atPorts = s.atPorts := rfl
@[simp] theorem writePhys_started (s : State) (a : Nat) (d : List Byte) : (writePhys s a d).started = s.started := rfl

end Sys2Proof.Machine
end

