-- ==== Sys2Proof/Laws/Mem.lean ====
section
/-!
SUPPORT. Byte storage: every operation keeps the canonical form, a read after a write gives what was written, and a write
leaves every other address alone.
-/

set_option Elab.async false
namespace Sys2Proof.Machine

/-! ### The canonical form -/

theorem memWfFrom_mono {lo hi : Nat} (h : lo ≤ hi) {m : List Host.Cell} (w : memWfFrom hi m = true) :
    memWfFrom lo m = true := by
  cases m with
  | nil => rfl
  | cons c t =>
    obtain ⟨k, b⟩ := c
    simp only [memWfFrom, Bool.and_eq_true, decide_eq_true_eq] at w ⊢
    exact ⟨⟨by omega, w.1.2⟩, w.2⟩

theorem memWfFrom_mput {lo a : Nat} {b : Byte} {m : List Host.Cell} (h : lo ≤ a) (w : memWfFrom lo m = true) :
    memWfFrom lo (mput m a b) = true := by
  induction m generalizing lo with
  | nil =>
    simp only [mput]
    split <;> simp_all [memWfFrom]
  | cons c t ih =>
    obtain ⟨k, x⟩ := c
    simp only [memWfFrom, Bool.and_eq_true, decide_eq_true_eq] at w
    obtain ⟨⟨hk, hx⟩, ht⟩ := w
    simp only [mput]
    split
    · next hka =>
      simp only [memWfFrom, Bool.and_eq_true, decide_eq_true_eq]
      exact ⟨⟨hk, hx⟩, ih (by omega) ht⟩
    · split
      · next hka =>
        subst hka
        split
        · exact memWfFrom_mono (by omega) ht
        · next hb =>
          simp only [memWfFrom, Bool.and_eq_true, decide_eq_true_eq]
          exact ⟨⟨hk, by simpa using hb⟩, ht⟩
      · next h1 h2 =>
        split
        · simp only [memWfFrom, Bool.and_eq_true, decide_eq_true_eq]
          exact ⟨⟨hk, hx⟩, ht⟩
        · next hb =>
          simp only [memWfFrom, Bool.and_eq_true, decide_eq_true_eq]
          exact ⟨⟨h, by simpa using hb⟩, ⟨by omega, hx⟩, ht⟩

/-- A byte written keeps the canonical form. -/
theorem wf_mput {m : List Host.Cell} (a : Nat) (b : Byte) (w : Memory.wf m = true) : Memory.wf (mput m a b) = true :=
  memWfFrom_mput (Nat.zero_le a) w

/-- Bytes written keep the canonical form. -/
theorem wf_mwrite {m : List Host.Cell} (a : Nat) (bs : List Byte) (w : Memory.wf m = true) :
    Memory.wf (mwrite m a bs) = true := by
  induction bs generalizing m a with
  | nil => exact w
  | cons b t ih => exact ih (a + 1) (wf_mput a b w)

/-- A write to physical memory keeps its canonical form. -/
theorem wf_writePhys {s : State} (a : Nat) (bs : List Byte) (w : Memory.wf s.mem = true) :
    Memory.wf (writePhys s a bs).mem = true := wf_mwrite a bs w

/-! ### Reading after writing -/

theorem mget_below {m : List Host.Cell} {lo a : Nat} (w : memWfFrom lo m = true) (h : a < lo) : mget m a = unlisted := by
  cases m with
  | nil => rfl
  | cons c t =>
    obtain ⟨k, b⟩ := c
    simp only [memWfFrom, Bool.and_eq_true, decide_eq_true_eq] at w
    simp only [mget]
    rw [if_neg (by omega), if_pos (by omega)]

theorem mget_mput_from {lo a : Nat} {b : Byte} {m : List Host.Cell} (x : Nat) (w : memWfFrom lo m = true) :
    mget (mput m a b) x = if x = a then b else mget m x := by
  induction m generalizing lo with
  | nil =>
    simp only [mput]
    by_cases hx : x = a
    · subst hx; split
      · next hb => simp [mget, hb]
      · simp [mget]
    · split <;> simp [mget, Ne.symm hx]
  | cons c t ih =>
    obtain ⟨k, y⟩ := c
    simp only [memWfFrom, Bool.and_eq_true, decide_eq_true_eq] at w
    obtain ⟨⟨hk, hy⟩, ht⟩ := w
    have low := fun z (hz : z < k + 1) => mget_below ht hz
    simp only [mput]
    split
    · next h =>
      simp only [mget, ih ht]
      by_cases e : x = a
      · subst e; simp [show k ≠ x by omega, show ¬ x < k by omega]
      · simp [e]
    · split
      · next h =>
        subst h
        by_cases e : x = k
        · subst e; split
          · next hb => rw [low x (by omega), hb]; simp
          · simp [mget]
        · split
          · simp only [mget, if_false, Ne.symm e]
            by_cases hl : x < k
            · rw [if_pos hl, low x (by omega)]
            · rw [if_neg hl]
          · simp [mget, Ne.symm e]
      · next h1 h2 =>
        by_cases e : x = a
        · subst e; split
          · next hb => simp only [mget]; rw [if_neg (by omega), if_pos (by omega), hb]; simp
          · simp [mget]
        · split
          · simp
          · simp only [mget, if_false, Ne.symm e]
            by_cases hl : x < a
            · rw [if_pos hl, if_neg (show k ≠ x by omega), if_pos (show x < k by omega)]
            · rw [if_neg hl]

/-- The byte read at any address after one byte has been written. -/
theorem mget_mput {m : List Host.Cell} (w : Memory.wf m = true) (a x : Nat) (b : Byte) :
    mget (mput m a b) x = if x = a then b else mget m x := mget_mput_from x w

/-- An address outside the bytes written reads as before. -/
theorem mget_mwrite_out {m : List Host.Cell} (w : Memory.wf m = true) {a x : Nat} {bs : List Byte}
    (h : x < a ∨ a + bs.length ≤ x) : mget (mwrite m a bs) x = mget m x := by
  induction bs generalizing m a with
  | nil => rfl
  | cons b t ih =>
    simp only [List.length_cons] at h
    rw [mwrite, ih (wf_mput a b w) (by omega), mget_mput w, if_neg (by omega)]

/-- An address among the bytes written reads as its byte. -/
theorem mget_mwrite_in {m : List Host.Cell} (w : Memory.wf m = true) {a i : Nat} {bs : List Byte} (h : i < bs.length) :
    mget (mwrite m a bs) (a + i) = bs[i] := by
  induction bs generalizing m a i with
  | nil => simp at h
  | cons b t ih =>
    cases i with
    | zero =>
      rw [mwrite, mget_mwrite_out (wf_mput a b w) (by omega), Nat.add_zero, mget_mput w, if_pos rfl]
      rfl
    | succ n =>
      have e : a + (n + 1) = a + 1 + n := by omega
      rw [mwrite, e, ih (wf_mput a b w) (by simpa using h)]
      rfl

/-- The bytes written read back as they were written. -/
theorem mread_mwrite {m : List Host.Cell} (w : Memory.wf m = true) (a : Nat) (bs : List Byte) :
    mread (mwrite m a bs) a bs.length = bs := by
  induction bs generalizing m a with
  | nil => rfl
  | cons b t ih =>
    rw [mwrite, List.length_cons, mread, ih (wf_mput a b w), mget_mwrite_out (wf_mput a b w) (by omega), mget_mput w,
      if_pos rfl]

end Sys2Proof.Machine
end

