-- ==== Sys2Proof/Laws/Weft.lean ====
section
/-!
SUPPORT. Tables, look-ups of wefts and sub-wefts after an update, and registers after a write.
-/

set_option Elab.async false
namespace Sys2Proof.Machine

open Safety

/-! ### Tables -/

@[simp] theorem tget_tset_self {κ α : Type} [DecidableEq κ] (t : Tab κ α) (k : κ) (a : α) : tget (tset t k a) k = some a := by
  induction t with
  | nil => simp [tset, tget]
  | cons h t ih =>
    obtain ⟨k', v⟩ := h
    simp only [tset]
    split <;> simp_all [tget]

theorem tget_tset_ne {κ α : Type} [DecidableEq κ] (t : Tab κ α) {k x : κ} (a : α) (h : x ≠ k) :
    tget (tset t k a) x = tget t x := by
  induction t with
  | nil => simp [tset, tget, Ne.symm h]
  | cons c t ih =>
    obtain ⟨k', v⟩ := c
    simp only [tset]
    split
    · next e => subst e; simp [tget, Ne.symm h]
    · simp only [tget, ih]

@[simp] theorem tgetD_tset_self {κ α : Type} [DecidableEq κ] (t : Tab κ α) (k : κ) (a d : α) : tgetD (tset t k a) k d = a := by
  simp [tgetD]

theorem tgetD_tset_ne {κ α : Type} [DecidableEq κ] (t : Tab κ α) {k x : κ} (a d : α) (h : x ≠ k) :
    tgetD (tset t k a) x d = tgetD t x d := by simp [tgetD, tget_tset_ne t a h]

theorem nth_setNth_ne {α : Type} (l : List α) {i j : Nat} (a d : α) (h : j ≠ i) : nth (setNth l i a) j d = nth l j d := by
  induction l generalizing i j with
  | nil => rfl
  | cons x t ih =>
    cases i with
    | zero => cases j with | zero => exact absurd rfl h | succ j => rfl
    | succ i =>
      cases j with
      | zero => rfl
      | succ j =>
        have := ih (i := i) (j := j) (by omega)
        simpa [setNth, nth] using this

theorem nth_setNth_self {α : Type} {l : List α} {i : Nat} (a d : α) (h : i < l.length) : nth (setNth l i a) i d = a := by
  induction l generalizing i with
  | nil => simp at h
  | cons x t ih =>
    cases i with
    | zero => rfl
    | succ i =>
      have := ih (i := i) (by simpa using h)
      simpa [setNth, nth] using this

/-! ### Wefts of a state -/

theorem getWeft_id {s : State} {id : WId} {w : Weft} (h : getWeft s id = some w) : w.id = id := by
  have := List.find?_some h
  simpa using this

/-- The weft at a place after every weft has been mapped by a function that keeps places. -/
theorem getWeft_map (s : State) (f : Weft → Weft) (hf : ∀ w, (f w).id = w.id) (id : WId) :
    getWeft { s with wefts := s.wefts.map f } id = (getWeft s id).map f := by
  simp only [getWeft, List.find?_map]
  congr 2
  funext w
  simp [hf]

theorem getWeft_updWeft (s : State) (id : WId) (f : Weft → Weft) (hf : ∀ w, (f w).id = w.id) (k : WId) :
    getWeft (updWeft s id f) k = if k = id then (getWeft s k).map f else getWeft s k := by
  have h := getWeft_map s (fun x => if x.id = id then f x else x)
    (fun w => by split <;> simp [hf]) k
  rw [show updWeft s id f = { s with wefts := s.wefts.map fun x => if x.id = id then f x else x } from rfl, h]
  cases hw : getWeft s k with
  | none => simp
  | some w =>
    have hk := getWeft_id hw
    by_cases e : k = id
    · subst e; simp [hk]
    · simp [hk, e]

theorem getWeft_setWeft (s : State) (w : Weft) (k : WId) :
    getWeft (setWeft s w) k = if k = w.id then (getWeft s k).map (fun _ => w) else getWeft s k := by
  have h := getWeft_map s (fun x => if x.id = w.id then w else x) (fun x => by split <;> simp_all) k
  rw [show setWeft s w = { s with wefts := s.wefts.map fun x => if x.id = w.id then w else x } from rfl, h]
  cases hw : getWeft s k with
  | none => simp
  | some v =>
    have hk := getWeft_id hw
    by_cases e : k = w.id
    · subst e; simp [hk]
    · simp [hk, e]

@[simp] theorem getWeft_cur (s : State) (c : Option Cur) (k : WId) : getWeft { s with cur := c } k = getWeft s k := rfl
@[simp] theorem getWeft_progress (s : State) (k : WId) : getWeft (progress s) k = getWeft s k := rfl

/-! ### Sub-wefts of a weft -/

theorem subAt_map (w : Weft) (g : Sub → Sub) (hg : ∀ b, (g b).mask = b.mask) (l : Nat) :
    subAt { w with subs := w.subs.map g } l = (subAt w l).map g := by
  simp only [subAt, List.find?_map]
  congr 2
  funext b
  simp [hg]

theorem subAt_mask {w : Weft} {l : Nat} {b : Sub} (h : subAt w l = some b) : b.mask.getLsbD l = true := by
  have := List.find?_some h
  simpa using this

theorem subAt_updSub (w : Weft) (l : Nat) (g : Sub → Sub) (hg : ∀ b, (g b).mask = b.mask) :
    subAt (updSub w l g) l = (subAt w l).map g := by
  have h := subAt_map w (fun b => if b.mask.getLsbD l then g b else b) (fun b => by split <;> simp [hg]) l
  rw [show updSub w l g = { w with subs := w.subs.map fun b => if b.mask.getLsbD l then g b else b } from rfl, h]
  cases hb : subAt w l with
  | none => rfl
  | some b => simp only [Option.map_some, subAt_mask hb, if_true]

theorem subAt_mem {w : Weft} {l : Nat} {b : Sub} (h : subAt w l = some b) : b ∈ w.subs := List.mem_of_find?_eq_some h

end Sys2Proof.Machine
end

