-- ==== Sys2Proof/Laws/Unit.lean ====
section
/-!
SUPPORT. What carrying out a unit does: the checks before its body are passed, and a body that ends at its next word
leaves every register, special register and byte of memory as it made them.
-/

set_option Elab.async false
namespace Sys2Proof.Machine

open Safety

/-- A unit that passes its checks ends as its body says. -/
theorem onWeft_runs {s : State} {m : Mnem} {f : Fields} {g : GuardKind} {x : Ctx} (h : Runs s m f g x)
    (body : Ctx → R Out) :
    onWeft m f g body s = .next (finishUnit s x.c x.w x.p x.b f.stl x.act (body x)) := by
  have hx : x = ⟨s, x.c, x.w, x.p, x.b, f, m, x.act, x.scalar, x.c.words - 1, []⟩ := by
    obtain ⟨s', c, w, p, b, f', m', act, sc, pre, pops⟩ := x
    have h1 := h.state; have h2 := h.fields; have h3 := h.mnem; have h4 := h.words; have h5 := h.pops
    simp only at h1 h2 h3 h4 h5
    subst h1 h2 h3 h4 h5
    rfl
  have hu : unitOut m f g body s x.c x.w x.p x.b = (x.act, body x) := by
    have hg := h.guard
    have hs := h.scalar
    have hw := h.words
    have hu : (decide (m = .uiret) && !uiAct x.w) = false := by
      by_cases e : m = .uiret
      · simp [h.returns.2 e]
      · simp [e]
    have ht : (decide (m = .tret) && !trapActive x.w x.w.level) = false := by
      by_cases e : m = .tret
      · simp [h.returns.1 e]
      · simp [e]
    rw [hw, hs] at hg
    unfold unitOut
    simp only [h.engine, h.budget, h.bound, hu, ht, Bool.not_true, Bool.or_false, Bool.false_eq_true, if_false, decide_false,
      show ¬ levelOf m f > x.w.level from by have := h.level; omega]
    rw [hg]
    simp only [h.active, if_false, h.region, Bool.false_eq_true]
    rw [← hs, ← hx]
  unfold onWeft
  rw [h.cur]
  simp only [h.weft, h.panel, h.sub, hu]

/-- A weft in which the unit that a sub-weft has issued waits for nothing, and what it took from its queues is spent. -/
def clearUnit (x : Ctx) (w : Weft) : Weft :=
  updSub { w with popped := w.popped.filter fun e => !(e.lane == x.c.lane && e.pc == x.c.pc) } x.c.lane
    fun b => { b with hold := .none, park := none }

/-- The weft of a unit that ends at its next word, its stepping apart. -/
def endWeft (x : Ctx) (w : Weft) : Weft :=
  settle (ageWindow (updSub (clearUnit x w) x.c.lane fun b => { b with pc := nextPc x }) x.b.mask (x.c.words - 1)
    (max x.f.stl.toNat 1))

theorem settle_bare (w : Weft) : ∃ u d, settle w = { w with subs := u, divs := d } := by
  unfold settle
  simp only
  split
  · exact ⟨_, _, rfl⟩
  · exact ⟨_, w.divs, rfl⟩

theorem endWeft_eq (x : Ctx) (w : Weft) :
    ∃ u d e o, endWeft x w = { w with subs := u, divs := d, window := e, popped := o } := by
  obtain ⟨u, d, h⟩ := settle_bare (ageWindow (updSub (clearUnit x w) x.c.lane fun b => { b with pc := nextPc x }) x.b.mask
    (x.c.words - 1) (max x.f.stl.toNat 1))
  exact ⟨u, d, _, _, h⟩

@[simp] theorem bare_endWeft (x : Ctx) (w : Weft) : bare (endWeft x w) = bare w := by
  obtain ⟨u, d, e, o, h⟩ := endWeft_eq x w
  rw [h]; rfl

@[simp] theorem regNow_endWeft (x : Ctx) (w : Weft) (r : RegId) : regNow (endWeft x w) r = regNow w r := by
  obtain ⟨u, d, e, o, h⟩ := endWeft_eq x w
  rw [h]; cases r <;> rfl

@[simp] theorem endWeft_id (x : Ctx) (w : Weft) : (endWeft x w).id = w.id := by
  obtain ⟨u, d, e, o, h⟩ := endWeft_eq x w
  rw [h]

@[simp] theorem endWeft_stepping (x : Ctx) (w : Weft) : (endWeft x w).stepping = w.stepping := by
  obtain ⟨u, d, e, o, h⟩ := endWeft_eq x w
  rw [h]

@[simp] theorem freeJoin_mask (w : Weft) (b : Sub) : (freeJoin w b).mask = b.mask := by
  unfold freeJoin
  split
  · split <;> rfl
  · rfl

theorem freeJoin_ready {w : Weft} {b : Sub} (h : b.park = none) : freeJoin w b = b := by
  unfold freeJoin
  rw [h]
  split <;> simp

/-- A sub-weft that is not parked stays as it is when waits under JOIN are settled. -/
theorem subAt_settle {w : Weft} {l : Nat} {b : Sub} (h : subAt w l = some b) (hp : b.park = none) :
    subAt (settle w) l = some b := by
  have hm := subAt_mem h
  unfold settle
  simp only
  rw [if_neg]
  · rw [subAt_map w (freeJoin w) (freeJoin_mask w) l, h, Option.map_some, freeJoin_ready hp]
  · simp only [Bool.and_eq_true, not_and, Bool.not_eq_true, List.all_map]
    intro _
    rw [List.all_eq_false]
    exact ⟨b, hm, by simp only [Function.comp, freeJoin_ready hp, hp]; decide⟩

theorem subAt_endWeft {x : Ctx} {w : Weft} {b : Sub} (h : subAt w x.c.lane = some b) :
    subAt (endWeft x w) x.c.lane = some ⟨nextPc x, b.mask, none, .none⟩ := by
  unfold endWeft
  refine subAt_settle ?_ rfl
  have hc : subAt (clearUnit x w) x.c.lane = some { b with hold := .none, park := none } :=
    (subAt_updSub _ x.c.lane (fun b => { b with hold := .none, park := none }) fun _ => rfl).trans (congrArg (Option.map _) h)
  exact (subAt_updSub (clearUnit x w) x.c.lane (fun b => { b with pc := nextPc x }) fun _ => rfl).trans
    (congrArg (Option.map _) hc)

/-- The state after a unit that ends at its next word and that no debugger touches. -/
theorem finishUnit_next {x : Ctx} (q : Unwatched x) {s' : State} {ts : List Touch} {w' : Weft}
    (hw : getWeft s' x.c.w = some w') (hs : w'.stepping = none) :
    ∃ t, finishUnit x.s x.c x.w x.p x.b x.f.stl x.act (.ok ⟨s', .next, ts⟩) = t ∧
      t = { s' with cur := none, waiting := [], wefts := t.wefts } ∧
      ∀ k, getWeft t k = if k = x.c.w then some (endWeft x w') else getWeft s' k := by
  have hd : debugMatch x.p x.w x.c.pc x.act ts = none := by
    unfold debugMatch
    rcases q.watch with h | h
    · simp [h]
    · simp [h]
  have ht : finishUnit x.s x.c x.w x.p x.b x.f.stl x.act (.ok ⟨s', .next, ts⟩) =
      progress { updWeft (endStep (updWeft (updCur (updWeft s' x.c.w (clearUnit x)) x.c
        fun b => { b with pc := x.c.pc + BitVec.ofNat 64 (8 * x.c.words) }) x.c.w
        (fun w => ageWindow w x.b.mask (x.c.words - 1) (max x.f.stl.toNat 1))) x.c.w 0) x.c.w settle with cur := none } := by
    unfold finishUnit
    simp only [hd]
    rfl
  rw [ht]
  refine ⟨_, rfl, ?_⟩
  -- the state before a step of DSTEP is looked for
  generalize hA : updWeft (updCur (updWeft s' x.c.w (clearUnit x)) x.c
    fun b => { b with pc := x.c.pc + BitVec.ofNat 64 (8 * x.c.words) }) x.c.w
    (fun w => ageWindow w x.b.mask (x.c.words - 1) (max x.f.stl.toNat 1)) = A
  have hkA : ∀ k, getWeft A k = if k = x.c.w then some (ageWindow (updSub (clearUnit x w') x.c.lane
      fun b => { b with pc := nextPc x }) x.b.mask (x.c.words - 1) (max x.f.stl.toNat 1)) else getWeft s' k := by
    intro k
    rw [← hA, getWeft_updWeft]
    · unfold updCur
      rw [getWeft_updWeft, getWeft_updWeft]
      · by_cases e : k = x.c.w
        · subst e; simp [hw, nextPc, clearUnit]
        · simp [e]
      · intro _; rfl
      · intro _; rfl
    · intro _; rfl
  have hst : endStep A x.c.w 0 = A := by
    unfold endStep
    rw [hkA, if_pos rfl]
    have : (ageWindow (updSub (clearUnit x w') x.c.lane fun b => { b with pc := nextPc x }) x.b.mask (x.c.words - 1) (max x.f.stl.toNat 1)).stepping = none := hs
    simp [this]
  have hAs : A = { s' with wefts := A.wefts } := by rw [← hA]; rfl
  rw [hst]
  constructor
  · rw [hAs]; rfl
  · intro k
    rw [getWeft_progress]
    show getWeft { updWeft A x.c.w settle with cur := none } k = _
    rw [getWeft_cur, getWeft_updWeft, hkA]
    · by_cases e : k = x.c.w
      · subst e; rw [if_pos rfl, if_pos rfl, if_pos rfl]; rfl
      · rw [if_neg e, if_neg e, if_neg e]
    · intro w
      obtain ⟨u, d, h⟩ := settle_bare w
      rw [h]

end Sys2Proof.Machine
end

