-- ==== Sys2Proof/Laws/Result.lean ====
section
/-!
SUPPORT. What writing a result does to a weft: the registers that D names hold it, and nothing else changes.
-/

set_option Elab.async false
namespace Sys2Proof.Machine

open Safety

theorem lane_full16 {xs : List Word32} {l : Nat} (h : l < 16) : lane (full16 xs) l = lane xs l := by
  have : l = 0 ∨ l = 1 ∨ l = 2 ∨ l = 3 ∨ l = 4 ∨ l = 5 ∨ l = 6 ∨ l = 7 ∨ l = 8 ∨ l = 9 ∨ l = 10 ∨ l = 11 ∨ l = 12 ∨
    l = 13 ∨ l = 14 ∨ l = 15 := by omega
  rcases this with h | h | h | h | h | h | h | h | h | h | h | h | h | h | h | h <;> subst h <;> rfl

theorem getD_lanes16 {α : Type} (g : Nat → α) (d : α) {l : Nat} (h : l < 16) : (lanes16.map g).getD l d = g l := by
  have : l = 0 ∨ l = 1 ∨ l = 2 ∨ l = 3 ∨ l = 4 ∨ l = 5 ∨ l = 6 ∨ l = 7 ∨ l = 8 ∨ l = 9 ∨ l = 10 ∨ l = 11 ∨ l = 12 ∨
    l = 13 ∨ l = 14 ∨ l = 15 := by omega
  rcases this with h | h | h | h | h | h | h | h | h | h | h | h | h | h | h | h <;> subst h <;> rfl

theorem lane_lanes16 (g : Nat → Word32) {l : Nat} (h : l < 16) : lane (lanes16.map g) l = g l := getD_lanes16 g 0 h

theorem mem_lanesOf {m : Mask} {l : Nat} : l ∈ lanesOf m ↔ l < 16 ∧ m.getLsbD l = true := by
  simp only [lanesOf, List.mem_filter]
  constructor
  · rintro ⟨h, h'⟩
    simp only [lanes16, List.mem_cons, List.not_mem_nil, or_false] at h
    exact ⟨by omega, h'⟩
  · rintro ⟨h, h'⟩
    refine ⟨?_, h'⟩
    simp only [lanes16, List.mem_cons, List.not_mem_nil, or_false]
    omega

/-- The registers other than predicates. -/
def valueReg : RegId → Bool
  | .p _ => false
  | _ => true

theorem nth_sevenPreds (l : List Mask) (n : Nat) : nth (sevenPreds l) n 0 = nth l n 0 := by
  unfold nth sevenPreds
  simp only [List.getD_eq_getElem?_getD]
  by_cases h : n < l.length
  · rw [List.getElem?_append_left h]
  · rw [List.getElem?_append_right (by omega), List.getElem?_eq_none (l := l) (by omega), List.getElem?_replicate]
    split <;> rfl

theorem length_sevenPreds (l : List Mask) : 7 ≤ (sevenPreds l).length := by
  simp only [sevenPreds, List.length_append, List.length_replicate]; omega

theorem regNow_setReg_ne (w : Weft) {r k : RegId} (x : VReg) (h : k ≠ r) : regNow (setReg w r x) k = regNow w k := by
  cases r with
  | v n => cases k with
    | v m => exact tgetD_tset_ne _ _ _ (by simpa using h)
    | _ => rfl
  | s n => cases k with
    | s m => simp only [regNow, setReg]; rw [tgetD_tset_ne _ _ _ (by simpa using h)]
    | _ => rfl
  | o n => cases k with
    | o m => simp only [regNow, setReg]; rw [tgetD_tset_ne _ _ _ (by simpa using h)]
    | _ => rfl
  | lat y => cases k with
    | lat z =>
      cases y <;> cases z <;> simp_all [regNow, setReg]
    | _ => cases y <;> rfl
  | p n => cases k with
    | p m =>
      simp only [setReg]
      split
      · rfl
      · simp only [regNow]; rw [nth_setNth_ne _ _ _ (by simpa using h), nth_sevenPreds]
    | _ => simp only [setReg]; split <;> rfl

theorem bare_setReg (w : Weft) (r : RegId) (x : VReg) : bare (setReg w r x) = bare w := by
  cases r with
  | lat y => cases y <;> rfl
  | p n => simp only [setReg]; split <;> rfl
  | _ => rfl

theorem subs_setReg (w : Weft) (r : RegId) (x : VReg) : (setReg w r x).subs = w.subs := by
  cases r with
  | lat y => cases y <;> rfl
  | p n => simp only [setReg]; split <;> rfl
  | _ => rfl

/-- What a change of a weft's registers leaves alone: the places of its sub-wefts and everything in `bare`. -/
structure RegsOnly (w w' : Weft) : Prop where
  bare : bare w' = bare w
  subs : w'.subs = w.subs

theorem RegsOnly.refl (w : Weft) : RegsOnly w w := ⟨rfl, rfl⟩
theorem RegsOnly.trans {a b c : Weft} (h : RegsOnly a b) (k : RegsOnly b c) : RegsOnly a c :=
  ⟨k.bare.trans h.bare, k.subs.trans h.subs⟩
theorem RegsOnly.id {a b : Weft} (h : RegsOnly a b) : b.id = a.id := by
  have h' := congrArg Weft.id h.bare
  exact h'
theorem RegsOnly.key {a b : Weft} (h : RegsOnly a b) : b.key = a.key := by
  have h' := congrArg Weft.key h.bare
  exact h'
theorem RegsOnly.stepping {a b : Weft} (h : RegsOnly a b) : b.stepping = a.stepping := by
  have h' := congrArg Weft.stepping h.bare
  exact h'

theorem regsOnly_putReg (w : Weft) (b : Sub) (r : RegId) (m : Mask) (vs : List Word32) (lat : Option Nat) :
    RegsOnly w (putReg w b r m vs lat) := by
  unfold putReg
  exact ⟨by rw [bare_setReg]; rfl, by rw [subs_setReg]⟩

theorem regNow_window (w : Weft) (e : List WinEnt) (r : RegId) : regNow { w with window := e } r = regNow w r := by
  cases r <;> rfl

theorem regNow_putReg_ne (w : Weft) (b : Sub) {r k : RegId} (m : Mask) (vs : List Word32) (lat : Option Nat) (h : k ≠ r) :
    regNow (putReg w b r m vs lat) k = regNow w k := by
  unfold putReg
  rw [regNow_setReg_ne _ _ h, regNow_window]

theorem laneOf_putReg (w : Weft) (b : Sub) {r : RegId} {m : Mask} (vs : List Word32) (lat : Option Nat) {l : Nat}
    (hr : valueReg r = true) (h16 : l < 16) (hm : m.getLsbD l = true) (hs : isSup w.id.core = true → l = 0)
    (h0 : ∀ n, r = .s n → l = 0) : laneOf (putReg w b r m vs lat) r l = lane vs l := by
  have key : ∀ old : List Word32, lane (if isSup w.id.core = true then
      lanes16.map (fun _ => lane (lanes16.map fun l => if m.getLsbD l then lane vs l else lane old l) 0)
      else lanes16.map fun l => if m.getLsbD l then lane vs l else lane old l) l = lane vs l := by
    intro old
    split
    · next h =>
      have := hs h; subst this
      rw [lane_lanes16 _ h16, lane_lanes16 _ h16, if_pos hm]
    · rw [lane_lanes16 _ h16, if_pos hm]
  unfold putReg laneOf mergeLanes
  simp only
  cases r with
  | v n => simp only [regNow, setReg, tgetD_tset_self, mkReg, regLanes]; rw [lane_full16 h16]; exact key _
  | s n =>
    have := h0 n rfl; subst this
    simp only [regNow, setReg, tgetD_tset_self, mkReg, regLanes]
    rw [show ∀ a : Word32, lane [a] 0 = a from fun _ => rfl, lane_full16 h16]; exact key _
  | o n => simp only [regNow, setReg, tgetD_tset_self, mkReg, regLanes]; rw [lane_full16 h16]; exact key _
  | lat y =>
    cases y <;> (simp only [regNow, setReg, mkReg, regLanes, Bool.false_eq_true, if_false, if_true]; rw [lane_full16 h16]; exact key _)
  | p n => simp [valueReg] at hr

theorem regsOnly_putVec (x : Ctx) (w : Weft) (n : Nat) (wide : Bool) (m : Mask) (vs : List Word64) (lat : Option Nat) :
    RegsOnly w (putVec x w n wide m vs lat) := by
  unfold putVec
  cases wide
  · exact regsOnly_putReg ..
  · exact (regsOnly_putReg ..).trans (regsOnly_putReg ..)

theorem regNow_putVec (x : Ctx) (w : Weft) (n : Nat) (wide : Bool) (m : Mask) (vs : List Word64) (lat : Option Nat)
    {r : RegId} (h : r ∉ RegId.v n :: if wide then [.v (n + 1)] else []) : regNow (putVec x w n wide m vs lat) r = regNow w r := by
  unfold putVec
  cases wide
  · exact regNow_putReg_ne _ _ _ _ _ (by simpa using h)
  · simp only [if_true, List.mem_cons, List.not_mem_nil, or_false, not_or] at h ⊢
    rw [regNow_putReg_ne _ _ _ _ _ h.2, regNow_putReg_ne _ _ _ _ _ h.1]

theorem lane_lows (vs : List Word64) (l : Nat) : lane (lows vs) l = (vs.getD l 0).setWidth 32 := by
  simp only [lane, lows, List.getD_eq_getElem?_getD, List.getElem?_map]
  cases vs[l]? <;> rfl

theorem lane_highs (vs : List Word64) (l : Nat) : lane (highs vs) l = (vs.getD l 0).extractLsb' 32 32 := by
  simp only [lane, highs, List.getD_eq_getElem?_getD, List.getElem?_map]
  cases vs[l]? <;> rfl

theorem mem_ownLanes {x : Ctx} {l : Nat} (h : l ∈ ownLanes x) :
    l < 16 ∧ x.act.getLsbD l = true ∧ (isSup x.w.id.core = true → l = 0) := by
  simp only [ownLanes, List.mem_filter, mem_lanesOf, Bool.or_eq_true, Bool.not_eq_true', beq_iff_eq] at h
  exact ⟨h.1.1, h.1.2, fun q => by rcases h.2 with e | e; · rw [q] at e; cases e
                                   · exact e⟩

theorem holds_putReg {x : Ctx} {w : Weft} {lat : Option Nat} {r : RegId} (hr : valueReg r = true)
    (h0 : ∀ n, r ≠ .s n) (hid : w.id = x.w.id) {l : Nat} (hl : l ∈ ownLanes x) (ws : List Word32) :
    laneOf (putReg w x.b r x.act ws lat) r l = lane ws l := by
  obtain ⟨h16, hm, hs⟩ := mem_ownLanes hl
  exact laneOf_putReg w x.b ws lat hr h16 hm (by rw [hid]; exact hs) (fun n e => absurd e (h0 n))

theorem laneOf_congr {w w' : Weft} {r : RegId} (h : regNow w' r = regNow w r) (l : Nat) : laneOf w' r l = laneOf w r l := by
  unfold laneOf; rw [h]

theorem holds_putVec {x : Ctx} {w : Weft} (hid : w.id = x.w.id) (n : Nat) (wide : Bool) (vs : List Word64)
    (lat : Option Nat) : HoldsLanes x (putVec x w n wide x.act vs lat) (fun k => .v (n + k)) wide vs := by
  intro l hl
  unfold putVec
  cases wide
  · simp only [Bool.false_eq_true, if_false, Nat.add_zero, false_implies, and_true]
    rw [holds_putReg rfl (by simp) hid hl, lane_lows]
  · simp only [if_true, Nat.add_zero, true_implies]
    constructor
    · rw [laneOf_congr (regNow_putReg_ne _ _ _ _ _ (by simp)), holds_putReg rfl (by simp) hid hl, lane_lows]
    · rw [holds_putReg rfl (by simp) ((regsOnly_putReg ..).id.trans hid) hl, lane_highs]

/-- What a written vector result is: the registers of D and the latch hold it, and nothing else has changed. -/
theorem writeVec_spec {x : Ctx} {w : Weft} {d : Operand} {wide : Bool} {vs : List Word64} {lat : Option Nat} {w' : Weft}
    (hid : w.id = x.w.id) (h : writeVec x w d wide x.act vs lat = .ok w') :
    RegsOnly w w' ∧ Latched x w' vs ∧
    (match d with
     | .v n => HoldsLanes x w' (fun k => .v (n.val + k)) wide vs ∧
         ∀ r, r ∉ RegId.lat false :: .v n.val :: (if wide then [RegId.v (n.val + 1)] else []) → regNow w' r = regNow w r
     | .o n => HoldsLanes x w' (fun _ => .o n.val) false vs ∧
         ∀ r, r ∉ [RegId.lat false, .o n.val] → regNow w' r = regNow w r
     | _ => ∀ r, r ∉ [RegId.lat false] → regNow w' r = regNow w r) := by
  have fin : ∀ (w1 : Weft), w1.id = x.w.id → w' = putReg w1 x.b (.lat false) x.act (lows vs) lat →
      RegsOnly w1 w' ∧ Latched x w' vs ∧ ∀ r, r ≠ .lat false → regNow w' r = regNow w1 r := by
    intro w1 h1 e
    subst e
    refine ⟨regsOnly_putReg .., fun l hl => ?_, fun r hr => regNow_putReg_ne _ _ _ _ _ hr⟩
    rw [holds_putReg rfl (by simp) h1 hl, lane_lows]
  have split1 : ∃ w1, vecDest x w d wide x.act vs lat = .ok w1 ∧ w' = putReg w1 x.b (.lat false) x.act (lows vs) lat := by
    unfold writeVec at h
    simp only [bind, Except.bind] at h
    split at h
    · cases h
    · next w1 hw1 =>
      split at h
      · cases h
      · cases h; exact ⟨w1, hw1, rfl⟩
  obtain ⟨w1, hw1, e⟩ := split1
  have free : ∀ (rs : List RegId) (w2 : Weft), (do dstFree x rs; (.ok w2 : R Weft)) = .ok w1 → w1 = w2 := by
    intro rs w2 q
    simp only [bind, Except.bind] at q
    split at q
    · cases q
    · cases q; rfl
  cases d with
  | v n =>
    unfold vecDest at hw1
    simp only [bind, Except.bind] at hw1
    split at hw1
    · cases hw1
    · split at hw1
      · cases hw1
      · cases hw1
        obtain ⟨a, b, c⟩ := fin _ ((regsOnly_putVec ..).id.trans hid) e
        refine ⟨(regsOnly_putVec ..).trans a, b, ?_, ?_⟩
        · intro l hl
          have hv := holds_putVec hid n.val wide vs lat l hl
          rw [laneOf_congr (c _ (by simp)), laneOf_congr (c _ (by simp))]
          exact hv
        · intro r h1
          simp only [List.mem_cons, not_or] at h1
          rw [c r h1.1, regNow_putVec]
          simp only [List.mem_cons, not_or]; exact h1.2
  | o n =>
    have := free _ _ hw1
    subst this
    obtain ⟨a, b, c⟩ := fin _ ((regsOnly_putReg ..).id.trans hid) e
    refine ⟨(regsOnly_putReg ..).trans a, b, ?_, ?_⟩
    · intro l hl
      simp only [Bool.false_eq_true, false_implies, and_true]
      rw [laneOf_congr (c _ (by simp)), holds_putReg rfl (by simp) hid hl, lane_lows]
    · intro r h1
      simp only [List.mem_cons, List.not_mem_nil, or_false, not_or] at h1
      rw [c r h1.1, regNow_putReg_ne _ _ _ _ _ h1.2]
  | _ =>
    have := free _ _ hw1
    subst this
    obtain ⟨a, b, c⟩ := fin _ hid e
    exact ⟨a, b, fun r h1 => c r (by simpa using h1)⟩

/-- A written scalar result. -/
theorem writeScalar_spec {x : Ctx} {w : Weft} {n : Nat} {wide : Bool} {v : Word64} {lat : Option Nat} {w' : Weft}
    (h : writeScalar x w n wide v lat = .ok w') :
    RegsOnly w w' ∧ laneOf w' (.s n) 0 = v.setWidth 32 ∧
      (wide = true → laneOf w' (.s (n + 1)) 0 = v.extractLsb' 32 32) ∧
      ∀ r, r ∉ RegId.s n :: (if wide then [RegId.s (n + 1)] else []) → regNow w' r = regNow w r := by
  unfold writeScalar at h
  simp only [bind, Except.bind] at h
  split at h
  · cases h
  · cases h
    have one : ∀ (w : Weft) (k : Nat) (u : Word32), laneOf (putReg w x.b (.s k) 0xFFFF [u] lat) (.s k) 0 = u := by
      intro w k u
      rw [laneOf_putReg w x.b [u] lat rfl (by omega) (by decide) (fun _ => rfl) (fun _ _ => rfl)]
      rfl
    cases wide
    · simp only [Bool.false_eq_true, if_false, false_implies, true_and]
      refine ⟨regsOnly_putReg .., one _ _ _, fun r hr => ?_⟩
      exact regNow_putReg_ne _ _ _ _ _ (by simpa using hr)
    · simp only [if_true, true_implies]
      refine ⟨(regsOnly_putReg ..).trans (regsOnly_putReg ..), ?_, one _ _ _, fun r hr => ?_⟩
      · rw [laneOf_congr (regNow_putReg_ne _ _ _ _ _ (by simp)), one]
      · simp only [List.mem_cons, List.not_mem_nil, or_false, not_or] at hr
        rw [regNow_putReg_ne _ _ _ _ _ hr.2, regNow_putReg_ne _ _ _ _ _ hr.1]

/-- The result stands in the registers that D names. -/
def InRegs (x : Ctx) (w : Weft) (wide : Bool) (vs : List Word64) : Prop :=
  match x.f.d with
  | .s n =>
    laneOf w (.s n.val) 0 = (vs.getD (lowest x.act) 0).setWidth 32 ∧
      (wide = true → laneOf w (.s (n.val + 1)) 0 = (vs.getD (lowest x.act) 0).extractLsb' 32 32)
  | .v n => HoldsLanes x w (fun k => .v (n.val + k)) wide vs ∧ Latched x w vs
  | .o n => HoldsLanes x w (fun _ => .o n.val) false vs ∧ Latched x w vs
  | .lat => Latched x w vs
  | .zero => x.scalar = true ∨ Latched x w vs
  | _ => True

theorem specWrite_bits (w : Weft) (r : SReg) (v : Word64) :
    (specWrite w r v).id = w.id ∧ (specWrite w r v).key = w.key ∧ (specWrite w r v).subs = w.subs ∧
      (specWrite w r v).stepping = w.stepping ∧ ∀ k, regNow (specWrite w r v) k = regNow w k := by
  cases r <;> exact ⟨rfl, rfl, rfl, rfl, fun k => by cases k <;> rfl⟩

/-- What `writeDest` does: D holds the result, its own registers apart everything stays. -/
theorem writeDest_spec {x : Ctx} {wide : Bool} {vs : List Word64} {lat : Option Nat} {w' : Weft}
    (h : writeDest x wide vs lat = .ok w') :
    RegsOnly (specD x vs x.w) w' ∧ w'.subs = x.w.subs ∧ InRegs x w' wide vs ∧
      ∀ r, r ∉ dstRegs x wide → regNow w' r = regNow x.w r := by
  unfold writeDest at h
  unfold InRegs dstRegs specD
  cases hd : x.f.d with
  | s n =>
    rw [hd] at h
    obtain ⟨a, b, c, d⟩ := writeScalar_spec h
    exact ⟨a, a.subs, ⟨b, c⟩, d⟩
  | spec r =>
    rw [hd] at h
    cases h
    obtain ⟨_, _, h3, _, h5⟩ := specWrite_bits x.w r (vs.getD (lowest x.act) 0)
    exact ⟨RegsOnly.refl _, h3, trivial, fun k _ => h5 k⟩
  | v n =>
    rw [hd] at h
    obtain ⟨a, b, c, d⟩ := writeVec_spec rfl h
    exact ⟨a, a.subs, ⟨c, b⟩, d⟩
  | o n =>
    rw [hd] at h
    obtain ⟨a, b, c, d⟩ := writeVec_spec rfl h
    exact ⟨a, a.subs, ⟨c, b⟩, d⟩
  | lat =>
    rw [hd] at h
    obtain ⟨a, b, d⟩ := writeVec_spec rfl h
    exact ⟨a, a.subs, b, d⟩
  | zero =>
    rw [hd] at h
    simp only at h
    split at h
    · next q => cases h; exact ⟨RegsOnly.refl _, rfl, .inl q, fun _ _ => rfl⟩
    · next q =>
      obtain ⟨a, b, d⟩ := writeVec_spec rfl h
      refine ⟨a, a.subs, .inr b, fun r h1 => d r ?_⟩
      simpa [q] using h1
  | _ => rw [hd] at h; cases h; exact ⟨RegsOnly.refl _, rfl, trivial, fun _ _ => rfl⟩

/-! ### Queues -/

/-- A weft as a queue operation may leave it: some parks end, and a weft on the bench may be found ready. -/
structure Woken (w w' : Weft) : Prop where
  calm : calm w' = calm w
  subs : w'.subs.map (fun b => (b.pc, b.mask, b.hold)) = w.subs.map fun b => (b.pc, b.mask, b.hold)

theorem Woken.refl (w : Weft) : Woken w w := ⟨rfl, rfl⟩
theorem Woken.trans {a b c : Weft} (h : Woken a b) (k : Woken b c) : Woken a c :=
  ⟨k.calm.trans h.calm, k.subs.trans h.subs⟩

/-- What an operation on queues alone does to a state. -/
structure QueueStep (s s' : State) : Prop where
  wefts : ∀ k, ∃ g : Weft → Weft, getWeft s' k = (getWeft s k).map g ∧ ∀ w, Woken w (g w)
  rest : rest s' = rest s

theorem QueueStep.refl (s : State) : QueueStep s s :=
  ⟨fun k => ⟨fun w => w, by simp, fun w => Woken.refl w⟩, rfl⟩

theorem QueueStep.trans {a b c : State} (h : QueueStep a b) (k : QueueStep b c) : QueueStep a c := by
  refine ⟨fun i => ?_, k.rest.trans h.rest⟩
  obtain ⟨g, hg, hw⟩ := h.wefts i
  obtain ⟨g', hg', hw'⟩ := k.wefts i
  exact ⟨fun w => g' (g w), by rw [hg', hg]; simp [Function.comp_def], fun w => (hw w).trans (hw' _)⟩

theorem woken_wokeAt (n : Nat) (w : Weft) (g : Sub → Sub)
    (hg : ∀ b, (g b).pc = b.pc ∧ (g b).mask = b.mask ∧ (g b).hold = b.hold) : Woken w (wokeAt n w (w.subs.map g)) := by
  have e : ∀ b, ({ g b with park := none } : Sub) = { b with park := none } := by
    intro b; obtain ⟨h1, h2, h3⟩ := hg b; cases h : g b; simp_all
  have key : Woken w { w with subs := w.subs.map g } := by
    constructor
    · show Safety.calm { w with subs := w.subs.map g } = Safety.calm w
      simp only [Safety.calm, List.map_map, Function.comp_def, e]
    · simp only [List.map_map, Function.comp_def, hg]
  unfold wokeAt
  split
  · exact ⟨key.calm, key.subs⟩
  · exact key

theorem wokeAt_id (n : Nat) (w : Weft) (l : List Sub) : (wokeAt n w l).id = w.id := by
  unfold wokeAt; split <;> rfl

theorem queueStep_wakeFor (s : State) (r : Park) (hit : Weft → Sub → Wait → Bool) : QueueStep s (wakeFor s r hit) := by
  refine ⟨fun k => ⟨_, getWeft_map { s with waiting := [] } _ (fun w => wokeAt_id ..) k, fun w => ?_⟩, rfl⟩
  apply woken_wokeAt
  intro b; split <;> exact ⟨rfl, rfl, rfl⟩

theorem queueStep_wakeIn (s : State) (k : PKey) (r : Park) (what : Wait) : QueueStep s (wakeIn s k r what) :=
  queueStep_wakeFor ..

theorem queueStep_updPanel (s : State) (k : PKey) (f : Panel → Panel) : QueueStep s (updPanel s k f) :=
  ⟨fun i => ⟨fun w => w, by rw [Option.map_id']; rfl, Woken.refl⟩, rfl⟩

theorem queueStep_dropEntry (s : State) (k : PKey) (ch i : Nat) : QueueStep s (dropEntry s k ch i) :=
  (queueStep_updPanel ..).trans (queueStep_wakeIn ..)

theorem queueStep_pushEntry (s : State) (k : PKey) (ch : Nat) (e : List Word32) : QueueStep s (pushEntry s k ch e) := by
  unfold pushEntry
  split
  · exact ⟨fun i => ⟨fun w => w, by rw [Option.map_id']; rfl, Woken.refl⟩, rfl⟩
  · exact (queueStep_updPanel ..).trans (queueStep_wakeIn ..)

theorem queueStep_popOne (x : Ctx) (s : State) (e : Fld × List Word32) : QueueStep s (popOne x s e) := by
  unfold popOne
  split
  · split
    · exact queueStep_dropEntry ..
    · exact QueueStep.refl s
  · exact QueueStep.refl s

theorem queueStep_commitPops (x : Ctx) (s : State) : QueueStep s (commitPops x s) := by
  have all : ∀ (l : List (Fld × List Word32)) (s : State), QueueStep s (l.foldl (popOne x) s) := by
    intro l
    induction l with
    | nil => exact QueueStep.refl
    | cons e t ih => exact fun s => (queueStep_popOne x s e).trans (ih _)
  unfold commitPops
  split
  · exact all _ s
  · exact QueueStep.refl s

theorem getPanel_key {s : State} {k : PKey} {p : Panel} (h : getPanel s k = some p) : p.key = k := by
  have := List.find?_some h
  simpa using this

theorem getPanel_updPanel (s : State) (k : PKey) (f : Panel → Panel) (hf : ∀ p, (f p).key = p.key) (j : PKey) :
    getPanel (updPanel s k f) j = if j = k then (getPanel s j).map f else getPanel s j := by
  have h : getPanel (updPanel s k f) j = (getPanel s j).map fun p => if p.key = k then f p else p := by
    simp only [getPanel, updPanel, List.find?_map]
    congr 2
    funext p
    simp only [Function.comp]
    split <;> simp [hf]
  rw [h]
  cases hp : getPanel s j with
  | none => simp
  | some p =>
    have hk := getPanel_key hp
    by_cases e : j = k
    · subst e; simp [hk]
    · simp [hk, e]

theorem updChan_key (n : Nat) (f : Channel → Channel) (p : Panel) : (updChan n f p).key = p.key := rfl

theorem popOne_panel (x : Ctx) (s : State) (e : Fld × List Word32) (k : PKey) (h : (getPanel s k).isSome) :
    (getPanel (popOne x s e) k).isSome ∧ (popOne x s e).symAccs = s.symAccs := by
  unfold popOne
  split
  · split
    · refine ⟨?_, rfl⟩
      unfold dropEntry
      show (getPanel (updPanel s x.w.key (updChan _ _)) k).isSome
      rw [getPanel_updPanel _ _ _ (updChan_key _ _)]
      split <;> simp [h]
    · exact ⟨h, rfl⟩
  · exact ⟨h, rfl⟩

/-- Pops leave every panel resident and every symbolic pop as it is. -/
theorem commitPops_panel (x : Ctx) (s : State) (k : PKey) (h : (getPanel s k).isSome) :
    (getPanel (commitPops x s) k).isSome ∧ (commitPops x s).symAccs = s.symAccs := by
  have all : ∀ (l : List (Fld × List Word32)) (s : State), (getPanel s k).isSome →
      (getPanel (l.foldl (popOne x) s) k).isSome ∧ (l.foldl (popOne x) s).symAccs = s.symAccs := by
    intro l
    induction l with
    | nil => exact fun s h => ⟨h, rfl⟩
    | cons e t ih =>
      intro s h
      obtain ⟨a, b⟩ := popOne_panel x s e k h
      obtain ⟨c, d⟩ := ih _ a
      exact ⟨c, d.trans b⟩
  unfold commitPops
  split
  · exact all _ s h
  · exact ⟨h, rfl⟩

/-- What writing a result does to the state. -/
theorem writeRes_spec {x : Ctx} {wide : Bool} {vs : List Word64} {lat : Option Nat} {own : Weft → Weft} {s' : State}
    (h : writeRes x wide vs lat own = .ok s') (hp : getPanel x.s x.w.key = some x.p) :
    ∃ w1, writeDest x wide vs lat = .ok w1 ∧ QueueStep (setWeft x.s (own w1)) s' ∧
      (usesQueue x.f = false → s' = setWeft x.s (own w1)) ∧
      ∀ n b, x.f.d = .q n → tget x.w.binds n.val = some b → pendingPops x.s x.w.key b.obj = 0 →
        ∃ p, getPanel s' x.w.key = some p ∧ (getChan p b.obj).entries.getLast? = some (entryOf x.scalar wide x.act vs) := by
  unfold writeRes at h
  simp only [bind, Except.bind] at h
  split at h
  · cases h
  next target ht =>
  split at h
  · cases h
  next w1 hw1 =>
  refine ⟨w1, hw1, ?_⟩
  have noPops : usesQueue x.f = false → commitPops x (setWeft x.s (own w1)) = setWeft x.s (own w1) := by
    intro hq
    have hq' : ∀ fld n, opOf x.f fld ≠ .q n := by
      intro fld n e
      have := hq
      simp only [usesQueue, fieldsOf, List.any_cons, List.any_nil, Bool.or_false, Bool.or_eq_false_iff] at this
      cases fld <;> simp only [opOf] at e <;> simp [e, queueOf] at this
    have all : ∀ (l : List (Fld × List Word32)) (s0 : State), l.foldl (popOne x) s0 = s0 := by
      intro l
      induction l with
      | nil => exact fun _ => rfl
      | cons e t ih =>
        intro s0
        rw [List.foldl_cons, show popOne x s0 e = s0 from ?_]
        · exact ih s0
        · unfold popOne
          split
          · next n hn => exact absurd hn (hq' _ _)
          · rfl
    unfold commitPops
    split
    · exact all _ _
    · rfl
  cases target with
  | none =>
    cases h
    refine ⟨queueStep_commitPops .., noPops, fun n b hd hb _ => ?_⟩
    unfold pushTarget at ht
    rw [hd] at ht
    simp only [hb, bind, Except.bind] at ht
    split at ht
    · cases ht
    · split at ht <;> cases ht
  | some ch =>
    cases h
    refine ⟨(queueStep_commitPops ..).trans (queueStep_pushEntry ..), fun hq => ?_, fun n b hd hb hpend => ?_⟩
    · exfalso
      unfold pushTarget at ht
      split at ht
      · next n hn => simp [usesQueue, fieldsOf, hn, queueOf] at hq
      · cases ht
    · unfold pushTarget at ht
      rw [hd] at ht
      simp only [hb, bind, Except.bind] at ht
      split at ht
      · cases ht
      · split at ht
        · cases ht
        · cases ht
          have hs : (getPanel (setWeft x.s (own w1)) x.w.key).isSome := by
            show (getPanel x.s x.w.key).isSome
            rw [hp]; rfl
          obtain ⟨h1, h2⟩ := commitPops_panel x _ _ hs
          have h0 : pendingPops (commitPops x (setWeft x.s (own w1))) x.w.key b.obj = 0 := by
            unfold pendingPops; rw [h2]; exact hpend
          unfold pushEntry
          rw [if_neg (by omega)]
          obtain ⟨p, hp'⟩ := Option.isSome_iff_exists.mp h1
          refine ⟨updChan b.obj (fun c => { c with entries := c.entries ++ [entryOf x.scalar wide x.act vs] }) p, ?_, ?_⟩
          · show getPanel (updPanel (commitPops x (setWeft x.s (own w1))) x.w.key (updChan b.obj _)) x.w.key = _
            rw [getPanel_updPanel _ _ _ (updChan_key _ _), if_pos rfl, hp']
            rfl
          · simp [getChan, updChan]

end Sys2Proof.Machine
end

