-- ==== Sys2Proof/Laws/Complete.lean ====
section
/-!
SUPPORT. Units that write one result: how they end, where the result stands and what stays.
-/

set_option Elab.async false
namespace Sys2Proof.Machine

open Safety

/-- What else a unit may do to its weft while it writes its result: change the registers listed and nothing that
tells its place or its sub-wefts. -/
structure OwnOk (own : Weft → Weft) (ps : List RegId) : Prop where
  id : ∀ w, (own w).id = w.id
  subs : ∀ w, (own w).subs = w.subs
  stepping : ∀ w, (own w).stepping = w.stepping
  regs : ∀ w r, r ∉ ps → regNow (own w) r = regNow w r
  bare : ∀ w u, Safety.bare w = Safety.bare u → Safety.bare (own w) = Safety.bare (own u)

theorem ownOk_id : OwnOk id [] := ⟨fun _ => rfl, fun _ => rfl, fun _ => rfl, fun _ _ _ => rfl, fun _ _ h => h⟩

theorem ownOk_orFpst (f : Flags) : OwnOk (fun w => orFpst w f) [] := by
  refine ⟨fun _ => rfl, fun _ => rfl, fun _ => rfl, fun w r _ => by cases r <;> rfl, fun w u h => ?_⟩
  have e : ∀ v : Weft, Safety.bare (orFpst v f) = orFpst (Safety.bare v) f := fun _ => rfl
  rw [e, e, h]

theorem orFpst_none (w : Weft) : orFpst w Flags.none = w := by
  have : w.fpst ||| Flags.none.bits = w.fpst := by
    rw [show Flags.none.bits = 0 from by decide]; simp
  unfold orFpst; rw [this]

/-- The effect of the unit that writes a result and goes on at its next word. -/
theorem result_completes {s : State} {m : Mnem} {f : Fields} {g : GuardKind} {x y : Ctx} {body : Ctx → R Out}
    {wide : Bool} {vs : List Word64} {lat : Option Nat} {own : Weft → Weft} {ps : List RegId} {s' : State}
    (hr : Runs s m f g x) (hq : Unwatched x) (hy : y = { x with act := y.act, pops := y.pops })
    (ho : OwnOk own ps) (hps : ∀ r ∈ ps, r ∉ dstRegs x wide) (h : writeRes y wide vs lat own = .ok s')
    (hb : body x = Out.step s') :
    ∃ t, onWeft m f g body s = .next t ∧ Ended x t ∧ InD y t wide vs ∧
      Kept x t (dstRegs x wide ++ ps) fun w => own (specD y vs w) := by
  have hyc : y.c = x.c := by rw [hy]
  have hyw : y.w = x.w := by rw [hy]
  have hys : y.s = x.s := by rw [hy]
  have hyp : y.p = x.p := by rw [hy]
  have hyf : y.f = x.f := by rw [hy]
  have hysc : y.scalar = x.scalar := by rw [hy]
  have hdst : dstRegs y wide = dstRegs x wide := by unfold dstRegs; rw [hyf, hysc]
  have hws : getWeft x.s x.c.w = some x.w := by rw [hr.state]; exact hr.weft
  have hps' : getPanel x.s x.w.key = some x.p := by rw [hr.state]; exact hr.panel
  have hid : x.w.id = x.c.w := getWeft_id hws
  obtain ⟨w1, hw1, hqs, hnq, hpush⟩ := writeRes_spec h (by rw [hys, hyw, hyp]; exact hps')
  obtain ⟨hro, hsubs, hin, hrest⟩ := writeDest_spec hw1
  rw [hyw] at hro hsubs hrest
  rw [hys] at hqs hnq
  have hsid : (specD y vs x.w).id = x.w.id ∧ (specD y vs x.w).stepping = x.w.stepping := by
    unfold specD
    split
    · obtain ⟨a, _, _, b, _⟩ := specWrite_bits x.w _ (vs.getD (lowest y.act) 0); exact ⟨a, b⟩
    · exact ⟨rfl, rfl⟩
  have h1id : (own w1).id = x.c.w := by rw [ho.id, hro.id, hsid.1, hid]
  obtain ⟨gk, hgk, hwk⟩ := hqs.wefts x.c.w
  have hmine : getWeft s' x.c.w = some (gk (own w1)) := by
    rw [hgk, getWeft_setWeft, h1id, if_pos rfl, hws]; rfl
  have hwoken := hwk (own w1)
  have hbare : Safety.bare (gk (own w1)) = Safety.bare (own w1) := by
    have e : ∀ v : Weft, Safety.bare v = Safety.bare (Safety.calm v) := fun _ => rfl
    rw [e, hwoken.calm, ← e]
  have hstep : (gk (own w1)).stepping = none := by
    have e := congrArg Weft.stepping hbare
    have e' : (gk (own w1)).stepping = (own w1).stepping := e
    rw [e', ho.stepping, hro.stepping, hsid.2]; exact hq.stepping
  obtain ⟨t, ht, hts, htw⟩ := finishUnit_next (ts := []) hq hmine hstep
  refine ⟨t, ?_, ?_, ?_, ?_⟩
  · rw [onWeft_runs hr, hb]
    have : finishUnit s x.c x.w x.p x.b f.stl x.act (Out.step s') = t := by
      rw [← ht, hr.state, hr.fields]; rfl
    rw [this]
  · refine ⟨by rw [hts], _, by rw [htw, if_pos rfl], ?_⟩
    have hsub : subAt x.w x.c.lane = some x.b := hr.sub
    -- the sub-weft is still there, whatever has been woken
    have hs1 : (own w1).subs = x.w.subs := by rw [ho.subs, hsubs]
    have hmap := hwoken.subs
    rw [hs1] at hmap
    have hfind : ∃ b, subAt (gk (own w1)) x.c.lane = some b ∧ b.mask = x.b.mask := by
      unfold subAt at hsub ⊢
      generalize (gk (own w1)).subs = l1 at hmap
      generalize x.w.subs = l2 at hmap hsub
      clear hin hrest hpush hnq hqs hgk hwk hmine hwoken hbare hstep ht hts htw
      induction l2 generalizing l1 with
      | nil => simp at hsub
      | cons b2 t2 ih =>
        cases l1 with
        | nil => simp at hmap
        | cons b1 t1 =>
          simp only [List.map_cons, List.cons.injEq, Prod.mk.injEq] at hmap
          obtain ⟨⟨_, hmm, _⟩, ht⟩ := hmap
          simp only [List.find?_cons] at hsub ⊢
          rw [hmm]
          split at hsub
          · next q => cases hsub; exact ⟨b1, rfl, hmm⟩
          · exact ih t1 ht hsub
    obtain ⟨b, hb1, hb2⟩ := hfind
    rw [subAt_endWeft hb1, hb2]
  · -- the result
    have hregs : ∀ r, r ∉ ps → regNow (endWeft x (gk (own w1))) r = regNow w1 r := by
      intro r hr'
      rw [regNow_endWeft]
      have e : ∀ v : Weft, regNow v r = regNow (Safety.calm v) r := fun v => by cases r <;> rfl
      rw [e, hwoken.calm, ← e, ho.regs _ _ hr']
    refine ⟨endWeft x (gk (own w1)), by rw [hyc, htw, if_pos rfl], ?_⟩
    have hd : ∀ r ∈ dstRegs y wide, ∀ l, laneOf (endWeft x (gk (own w1))) r l = laneOf w1 r l := by
      intro r hr' l
      exact laneOf_congr (hregs r fun hp => hps r hp (by rw [← hdst]; exact hr')) l
    have hin' := hin
    unfold InRegs at hin'
    cases hdd : y.f.d with
    | s n =>
      rw [hdd] at hin'
      refine ⟨?_, fun hwd => ?_⟩
      · rw [hd _ (by simp [dstRegs, hdd])]; exact hin'.1
      · rw [hd _ (by simp [dstRegs, hdd, hwd])]; exact hin'.2 hwd
    | v n =>
      rw [hdd] at hin'
      refine ⟨fun l hl => ⟨?_, fun hwd => ?_⟩, fun l hl => ?_⟩
      · rw [hd _ (by simp [dstRegs, hdd])]; exact (hin'.1 l hl).1
      · rw [hd _ (by simp [dstRegs, hdd, hwd])]; exact (hin'.1 l hl).2 hwd
      · rw [hd _ (by simp [dstRegs, hdd])]; exact hin'.2 l hl
    | o n =>
      rw [hdd] at hin'
      refine ⟨fun l hl => ⟨?_, fun hwd => by cases hwd⟩, fun l hl => ?_⟩
      · rw [hd _ (by simp [dstRegs, hdd])]; exact (hin'.1 l hl).1
      · rw [hd _ (by simp [dstRegs, hdd])]; exact hin'.2 l hl
    | lat =>
      rw [hdd] at hin'
      intro l hl
      rw [hd _ (by simp [dstRegs, hdd])]; exact hin' l hl
    | zero =>
      rw [hdd] at hin'
      by_cases hsc : y.scalar = true
      · exact .inl hsc
      · refine .inr fun l hl => ?_
        rw [hd _ (by simp [dstRegs, hdd, hsc])]
        exact (hin'.resolve_left hsc) l hl
    | q n =>
      intro b hb' hpend
      obtain ⟨p, hp1, hp2⟩ := hpush n b hdd hb' hpend
      exact ⟨p, by rw [show getPanel t y.w.key = getPanel s' y.w.key from by rw [hts]; rfl]; exact hp1, hp2⟩
    | _ => trivial
  · constructor
    · intro w hw r h1
      rw [htw, if_pos rfl] at hw
      cases hw
      simp only [List.mem_append, not_or] at h1
      rw [regNow_endWeft]
      have e : ∀ v : Weft, regNow v r = regNow (Safety.calm v) r := fun v => by cases r <;> rfl
      rw [e, hwoken.calm, ← e, ho.regs _ _ h1.2]
      exact hrest r (by rw [hdst]; exact h1.1)
    · intro w hw
      rw [htw, if_pos rfl] at hw
      cases hw
      rw [bare_endWeft, hbare]
      exact ho.bare _ _ hro.bare
    · intro k hk
      rw [htw, if_neg hk]
      obtain ⟨g', hg', hw'⟩ := hqs.wefts k
      rw [hg', getWeft_setWeft, h1id, if_neg hk]
      cases getWeft x.s k with
      | none => rfl
      | some v => simp only [Option.map_some]; rw [(hw' v).calm]
    · have : rest t = rest s' := by rw [hts]; rfl
      rw [this, hqs.rest]; rfl
    · intro a
      have e1 : t.mem = s'.mem := by rw [hts]
      have e2 := congrArg State.mem hqs.rest
      have e3 : s'.mem = x.s.mem := e2
      rw [e1, e3]
    · intro hnq'
      have e := hnq (by rw [hyf]; exact hnq')
      rw [hts, e]
      exact ⟨rfl, rfl⟩

/-- A source popped from a queue changes nothing of the unit but the entries it holds. -/
theorem popSources_ctx {x y : Ctx} (h : popSources x = .ok y) : y = { x with pops := y.pops } := by
  have step : ∀ (acc : R Ctx) (fld : Fld) (a b : Ctx), acc = .ok a → popSource acc fld = .ok b → b = { a with pops := b.pops } := by
    intro acc fld a b ha hb
    subst ha
    unfold popSource at hb
    simp only [bind, Except.bind] at hb
    split at hb
    · cases hb; rfl
    · split at hb
      · cases hb
      · split at hb
        · cases hb
        · split at hb
          · cases hb
          · cases hb; rfl
    · cases hb; rfl
  have err : ∀ (acc : R Ctx) (fld : Fld) (b : Ctx), popSource acc fld = .ok b → ∃ a, acc = .ok a := by
    intro acc fld b hb
    cases acc with
    | error e => simp [popSource, bind, Except.bind] at hb
    | ok a => exact ⟨a, rfl⟩
  unfold popSources at h
  simp only [List.foldl_cons, List.foldl_nil] at h
  obtain ⟨c2, h2⟩ := err _ _ _ h
  obtain ⟨c1, h1⟩ := err _ _ _ h2
  have e1 := step _ _ x c1 rfl h1
  have e2 := step _ _ c1 c2 h1 h2
  have e3 := step _ _ c2 y h2 h
  rw [e3, e2, e1]

theorem readAll_ctx {x : Ctx} {wa wb wc : Bool} {v : Vals} (h : readAll x wa wb wc = .ok v) :
    v.x = { x with pops := v.x.pops } := by
  unfold readAll at h
  simp only [bind, Except.bind] at h
  split at h
  · cases h
  next y hy =>
  have := popSources_ctx hy
  split at h
  · cases h
  split at h
  · cases h
  split at h
  · cases h
  cases h
  exact this

/-- A body that reads its sources and writes one result completes with it. -/
theorem writesWhen_of {cond : Ctx → Prop} {i : Fields → Instr} {m : Mnem} {wide : Fields → Bool × Bool × Bool × Bool}
    {val : Fields → Ctx → Nat → Word64 → Word64 → Word64 → Word64 × Flags} {body : Fields → Ctx → R Out}
    (he : ∀ f s, exec (i f) s = onWeft m f .auto (body f) s)
    (hb : ∀ f x v, x.f = f → x.m = m → Known x → cond x → fullOk m f = true →
      readAll x (wide f).1 (wide f).2.1 (wide f).2.2.1 = .ok v →
      body f x = (do
        let s ← writeRes v.x (wide f).2.2.2
          (lanes16.map fun l => (val f x l (v.a.getD l 0) (v.b.getD l 0) (v.c.getD l 0)).1) (mnemLatency x.m x.f)
          (fun w => orFpst w (flagsOver x fun l => (val f x l (v.a.getD l 0) (v.b.getD l 0) (v.c.getD l 0)).2))
        Out.step s)) : WritesWhen cond i m wide val := by
  intro s f x v hr hq hk hcond hv at_ vs own hc
  obtain ⟨s', hs'⟩ := hc
  have hx := readAll_ctx hv
  have hact : v.x.act = x.act := by rw [hx]
  have hlat : mnemLatency m f = mnemLatency x.m x.f := by rw [hr.mnem, hr.fields]
  rw [hlat] at hs'
  have hbody : body f x = Out.step s' := by
    rw [hb f x v hr.fields hr.mnem hk hcond hr.valid hv]
    rw [hs']; rfl
  have hxx : v.x = { x with act := v.x.act, pops := v.x.pops } := by rw [hact]; exact hx
  obtain ⟨t, h1, h2, h3, h4⟩ := result_completes (body := body f) hr hq hxx (ownOk_orFpst _) (by simp) hs' hbody
  rw [List.append_nil] at h4
  exact ⟨t, by rw [he, hr.state]; exact h1, h2, h3, h4⟩

/-- A lane-wise instruction without flags as one with none. -/
theorem writeRes_plain (x : Ctx) (wide : Bool) (vs : List Word64) (lat : Option Nat) :
    writeRes x wide vs lat id = writeRes x wide vs lat (fun w => orFpst w Flags.none) := by
  have : (id : Weft → Weft) = fun w => orFpst w Flags.none := funext fun w => (orFpst_none w).symm
  rw [this]

theorem flagsOver_none (x : Ctx) : (flagsOver x fun _ => Flags.none) = Flags.none := by
  unfold flagsOver
  generalize lanesOf (workLanes x) = l
  induction l with
  | nil => rfl
  | cons a t ih => rw [List.foldl_cons, show Flags.none.or Flags.none = Flags.none from rfl]; exact ih

/-- A body that ends at the next word completes with its state. -/
theorem endsWith_of {s s' : State} {i : Instr} {m : Mnem} {f : Fields} {g : GuardKind} {x : Ctx} {body : Ctx → R Out}
    {ts : List Touch} {w' : Weft} {b' : Sub} (he : ∀ s, exec i s = onWeft m f g body s) (hr : Runs s m f g x)
    (hq : Unwatched x) (hb : body x = .ok ⟨s', .next, ts⟩) (hw : getWeft s' x.c.w = some w') (hs : w'.stepping = none)
    (hsub : subAt w' x.c.lane = some b') (hm : b'.mask = x.b.mask) : EndsWith i x s' := by
  obtain ⟨t, ht, hts, htw⟩ := finishUnit_next (ts := ts) hq hw hs
  refine ⟨t, ?_, ⟨by rw [hts], _, by rw [htw, if_pos rfl], ?_⟩, hts, ?_, fun k hk => by rw [htw, if_neg hk]⟩
  · rw [he, hr.state, onWeft_runs hr, hb, ← ht, hr.state, hr.fields]
  · rw [subAt_endWeft hsub, hm]
  · rw [htw, if_pos rfl, hw]
    obtain ⟨u, d, e, o, h⟩ := endWeft_eq x w'
    rw [h]; rfl

/-- The same where the body leaves the wefts as they are. -/
theorem endsWith_wefts {s s' : State} {i : Instr} {m : Mnem} {f : Fields} {g : GuardKind} {x : Ctx} {body : Ctx → R Out}
    {ts : List Touch} (he : ∀ s, exec i s = onWeft m f g body s) (hr : Runs s m f g x)
    (hq : Unwatched x) (hb : body x = .ok ⟨s', .next, ts⟩) (hw : s'.wefts = s.wefts) : EndsWith i x s' := by
  refine endsWith_of he hr hq hb (w' := x.w) (b' := x.b) ?_ hq.stepping hr.sub rfl
  unfold getWeft; rw [hw]; exact hr.weft

/-- The same where the body changes its own weft, but not its place or its sub-wefts. -/
theorem endsWith_upd {s s' : State} {i : Instr} {m : Mnem} {f : Fields} {g : GuardKind} {x : Ctx} {body : Ctx → R Out}
    {ts : List Touch} {own : Weft → Weft} (he : ∀ s, exec i s = onWeft m f g body s) (hr : Runs s m f g x)
    (hq : Unwatched x) (hb : body x = .ok ⟨s', .next, ts⟩) (hw : s'.wefts = (updWeft s x.c.w own).wefts)
    (hid : ∀ w, (own w).id = w.id) (hsubs : (own x.w).subs = x.w.subs) (hst : (own x.w).stepping = x.w.stepping) :
    EndsWith i x s' := by
  refine endsWith_of he hr hq hb (w' := own x.w) (b' := x.b) ?_ (by rw [hst]; exact hq.stepping) ?_ rfl
  · have : getWeft s' x.c.w = getWeft (updWeft s x.c.w own) x.c.w := by unfold getWeft; rw [hw]
    rw [this, getWeft_updWeft _ _ _ hid, if_pos rfl, hr.weft]; rfl
  · unfold subAt; rw [hsubs]; exact hr.sub

end Sys2Proof.Machine
end

