-- ==== Sys2Proof/Laws/PerInstr.lean ====
section
/-!
SUPPORT. The family Viewed: a word instruction is made again from the mnemonic and the fields that it is viewed as, and is
written in one to three words; an event is written in none.
-/

set_option Elab.async false

/-- What the family says of one instruction. -/
def Sys2Proof.Laws.Viewed.Statement (i : Sys2Proof.Instr) : Prop :=
  (∀ m f, Sys2Proof.Machine.viewInstr i = some (m, f) → Sys2Proof.Machine.mkInstr m f = i) ∧
  (i.isWord = true → 1 ≤ (Sys2Proof.encode i).length ∧ (Sys2Proof.encode i).length ≤ 3) ∧
  (i.isWord = false → Sys2Proof.encode i = [])

theorem Sys2Proof.Laws.viewed_word {i : Sys2Proof.Instr} {m : Sys2Proof.Mnem} {f : Sys2Proof.Fields}
    (hv : Sys2Proof.Machine.viewInstr i = some (m, f)) (hm : Sys2Proof.Machine.mkInstr m f = i) :
    Sys2Proof.Laws.Viewed.Statement i := by
  refine ⟨fun m' f' h => ?_, fun _ => ?_, fun h => ?_⟩
  · rw [hv] at h; cases h; exact hm
  · unfold Sys2Proof.encode; rw [hv]
    obtain ⟨_, _, _, _, _, _, _, e, t, b⟩ := f
    cases e <;> cases t <;> cases b <;> simp
  · unfold Sys2Proof.Instr.isWord at h; rw [hv] at h; cases h

theorem Sys2Proof.Laws.viewed_event {i : Sys2Proof.Instr} (hv : Sys2Proof.Machine.viewInstr i = none)
    (hw : i.isWord = false) (he : Sys2Proof.encode i = []) : Sys2Proof.Laws.Viewed.Statement i :=
  ⟨fun m f h => by (rw [hv] at h; cases h), fun h => by (rw [hw] at h; cases h), fun _ => he⟩

namespace Sys2Proof.Laws

open Sys2Proof.Machine

theorem Viewed.add (f : Fields) : Viewed.Statement (.add f) := viewed_word rfl rfl
theorem Viewed.sub (f : Fields) : Viewed.Statement (.sub f) := viewed_word rfl rfl
theorem Viewed.addc (f : Fields) : Viewed.Statement (.addc f) := viewed_word rfl rfl
theorem Viewed.subb (f : Fields) : Viewed.Statement (.subb f) := viewed_word rfl rfl
theorem Viewed.mul (f : Fields) : Viewed.Statement (.mul f) := viewed_word rfl rfl
theorem Viewed.mulh (f : Fields) : Viewed.Statement (.mulh f) := viewed_word rfl rfl
theorem Viewed.mad (f : Fields) : Viewed.Statement (.mad f) := viewed_word rfl rfl
theorem Viewed.div (f : Fields) : Viewed.Statement (.div f) := viewed_word rfl rfl
theorem Viewed.rem (f : Fields) : Viewed.Statement (.rem f) := viewed_word rfl rfl
theorem Viewed.min (f : Fields) : Viewed.Statement (.min f) := viewed_word rfl rfl
theorem Viewed.max (f : Fields) : Viewed.Statement (.max f) := viewed_word rfl rfl
theorem Viewed.abs (f : Fields) : Viewed.Statement (.abs f) := viewed_word rfl rfl
theorem Viewed.neg (f : Fields) : Viewed.Statement (.neg f) := viewed_word rfl rfl
theorem Viewed.and (f : Fields) : Viewed.Statement (.and f) := viewed_word rfl rfl
theorem Viewed.or (f : Fields) : Viewed.Statement (.or f) := viewed_word rfl rfl
theorem Viewed.xor (f : Fields) : Viewed.Statement (.xor f) := viewed_word rfl rfl
theorem Viewed.andn (f : Fields) : Viewed.Statement (.andn f) := viewed_word rfl rfl
theorem Viewed.shl (f : Fields) : Viewed.Statement (.shl f) := viewed_word rfl rfl
theorem Viewed.shr (f : Fields) : Viewed.Statement (.shr f) := viewed_word rfl rfl
theorem Viewed.sar (f : Fields) : Viewed.Statement (.sar f) := viewed_word rfl rfl
theorem Viewed.rot (f : Fields) : Viewed.Statement (.rot f) := viewed_word rfl rfl
theorem Viewed.bfx (f : Fields) : Viewed.Statement (.bfx f) := viewed_word rfl rfl
theorem Viewed.bfi (f : Fields) : Viewed.Statement (.bfi f) := viewed_word rfl rfl
theorem Viewed.clz (f : Fields) : Viewed.Statement (.clz f) := viewed_word rfl rfl
theorem Viewed.popc (f : Fields) : Viewed.Statement (.popc f) := viewed_word rfl rfl
theorem Viewed.brev (f : Fields) : Viewed.Statement (.brev f) := viewed_word rfl rfl
theorem Viewed.lea (f : Fields) : Viewed.Statement (.lea f) := viewed_word rfl rfl
theorem Viewed.sel (f : Fields) : Viewed.Statement (.sel f) := viewed_word rfl rfl
theorem Viewed.cmp (f : Fields) : Viewed.Statement (.cmp f) := viewed_word rfl rfl
theorem Viewed.pset (f : Fields) : Viewed.Statement (.pset f) := viewed_word rfl rfl
theorem Viewed.mov (f : Fields) : Viewed.Statement (.mov f) := viewed_word rfl rfl
theorem Viewed.cvti (f : Fields) : Viewed.Statement (.cvti f) := viewed_word rfl rfl
theorem Viewed.bra (f : Fields) : Viewed.Statement (.bra f) := viewed_word rfl rfl
theorem Viewed.brx (f : Fields) : Viewed.Statement (.brx f) := viewed_word rfl rfl
theorem Viewed.call (f : Fields) : Viewed.Statement (.call f) := viewed_word rfl rfl
theorem Viewed.callx (f : Fields) : Viewed.Statement (.callx f) := viewed_word rfl rfl
theorem Viewed.loop (f : Fields) : Viewed.Statement (.loop f) := viewed_word rfl rfl
theorem Viewed.ret (f : Fields) : Viewed.Statement (.ret f) := viewed_word rfl rfl
theorem Viewed.exit (f : Fields) : Viewed.Statement (.exit f) := viewed_word rfl rfl
theorem Viewed.nop (f : Fields) : Viewed.Statement (.nop f) := viewed_word rfl rfl
theorem Viewed.yieldWord (f : Fields) : Viewed.Statement (.yieldWord f) := viewed_word rfl rfl
theorem Viewed.reform (f : Fields) : Viewed.Statement (.reform f) := viewed_word rfl rfl
theorem Viewed.split (f : Fields) : Viewed.Statement (.split f) := viewed_word rfl rfl
theorem Viewed.join (f : Fields) : Viewed.Statement (.join f) := viewed_word rfl rfl
theorem Viewed.fadd (f : Fields) : Viewed.Statement (.fadd f) := viewed_word rfl rfl
theorem Viewed.fsub (f : Fields) : Viewed.Statement (.fsub f) := viewed_word rfl rfl
theorem Viewed.fmul (f : Fields) : Viewed.Statement (.fmul f) := viewed_word rfl rfl
theorem Viewed.fma (f : Fields) : Viewed.Statement (.fma f) := viewed_word rfl rfl
theorem Viewed.fmin (f : Fields) : Viewed.Statement (.fmin f) := viewed_word rfl rfl
theorem Viewed.fmax (f : Fields) : Viewed.Statement (.fmax f) := viewed_word rfl rfl
theorem Viewed.fcmp (f : Fields) : Viewed.Statement (.fcmp f) := viewed_word rfl rfl
theorem Viewed.fclass (f : Fields) : Viewed.Statement (.fclass f) := viewed_word rfl rfl
theorem Viewed.fdiv (f : Fields) : Viewed.Statement (.fdiv f) := viewed_word rfl rfl
theorem Viewed.fsqrt (f : Fields) : Viewed.Statement (.fsqrt f) := viewed_word rfl rfl
theorem Viewed.frcp (f : Fields) : Viewed.Statement (.frcp f) := viewed_word rfl rfl
theorem Viewed.frsq (f : Fields) : Viewed.Statement (.frsq f) := viewed_word rfl rfl
theorem Viewed.fexp2 (f : Fields) : Viewed.Statement (.fexp2 f) := viewed_word rfl rfl
theorem Viewed.flog2 (f : Fields) : Viewed.Statement (.flog2 f) := viewed_word rfl rfl
theorem Viewed.fsin (f : Fields) : Viewed.Statement (.fsin f) := viewed_word rfl rfl
theorem Viewed.fcos (f : Fields) : Viewed.Statement (.fcos f) := viewed_word rfl rfl
theorem Viewed.ftanh (f : Fields) : Viewed.Statement (.ftanh f) := viewed_word rfl rfl
theorem Viewed.frnd (f : Fields) : Viewed.Statement (.frnd f) := viewed_word rfl rfl
theorem Viewed.cvtf (f : Fields) : Viewed.Statement (.cvtf f) := viewed_word rfl rfl
theorem Viewed.cvtfi (f : Fields) : Viewed.Statement (.cvtfi f) := viewed_word rfl rfl
theorem Viewed.cvtif (f : Fields) : Viewed.Statement (.cvtif f) := viewed_word rfl rfl
theorem Viewed.bspack (f : Fields) : Viewed.Statement (.bspack f) := viewed_word rfl rfl
theorem Viewed.bsunpk (f : Fields) : Viewed.Statement (.bsunpk f) := viewed_word rfl rfl
theorem Viewed.bscale (f : Fields) : Viewed.Statement (.bscale f) := viewed_word rfl rfl
theorem Viewed.dot4 (f : Fields) : Viewed.Statement (.dot4 f) := viewed_word rfl rfl
theorem Viewed.shfl (f : Fields) : Viewed.Statement (.shfl f) := viewed_word rfl rfl
theorem Viewed.vote (f : Fields) : Viewed.Statement (.vote f) := viewed_word rfl rfl
theorem Viewed.bcast (f : Fields) : Viewed.Statement (.bcast f) := viewed_word rfl rfl
theorem Viewed.scan (f : Fields) : Viewed.Statement (.scan f) := viewed_word rfl rfl
theorem Viewed.wred (f : Fields) : Viewed.Statement (.wred f) := viewed_word rfl rfl
theorem Viewed.matchLanes (f : Fields) : Viewed.Statement (.matchLanes f) := viewed_word rfl rfl
theorem Viewed.shapeq (f : Fields) : Viewed.Statement (.shapeq f) := viewed_word rfl rfl
theorem Viewed.paired (stl : BitVec 4) (x y : Slot) : Viewed.Statement (.paired stl x y) :=
  ⟨fun _ _ h => (nomatch h), fun _ => (⟨Nat.le_refl 1, by decide⟩ : 1 ≤ 1 ∧ 1 ≤ 3), fun h => (nomatch h)⟩
theorem Viewed.ld (f : Fields) : Viewed.Statement (.ld f) := viewed_word rfl rfl
theorem Viewed.st (f : Fields) : Viewed.Statement (.st f) := viewed_word rfl rfl
theorem Viewed.lds (f : Fields) : Viewed.Statement (.lds f) := viewed_word rfl rfl
theorem Viewed.sts (f : Fields) : Viewed.Statement (.sts f) := viewed_word rfl rfl
theorem Viewed.ldt (f : Fields) : Viewed.Statement (.ldt f) := viewed_word rfl rfl
theorem Viewed.stt (f : Fields) : Viewed.Statement (.stt f) := viewed_word rfl rfl
theorem Viewed.ldp (f : Fields) : Viewed.Statement (.ldp f) := viewed_word rfl rfl
theorem Viewed.stp (f : Fields) : Viewed.Statement (.stp f) := viewed_word rfl rfl
theorem Viewed.prf (f : Fields) : Viewed.Statement (.prf f) := viewed_word rfl rfl
theorem Viewed.cctlWb (f : Fields) : Viewed.Statement (.cctlWb f) := viewed_word rfl rfl
theorem Viewed.cctlInv (f : Fields) : Viewed.Statement (.cctlInv f) := viewed_word rfl rfl
theorem Viewed.cctlFlush (f : Fields) : Viewed.Statement (.cctlFlush f) := viewed_word rfl rfl
theorem Viewed.cctlIc (f : Fields) : Viewed.Statement (.cctlIc f) := viewed_word rfl rfl
theorem Viewed.atom (f : Fields) : Viewed.Statement (.atom f) := viewed_word rfl rfl
theorem Viewed.red (f : Fields) : Viewed.Statement (.red f) := viewed_word rfl rfl
theorem Viewed.cas (f : Fields) : Viewed.Statement (.cas f) := viewed_word rfl rfl
theorem Viewed.phase (f : Fields) : Viewed.Statement (.phase f) := viewed_word rfl rfl
theorem Viewed.bari (f : Fields) : Viewed.Statement (.bari f) := viewed_word rfl rfl
theorem Viewed.bara (f : Fields) : Viewed.Statement (.bara f) := viewed_word rfl rfl
theorem Viewed.barw (f : Fields) : Viewed.Statement (.barw f) := viewed_word rfl rfl
theorem Viewed.barwNar (f : Fields) : Viewed.Statement (.barwNar f) := viewed_word rfl rfl
theorem Viewed.arbegin (f : Fields) : Viewed.Statement (.arbegin f) := viewed_word rfl rfl
theorem Viewed.arend (f : Fields) : Viewed.Statement (.arend f) := viewed_word rfl rfl
theorem Viewed.arabort (f : Fields) : Viewed.Statement (.arabort f) := viewed_word rfl rfl
theorem Viewed.arbnd (f : Fields) : Viewed.Statement (.arbnd f) := viewed_word rfl rfl
theorem Viewed.pin (f : Fields) : Viewed.Statement (.pin f) := viewed_word rfl rfl
theorem Viewed.unpin (f : Fields) : Viewed.Statement (.unpin f) := viewed_word rfl rfl
theorem Viewed.hint (f : Fields) : Viewed.Statement (.hint f) := viewed_word rfl rfl
theorem Viewed.msend (f : Fields) : Viewed.Statement (.msend f) := viewed_word rfl rfl
theorem Viewed.mpost (f : Fields) : Viewed.Statement (.mpost f) := viewed_word rfl rfl
theorem Viewed.qbind (f : Fields) : Viewed.Statement (.qbind f) := viewed_word rfl rfl
theorem Viewed.qunbind (f : Fields) : Viewed.Statement (.qunbind f) := viewed_word rfl rfl
theorem Viewed.qstat (f : Fields) : Viewed.Statement (.qstat f) := viewed_word rfl rfl
theorem Viewed.qclose (f : Fields) : Viewed.Statement (.qclose f) := viewed_word rfl rfl
theorem Viewed.scrum (f : Fields) : Viewed.Statement (.scrum f) := viewed_word rfl rfl
theorem Viewed.scrumLeave (f : Fields) : Viewed.Statement (.scrumLeave f) := viewed_word rfl rfl
theorem Viewed.swres (f : Fields) : Viewed.Statement (.swres f) := viewed_word rfl rfl
theorem Viewed.swrel (f : Fields) : Viewed.Statement (.swrel f) := viewed_word rfl rfl
theorem Viewed.mma (f : Fields) : Viewed.Statement (.mma f) := viewed_word rfl rfl
theorem Viewed.mmac (f : Fields) : Viewed.Statement (.mmac f) := viewed_word rfl rfl
theorem Viewed.aclr (f : Fields) : Viewed.Statement (.aclr f) := viewed_word rfl rfl
theorem Viewed.ald (f : Fields) : Viewed.Statement (.ald f) := viewed_word rfl rfl
theorem Viewed.ast (f : Fields) : Viewed.Statement (.ast f) := viewed_word rfl rfl
theorem Viewed.adrain (f : Fields) : Viewed.Statement (.adrain f) := viewed_word rfl rfl
theorem Viewed.cpy (f : Fields) : Viewed.Statement (.cpy f) := viewed_word rfl rfl
theorem Viewed.gath (f : Fields) : Viewed.Statement (.gath f) := viewed_word rfl rfl
theorem Viewed.coll (f : Fields) : Viewed.Statement (.coll f) := viewed_word rfl rfl
theorem Viewed.ownq (f : Fields) : Viewed.Statement (.ownq f) := viewed_word rfl rfl
theorem Viewed.ownqW (f : Fields) : Viewed.Statement (.ownqW f) := viewed_word rfl rfl
theorem Viewed.tdeq (f : Fields) : Viewed.Statement (.tdeq f) := viewed_word rfl rfl
theorem Viewed.tdeqPanel (f : Fields) : Viewed.Statement (.tdeqPanel f) := viewed_word rfl rfl
theorem Viewed.tdeqNb (f : Fields) : Viewed.Statement (.tdeqNb f) := viewed_word rfl rfl
theorem Viewed.tenq (f : Fields) : Viewed.Statement (.tenq f) := viewed_word rfl rfl
theorem Viewed.tdone (f : Fields) : Viewed.Statement (.tdone f) := viewed_word rfl rfl
theorem Viewed.tarm (f : Fields) : Viewed.Statement (.tarm f) := viewed_word rfl rfl
theorem Viewed.symw (f : Fields) : Viewed.Statement (.symw f) := viewed_word rfl rfl
theorem Viewed.symwAll (f : Fields) : Viewed.Statement (.symwAll f) := viewed_word rfl rfl
theorem Viewed.symq (f : Fields) : Viewed.Statement (.symq f) := viewed_word rfl rfl
theorem Viewed.svc (f : Fields) : Viewed.Statement (.svc f) := viewed_word rfl rfl
theorem Viewed.trap (f : Fields) : Viewed.Statement (.trap f) := viewed_word rfl rfl
theorem Viewed.bkpt (f : Fields) : Viewed.Statement (.bkpt f) := viewed_word rfl rfl
theorem Viewed.tret (f : Fields) : Viewed.Statement (.tret f) := viewed_word rfl rfl
theorem Viewed.uiret (f : Fields) : Viewed.Statement (.uiret f) := viewed_word rfl rfl
theorem Viewed.uienOff (f : Fields) : Viewed.Statement (.uienOff f) := viewed_word rfl rfl
theorem Viewed.uienOn (f : Fields) : Viewed.Statement (.uienOn f) := viewed_word rfl rfl
theorem Viewed.uienPost (f : Fields) : Viewed.Statement (.uienPost f) := viewed_word rfl rfl
theorem Viewed.csrr (f : Fields) : Viewed.Statement (.csrr f) := viewed_word rfl rfl
theorem Viewed.csrw (f : Fields) : Viewed.Statement (.csrw f) := viewed_word rfl rfl
theorem Viewed.svcpop (f : Fields) : Viewed.Statement (.svcpop f) := viewed_word rfl rfl
theorem Viewed.ctxsv (f : Fields) : Viewed.Statement (.ctxsv f) := viewed_word rfl rfl
theorem Viewed.ctxld (f : Fields) : Viewed.Statement (.ctxld f) := viewed_word rfl rfl
theorem Viewed.halt (f : Fields) : Viewed.Statement (.halt f) := viewed_word rfl rfl
theorem Viewed.wake (f : Fields) : Viewed.Statement (.wake f) := viewed_word rfl rfl
theorem Viewed.wakeSvc (f : Fields) : Viewed.Statement (.wakeSvc f) := viewed_word rfl rfl
theorem Viewed.dbgrd (f : Fields) : Viewed.Statement (.dbgrd f) := viewed_word rfl rfl
theorem Viewed.dbgwr (f : Fields) : Viewed.Statement (.dbgwr f) := viewed_word rfl rfl
theorem Viewed.dstep (f : Fields) : Viewed.Statement (.dstep f) := viewed_word rfl rfl
theorem Viewed.tlbiPage (f : Fields) : Viewed.Statement (.tlbiPage f) := viewed_word rfl rfl
theorem Viewed.tlbiAsid (f : Fields) : Viewed.Statement (.tlbiAsid f) := viewed_word rfl rfl
theorem Viewed.tlbiPart (f : Fields) : Viewed.Statement (.tlbiPart f) := viewed_word rfl rfl
theorem Viewed.rflush (f : Fields) : Viewed.Statement (.rflush f) := viewed_word rfl rfl
theorem Viewed.rflushAsid (f : Fields) : Viewed.Statement (.rflushAsid f) := viewed_word rfl rfl
theorem Viewed.partcfgNew (f : Fields) : Viewed.Statement (.partcfgNew f) := viewed_word rfl rfl
theorem Viewed.partcfgMod (f : Fields) : Viewed.Statement (.partcfgMod f) := viewed_word rfl rfl
theorem Viewed.partcfgDel (f : Fields) : Viewed.Statement (.partcfgDel f) := viewed_word rfl rfl
theorem Viewed.freeze (f : Fields) : Viewed.Statement (.freeze f) := viewed_word rfl rfl
theorem Viewed.thaw (f : Fields) : Viewed.Statement (.thaw f) := viewed_word rfl rfl
theorem Viewed.gsub (f : Fields) : Viewed.Statement (.gsub f) := viewed_word rfl rfl
theorem Viewed.gres (f : Fields) : Viewed.Statement (.gres f) := viewed_word rfl rfl
theorem Viewed.migr (f : Fields) : Viewed.Statement (.migr f) := viewed_word rfl rfl
theorem Viewed.panelStart (r : StartArgs) : Viewed.Statement (.panelStart r) := viewed_event rfl rfl rfl
theorem Viewed.preemptionRequest (k : PKey) : Viewed.Statement (.preemptionRequest k) := viewed_event rfl rfl rfl
theorem Viewed.translationFaultSave (k : PKey) : Viewed.Statement (.translationFaultSave k) :=
  viewed_event rfl rfl rfl
theorem Viewed.translationComplete (asid : BitVec 16) (vpage : Nat) :
    Viewed.Statement (.translationComplete asid vpage) := viewed_event rfl rfl rfl
theorem Viewed.interlockedWriteLanding (id : Nat) : Viewed.Statement (.interlockedWriteLanding id) :=
  viewed_event rfl rfl rfl
theorem Viewed.symbolArrival (w : WId) (slot : SlotNo) : Viewed.Statement (.symbolArrival w slot) :=
  viewed_event rfl rfl rfl
theorem Viewed.symbolFault (w : WId) : Viewed.Statement (.symbolFault w) := viewed_event rfl rfl rfl
theorem Viewed.benchSubstitution (w : WId) : Viewed.Statement (.benchSubstitution w) := viewed_event rfl rfl rfl
theorem Viewed.promotion (core quarter : Nat) : Viewed.Statement (.promotion core quarter) := viewed_event rfl rfl rfl
theorem Viewed.rotation (core quarter : Nat) : Viewed.Statement (.rotation core quarter) := viewed_event rfl rfl rfl
theorem Viewed.reformBinTimeout (core bin : Nat) : Viewed.Statement (.reformBinTimeout core bin) :=
  viewed_event rfl rfl rfl
theorem Viewed.reformBinSlotDraw (core bin : Nat) : Viewed.Statement (.reformBinSlotDraw core bin) :=
  viewed_event rfl rfl rfl
theorem Viewed.queueWindowStore (port part q : Nat) (va : Word64) (bytes : Nat) :
    Viewed.Statement (.queueWindowStore port part q va bytes) := viewed_event rfl rfl rfl
theorem Viewed.heldWindowStore (part q : Nat) : Viewed.Statement (.heldWindowStore part q) := viewed_event rfl rfl rfl
theorem Viewed.overflowPlacement (part : Nat) : Viewed.Statement (.overflowPlacement part) := viewed_event rfl rfl rfl
theorem Viewed.queueEnginePageResume (part : Nat) : Viewed.Statement (.queueEnginePageResume part) :=
  viewed_event rfl rfl rfl
theorem Viewed.deviceAreaResume (part : Nat) : Viewed.Statement (.deviceAreaResume part) := viewed_event rfl rfl rfl
theorem Viewed.engineChunk (core : Nat) (e : Engine) : Viewed.Statement (.engineChunk core e) :=
  viewed_event rfl rfl rfl
theorem Viewed.engineCompletion (core : Nat) (e : Engine) : Viewed.Statement (.engineCompletion core e) :=
  viewed_event rfl rfl rfl
theorem Viewed.serviceBatchTimeout (w : WId) : Viewed.Statement (.serviceBatchTimeout w) := viewed_event rfl rfl rfl
theorem Viewed.serviceBatchSend (w : WId) : Viewed.Statement (.serviceBatchSend w) := viewed_event rfl rfl rfl
theorem Viewed.userInterruptDelivery (w : WId) : Viewed.Statement (.userInterruptDelivery w) :=
  viewed_event rfl rfl rfl
theorem Viewed.regionConflict (access : WId) (owner : WId) (line : Nat) (write : Bool) :
    Viewed.Statement (.regionConflict access owner line write) := viewed_event rfl rfl rfl
theorem Viewed.regionCommit (w : WId) : Viewed.Statement (.regionCommit w) := viewed_event rfl rfl rfl
theorem Viewed.serialSlotGrant (part dom : Nat) : Viewed.Statement (.serialSlotGrant part dom) :=
  viewed_event rfl rfl rfl
theorem Viewed.messageArrival (id : Nat) : Viewed.Statement (.messageArrival id) := viewed_event rfl rfl rfl
theorem Viewed.stagedMessagePlacement (id : Nat) : Viewed.Statement (.stagedMessagePlacement id) :=
  viewed_event rfl rfl rfl
theorem Viewed.stagingTimeout (id : Nat) : Viewed.Statement (.stagingTimeout id) := viewed_event rfl rfl rfl
theorem Viewed.noBufferTimeout (id : Nat) : Viewed.Statement (.noBufferTimeout id) := viewed_event rfl rfl rfl
theorem Viewed.sendCompletion (id : Nat) : Viewed.Statement (.sendCompletion id) := viewed_event rfl rfl rfl
theorem Viewed.multicastForward (slot branch : Nat) : Viewed.Statement (.multicastForward slot branch) :=
  viewed_event rfl rfl rfl
theorem Viewed.rds (agent line : Nat) : Viewed.Statement (.rds agent line) := viewed_event rfl rfl rfl
theorem Viewed.rdx (agent line : Nat) : Viewed.Statement (.rdx agent line) := viewed_event rfl rfl rfl
theorem Viewed.upg (agent line : Nat) : Viewed.Statement (.upg agent line) := viewed_event rfl rfl rfl
theorem Viewed.prv (agent line : Nat) (mask : List Nat) : Viewed.Statement (.prv agent line mask) :=
  viewed_event rfl rfl rfl
theorem Viewed.wb (agent line : Nat) : Viewed.Statement (.wb agent line) := viewed_event rfl rfl rfl
theorem Viewed.evc (agent line : Nat) : Viewed.Statement (.evc agent line) := viewed_event rfl rfl rfl
theorem Viewed.atm (agent line : Nat) : Viewed.Statement (.atm agent line) := viewed_event rfl rfl rfl
theorem Viewed.forward (line : Nat) : Viewed.Statement (.forward line) := viewed_event rfl rfl rfl
theorem Viewed.forwardData (line : Nat) : Viewed.Statement (.forwardData line) := viewed_event rfl rfl rfl
theorem Viewed.invalidation (agent line : Nat) : Viewed.Statement (.invalidation agent line) :=
  viewed_event rfl rfl rfl
theorem Viewed.invalidationAck (agent line : Nat) : Viewed.Statement (.invalidationAck agent line) :=
  viewed_event rfl rfl rfl
theorem Viewed.mergeRequest (agent line : Nat) : Viewed.Statement (.mergeRequest agent line) :=
  viewed_event rfl rfl rfl
theorem Viewed.mergeResponse (agent line : Nat) : Viewed.Statement (.mergeResponse agent line) :=
  viewed_event rfl rfl rfl
theorem Viewed.recall (agent line : Nat) : Viewed.Statement (.recall agent line) := viewed_event rfl rfl rfl
theorem Viewed.recallResponse (agent line : Nat) : Viewed.Statement (.recallResponse agent line) :=
  viewed_event rfl rfl rfl
theorem Viewed.lostMessage (line : Nat) (k : LostKind) : Viewed.Statement (.lostMessage line k) :=
  viewed_event rfl rfl rfl
theorem Viewed.moveStart : Viewed.Statement .moveStart := viewed_event rfl rfl rfl
theorem Viewed.moveLineCopy (asid : BitVec 16) (vpage : Nat) : Viewed.Statement (.moveLineCopy asid vpage) :=
  viewed_event rfl rfl rfl
theorem Viewed.migrationRegionWaitExpiry (asid : BitVec 16) (vpage : Nat) :
    Viewed.Statement (.migrationRegionWaitExpiry asid vpage) := viewed_event rfl rfl rfl
theorem Viewed.moveSwitch (asid : BitVec 16) (vpage : Nat) : Viewed.Statement (.moveSwitch asid vpage) :=
  viewed_event rfl rfl rfl
theorem Viewed.hostMemoryRequest (port part : Nat) (va : Word64) (op : HostOp) :
    Viewed.Statement (.hostMemoryRequest port part va op) := viewed_event rfl rfl rfl
theorem Viewed.bisnp (line : Nat) (data : List Byte) : Viewed.Statement (.bisnp line data) := viewed_event rfl rfl rfl
theorem Viewed.devloadWindow (port load : Nat) (held : Bool) : Viewed.Statement (.devloadWindow port load held) :=
  viewed_event rfl rfl rfl
theorem Viewed.fabricMemoryAccess (port : Nat) (p : Packet) : Viewed.Statement (.fabricMemoryAccess port p) :=
  viewed_event rfl rfl rfl
theorem Viewed.fabricRefusal (id : Nat) : Viewed.Statement (.fabricRefusal id) := viewed_event rfl rfl rfl
theorem Viewed.postedWriteAck (id : Nat) : Viewed.Statement (.postedWriteAck id) := viewed_event rfl rfl rfl
theorem Viewed.sysReleaseTimeout (w : WId) : Viewed.Statement (.sysReleaseTimeout w) := viewed_event rfl rfl rfl
theorem Viewed.fabricResponseTimeout (id : Nat) : Viewed.Statement (.fabricResponseTimeout id) :=
  viewed_event rfl rfl rfl
theorem Viewed.incarnationNotice (src : BitVec 12) (inc : Word32) : Viewed.Statement (.incarnationNotice src inc) :=
  viewed_event rfl rfl rfl
theorem Viewed.substitutionRequest (job : Nat) (src : BitVec 12) : Viewed.Statement (.substitutionRequest job src) :=
  viewed_event rfl rfl rfl
theorem Viewed.sweptPacketReturn (job port : Nat) (p : Packet) : Viewed.Statement (.sweptPacketReturn job port p) :=
  viewed_event rfl rfl rfl
theorem Viewed.sweepDoneMarker (job port : Nat) : Viewed.Statement (.sweepDoneMarker job port) :=
  viewed_event rfl rfl rfl
theorem Viewed.sweepMarkerTimeout (job : Nat) : Viewed.Statement (.sweepMarkerTimeout job) := viewed_event rfl rfl rfl
theorem Viewed.sealReport (job : Nat) (member : BitVec 12) (status : Nat) :
    Viewed.Statement (.sealReport job member status) := viewed_event rfl rfl rfl
theorem Viewed.resumeRequest (job : Nat) : Viewed.Statement (.resumeRequest job) := viewed_event rfl rfl rfl
theorem Viewed.dieReset (die : Nat) : Viewed.Statement (.dieReset die) := viewed_event rfl rfl rfl
theorem Viewed.dieQuiesceDeadline (die : Nat) : Viewed.Statement (.dieQuiesceDeadline die) := viewed_event rfl rfl rfl
theorem Viewed.packageReset : Viewed.Statement .packageReset := viewed_event rfl rfl rfl
theorem Viewed.setPowerLevel (die level : Nat) : Viewed.Statement (.setPowerLevel die level) :=
  viewed_event rfl rfl rfl
theorem Viewed.thermalTrip (die : Nat) : Viewed.Statement (.thermalTrip die) := viewed_event rfl rfl rfl
theorem Viewed.firmwareUpdate (image : List Byte) : Viewed.Statement (.firmwareUpdate image) :=
  viewed_event rfl rfl rfl
theorem Viewed.getVersion (req : Option Nat) : Viewed.Statement (.getVersion req) := viewed_event rfl rfl rfl
theorem Viewed.getCapabilities (req : Option Nat) : Viewed.Statement (.getCapabilities req) :=
  viewed_event rfl rfl rfl
theorem Viewed.negotiateAlgorithms (req : Option Nat) : Viewed.Statement (.negotiateAlgorithms req) :=
  viewed_event rfl rfl rfl
theorem Viewed.getDigests (req : Option Nat) : Viewed.Statement (.getDigests req) := viewed_event rfl rfl rfl
theorem Viewed.getCertificate (req : Option Nat) : Viewed.Statement (.getCertificate req) := viewed_event rfl rfl rfl
theorem Viewed.challenge (req : Option Nat) (nonce : List Byte) : Viewed.Statement (.challenge req nonce) :=
  viewed_event rfl rfl rfl
theorem Viewed.getMeasurements (req : Option Nat) (index : Nat) : Viewed.Statement (.getMeasurements req index) :=
  viewed_event rfl rfl rfl
theorem Viewed.keyExchange (req : Option Nat) : Viewed.Statement (.keyExchange req) := viewed_event rfl rfl rfl
theorem Viewed.finish (req : Option Nat) : Viewed.Statement (.finish req) := viewed_event rfl rfl rfl
theorem Viewed.virtualChannelCredit (port vc : Nat) : Viewed.Statement (.virtualChannelCredit port vc) :=
  viewed_event rfl rfl rfl

end Sys2Proof.Laws
end

