-- ==== Sys2Proof/Tests/Base.lean ====
section
/-!
SUPPORT. The small states on which the tests run: one panel of one weft on core 0, at an instruction of one word.
-/

set_option Elab.async false
namespace Sys2Proof.Tests

open Machine Safety

/-- The weft under test: all sixteen threads at 0x1000, in level 3. -/
def wid : WId := ⟨0, 0⟩
def key : PKey := ⟨some 0, 0⟩
def weft : Weft := { launchWeft wid 0 key 0 1 3 0xFFFF 0x1000 with onCourt := true }

/-- The package with that weft issuing one word; virtual page 1 lies at physical page 1. -/
def start : State :=
  { State.reset with
    cur := some ⟨wid, 0, 0x1000, 1⟩, started := true, parts := [(0, loadPart)], panels := [loadPanel key],
    wefts := [weft], tlb := [⟨0, 1, 12, 0, loadLeaf, 0, none⟩] }

/-- A state with its weft, its panel or its partition changed. -/
def onW (g : Weft → Weft) (s : State) : State := { s with wefts := s.wefts.map fun w => if w.id = wid then g w else w }
def onP (g : Panel → Panel) (s : State) : State := { s with panels := s.panels.map fun p => if p.key = key then g p else p }
def onPart (g : Part → Part) (s : State) : State := { s with parts := s.parts.map fun e => if e.1 = 0 then (0, g e.2) else e }

/-- Vector register n holds its lane number plus k in every lane. -/
def vecs (n k : Nat) (w : Weft) : Weft :=
  { w with vregs := tset w.vregs n (.val .g (lanes16.map fun l => BitVec.ofNat 32 (k + l))) }

/-- Scalar register n holds v. -/
def scal (n v : Nat) (w : Weft) : Weft := { w with sregs := tset w.sregs n (BitVec.ofNat 32 v) }

/-- The context with which a unit's body starts. -/
def ctxOf (s : State) (m : Mnem) (f : Fields) (g : GuardKind) : Ctx :=
  let c := s.cur.getD ⟨wid, 0, 0, 0⟩
  let w := (getWeft s c.w).getD weft
  let p := (getPanel s w.key).getD (loadPanel key)
  let b := (subAt w c.lane).getD ⟨0, 0, none, .none⟩
  let act := match activeLanes s w b (c.words - 1) f.guard (guardOnce g f) with | .ok a => a | .error _ => 0
  ⟨s, c, w, p, b, f, m, act, guardOnce g f, c.words - 1, []⟩

/-- A Bool that says that a unit passes every check before its body. -/
def runsB (s : State) (m : Mnem) (f : Fields) (g : GuardKind) : Bool :=
  match s.cur with
  | none => false
  | some c =>
    match getWeft s c.w with
    | none => false
    | some w =>
      match getPanel s w.key, subAt w c.lane with
      | some p, some b =>
        match activeLanes s w b (c.words - 1) f.guard (guardOnce g f) with
        | .ok act =>
          fullOk m f && !(isSup w.id.core && spemOnly m) && budgetOk p w m f && boundOk w m f &&
            decide (levelOf m f ≤ w.level) && !(decide (m = .tret) && !trapActive w w.level) &&
            !(decide (m = .uiret) && !uiAct w) && decide (act ≠ 0) && !(w.region.isSome && abortsRegion m)
        | .error _ => false
      | _, _ => false

theorem runs_of {s : State} {m : Mnem} {f : Fields} {g : GuardKind} (h : runsB s m f g = true) :
    Runs s m f g (ctxOf s m f g) := by
  unfold runsB at h
  cases hc : s.cur with
  | none => simp [hc] at h
  | some c =>
    simp only [hc] at h
    cases hw : getWeft s c.w with
    | none => simp [hw] at h
    | some w =>
      simp only [hw] at h
      cases hp : getPanel s w.key with
      | none => simp [hp] at h
      | some p =>
        cases hb : subAt w c.lane with
        | none => simp [hp, hb] at h
        | some b =>
          simp only [hp, hb] at h
          cases ha : activeLanes s w b (c.words - 1) f.guard (guardOnce g f) with
          | error e => simp [ha] at h
          | ok act =>
            simp only [ha, Bool.and_eq_true, Bool.not_eq_true', decide_eq_true_eq] at h
            obtain ⟨⟨⟨⟨⟨⟨⟨⟨h1, h2⟩, h3⟩, h4⟩, h5⟩, ht⟩, hu⟩, h6⟩, h7⟩ := h
            have hx : ctxOf s m f g = ⟨s, c, w, p, b, f, m, act, guardOnce g f, c.words - 1, []⟩ := by
              simp [ctxOf, hc, hw, hp, hb, ha]
            rw [hx]
            exact ⟨hc, hw, hp, hb, rfl, rfl, rfl, rfl, rfl, rfl, h1, h2, h3, h4, h5, ⟨fun e => by simpa [e] using ht, fun e => by simpa [e] using hu⟩, ha, h6, h7⟩

/-- A Bool that says that a sub-weft of a resident weft issues. -/
def issuedB (s : State) : Bool :=
  match s.cur with
  | none => false
  | some c => match getWeft s c.w with
    | none => false
    | some w => (getPanel s w.key).isSome && (subAt w c.lane).isSome

theorem issued_of {s : State} {m : Mnem} {f : Fields} {g : GuardKind} (h : issuedB s = true) :
    Issued s (ctxOf s m f g) := by
  unfold issuedB at h
  cases hc : s.cur with
  | none => simp [hc] at h
  | some c =>
    simp only [hc] at h
    cases hw : getWeft s c.w with
    | none => simp [hw] at h
    | some w =>
      simp only [hw, Bool.and_eq_true, Option.isSome_iff_exists] at h
      obtain ⟨⟨p, hp⟩, b, hb⟩ := h
      constructor <;> simp [ctxOf, hc, hw, hp, hb]

theorem unwatched_of {x : Ctx} (h : (decide (x.w.stepping = none) && (decide (x.w.level ≠ 0) || decide (x.p.debug = []))) = true) :
    Unwatched x := by
  simp only [Bool.and_eq_true, Bool.or_eq_true, decide_eq_true_eq] at h
  exact ⟨h.1, h.2⟩

/-- The value of a computation that succeeds. -/
def okVal {α : Type} (r : R α) (d : α) : α := match r with | .ok a => a | .error _ => d
def okB {α : Type} (r : R α) : Bool := match r with | .ok _ => true | .error _ => false

theorem ok_val {α : Type} {r : R α} {d : α} (h : okB r = true) : r = .ok (okVal r d) := by
  unfold okB at h; unfold okVal; cases r <;> simp_all

theorem ok_some {α : Type} {r : R α} (h : okB r = true) : ∃ a, r = .ok a := by
  unfold okB at h; cases r <;> simp_all

theorem ok_and {α : Type} {r : R α} {P : α → Prop} (d : α) (h : okB r = true) (hp : P (okVal r d)) :
    ∃ a, r = .ok a ∧ P a := ⟨_, ok_val h, hp⟩

/-- Whether a computation gives a value. -/
def okIs {α : Type} [DecidableEq α] (r : R α) (v : α) : Bool := match r with | .ok a => decide (a = v) | .error _ => false

theorem ok_eq {α : Type} [DecidableEq α] {r : R α} {v : α} (h : okIs r v = true) : r = .ok v := by
  unfold okIs at h; cases r <;> simp_all

theorem ok_unit {r : R Unit} (h : okB r = true) : r = .ok () := ok_val (d := ()) h

/-- The value of an option that has one. -/
theorem some_and {α : Type} {o : Option α} {P : α → Prop} (d : α) (h : o.isSome = true) (hp : P (o.getD d)) :
    ∃ a, o = some a ∧ P a := by
  cases o with
  | none => simp at h
  | some a => exact ⟨a, rfl, hp⟩

/-- A unit that passes every check, unwatched, meets what else is asked of it. -/
theorem unit_and {m : Mnem} {g : GuardKind} {P : State → Fields → Ctx → Prop} (s : State) (f : Fields)
    (h : (runsB s m f g && (decide ((ctxOf s m f g).w.stepping = none) &&
      (decide ((ctxOf s m f g).w.level ≠ 0) || decide ((ctxOf s m f g).p.debug = [])))) = true)
    (hp : P s f (ctxOf s m f g)) : ∃ s f x, Runs s m f g x ∧ Unwatched x ∧ P s f x := by
  rw [Bool.and_eq_true] at h
  exact ⟨s, f, _, runs_of h.1, unwatched_of h.2, hp⟩

/-- The same where nothing else is asked. -/
theorem unit_is {m : Mnem} {g : GuardKind} (s : State) (f : Fields)
    (h : (runsB s m f g && (decide ((ctxOf s m f g).w.stepping = none) &&
      (decide ((ctxOf s m f g).w.level ≠ 0) || decide ((ctxOf s m f g).p.debug = [])))) = true) :
    ∃ s f x, Runs s m f g x ∧ Unwatched x := by
  rw [Bool.and_eq_true] at h
  exact ⟨s, f, _, runs_of h.1, unwatched_of h.2⟩

end Sys2Proof.Tests
end

