-- ==== Sys2Proof/Tests/Arith.lean ====
section
/-!
SUPPORT. States and operands that meet all hypotheses of the statements about results in D and in predicates.
-/

set_option Elab.async false
namespace Sys2Proof.Tests

open Machine Safety

/-- Vector registers 2, 4, 6 and 10 hold values, predicate 1 the even lanes, scalar registers 0 and 1 an address. -/
def alu : State :=
  onW (fun w => { vecs 3 0 (vecs 2 0xFFFFFFF8 (vecs 4 3 (vecs 5 0 (vecs 6 1 (vecs 10 0x3F800000 (scal 0 0x1000 (scal 1 0 w))))))) with
    preds := [0x8001, 0x5555, 0, 0, 0, 0, 0] }) start

/-- A statement of the form WritesWhen has an input that meets its hypotheses. -/
def DInput (cond : Ctx → Prop) (m : Mnem) (wide : Fields → Bool × Bool × Bool × Bool)
    (val : Fields → Ctx → Nat → Word64 → Word64 → Word64 → Word64 × Flags) : Prop :=
  ∃ (s : State) (f : Fields) (x : Ctx) (v : Vals), Runs s m f .auto x ∧ Unwatched x ∧ Known x ∧ cond x ∧
    readAll x (wide f).1 (wide f).2.1 (wide f).2.2.1 = .ok v ∧
    (let at_ (l : Nat) : Word64 × Flags := val f x l (v.a.getD l 0) (v.b.getD l 0) (v.c.getD l 0)
     CanWrite v.x (mnemLatency m f) (wide f).2.2.2 (lanes16.map fun l => (at_ l).1) fun w =>
       orFpst w (flagsOver x fun l => (at_ l).2))

/-- The sources of a unit, where they can be read. -/
def valsOf (m : Mnem) (f : Fields) (wide : Fields → Bool × Bool × Bool × Bool) : Vals :=
  let x := ctxOf alu m f .auto
  okVal (readAll x (wide f).1 (wide f).2.1 (wide f).2.2.1) ⟨x, [], [], []⟩

/-- The hypotheses as a Bool, for a unit of the state alu. -/
def dInputB (m : Mnem) (f : Fields) (wide : Fields → Bool × Bool × Bool × Bool)
    (val : Fields → Ctx → Nat → Word64 → Word64 → Word64 → Word64 × Flags) : Bool :=
  let x := ctxOf alu m f .auto
  let v := valsOf m f wide
  let at_ (l : Nat) : Word64 × Flags := val f x l (v.a.getD l 0) (v.b.getD l 0) (v.c.getD l 0)
  runsB alu m f .auto && decide (x.w.stepping = none ∧ (x.w.level ≠ 0 ∨ x.p.debug = [])) &&
    (match symAt x .a, symAt x .b with | .ok none, .ok none => true | _, _ => false) &&
    okB (readAll x (wide f).1 (wide f).2.1 (wide f).2.2.1) &&
    okB (writeRes v.x (wide f).2.2.2 (lanes16.map fun l => (at_ l).1) (mnemLatency m f)
      fun w => orFpst w (flagsOver x fun l => (at_ l).2))

theorem dInput_of {cond : Ctx → Prop} {m : Mnem} {wide : Fields → Bool × Bool × Bool × Bool}
    {val : Fields → Ctx → Nat → Word64 → Word64 → Word64 → Word64 × Flags} (f : Fields)
    (h : dInputB m f wide val = true) (hc : cond (ctxOf alu m f .auto)) : DInput cond m wide val := by
  simp only [dInputB, Bool.and_eq_true, decide_eq_true_eq] at h
  obtain ⟨⟨⟨⟨h1, h2⟩, h3⟩, h4⟩, h5⟩ := h
  refine ⟨alu, f, _, valsOf m f wide, runs_of h1, ⟨h2.1, h2.2⟩, ?_, hc, ok_val h4, ok_some h5⟩
  generalize ha : symAt (ctxOf alu m f .auto) .a = a at h3
  generalize hb : symAt (ctxOf alu m f .auto) .b = b at h3
  rcases a with _ | _ | _ <;> rcases b with _ | _ | _ <;> simp at h3
  exact ⟨ha, hb⟩

/-- Three vector operands; a pair; an immediate B. -/
def f3 (mod : BitVec 4) (c : Operand) : Fields := plain 1 mod (.v 2) (.v 4) (.v 6) c
def f2 (mod : BitVec 4) (c : Operand) : Fields := plain 1 mod (.v 2) (.v 4) .zero c

theorem test_integer_arithmetic_inputs :
    DInput (fun _ => True) .add allWide (onType fun _ _ a b _ => a + b) ∧
    DInput (fun _ => True) .sub allWide (onType fun _ _ a b _ => a - b) ∧
    DInput (fun _ => True) .mul allWide (onType fun _ _ a b _ => a * b) ∧
    DInput (fun _ => True) .mulh allWide (onType fun n sg a b _ => mulHigh n sg a b) ∧
    DInput (fun _ => True) .mad allWide (onType fun _ _ a b c => a * b + c) ∧
    DInput (fun _ => True) .div allWide (onType fun _ sg a b _ => quotient sg a b) ∧
    DInput (fun _ => True) .rem allWide (onType fun _ sg a b _ => remainder sg a b) ∧
    DInput (fun _ => True) .min allWide (onType fun _ sg a b _ => if below sg b a then b else a) ∧
    DInput (fun _ => True) .max allWide (onType fun _ sg a b _ => if below sg a b then b else a) ∧
    DInput (fun _ => True) .abs allWide (onType fun _ sg a _ _ => if sg && a.msb then -a else a) ∧
    DInput (fun _ => True) .neg allWide (onType fun _ _ a _ _ => -a) :=
  ⟨dInput_of (f3 0 .zero) (by decide +kernel) trivial,
    dInput_of (f3 0 .zero) (by decide +kernel) trivial,
    dInput_of (f3 0 .zero) (by decide +kernel) trivial,
    dInput_of (f3 0 .zero) (by decide +kernel) trivial,
    dInput_of (f3 0 (.v 10)) (by decide +kernel) trivial,
    dInput_of (f3 0 .zero) (by decide +kernel) trivial,
    dInput_of (f3 0 .zero) (by decide +kernel) trivial,
    dInput_of (f3 0 .zero) (by decide +kernel) trivial,
    dInput_of (f3 0 .zero) (by decide +kernel) trivial,
    dInput_of (f2 0 .zero) (by decide +kernel) trivial,
    dInput_of (f2 0 .zero) (by decide +kernel) trivial⟩

theorem test_logic_and_shifts_inputs :
    DInput (fun _ => True) .and allWide (onType fun _ _ a b _ => a &&& b) ∧
    DInput (fun _ => True) .or allWide (onType fun _ _ a b _ => a ||| b) ∧
    DInput (fun _ => True) .xor allWide (onType fun _ _ a b _ => a ^^^ b) ∧
    DInput (fun _ => True) .andn allWide (onType fun _ _ a b _ => a &&& ~~~b) ∧
    DInput (fun _ => True) .clz allWide (onType fun n _ a _ _ => BitVec.ofNat n (leadingZeros n a)) ∧
    DInput (fun _ => True) .popc allWide (onType fun n _ a _ _ => BitVec.ofNat n (ones n a)) ∧
    DInput (fun _ => True) .brev allWide (onType fun n _ a _ _ => reversed n a) ∧
    DInput (fun _ => True) .shl countNarrow (onShift fun _ _ a k => a <<< k) ∧
    DInput (fun _ => True) .shr countNarrow (onShift fun _ sg a k => if sg then a.sshiftRight k else a >>> k) ∧
    DInput (fun _ => True) .sar countNarrow (onShift fun _ sg a k => if sg then a.sshiftRight k else a >>> k) ∧
    DInput (fun _ => True) .rot countNarrow (onShift fun _ _ a k => a.rotateLeft k) :=
  ⟨dInput_of (f3 9 .zero) (by decide +kernel) trivial,
    dInput_of (f3 9 .zero) (by decide +kernel) trivial,
    dInput_of (f3 9 .zero) (by decide +kernel) trivial,
    dInput_of (f3 9 .zero) (by decide +kernel) trivial,
    dInput_of (f2 9 .zero) (by decide +kernel) trivial,
    dInput_of (f2 9 .zero) (by decide +kernel) trivial,
    dInput_of (f2 9 .zero) (by decide +kernel) trivial,
    dInput_of (f3 0 .zero) (by decide +kernel) trivial,
    dInput_of (f3 3 .zero) (by decide +kernel) trivial,
    dInput_of (f3 0 .zero) (by decide +kernel) trivial,
    dInput_of (f3 9 .zero) (by decide +kernel) trivial⟩

theorem test_fields_addresses_and_copies_inputs :
    DInput (fun _ => True) .bfx (fun f => (decide (wd f = 64), false, false, decide (wd f = 64))) extracted ∧
    DInput (fun _ => True) .bfi (fun f => (decide (wd f = 64), decide (wd f = 64), false, decide (wd f = 64))) inserted ∧
    DInput (fun _ => True) .lea (fun f => (true, decide (f.mod.toNat = 2), false, true)) address ∧
    DInput (fun _ => True) .sel (fun f => (decide (wd f = 64), decide (wd f = 64), false, decide (wd f = 64))) selected ∧
    DInput (fun _ => True) .cvti (fun f => (decide (intWidth (modByte f.c % 8) = 64), false, false, decide (wd f = 64))) converted ∧
    DInput (fun x => queueOf x.f.a = none ∧ queueOf x.f.d = none) .mov (fun f => (decide (f.mod.toNat % 2 = 1), false, false, decide (f.mod.toNat % 2 = 1))) (fun _ _ _ a _ _ => (a, Flags.none)) :=
  ⟨dInput_of (f3 1 .zero) (by decide +kernel) trivial,
    dInput_of (f3 3 (.v 10)) (by decide +kernel) trivial,
    dInput_of (f3 0 (.imm 15)) (by decide +kernel) trivial,
    dInput_of (f3 9 (.p 1)) (by decide +kernel) trivial,
    dInput_of (f2 0 (.imm 23)) (by decide +kernel) trivial,
    dInput_of (f2 8 .zero) (by decide +kernel) (by decide +kernel)⟩

theorem test_float_arithmetic_inputs :
    DInput (fun _ => True) .fadd twoFloats (onFloats faddV) ∧
    DInput (fun _ => True) .fsub twoFloats (onFloats fun g r z a b => faddV g r z a b.negate) ∧
    DInput (fun _ => True) .fmul twoFloats (onFloats fmulV) ∧
    DInput (fun _ => True) .fdiv twoFloats (onFloats fdivV) ∧
    DInput (fun _ => True) .fsqrt twoFloats (onFloats fun g r z a _ => fsqrtV g r z a) ∧
    DInput (fun _ => True) .fma (fun f => (fmtOf (f.mod.toNat % 4) == .f64, fmtOf (f.mod.toNat % 4) == .f64, fmtOf (f.mod.toNat % 4) == .f64, fmtOf (f.mod.toNat % 4) == .f64)) fused ∧
    DInput (fun _ => True) .fmin twoFloats (onFloats fun g _ _ a b => fminmaxV g false a b) ∧
    DInput (fun _ => True) .fmax twoFloats (onFloats fun g _ _ a b => fminmaxV g true a b) ∧
    DInput (fun _ => True) .frnd twoFloats (onFloats fun g r _ a _ => frndV g r a) :=
  ⟨dInput_of (f3 0 (.imm 3)) (by decide +kernel) trivial,
    dInput_of (f3 0 (.imm 3)) (by decide +kernel) trivial,
    dInput_of (f3 0 (.imm 3)) (by decide +kernel) trivial,
    dInput_of (f3 0 (.imm 3)) (by decide +kernel) trivial,
    dInput_of (f2 0 (.imm 3)) (by decide +kernel) trivial,
    dInput_of (f3 0 (.v 10)) (by decide +kernel) trivial,
    dInput_of (f3 0 (.imm 8)) (by decide +kernel) trivial,
    dInput_of (f3 0 (.imm 8)) (by decide +kernel) trivial,
    dInput_of (f2 0 (.imm 3)) (by decide +kernel) trivial⟩

theorem test_special_functions_and_conversions_inputs :
    DInput (fun _ => True) .frcp narrow (special .rcp) ∧
    DInput (fun _ => True) .frsq narrow (special .rsq) ∧
    DInput (fun _ => True) .fexp2 narrow (special .exp2) ∧
    DInput (fun _ => True) .flog2 narrow (special .log2) ∧
    DInput (fun _ => True) .fsin narrow (special .sin) ∧
    DInput (fun _ => True) .fcos narrow (special .cos) ∧
    DInput (fun _ => True) .ftanh narrow (special .tanh) ∧
    DInput (fun _ => True) .cvtf (fun f => (srcFmt f == .f64, false, false, fm f == .f64)) floatToFloat ∧
    DInput (fun _ => True) .cvtfi (fun f => (srcFmt f == .f64, false, false, decide (wd f = 64))) floatToInt ∧
    DInput (fun _ => True) .cvtif (fun f => (decide (intWidth (sfmtOf (modByte f.c)) = 64), false, false, fm f == .f64)) intToFloat ∧
    DInput (fun _ => True) .bscale narrow scaled ∧
    DInput (fun _ => True) .dot4 (fun f => (decide (f.mod.toNat ≤ 3), decide (f.mod.toNat ≤ 3), false, false)) dotted :=
  ⟨dInput_of (f2 1 (.imm 8)) (by decide +kernel) trivial,
    dInput_of (f2 1 (.imm 8)) (by decide +kernel) trivial,
    dInput_of (f2 1 (.imm 8)) (by decide +kernel) trivial,
    dInput_of (f2 1 (.imm 8)) (by decide +kernel) trivial,
    dInput_of (f2 1 (.imm 8)) (by decide +kernel) trivial,
    dInput_of (f2 1 (.imm 8)) (by decide +kernel) trivial,
    dInput_of (f2 1 (.imm 8)) (by decide +kernel) trivial,
    dInput_of (f2 1 (.imm 0)) (by decide +kernel) trivial,
    dInput_of (f2 0 (.imm 3)) (by decide +kernel) trivial,
    dInput_of (f2 0 (.imm 3)) (by decide +kernel) trivial,
    dInput_of (f3 8 .zero) (by decide +kernel) trivial,
    dInput_of (f3 6 (.v 10)) (by decide +kernel) trivial⟩

end Sys2Proof.Tests
end

