-- ==== Sys2Proof/Tests/Lanes.lean ====
section
/-!
SUPPORT. States and operands that meet all hypotheses of the statements about predicates, carries, lanes and paired words.
-/

set_option Elab.async false
namespace Sys2Proof.Tests

open Machine Safety

/-- Predicate results. -/
def PInput (g : GuardKind) (m : Mnem) (wide : Fields → Bool × Bool) : Prop :=
  ∃ (s : State) (f : Fields) (x : Ctx) (v : Vals), Runs s m f g x ∧ Unwatched x ∧
    readAll x (wide f).1 (wide f).2 false = .ok v

theorem pInput_of {g : GuardKind} {m : Mnem} {wide : Fields → Bool × Bool} (f : Fields)
    (h : (runsB alu m f g && okB (readAll (ctxOf alu m f g) (wide f).1 (wide f).2 false)) = true) : PInput g m wide := by
  simp only [Bool.and_eq_true] at h
  obtain ⟨v, hv⟩ := ok_some h.2
  have hl : (ctxOf alu m f g).w.level = 3 := by
    have := (runs_of h.1).weft
    have e : getWeft alu (ctxOf alu m f g).c.w = getWeft alu wid := rfl
    have e2 : getWeft alu wid = some (alu.wefts.headD weft) := by decide +kernel
    rw [e, e2] at this
    rw [← Option.some.inj this]; decide +kernel
  have hs : (ctxOf alu m f g).w.stepping = none := by
    have := (runs_of h.1).weft
    have e : getWeft alu (ctxOf alu m f g).c.w = getWeft alu wid := rfl
    have e2 : getWeft alu wid = some (alu.wefts.headD weft) := by decide +kernel
    rw [e, e2] at this
    rw [← Option.some.inj this]; decide +kernel
  exact ⟨alu, f, _, v, runs_of h.1, ⟨hs, .inl (by rw [hl]; decide)⟩, hv⟩

theorem test_predicate_results_inputs :
    PInput .auto .cmp (fun f => (decide (wd f = 64), decide (wd f = 64))) ∧ PInput .lanes .pset (fun _ => (false, false)) ∧
    PInput .auto .fcmp (fun f => (fm f == .f64, fm f == .f64)) ∧ PInput .auto .fclass (fun f => (fm f == .f64, false)) :=
  ⟨pInput_of (plain 1 9 (.p 6) (.v 4) (.v 6) (.imm 5)) (by decide +kernel),
    pInput_of (plain 1 0 (.p 0) (.p 1) (.zero) (.imm 4)) (by decide +kernel),
    pInput_of (plain 1 1 (.p 7) (.v 4) (.v 6) (.imm 13)) (by decide +kernel),
    pInput_of (plain 1 0 (.p 1) (.v 4) .zero (.imm 0xFF)) (by decide +kernel)⟩

/-- The values that ADDC or SUBB writes. -/
def carried (add : Bool) (x : Ctx) (v : Vals) : List Word64 :=
  let n := wd x.f
  lanes16.map fun l =>
    let k : BitVec n := if (v.c.getD l 0).getLsbD (if x.scalar then lowest x.act else l) then 1 else 0
    ext n (sg x.f) (if add then cut n (v.a.getD l 0) + cut n (v.b.getD l 0) + k else cut n (v.a.getD l 0) - cut n (v.b.getD l 0) - k)

theorem test_carry_chains_inputs : ∀ add : Bool, ∃ (s : State) (f : Fields) (x : Ctx),
    Runs s (if add then .addc else .subb) f .auto x ∧ Unwatched x ∧
    ∃ v, readAll x (decide (wd f = 64)) (decide (wd f = 64)) false = .ok v ∧
      ∃ s', writeRes v.x (decide (wd f = 64)) (carried add x v) (mnemLatency x.m f) id = .ok s' := by
  intro add
  refine ⟨alu, plain 1 1 (.v 2) (.v 4) (.v 6) (.p 1), ctxOf alu (if add then .addc else .subb) (plain 1 1 (.v 2) (.v 4) (.v 6) (.p 1)) .auto, ?_⟩
  cases add <;> exact ⟨runs_of (by decide +kernel), unwatched_of (by decide +kernel),
    ok_and ⟨ctxOf alu .addc (plain 1 1 (.v 2) (.v 4) (.v 6) (.p 1)) .auto, [], [], []⟩ (by decide +kernel) (ok_some (by decide +kernel))⟩

/-- Lane-crossing instructions. -/
def RowInput (m : Mnem) (wa wd_ : Fields → Bool) (use : Fields → Ctx → Mask)
    (val : Fields → Ctx → List Word64 → List Word64 → Nat → Word64)
    (fl : Fields → Ctx → List Word64 → List Word64 → Flags) : Prop :=
  ∃ (s : State) (f : Fields) (x : Ctx), Runs s m f .auto x ∧ Unwatched x ∧
    ∃ y, popSources x = .ok y ∧ ∃ a, readVals y .a f.a (wa f) (use f x) = .ok a ∧ ∃ b, rd y .b false = .ok b ∧
      CanWrite y none (wd_ f) (lanes16.map (val f x a b)) fun w => orFpst w (fl f x a b)

/-- The hypotheses as a Bool, for a unit of the state alu. -/
def rowB (m : Mnem) (f : Fields) (wa wd_ : Fields → Bool) (use : Fields → Ctx → Mask)
    (val : Fields → Ctx → List Word64 → List Word64 → Nat → Word64) (fl : Fields → Ctx → List Word64 → List Word64 → Flags) : Bool :=
  let x := ctxOf alu m f .auto
  runsB alu m f .auto && decide (x.w.stepping = none ∧ (x.w.level ≠ 0 ∨ x.p.debug = [])) &&
    (match popSources x with
     | .ok y =>
       match readVals y .a f.a (wa f) (use f x), rd y .b false with
       | .ok a, .ok b => okB (writeRes y (wd_ f) (lanes16.map (val f x a b)) none fun w => orFpst w (fl f x a b))
       | _, _ => false
     | .error _ => false)

theorem row_of {m : Mnem} {wa wd_ : Fields → Bool} {use : Fields → Ctx → Mask}
    {val : Fields → Ctx → List Word64 → List Word64 → Nat → Word64}
    {fl : Fields → Ctx → List Word64 → List Word64 → Flags} (f : Fields) (h : rowB m f wa wd_ use val fl = true) :
    RowInput m wa wd_ use val fl := by
  simp only [rowB, Bool.and_eq_true, decide_eq_true_eq] at h
  obtain ⟨⟨h1, h2⟩, h3⟩ := h
  cases hy : popSources (ctxOf alu m f .auto) with
  | error e => simp [hy] at h3
  | ok y =>
    simp only [hy] at h3
    cases ha : readVals y .a f.a (wa f) (use f (ctxOf alu m f .auto)) with
    | error e => simp [ha] at h3
    | ok a =>
      cases hb : rd y .b false with
      | error e => simp [ha, hb] at h3
      | ok b =>
        simp only [ha, hb] at h3
        exact ⟨alu, f, _, runs_of h1, ⟨h2.1, h2.2⟩, y, hy, a, ha, b, hb, ok_some h3⟩

theorem test_lane_operations_inputs :
    RowInput .shfl (fun f => decide (f.mod.toNat = 9)) (fun f => decide (f.mod.toNat = 9)) everyLane
      (fun f x a b l => readLane x a (shuffled (modByte f.c % 4) (modByte f.c / 4) l ((b.getD l 0).setWidth 32 : Word32).toNat)) (fun _ _ _ _ => Flags.none) ∧
    RowInput .bcast (fun f => decide (f.mod.toNat = 9)) (fun f => decide (f.mod.toNat = 9)) everyLane
      (fun _ x a b _ => readLane x a ((b.getD (lowest x.act) 0).toNat % 16)) (fun _ _ _ _ => Flags.none) ∧
    RowInput .scan (fun f => wideT .scan f) (fun f => wideT .scan f) everyLane scanned (reduceFlags true) ∧
    RowInput .wred (fun f => wideT .wred f) (fun f => wideT .wred f) everyLane wholeReduced (reduceFlags false) ∧
    RowInput .matchLanes (fun f => decide (f.mod.toNat = 9)) (fun _ => false) everyLane matched (fun _ _ _ _ => Flags.none) ∧
    RowInput .bsunpk (fun _ => false) (fun f => !decide (f.mod.toNat = 7)) rowLanes unpacked unpackedFlags :=
  ⟨row_of (plain 1 9 (.v 2) (.v 4) (.v 6) (.imm 15)) (by decide +kernel), row_of (plain 1 8 (.s 2) (.v 4) (.imm 15) .zero) (by decide +kernel),
    row_of (plain 1 0 (.v 2) (.v 4) .zero (.imm 0x18)) (by decide +kernel), row_of (plain 1 0 (.s 2) (.v 4) .zero (.imm 0x12)) (by decide +kernel),
    row_of (plain 1 9 (.v 2) (.v 4) .zero .zero) (by decide +kernel), row_of (plain 1 8 (.v 2) (.v 4) (.v 6) .zero) (by decide +kernel)⟩

theorem test_bspack_inputs : ∃ (s : State) (f : Fields) (x : Ctx), Runs s .bspack f .lanes x ∧ Unwatched x ∧
    ∃ v, readAll x (decide (f.mod.toNat % 2 = 0)) false false = .ok v ∧
      (let bs := packedBlocks f x (codeIn .bf16 (v.b.getD (lowest x.act) 0)) v.a v.c
       CanWrite { v.x with act := allLanes x.w } none false (lanes16.map (packedRow bs))
         fun w => orFpst w (bs.foldl (fun g b => g.or b.2.2) Flags.none)) :=
  let f := plain 1 8 (.v 2) (.v 4) (.s 1) .zero
  ⟨alu, f, ctxOf alu .bspack f .lanes, runs_of (by decide +kernel), unwatched_of (by decide +kernel),
    ok_and ⟨ctxOf alu .bspack f .lanes, [], [], []⟩ (by decide +kernel) (ok_some (by decide +kernel))⟩

theorem test_vote_inputs :
    (∃ (s : State) (f : Fields) (x : Ctx), Runs s .vote f (if kindOf f.d = .p then .lanes else .auto) x ∧ Unwatched x ∧
      ∃ a, rd x .a false = .ok a ∧ modByte f.c = 3 ∧
        CanWrite x none false (splat ((ofBits 16 fun l => x.act.getLsbD l && (a.getD 0 0).getLsbD l).setWidth 64)) id) ∧
    ∃ (s : State) (f : Fields) (x : Ctx), Runs s .vote f (if kindOf f.d = .p then .lanes else .auto) x ∧ Unwatched x ∧
      ∃ a, rd x .a false = .ok a ∧ modByte f.c ≠ 3 :=
  let f := plain 1 0 (.s 2) (.p 1) .zero (.imm 3)
  let g := plain 1 0 (.p 6) (.p 1) .zero (.imm 2)
  ⟨⟨alu, f, ctxOf alu .vote f .auto, runs_of (by decide +kernel), unwatched_of (by decide +kernel),
      ok_and [] (by decide +kernel) ⟨by decide +kernel, ok_some (by decide +kernel)⟩⟩,
    alu, g, ctxOf alu .vote g .lanes, runs_of (by decide +kernel), unwatched_of (by decide +kernel),
      ok_and [] (by decide +kernel) (by decide +kernel)⟩

theorem test_shapeq_inputs : ∃ (s : State) (f : Fields) (x : Ctx) (n : VecNo), Runs s .shapeq f .auto x ∧ Unwatched x ∧
    f.a = .v n ∧ ∃ r, readReg s x.w x.b x.pre (.v n.val) (allLanes x.w) = .ok r ∧
      CanWrite x none false (splat (shapeAnswer r)) id :=
  let f := plain 1 0 (.v 2) (.v 255) .zero .zero
  ⟨alu, f, ctxOf alu .shapeq f .auto, 255, runs_of (by decide +kernel), unwatched_of (by decide +kernel), rfl,
    ok_and (.val .u []) (by decide +kernel) (ok_some (by decide +kernel))⟩

theorem test_paired_words_inputs : ∃ (s : State) (sx sy : Slot) (x : Ctx) (mx my : Mask) (dx ax dy ay : List Word32),
    Issued s x ∧ Unwatched x ∧ usesQueue x.f = false ∧ pairOk sx sy = true ∧
    SlotRead x false sx mx dx ax ∧ SlotRead x true sy my dy ay ∧
    ∃ s', (pairedOut sx sy s x.w x.p x.b).2 = Out.step s' := by
  let sx : Slot := ⟨.addI32, 1, 4, .v 5⟩
  let sy : Slot := ⟨.fmulF32, 7, 5, .v 6⟩
  let x := ctxOf alu .nop (plain 0 0 .zero .zero .zero .zero) .lanes
  have hread : ∀ (y : Bool) (t : Slot), (t = sx ∨ t = sy) → (match readPred x.s x.w x.b 0 t.gp.val with
      | .ok p => okB (readLanes x.s x.w x.b 0 (.v t.d.val) (x.b.mask &&& p)) && okB (slotSrc x.s x.w x.b y t.pop (x.b.mask &&& p) t.a)
      | .error _ => false) = true := by
    intro y t h; rcases h with h | h <;> subst h <;> cases y <;> decide +kernel
  have slot : ∀ (y : Bool) (t : Slot), (t = sx ∨ t = sy) → ∃ m d a, SlotRead x y t m d a := by
    intro y t h
    have := hread y t h
    cases hp : readPred x.s x.w x.b 0 t.gp.val with
    | error e => simp [hp] at this
    | ok p =>
      simp only [hp, Bool.and_eq_true] at this
      exact ⟨_, _, _, p, hp, rfl, fun _ => ⟨ok_val (d := []) this.1, ok_val (d := []) this.2⟩⟩
  obtain ⟨mx, dx, ax, h1⟩ := slot false sx (.inl rfl)
  obtain ⟨my, dy, ay, h2⟩ := slot true sy (.inr rfl)
  have h3 : (match (pairedOut sx sy alu x.w x.p x.b).2 with | .ok o => decide (o.fin = .next) && o.touches.isEmpty | .error _ => false) = true := by
    decide +kernel
  refine ⟨alu, sx, sy, x, mx, my, dx, ax, dy, ay, issued_of (by decide +kernel), unwatched_of (by decide +kernel), by decide +kernel,
    by decide +kernel, h1, h2, ?_⟩
  cases ho : (pairedOut sx sy alu x.w x.p x.b).2 with
  | error e => simp [ho] at h3
  | ok o =>
    simp only [ho, Bool.and_eq_true, decide_eq_true_eq, List.isEmpty_iff] at h3
    obtain ⟨t, f, ts⟩ := o
    simp only at h3
    exact ⟨t, by rw [h3.1, h3.2]; rfl⟩

end Sys2Proof.Tests
end

