-- ==== Sys2Proof/Tests/Control.lean ====
section
/-!
SUPPORT. States and operands that meet all hypotheses of the statements about control, scheduling, reforms and scratchpads.
-/

set_option Elab.async false
namespace Sys2Proof.Tests

open Machine Safety

/-- Several decidable claims before another one. -/
theorem and2 {p q r : Prop} (h : p ∧ q) (k : r) : p ∧ q ∧ r := ⟨h.1, h.2, k⟩
theorem and3 {p q r s : Prop} (h : p ∧ q ∧ r) (k : s) : p ∧ q ∧ r ∧ s := ⟨h.1, h.2.1, h.2.2, k⟩
theorem and4 {p q r s t : Prop} (h : p ∧ q ∧ r ∧ s) (k : t) : p ∧ q ∧ r ∧ s ∧ t := ⟨h.1, h.2.1, h.2.2.1, h.2.2.2, k⟩

/-- A word without operands; one with an A, or a D and an A. -/
def f0 : Fields := plain 1 0 .zero .zero .zero .zero
def fA (mod : BitVec 4) (a : Operand) : Fields := plain 1 mod .zero a .zero .zero
def fDA (mod : BitVec 4) (d a : Operand) : Fields := plain 1 mod d a .zero .zero

/-- The weft of alu in two sub-wefts of eight threads. -/
def twoSubs : State := onW (fun w => { w with subs := [⟨0x1000, 0x00FF, none, .none⟩, ⟨0x2000, 0xFF00, none, .none⟩] }) alu

theorem test_bra_inputs : ∃ (s : State) (f : Fields) (x : Ctx), Runs s .bra f .lanes x ∧ Unwatched x ∧
    ∃ off, rd1 x .a false = .ok off ∧ GoodTarget (relative x off) :=
  let f : Fields := { plain 1 0 .zero (.imm (-1)) .zero (.imm 9) with guard := ⟨true, 1⟩ }
  ⟨alu, f, ctxOf alu .bra f .lanes, runs_of (by decide +kernel), unwatched_of (by decide +kernel),
    ok_and 0 (by decide +kernel) ⟨by decide +kernel, by decide +kernel⟩⟩

theorem test_indirect_transfer_inputs :
    (∃ (s : State) (f : Fields) (x : Ctx), Runs s .brx f .once x ∧ Unwatched x ∧
      ∃ vs, rd x .a true = .ok vs ∧ ∀ l ∈ lanesOf x.b.mask, GoodTarget (vs.getD l 0)) ∧
    (∃ (s : State) (f : Fields) (x : Ctx), Runs s .ret f .once x ∧ Unwatched x ∧
      ∃ vs, rd x .a true = .ok vs ∧ ∀ l ∈ lanesOf x.b.mask, GoodTarget (vs.getD l 0)) ∧
    ∃ (s : State) (f : Fields) (x : Ctx), Runs s .callx f .once x ∧ Unwatched x ∧
      (∃ vs, rd x .a true = .ok vs ∧ ∀ l ∈ lanesOf x.b.mask, GoodTarget (vs.getD l 0)) ∧
      CanWrite x none true (splat (nextPc x)) id :=
  let b : Fields := plain 1 0 .zero (.s 0) .zero (.imm (-1))
  let r : Fields := fA 0 (.s 0)
  let c : Fields := fDA 0 (.s 2) (.s 0)
  ⟨⟨alu, b, ctxOf alu .brx b .once, runs_of (by decide +kernel), unwatched_of (by decide +kernel),
      ok_and [] (by decide +kernel) (by unfold GoodTarget; decide +kernel)⟩,
    ⟨alu, r, ctxOf alu .ret r .once, runs_of (by decide +kernel), unwatched_of (by decide +kernel),
      ok_and [] (by decide +kernel) (by unfold GoodTarget; decide +kernel)⟩,
    alu, c, ctxOf alu .callx c .once, runs_of (by decide +kernel), unwatched_of (by decide +kernel),
      ok_and [] (by decide +kernel) (by unfold GoodTarget; decide +kernel), ok_some (by decide +kernel)⟩

theorem test_call_inputs : ∃ (s : State) (f : Fields) (x : Ctx), Runs s .call f .once x ∧ Unwatched x ∧
    (∃ off, rd1 x .a false = .ok off ∧ GoodTarget (relative x off)) ∧ CanWrite x none true (splat (nextPc x)) id :=
  let f : Fields := fDA 0 (.s 2) (.imm 0x3F)
  ⟨alu, f, ctxOf alu .call f .once, runs_of (by decide +kernel), unwatched_of (by decide +kernel),
    ok_and 0 (by decide +kernel) ⟨by decide +kernel, by decide +kernel⟩, ok_some (by decide +kernel)⟩

/-- LOOP at the last count, where it goes on, and at 0, where it wraps. -/
theorem test_loop_inputs : ∀ k ∈ [0, 1], ∃ (s : State) (f : Fields) (x : Ctx), Runs s .loop f .once x ∧ Unwatched x ∧
    ∃ vs, readVals x .a f.d false x.act = .ok vs ∧ (vs.getD 0 0 = BitVec.ofNat 64 k) ∧ ∃ off, rd1 x .a false = .ok off ∧
      ((vs.getD 0 0).setWidth 32 - 1 ≠ (0 : Word32) → GoodTarget (relative x off)) ∧
      CanWrite x none false (splat (((vs.getD 0 0).setWidth 32 - 1 : Word32).setWidth 64)) id := by
  intro k hk
  refine ⟨onW (scal 5 k) alu, fDA 0 (.s 5) (.imm (-1)), ctxOf (onW (scal 5 k) alu) .loop (fDA 0 (.s 5) (.imm (-1))) .once, ?_⟩
  simp only [List.mem_cons, List.not_mem_nil, or_false] at hk
  rcases hk with h | h <;> subst h <;>
  exact ⟨runs_of (by decide +kernel), unwatched_of (by decide +kernel), ok_and [] (by decide +kernel) ⟨by decide +kernel,
    ok_and 0 (by decide +kernel) ⟨by unfold GoodTarget; decide +kernel, ok_some (by decide +kernel)⟩⟩⟩

/-- A release boundary that passes at once, as a Bool. -/
def freeB (x : Ctx) (scope : Nat) : Bool :=
  !heldBack x.s x.w x.act scope && (erredOf x.s x.w x.act).isEmpty && !unacked x.s x.w x.act scope && !lostAt x.b

theorem free (x : Ctx) (scope : Nat) (h : freeB x scope = true) : Releases x scope := by
  simp only [freeB, Bool.and_eq_true, Bool.not_eq_true', List.isEmpty_iff] at h
  exact ⟨h.1.1.1, h.1.1.2, h.1.2, h.2⟩

/-- EXIT of some threads, and of all of them. -/
theorem test_exit_inputs :
    (∃ (s : State) (f : Fields) (x : Ctx), Runs s .exit f .lanes x ∧ Unwatched x ∧ Releases x 2 ∧
      ((∃ b ∈ x.w.subs, b.mask &&& x.b.mask = 0 ∧ b.mask ≠ 0) ∨ x.act ≠ x.b.mask)) ∧
    ∃ (s : State) (f : Fields) (x : Ctx), Runs s .exit f .lanes x ∧ Unwatched x ∧ Releases x 2 ∧
      x.act = x.b.mask ∧ ∀ b ∈ x.w.subs, b.mask &&& x.b.mask ≠ 0 :=
  let f : Fields := { f0 with guard := ⟨false, 1⟩ }
  ⟨⟨twoSubs, f, ctxOf twoSubs .exit f .lanes, runs_of (by decide +kernel), unwatched_of (by decide +kernel),
      free _ _ (by decide +kernel), .inl (by decide +kernel)⟩,
    alu, f0, ctxOf alu .exit f0 .lanes, runs_of (by decide +kernel), unwatched_of (by decide +kernel),
      free _ _ (by decide +kernel), by decide +kernel, by decide +kernel⟩

theorem test_scheduling_inputs :
    (∃ (s : State) (f : Fields) (x : Ctx), Runs s .nop f .lanes x ∧ Unwatched x) ∧
    (∃ (s : State) (f : Fields) (x : Ctx), Runs s .yieldWord f .once x ∧ Unwatched x) ∧
    (∃ (s : State) (f : Fields) (x : Ctx), Runs s .split f .once x ∧ Unwatched x ∧ ∃ v, rd1 x .a false = .ok v) ∧
    ∃ (s : State) (f : Fields) (x : Ctx), Runs s .join f .once x ∧ Unwatched x ∧ x.w.subs.length ≤ 1 :=
  ⟨⟨alu, f0, _, runs_of (by decide +kernel), unwatched_of (by decide +kernel)⟩,
    ⟨alu, f0, _, runs_of (by decide +kernel), unwatched_of (by decide +kernel)⟩,
    ⟨alu, fA 0 (.p 1), _, runs_of (by decide +kernel), unwatched_of (by decide +kernel), ok_some (by decide +kernel)⟩,
    alu, f0, ctxOf alu .join f0 .once, runs_of (by decide +kernel), unwatched_of (by decide +kernel), by decide +kernel⟩

/-- The panel of twoSubs may reform. -/
def reformable : State := onP (fun p => { p with m := { p.m with reform := true } }) twoSubs

theorem test_reform_inputs :
    (∃ (s : State) (f : Fields) (x : Ctx), Runs s .reform f .once x ∧ Unwatched x ∧ reformRefused x.w x.p = true) ∧
    ∃ (s : State) (f : Fields) (x : Ctx), Runs s .reform f .once x ∧ Unwatched x ∧ reformRefused x.w x.p = false ∧
      (getCore s x.w.id.core).bins = [] ∧ (∀ l ∈ s.landings, l.w ≠ x.w.id) ∧
      (∃ b ∈ x.w.subs, b.mask ≠ 0 ∧ b.mask &&& x.b.mask = 0) ∧ countLanes x.act < 16 :=
  let f : Fields := plain 1 0 (.p 6) .zero .zero .zero
  ⟨⟨alu, f, ctxOf alu .reform f .once, runs_of (by decide +kernel), unwatched_of (by decide +kernel), by decide +kernel⟩,
    reformable, f, ctxOf reformable .reform f .once, runs_of (by decide +kernel), unwatched_of (by decide +kernel),
      by decide +kernel, by decide +kernel, by decide +kernel, by decide +kernel, by decide +kernel⟩

theorem test_scratchpad_inputs :
    (∃ (s : State) (f : Fields) (x : Ctx), Runs s .lds f .auto x ∧ Unwatched x ∧
      ∃ a, rd x .a false = .ok a ∧ ∃ b, rd x .b false = .ok b ∧ symSlot x (bitOf (modByte f.c) 0) = none ∧
        (∀ l ∈ accLanes x, padAbsent x.p (padAt x (memBytes f.mod.toNat) a b l).1 (padAt x (memBytes f.mod.toNat) a b l).2 = false) ∧
        CanWrite x none (memBytes f.mod.toNat = 8) (spread x (loaded f.mod.toNat) ((accLanes x).map fun l =>
          (l, padNum x.p (padAt x (memBytes f.mod.toNat) a b l).1 (padAt x (memBytes f.mod.toNat) a b l).2 (memBytes f.mod.toNat)))) id) ∧
    ∃ (s : State) (f : Fields) (x : Ctx), Runs s .sts f .auto x ∧ Unwatched x ∧
      ∃ a, rd x .a false = .ok a ∧ ∃ b, rd x .b false = .ok b ∧ ∃ c, rd x .c (memBytes f.mod.toNat = 8) = .ok c ∧
        (∀ l ∈ accLanes x, padOwned x.p (padAt x (memBytes f.mod.toNat) a b l).1 (padAt x (memBytes f.mod.toNat) a b l).2 = false) ∧
        ∀ l ∈ accLanes x, padPends s x.w x.p (padAt x (memBytes f.mod.toNat) a b l).1 (padAt x (memBytes f.mod.toNat) a b l).2
          (memBytes f.mod.toNat) = false :=
  let f : Fields := plain 1 1 (.v 2) (.v 4) (.imm 0xFF) (.imm 0)
  let g : Fields := plain 1 7 .zero (.v 4) (.imm (-1)) (.v 6)
  ⟨⟨alu, f, ctxOf alu .lds f .auto, runs_of (by decide +kernel), unwatched_of (by decide +kernel),
      ok_and [] (by decide +kernel) (ok_and [] (by decide +kernel) ⟨by decide +kernel, by decide +kernel, ok_some (by decide +kernel)⟩)⟩,
    alu, g, ctxOf alu .sts g .auto, runs_of (by decide +kernel), unwatched_of (by decide +kernel),
      ok_and [] (by decide +kernel) (ok_and [] (by decide +kernel) (ok_and [] (by decide +kernel) ⟨by decide +kernel, by decide +kernel⟩))⟩

end Sys2Proof.Tests
end

