-- ==== Sys2Proof/Tests/Memory.lean ====
section
/-!
SUPPORT. States and operands that meet all hypotheses of the statements about memory.
-/

set_option Elab.async false
namespace Sys2Proof.Tests

open Machine Safety

/-- The weft of alu with v20 = 4 times the lane and v22:v23 an address of 8 bytes for each lane; memory holds bytes at 0x1000. -/
def mems : State :=
  { onW (fun w => { w with vregs := tset (tset (tset w.vregs 20 (.val .g (lanes16.map fun l => BitVec.ofNat 32 (4 * l))))
      22 (.val .g (lanes16.map fun l => BitVec.ofNat 32 (0x1000 + 8 * l)))) 23 (.val .u (lanes16.map fun _ => 0)) }) alu with
    mem := (List.range 24).map fun i => (0x1000 + 3 * i, BitVec.ofNat 8 (200 + i)) }

/-- What the statements about accesses ask of a list of accesses, as a Bool. -/
def reachB (x : Ctx) (accs : List LaneAcc) : Bool :=
  x.s.wefts.all (fun w => w.region.isNone) && accs.all fun a =>
    let r := getLine x.s (lineOf (home x a))
    decide (tierOf (home x a) ≠ 3 ∧ copyingAt x.s a.pa = none ∧ lineServes x.s (lineOf (home x a)) (leafCC a.leaf) = true ∧
      (r.shadows = [] ∧ r.gather = [] ∧ r.pend = []) ∧ symPends x.s (fun _ => true) (lineOf (home x a)) = false)

theorem reach_of {x : Ctx} {accs : List LaneAcc} (h : reachB x accs = true) : Reach x accs := by
  simp only [reachB, Bool.and_eq_true, List.all_eq_true, Option.isNone_iff_eq_none, decide_eq_true_eq] at h
  exact ⟨h.1, fun a ha => (h.2 a ha).1, fun a ha => (h.2 a ha).2.1, fun a ha => (h.2 a ha).2.2.1, fun a ha => (h.2 a ha).2.2.2.1, fun a ha => (h.2 a ha).2.2.2.2⟩

def writtenB (x : Ctx) (accs : List LaneAcc) : Bool :=
  accs.all fun a => (match tlbFind x.s x.p.asid x.w.key.part a.va with | some e => bitOf e.leaf 15 | none => false) &&
    decide (dupOf x.s (home x a / 4096) = none ∧ dupOf x.s (a.pa / 4096) = none ∧
      (orderedPart x.s x.w.key.part = true → heldWrites x.s (fun g => g == accAgent x a.lane) = false))

theorem written_of {x : Ctx} {accs : List LaneAcc} (h : writtenB x accs = true) : Written x accs := by
  intro a ha
  have := (List.all_eq_true.mp h) a ha
  simp only [Bool.and_eq_true, decide_eq_true_eq] at this
  refine ⟨?_, this.2⟩
  cases he : tlbFind x.s x.p.asid x.w.key.part a.va with
  | none => simp [he] at this
  | some e => simp only [he] at this; exact ⟨e, rfl, this.1⟩

/-- The number of a reply plays no part in whether D can take it. -/
theorem replyOk_id {x : Ctx} {s : State} {d : Operand} {wide : Bool} {ls ms : List Landing}
    (h : ls.map (fun l => (l.w, l.d, l.wide)) = ms.map fun l => (l.w, l.d, l.wide)) :
    replyOk x s d wide ls = replyOk x s d wide ms := by
  have key : ∀ G : Landing → List Nat, (∀ l m : Landing, l.w = m.w → l.d = m.d → l.wide = m.wide → G l = G m) → ls.map G = ms.map G := by
    intro G hG
    induction ls generalizing ms with
    | nil => cases ms with | nil => rfl | cons _ _ => simp at h
    | cons a t ih =>
      cases ms with
      | nil => simp at h
      | cons b u =>
        simp only [List.map_cons, List.cons.injEq, Prod.mk.injEq] at h ⊢
        exact ⟨hG a b h.1.1 h.1.2.1 h.1.2.2, ih h.2⟩
  have hc : chargeAll { s with landings := s.landings ++ ls } x.w = chargeAll { s with landings := s.landings ++ ms } x.w := by
    unfold chargeAll aimedAt
    simp only [List.flatMap_def, List.map_append]
    rw [key _ (by intro l m e1 e2 e3; rw [e1, e2, e3])]
  unfold replyOk
  simp only [hc]

theorem loadLandings_id (x : Ctx) (s : State) (d : Operand) (wide split : Bool) (accs : List LaneAcc) (vals : List Word64) (a b : Nat) :
    (loadLandings x { s with nextId := a } d wide split accs vals).1.map (fun l => (l.w, l.d, l.wide)) =
      (loadLandings x { s with nextId := b } d wide split accs vals).1.map fun l => (l.w, l.d, l.wide) := by
  unfold loadLandings
  simp only [freshId]
  split <;> simp [mkLanding]

theorem canLand_of {x : Ctx} {wide split : Bool} {accs : List LaneAcc} {vals : List Word64}
    (h : okB (replyOk x x.s x.f.d wide (loadLandings x { x.s with nextId := 0 } x.f.d wide split accs vals).1) = true) :
    CanLand x wide split accs vals :=
  .inr fun id => by rw [replyOk_id (loadLandings_id x x.s x.f.d wide split accs vals id 0)]; exact ok_unit h

/-- LD of sixteen lanes at distinct words, at their last bytes too. -/
theorem test_ld_inputs : ∃ (s : State) (f : Fields) (x : Ctx), Runs s .ld f .auto x ∧ Unwatched x ∧
    ∃ vas, laneAddrs x = .ok vas ∧ symSlot x (bitOf (modByte f.c) 0) = none ∧
      ∃ accs, checkAll x .read 0 (memBytes f.mod.toNat) vas = .ok accs ∧ Reach x accs ∧ Clean x accs (memBytes f.mod.toNat) ∧
        CanLand x (memBytes f.mod.toNat = 8) (bitOf (modByte f.c) 1) accs
          (spread x (loaded f.mod.toNat) (accs.map (reads x (accAgent x) (memBytes f.mod.toNat)))) :=
  let f : Fields := plain 1 1 (.v 2) (.s 0) (.v 20) (.imm 2)
  ⟨mems, f, ctxOf mems .ld f .auto, runs_of (by decide +kernel), unwatched_of (by decide +kernel),
    ok_and [] (by decide +kernel) ⟨by decide +kernel,
      ok_and [] (by decide +kernel) ⟨reach_of (by decide +kernel), by unfold Clean; decide +kernel, canLand_of (by decide +kernel)⟩⟩⟩

/-- The panel of mems with two private words at 0x1800 for its threads. -/
def privs : State := onP (fun p => { p with m := { p.m with pbase := 0x1800, pwords := 2 } }) mems

/-- The value of LDP in a lane. -/
def privVal (x : Ctx) (accs : List LaneAcc) (l : Nat) : Word64 :=
  let part (i : Nat) : Nat :=
    match ((accs.drop (i * countLanes x.act)).take (countLanes x.act)).find? fun a => a.lane == l with
    | some a => (reads x (agentAt x.w false) 4 a).2
    | none => 0
  BitVec.ofNat 64 (part 0 + part 1 * 2 ^ 32)

/-- LDP and STP of the last pair of private words. -/
theorem test_private_word_inputs :
    (∃ (s : State) (f : Fields) (x : Ctx), Runs s .ldp f .lanes x ∧ Unwatched x ∧
      ∃ accs, privAccs x .read (bitOf f.mod.toNat 0) = .ok accs ∧ Reach x accs ∧ Clean x accs 4 ∧
        CanLand x (bitOf f.mod.toNat 0) false accs (lanes16.map (privVal x accs))) ∧
    ∃ (s : State) (f : Fields) (x : Ctx), Runs s .stp f .lanes x ∧ Unwatched x ∧
      ∃ vs, rd x .b (bitOf f.mod.toNat 0) = .ok vs ∧
        ∃ accs, privAccs x .write (bitOf f.mod.toNat 0) = .ok accs ∧ Reach x accs ∧ Written x accs :=
  let f : Fields := plain 1 1 (.v 2) (.imm 0) .zero .zero
  let g : Fields := plain 1 8 .zero (.imm 1) (.v 4) .zero
  ⟨⟨privs, f, ctxOf privs .ldp f .lanes, runs_of (by decide +kernel), unwatched_of (by decide +kernel),
      ok_and [] (by decide +kernel) ⟨reach_of (by decide +kernel), by unfold Clean; decide +kernel, canLand_of (by decide +kernel)⟩⟩,
    privs, g, ctxOf privs .stp g .lanes, runs_of (by decide +kernel), unwatched_of (by decide +kernel),
      ok_and [] (by decide +kernel) (ok_and [] (by decide +kernel) ⟨reach_of (by decide +kernel), written_of (by decide +kernel)⟩)⟩

/-- The access to word j of a tile, and the words that an LDT reads. -/
def tileAcc (accs : List LaneAcc) (j l : Nat) : LaneAcc :=
  match accs.find? fun a => a.lane == l with
  | some a => ⟨l, a.va + 64 * j, a.pa + 64 * j, a.leaf⟩
  | none => ⟨l, 0, 0, 0⟩
def fitsTile (x : Ctx) (s : State) (k n : Nat) (word : Nat → Nat → Nat) : Prop :=
  chargeAll { s with landings := s.landings ++ tileReplies x k n word 0 } x.w ≤ max (chargeAll s x.w) (lineBudget x.p x.w)

/-- LDT of the last registers, and an LDT.aon under an even version. -/
theorem test_ldt_inputs :
    (∃ (s : State) (f : Fields) (x : Ctx), Runs s .ldt f .lanes x ∧ Unwatched x ∧ bitOf f.mod.toNat 2 = false ∧
      ∃ base, rd1 x .a true = .ok base ∧ ∃ accs, checkTile x .read base.toNat (tile f f.d).1 = .ok accs ∧
        Reach x (tileWords accs (tile f f.d).1) ∧ Clean x (tileWords accs (tile f f.d).1) 4 ∧
        dstFree x (.lat false :: (List.range (tile f f.d).1).map fun j => .v ((tile f f.d).2 + j)) = .ok () ∧
        cutSym x.w ((List.range (tile f f.d).1).map fun j => (tile f f.d).2 + j) x.act = .ok () ∧
        fitsTile x s (tile f f.d).2 (tile f f.d).1 fun j l => (reads x (agentAt x.w false) 4 (tileAcc accs j l)).2) ∧
    ∃ (s : State) (f : Fields) (x : Ctx), Runs s .ldt f .lanes x ∧ Unwatched x ∧ bitOf f.mod.toNat 2 = true ∧
      ∃ base, rd1 x .a true = .ok base ∧ ∃ accs, checkTile x .read base.toNat (tile f f.d).1 = .ok accs ∧
        Reach x (tileWords accs (tile f f.d).1) ∧ Clean x (tileWords accs (tile f f.d).1) 4 ∧
        dstFree x (.lat false :: (List.range (tile f f.d).1).map fun j => .v ((tile f f.d).2 + j)) = .ok () ∧
        cutSym x.w ((List.range (tile f f.d).1).map fun j => (tile f f.d).2 + j) x.act = .ok () ∧
        ∃ ver, rd1 x .b true = .ok ver ∧ ∃ va, checkVersion x .read base.toNat (tile f f.d).1 ver.toNat = .ok va ∧
          Reach x [va] ∧ Clean x [va] 4 ∧ mnum s.mem (home x va) 8 % 2 = 0 ∧
          fitsTile x s (tile f f.d).2 (tile f f.d).1 fun j l => mnum s.mem (home x (tileAcc accs j l)) 4 :=
  let f : Fields := plain 1 3 (.v 248) (.s 0) .zero .zero
  let g : Fields := plain 1 4 (.v 2) (.s 0) (.s 2) .zero
  let t : State := onW (fun w => scal 2 0x1040 (scal 3 0 w)) alu
  ⟨⟨mems, f, ctxOf mems .ldt f .lanes, runs_of (by decide +kernel), unwatched_of (by decide +kernel), by decide +kernel,
      ok_and 0 (by decide +kernel) (ok_and [] (by decide +kernel) ⟨reach_of (by decide +kernel), by unfold Clean; decide +kernel,
        ok_unit (by decide +kernel), ok_unit (by decide +kernel), by unfold fitsTile; decide +kernel⟩)⟩,
    t, g, ctxOf t .ldt g .lanes, runs_of (by decide +kernel), unwatched_of (by decide +kernel), by decide +kernel,
      ok_and 0 (by decide +kernel) (ok_and [] (by decide +kernel) ⟨reach_of (by decide +kernel), by unfold Clean; decide +kernel,
        ok_unit (by decide +kernel), ok_unit (by decide +kernel), ok_and 0 (by decide +kernel) (ok_and ⟨0, 0, 0, 0⟩ (by decide +kernel)
          ⟨reach_of (by decide +kernel), by unfold Clean; decide +kernel, by decide +kernel, by unfold fitsTile; decide +kernel⟩)⟩)⟩

/-- The page of mems before its first write: its leaf entry at 0x2000 has D clear. -/
def fresh : State := { mems with tlb := [⟨0, 1, 12, 0, loadLeaf - 2 ^ 15, 0x2000, none⟩] }

theorem test_st_inputs :
    (∃ (s : State) (f : Fields) (x : Ctx), Runs s .st f .auto x ∧ Unwatched x ∧ ∃ vas, laneAddrs x = .ok vas ∧
      ∃ vs, rd x .c (memBytes f.mod.toNat = 8) = .ok vs ∧ ∃ accs, checkAll x .write 0 (memBytes f.mod.toNat) vas = .ok accs ∧
        Reach x accs ∧ Written x accs) ∧
    ∃ (s : State) (f : Fields) (x : Ctx), Runs s .st f .auto x ∧ Unwatched x ∧ ∃ vas, laneAddrs x = .ok vas ∧
      ∃ vs, rd x .c (memBytes f.mod.toNat = 8) = .ok vs ∧ ∃ accs, checkAll x .write 0 (memBytes f.mod.toNat) vas = .ok accs ∧
        Reach x accs ∧ ∃ a, accs = [a] ∧ dupOf s (a.pa / 4096) = none ∧
          (orderedPart s x.w.key.part = true → heldWrites s (fun g => g == accAgent x a.lane) = false) ∧ ∃ e, tlbFind s x.p.asid x.w.key.part a.va = some e ∧ bitOf e.leaf 15 = false :=
  let f : Fields := plain 1 7 .zero (.s 0) (.v 4) (.v 6)
  let g : Fields := plain 1 3 .zero (.s 0) (.imm (-8)) (.s 0)
  let t : State := onW (scal 0 0x2000) { fresh with tlb := [⟨0, 1, 12, 0, loadLeaf - 2 ^ 15, 0x2000, none⟩] }
  ⟨⟨mems, f, ctxOf mems .st f .auto, runs_of (by decide +kernel), unwatched_of (by decide +kernel),
      ok_and [] (by decide +kernel) (ok_and [] (by decide +kernel) (ok_and [] (by decide +kernel)
        ⟨reach_of (by decide +kernel), written_of (by decide +kernel)⟩))⟩,
    t, g, ctxOf t .st g .auto, runs_of (by decide +kernel), unwatched_of (by decide +kernel),
      ok_and [] (by decide +kernel) (ok_and [] (by decide +kernel) (ok_and [] (by decide +kernel)
        ⟨reach_of (by decide +kernel), ⟨0, 0x1FF8, 0x1FF8, loadLeaf - 2 ^ 15⟩, by decide +kernel, by decide +kernel, by decide +kernel,
          some_and ⟨0, 0, 0, 0, 0, 0, none⟩ (by decide +kernel) (by decide +kernel)⟩))⟩

/-- STT, and STT.aon with a version beside the tile. -/
theorem test_stt_inputs :
    (∃ (s : State) (f : Fields) (x : Ctx), Runs s .stt f .lanes x ∧ Unwatched x ∧ bitOf f.mod.toNat 2 = false ∧
      ∃ base, rd1 x .a true = .ok base ∧ ∃ vals, tileVals x (tile f f.c).2 (tile f f.c).1 = .ok vals ∧
        ∃ accs, checkTile x .write base.toNat (tile f f.c).1 = .ok accs ∧
          Reach x (tileWords accs (tile f f.c).1) ∧ Written x (tileWords accs (tile f f.c).1)) ∧
    ∃ (s : State) (f : Fields) (x : Ctx), Runs s .stt f .lanes x ∧ Unwatched x ∧ bitOf f.mod.toNat 2 = true ∧
      ∃ base, rd1 x .a true = .ok base ∧ ∃ vals, tileVals x (tile f f.c).2 (tile f f.c).1 = .ok vals ∧
        ∃ accs, checkTile x .write base.toNat (tile f f.c).1 = .ok accs ∧
          Reach x (tileWords accs (tile f f.c).1) ∧ Written x (tileWords accs (tile f f.c).1) ∧
          ∃ ver, rd1 x .b true = .ok ver ∧ ∃ va, checkVersion x .write base.toNat (tile f f.c).1 ver.toNat = .ok va ∧
            Reach x [va] ∧ Written x [va] :=
  let f : Fields := plain 1 9 .zero (.s 0) .zero (.v 4)
  let g : Fields := plain 1 12 .zero (.s 0) (.s 2) (.v 4)
  let t : State := onW (fun w => scal 2 0x1040 (scal 3 0 w)) mems
  ⟨⟨mems, f, ctxOf mems .stt f .lanes, runs_of (by decide +kernel), unwatched_of (by decide +kernel), by decide +kernel,
      ok_and 0 (by decide +kernel) (ok_and [] (by decide +kernel) (ok_and [] (by decide +kernel)
        ⟨reach_of (by decide +kernel), written_of (by decide +kernel)⟩))⟩,
    t, g, ctxOf t .stt g .lanes, runs_of (by decide +kernel), unwatched_of (by decide +kernel), by decide +kernel,
      ok_and 0 (by decide +kernel) (ok_and [] (by decide +kernel) (ok_and [] (by decide +kernel)
        ⟨reach_of (by decide +kernel), written_of (by decide +kernel), ok_and 0 (by decide +kernel)
          (ok_and ⟨0, 0, 0, 0⟩ (by decide +kernel) ⟨reach_of (by decide +kernel), written_of (by decide +kernel)⟩)⟩))⟩

theorem test_prf_and_cctl_ic_inputs :
    (∃ (s : State) (f : Fields) (x : Ctx), Runs s .prf f .auto x ∧ Unwatched x ∧ ∃ vas, laneAddrs x = .ok vas ∧
      (∀ e ∈ vas, 2 ^ 57 ≤ e.2 ∨ (tlbFind s x.p.asid x.w.key.part e.2).isSome) ∧ ∀ w ∈ s.wefts, w.region = none) ∧
    ∃ (s : State) (f : Fields) (x : Ctx), Runs s .cctlIc f .auto x ∧ Unwatched x ∧ ∃ vas, laneAddrs x = .ok vas ∧
      ∀ e ∈ vas.filterMap fun e => tagLine s x e.2, lineServes s e.1 e.2 = true :=
  let f : Fields := plain 1 0 .zero (.s 0) (.v 20) .zero
  let g : Fields := plain 1 11 .zero (.s 0) (.v 20) .zero
  ⟨⟨mems, f, ctxOf mems .prf f .auto, runs_of (by decide +kernel), unwatched_of (by decide +kernel),
      ok_and [] (by decide +kernel) ⟨by decide +kernel, by decide +kernel⟩⟩,
    mems, g, ctxOf mems .cctlIc g .auto, runs_of (by decide +kernel), unwatched_of (by decide +kernel),
      ok_and [] (by decide +kernel) (by decide +kernel)⟩

/-- A line record with nothing at its home but the copies given. -/
def lineRec (line : Nat) (l1 : Tab Nat CState) (llc : CState) (owner : Option Nat) (fills : List Fill := []) : LineRec :=
  { line := line, home := .stb, owner := owner, sharers := [], remotes := [], overflow := false, masks := [], l1 := l1, llc := llc,
    fills := fills, retain := false, pend := [], open_ := none, pending := [], waiting := [], lost := none, shadows := [], shadowAge := 0, gather := [], gatherAge := 0,
    gatherPart := 0, commits := [], poison := [], part := 0 }

/-- The first line of the page is modified in the core's cache, filled through page 1. -/
def dirty : State := { mems with lines := [lineRec 32 [(0, .m)] .i (some 0) [⟨0, tagOf 0 0 loadLeaf, 1, loadLeaf, false, 0⟩]] }

theorem test_cctl_inputs : ∀ e ∈ [(Mnem.cctlWb, Instr.cctlWb, (8 : BitVec 4)), (.cctlInv, .cctlInv, 9), (.cctlFlush, .cctlFlush, 10)],
    ∃ (s : State) (f : Fields) (x : Ctx), Runs s e.1 f .auto x ∧ Unwatched x ∧ ∃ vas, laneAddrs x = .ok vas ∧
      (e.1 = .cctlWb ∧ e.2.1 = .cctlWb ∨ e.1 = .cctlInv ∧ e.2.1 = .cctlInv ∨ e.1 = .cctlFlush ∧ e.2.1 = .cctlFlush) ∧
      (∀ w ∈ s.wefts, w.region = none) ∧
      (∀ e ∈ vas.filterMap fun e => tagLine s x e.2, lineServes s e.1 e.2 = true ∧ Plain (getLine s e.1) ∧ ∀ c ∈ (getLine s e.1).l1, c.2 = .p → ∃ k ∈ (getLine s e.1).masks, k.1 = c.1) := by
  intro e he
  simp only [List.mem_cons, List.not_mem_nil, or_false] at he
  rcases he with h | h | h <;> subst h
  · exact ⟨dirty, plain 1 8 .zero (.s 0) (.imm 4) .zero, ctxOf dirty .cctlWb (plain 1 8 .zero (.s 0) (.imm 4) .zero) .auto,
      runs_of (by decide +kernel), unwatched_of (by decide +kernel), ok_and [] (by decide +kernel)
        ⟨.inl ⟨rfl, rfl⟩, by decide +kernel, by unfold Plain; decide +kernel⟩⟩
  · exact ⟨dirty, plain 1 9 .zero (.s 0) (.imm 4) .zero, ctxOf dirty .cctlInv (plain 1 9 .zero (.s 0) (.imm 4) .zero) .auto,
      runs_of (by decide +kernel), unwatched_of (by decide +kernel), ok_and [] (by decide +kernel)
        ⟨.inr (.inl ⟨rfl, rfl⟩), by decide +kernel, by unfold Plain; decide +kernel⟩⟩
  · exact ⟨dirty, plain 1 10 .zero (.s 0) (.imm 4) .zero, ctxOf dirty .cctlFlush (plain 1 10 .zero (.s 0) (.imm 4) .zero) .auto,
      runs_of (by decide +kernel), unwatched_of (by decide +kernel), ok_and [] (by decide +kernel)
        ⟨.inr (.inr ⟨rfl, rfl⟩), by decide +kernel, by unfold Plain; decide +kernel⟩⟩

/-- The number of an ATOM's or CAS's reply plays no part in whether D can take it. -/
theorem oldValues_of {x : Ctx} {n : Nat} {accs : List LaneAcc} {vals : List (Nat × Nat)} {wide : Bool}
    (h : okB (replyOk x x.s x.f.d wide (oldValues x n accs vals 0)) = true) (id : Nat) :
    replyOk x x.s x.f.d wide (oldValues x n accs vals id) = .ok () := by
  rw [replyOk_id (ms := oldValues x n accs vals 0) (by unfold oldValues; split <;> simp [mkLanding])]
  exact ok_unit h

/-- ATOM.add of sixteen lanes, and CAS of one. -/
theorem test_atom_and_cas_inputs :
    (∃ (s : State) (f : Fields) (x : Ctx), Runs s .atom f .auto x ∧ Unwatched x ∧ ∃ y, popSources x = .ok y ∧
      ∃ vas, wholeAddrs y = .ok vas ∧ ∃ bs, rd y .b (atomBytes y = 8) = .ok bs ∧ symSlot y (bitOf (modByte f.c) 7) = none ∧
        x.w.lose = none ∧ (∀ l, x.b.hold ≠ .remoteDone l) ∧ (∀ g, addFmt y = some g → shadowed g = false) ∧
        ∃ accs, checkAll y .write (modByte f.c / 16 % 8) (atomBytes y) vas = .ok accs ∧ Reach y accs ∧ Clean y accs (atomBytes y) ∧
          Written y accs ∧ (f.d ≠ .zero → ∀ id, replyOk y s f.d (atomBytes y = 8) (oldValues y (atomBytes y) accs (inTurn y (atomBytes y)
            (fun a old => applied (modByte f.c % 16) f.mod.toNat (atomBytes y) old ((bs.getD a.lane 0).toNat % 2 ^ (8 * atomBytes y))) accs).2 id) = .ok ())) ∧
    ∃ (s : State) (f : Fields) (x : Ctx), Runs s .cas f .auto x ∧ Unwatched x ∧ ∃ y, popSources x = .ok y ∧
      ∃ vas, wholeAddrs y = .ok vas ∧ ∃ bs, rd y .b (bitOf f.mod.toNat 0) = .ok bs ∧
        ∃ cs, rd y .c (bitOf f.mod.toNat 0) = .ok cs ∧ x.w.lose = none ∧ (∀ l, x.b.hold ≠ .remoteDone l) ∧
        ∃ accs, checkAll y .write (f.mod.toNat / 2) (if bitOf f.mod.toNat 0 then 8 else 4) vas = .ok accs ∧ Reach y accs ∧
          Clean y accs (if bitOf f.mod.toNat 0 then 8 else 4) ∧ Written y accs ∧ f.d = .zero := by
  let f : Fields := plain 1 1 (.v 2) (.v 22) (.v 4) (.imm 0x10)
  let g : Fields := plain 1 1 .zero (.s 0) (.s 2) (.s 4)
  let x := ctxOf mems .atom f .auto
  let z := ctxOf mems .cas g .auto
  have hold : ∀ c : Ctx, c.b.hold = .none → ∀ l, c.b.hold ≠ .remoteDone l := fun c h l e => by rw [h] at e; cases e
  constructor
  · refine ⟨mems, f, x, runs_of (by decide +kernel), unwatched_of (by decide +kernel), ok_and x (by decide +kernel) ?_⟩
    refine ok_and [] (by decide +kernel) (ok_and [] (by decide +kernel) ⟨by decide +kernel, by decide +kernel, hold x (by decide +kernel),
      fun q hq => absurd (hq.symm.trans (show addFmt _ = none by decide +kernel)) (by simp), ok_and [] (by decide +kernel) ?_⟩)
    exact ⟨reach_of (by decide +kernel), by unfold Clean; decide +kernel, written_of (by decide +kernel),
      fun _ => oldValues_of (by decide +kernel)⟩
  · refine ⟨mems, g, z, runs_of (by decide +kernel), unwatched_of (by decide +kernel), ok_and z (by decide +kernel) ?_⟩
    refine ok_and [] (by decide +kernel) (ok_and [] (by decide +kernel) (ok_and [] (by decide +kernel)
      ⟨by decide +kernel, hold z (by decide +kernel), ok_and [] (by decide +kernel) ?_⟩))
    exact ⟨reach_of (by decide +kernel), by unfold Clean; decide +kernel, written_of (by decide +kernel), rfl⟩

/-- What the clauses of RED share: its accesses pass their checks and reach their homes. -/
def RedInput (more : State → Fields → Ctx → List LaneAcc → Prop) : Prop :=
  ∃ (s : State) (f : Fields) (x : Ctx), Runs s .red f .auto x ∧ Unwatched x ∧ ∃ y, popSources x = .ok y ∧
    ∃ vas, wholeAddrs y = .ok vas ∧ ∃ bs, rd y .b (atomBytes y = 8) = .ok bs ∧ x.w.lose = none ∧
      ∃ accs, checkAll y .write (modByte f.c / 16 % 8) (atomBytes y) vas = .ok accs ∧ Reach y accs ∧ Written y accs ∧ more s f y accs

/-- RED of the words of mems, where it passes its checks. -/
def redY (f : Fields) : Ctx := okVal (popSources (ctxOf mems .red f .auto)) (ctxOf mems .red f .auto)
def redAccs (f : Fields) : List LaneAcc :=
  okVal (checkAll (redY f) .write (modByte f.c / 16 % 8) (atomBytes (redY f)) (okVal (wholeAddrs (redY f)) [])) []

theorem red_of {more : State → Fields → Ctx → List LaneAcc → Prop} (f : Fields)
    (h : (runsB mems .red f .auto && okB (popSources (ctxOf mems .red f .auto)) && okB (wholeAddrs (redY f)) &&
      okB (rd (redY f) .b (atomBytes (redY f) = 8)) &&
      okB (checkAll (redY f) .write (modByte f.c / 16 % 8) (atomBytes (redY f)) (okVal (wholeAddrs (redY f)) [])) &&
      reachB (redY f) (redAccs f) && writtenB (redY f) (redAccs f)) = true)
    (hu : Unwatched (ctxOf mems .red f .auto)) (hl : (ctxOf mems .red f .auto).w.lose = none)
    (hm : more mems f (redY f) (redAccs f)) : RedInput more := by
  simp only [Bool.and_eq_true] at h
  obtain ⟨⟨⟨⟨⟨⟨h1, h2⟩, h3⟩, h4⟩, h5⟩, h6⟩, h7⟩ := h
  exact ⟨mems, f, _, runs_of h1, hu, redY f, ok_val h2, _, ok_val h3, _, ok_val (d := []) h4, hl, _, ok_val h5, reach_of h6,
    written_of h7, hm⟩

/-- RED of another operation than an add; of an add of FP32; `.det`; and of a shadowed add. -/
theorem test_red_inputs :
    RedInput (fun _ _ y _ => addFmt y = none) ∧
    RedInput (fun s f y accs => ∃ g, addFmt y = some g ∧ shadowed g = false ∧ bitOf (modByte f.c) 7 = false ∧
      (accs.map (home y)).Nodup ∧ MemOk s) ∧
    RedInput (fun s f y accs => ∃ a, accs = [a] ∧ leafCC a.leaf ≠ 0 ∧ (∀ r ∈ s.lines, Plain r) ∧
      bitOf (modByte f.c) 7 = true ∧ ∃ g, addFmt y = some g) ∧
    RedInput (fun s f y accs => ∃ a, accs = [a] ∧ leafCC a.leaf ≠ 0 ∧ (∀ r ∈ s.lines, Plain r) ∧
      bitOf (modByte f.c) 7 = false ∧ ∃ g, addFmt y = some g ∧ shadowed g = true) :=
  ⟨red_of (plain 1 0 .zero (.v 22) (.v 4) (.imm 0x01)) (by decide +kernel) (unwatched_of (by decide +kernel)) (by decide +kernel)
      (by decide +kernel),
    red_of (plain 1 1 .zero (.v 22) (.v 4) (.imm 0x0A)) (by decide +kernel) (unwatched_of (by decide +kernel)) (by decide +kernel)
      (some_and .f32 (by decide +kernel) (by decide +kernel)),
    red_of (plain 1 1 .zero (.s 0) (.s 2) (.imm 0x8A)) (by decide +kernel) (unwatched_of (by decide +kernel)) (by decide +kernel)
      ⟨⟨0, 0x1000, 0x1000, loadLeaf⟩, by decide +kernel, by decide +kernel, by unfold Plain; decide +kernel, by decide +kernel, .f32,
        by decide +kernel⟩,
    red_of (plain 1 3 .zero (.s 0) (.imm 7) (.imm 0x0A)) (by decide +kernel) (unwatched_of (by decide +kernel)) (by decide +kernel)
      ⟨⟨0, 0x1000, 0x1000, loadLeaf⟩, by decide +kernel, by decide +kernel, by unfold Plain; decide +kernel, by decide +kernel, .bf16,
        by decide +kernel, by decide +kernel⟩⟩

end Sys2Proof.Tests
end

