-- ==== Sys2Proof/Tests/Sync.lean ====
section
/-!
SUPPORT. States and operands that meet all hypotheses of the statements about boundaries, barriers, regions, placement and
messages.
-/

set_option Elab.async false
namespace Sys2Proof.Tests

open Machine Safety

/-- PHASE of both kinds at `.sys`. -/
theorem test_phase_inputs : ∃ (s : State) (f : Fields) (x : Ctx), Runs s .phase f .lanes x ∧ Unwatched x ∧
    bitOf f.mod.toNat 0 = true ∧ bitOf f.mod.toNat 1 = true ∧ Releases x (modByte f.c) :=
  let f : Fields := plain 1 3 .zero .zero .zero (.imm 5)
  ⟨mems, f, ctxOf mems .phase f .lanes, runs_of (by decide +kernel), unwatched_of (by decide +kernel), by decide +kernel,
    by decide +kernel, free _ _ (by decide +kernel)⟩

/-- BARI and BARA at the last barrier, EXPECT at both ends. -/
theorem test_bari_inputs : ∀ k ∈ [(1 : Nat), 16384], ∃ (s : State) (f : Fields) (x : Ctx) (b n : Nat), Runs s .bari f .once x ∧
    Unwatched x ∧ num1 x .a = .ok b ∧ num1 x .b = .ok n ∧ b ≤ 15 ∧ 1 ≤ n ∧ n ≤ 16384 ∧ n = k := by
  intro k hk
  simp only [List.mem_cons, List.not_mem_nil, or_false] at hk
  rcases hk with h | h <;> subst h
  · exact ⟨mems, plain 1 0 .zero (.imm 15) (.imm 1) .zero, ctxOf mems .bari (plain 1 0 .zero (.imm 15) (.imm 1) .zero) .once, 15, 1,
      runs_of (by decide +kernel), unwatched_of (by decide +kernel), ok_eq (by decide +kernel), ok_eq (by decide +kernel), by decide +kernel⟩
  · exact ⟨onW (scal 7 16384) mems, plain 1 0 .zero (.imm 15) (.s 7) .zero,
      ctxOf (onW (scal 7 16384) mems) .bari (plain 1 0 .zero (.imm 15) (.s 7) .zero) .once, 15, 16384,
      runs_of (by decide +kernel), unwatched_of (by decide +kernel), ok_eq (by decide +kernel), ok_eq (by decide +kernel), by decide +kernel⟩

theorem test_bara_inputs :
    (∃ (s : State) (f : Fields) (x : Ctx) (b : Nat), Runs s .bara f (if isScalarD f then .once else .lanes) x ∧ Unwatched x ∧
      num1 x .a = .ok b ∧ b ≤ 15 ∧ f.d = .zero) ∧
    ∃ (s : State) (f : Fields) (x : Ctx) (b : Nat), Runs s .bara f (if isScalarD f then .once else .lanes) x ∧ Unwatched x ∧
      num1 x .a = .ok b ∧ b ≤ 15 ∧ f.d ≠ .zero ∧ CanWrite x none false (splat ((getBarrier x.p b).gen.setWidth 64)) id :=
  let f : Fields := plain 1 4 .zero (.imm 0) .zero .zero
  let g : Fields := plain 1 4 (.s 2) (.imm 15) .zero .zero
  ⟨⟨mems, f, ctxOf mems .bara f .lanes, 0, runs_of (by decide +kernel), unwatched_of (by decide +kernel), ok_eq (by decide +kernel),
      by decide +kernel⟩,
    mems, g, ctxOf mems .bara g .once, 15, runs_of (by decide +kernel), unwatched_of (by decide +kernel), ok_eq (by decide +kernel),
      by decide +kernel, by decide +kernel, ok_some (by decide +kernel)⟩

/-- The weft waits at barrier 3 since GEN was 0, and GEN is 1. -/
def waited : State :=
  onP (fun p => { p with barriers := [(3, ⟨32, 0, 1⟩)] })
    (onW (fun w => { w with subs := [⟨0x1000, 0xFFFF, none, .barrier 3 0⟩] }) mems)

theorem test_barw_inputs :
    (∃ (s : State) (f : Fields) (x : Ctx) (b : Nat), Runs s .barw f .lanes x ∧ Unwatched x ∧ num1 x .a = .ok b ∧ b ≤ 15 ∧
      ∃ k g, x.b.hold = .barrier k g ∧ g ≠ (getBarrier x.p b).gen) ∧
    (∃ (s : State) (f : Fields) (x : Ctx) (b : Nat), Runs s .barw f .lanes x ∧ Unwatched x ∧ num1 x .a = .ok b ∧ b ≤ 15 ∧
      (∀ k g, x.b.hold ≠ .barrier k g) ∧ Releases x 2 ∧ (getBarrier x.p b).expect ≤ (getBarrier x.p b).arrived + countLanes x.act) ∧
    ∃ (s : State) (f : Fields) (x : Ctx) (b g : Nat), Runs s .barwNar f .lanes x ∧ Unwatched x ∧ num1 x .a = .ok b ∧ b ≤ 15 ∧
      num1 x .b = .ok g ∧ (getBarrier x.p b).gen.toNat ≠ g :=
  let f : Fields := plain 1 8 .zero (.imm 3) .zero .zero
  let t : State := onP (fun p => { p with barriers := [(3, ⟨16, 0, 7⟩)] }) mems
  let g : Fields := plain 1 9 .zero (.imm 3) (.imm 8) .zero
  ⟨⟨waited, f, ctxOf waited .barw f .lanes, 3, runs_of (by decide +kernel), unwatched_of (by decide +kernel), ok_eq (by decide +kernel),
      by decide +kernel, 3, 0, by decide +kernel, by decide +kernel⟩,
    ⟨t, f, ctxOf t .barw f .lanes, 3, runs_of (by decide +kernel), unwatched_of (by decide +kernel), ok_eq (by decide +kernel),
      by decide +kernel, (fun _ _ h => by rw [show (ctxOf t .barw f .lanes).b.hold = .none by decide +kernel] at h; cases h),
      free _ _ (by decide +kernel), by decide +kernel⟩,
    t, g, ctxOf t .barwNar g .lanes, 3, 8, runs_of (by decide +kernel), unwatched_of (by decide +kernel), ok_eq (by decide +kernel),
      by decide +kernel, ok_eq (by decide +kernel), by decide +kernel⟩

/-- The weft of mems with an open region of domain 1, or as 16 aborts leave it. -/
def region (serial : Bool) (deps : List WId) : Region := ⟨true, serial, 1, 3, 0x1800, [32], [33], [(0x1080, 7)], deps, [], 0⟩
def inRegion (serial : Bool) : State := onW (fun w => { w with rlo := 5, rhi := 9, rstat := 0x120, region := some (region serial []) }) mems
def aborted (n : Nat) : State := onW (fun w => { w with rstat := BitVec.ofNat 32 (256 * n) }) mems

theorem test_arbegin_inputs :
    (∃ (s : State) (f : Fields) (x : Ctx), Runs s .arbegin f .once x ∧ Unwatched x ∧ (∃ off, rd1 x .a false = .ok off) ∧ Joined x ∧
      x.w.region = none ∧ field x.w.rstat.toNat 12 8 = 15) ∧
    (∃ (s : State) (f : Fields) (x : Ctx), Runs s .arbegin f .once x ∧ Unwatched x ∧ (∃ off, rd1 x .a false = .ok off) ∧ Joined x ∧
      x.w.region = none ∧ field x.w.rstat.toNat 12 8 = 16 ∧ x.b.hold ≠ .serialGo ∧ x.b.hold ≠ .serialWait ∧
      (getDom s (partNum x.w.key) (modByte f.c % 16)).slot = none ∧ ∀ w ∈ s.wefts, ∀ b ∈ w.subs, b.hold ≠ .serialWait) ∧
    ∃ (s : State) (f : Fields) (x : Ctx), Runs s .arbegin f .once x ∧ Unwatched x ∧ (∃ off, rd1 x .a false = .ok off) ∧ Joined x ∧
      ∃ q, x.w.region = some q :=
  let f : Fields := plain 1 1 .zero (.imm 0x10) .zero (.imm 0x3F)
  ⟨⟨aborted 15, f, ctxOf (aborted 15) .arbegin f .once, runs_of (by decide +kernel), unwatched_of (by decide +kernel),
      ok_some (by decide +kernel), .inl (by decide +kernel), by decide +kernel⟩,
    ⟨aborted 16, f, ctxOf (aborted 16) .arbegin f .once, runs_of (by decide +kernel), unwatched_of (by decide +kernel),
      ok_some (by decide +kernel), .inl (by decide +kernel), by decide +kernel⟩,
    inRegion false, f, ctxOf (inRegion false) .arbegin f .once, runs_of (by decide +kernel), unwatched_of (by decide +kernel),
      ok_some (by decide +kernel), .inl (by decide +kernel), region false [], by decide +kernel⟩

theorem test_arabort_and_arbnd_inputs :
    (∃ (s : State) (f : Fields) (x : Ctx) (c : Nat), Runs s .arabort f .once x ∧ Unwatched x ∧ num1 x .a = .ok c ∧ x.w.region = none) ∧
    (∃ (s : State) (f : Fields) (x : Ctx) (c : Nat), Runs s .arabort f .once x ∧ Unwatched x ∧ num1 x .a = .ok c ∧ ∃ r, x.w.region = some r) ∧
    (∃ (s : State) (f : Fields) (x : Ctx) (a : Word64), Runs s .arbnd f .once x ∧ Unwatched x ∧ rd1 x .a true = .ok a ∧ x.w.region = none) ∧
    (∃ (s : State) (f : Fields) (x : Ctx) (a : Word64), Runs s .arbnd f .once x ∧ Unwatched x ∧ rd1 x .a true = .ok a ∧
      x.w.region.isSome ∧ bitOf f.mod.toNat 0 = false ∧ a = x.w.rhi) ∧
    ∃ (s : State) (f : Fields) (x : Ctx) (a : Word64), Runs s .arbnd f .once x ∧ Unwatched x ∧ rd1 x .a true = .ok a ∧
      x.w.region.isSome ∧ bitOf f.mod.toNat 0 = false ∧ a = x.w.rhi + 1 :=
  let f : Fields := fA 8 (.imm 0x1F)
  let g : Fields := fA 12 (.imm 9)
  let h : Fields := fA 12 (.imm 10)
  ⟨⟨mems, f, ctxOf mems .arabort f .once, 0x1F, runs_of (by decide +kernel), unwatched_of (by decide +kernel), ok_eq (by decide +kernel), by decide +kernel⟩,
    ⟨inRegion false, f, ctxOf (inRegion false) .arabort f .once, 0x1F, runs_of (by decide +kernel), unwatched_of (by decide +kernel),
      ok_eq (by decide +kernel), region false [], by decide +kernel⟩,
    ⟨mems, g, ctxOf mems .arbnd g .once, 9, runs_of (by decide +kernel), unwatched_of (by decide +kernel), ok_eq (by decide +kernel), by decide +kernel⟩,
    ⟨inRegion false, g, ctxOf (inRegion false) .arbnd g .once, 9, runs_of (by decide +kernel), unwatched_of (by decide +kernel),
      ok_eq (by decide +kernel), by decide +kernel⟩,
    inRegion false, h, ctxOf (inRegion false) .arbnd h .once, 10, runs_of (by decide +kernel), unwatched_of (by decide +kernel),
      ok_eq (by decide +kernel), by decide +kernel⟩

theorem test_arbnd_serial_inputs :
    ∃ (s : State) (f : Fields) (x : Ctx) (a : Word64) (r : Region), Runs s .arbnd f .once x ∧ Unwatched x ∧ rd1 x .a true = .ok a ∧
      x.w.region = some r ∧ r.serial = true ∧ bitOf f.mod.toNat 0 = true ∧ x.w.rlo ≤ x.w.rhi :=
  let g : Fields := fA 13 (.imm 6)
  ⟨inRegion true, g, ctxOf (inRegion true) .arbnd g .once, 6, region true [], runs_of (by decide +kernel), unwatched_of (by decide +kernel),
    ok_eq (by decide +kernel), by decide +kernel⟩

/-- AREND without a region, and with one that may commit. -/
theorem test_arend_inputs :
    (∃ (s : State) (f : Fields) (x : Ctx), Runs s .arend f .once x ∧ Unwatched x ∧ Joined x ∧ x.w.region = none) ∧
    ∃ (s : State) (f : Fields) (x : Ctx) (r : Region) (p : Part), Runs s .arend f .once x ∧ Unwatched x ∧ Joined x ∧
      x.w.region = some r ∧ Releases x 0 ∧ commitReady s r = true ∧ r.versions = [] ∧ MemOk s ∧
      getPart s (partNum x.w.key) = some p ∧ x.w.rlo ≠ BitVec.allOnes 64 ∧
      (∀ c ∈ r.buf, tierOf (redirect s c.1) ≠ 3 ∧ dupOf s (c.1 / 4096) = none) ∧ ∀ l ∈ r.writes, Plain (getLine s l) :=
  let f : Fields := plain 1 4 .zero .zero .zero .zero
  ⟨⟨mems, f, ctxOf mems .arend f .once, runs_of (by decide +kernel), unwatched_of (by decide +kernel), .inl (by decide +kernel), by decide +kernel⟩,
    inRegion true, f, ctxOf (inRegion true) .arend f .once, region true [], loadPart, runs_of (by decide +kernel),
      unwatched_of (by decide +kernel), .inl (by decide +kernel), by decide +kernel, free _ _ (by decide +kernel),
      and3 (by decide +kernel) (and3 (by decide +kernel) (by unfold Plain; decide +kernel))⟩

/-- The page of mems as a tracked one, and as a tracked one without write permission. -/
def tracked : State := { mems with tlb := [⟨0, 1, 12, 0, loadLeaf + 256, 0, none⟩] }
def readOnly : State := { mems with tlb := [⟨0, 1, 12, 0, loadLeaf + 256 - 4, 0, none⟩] }

theorem test_placement_inputs :
    (∃ (s : State) (f : Fields) (x : Ctx), Runs s .pin f .once x ∧ Unwatched x ∧ f.mod.toNat % 4 = 0 ∧
      ∃ ps, pagesFor x false = .ok ps ∧ ps ≠ []) ∧
    (∃ (s : State) (f : Fields) (x : Ctx), Runs s .pin f .once x ∧ Unwatched x ∧ f.mod.toNat % 4 ≠ 0 ∧
      ∃ ps, pagesFor x false = .ok ps ∧ moveForbidden s ps (f.mod.toNat % 4) = none ∧ ∃ p ∈ ps, p.tier ≠ f.mod.toNat % 4) ∧
    (∃ (s : State) (f : Fields) (x : Ctx), Runs s .unpin f .once x ∧ Unwatched x ∧ ∃ ps, pagesFor x false = .ok ps ∧ ps ≠ []) ∧
    (∃ (s : State) (f : Fields) (x : Ctx), Runs s .hint f .once x ∧ Unwatched x ∧ f.mod.toNat % 4 = 3 ∧
      ∃ ps, pagesFor x true = .ok ps ∧ ps ≠ [] ∧ ∀ p ∈ ps, leafW p.e.leaf = false) ∧
    ∃ (s : State) (f : Fields) (x : Ctx), Runs s .hint f .once x ∧ Unwatched x ∧ f.mod.toNat % 4 ≠ 3 ∧
      ∃ ps, pagesFor x true = .ok ps ∧ ps ≠ [] ∧ moveForbidden s ps (f.mod.toNat % 4 + 1) = none := by
  let pg (m : BitVec 4) : Fields := plain 1 m .zero (.s 0) (.imm 64) .zero
  exact ⟨⟨mems, pg 0, ctxOf mems .pin (pg 0) .once, runs_of (by decide +kernel), unwatched_of (by decide +kernel), by decide +kernel,
      ok_and [] (by decide +kernel) (by decide +kernel)⟩,
    ⟨tracked, pg 2, ctxOf tracked .pin (pg 2) .once, runs_of (by decide +kernel), unwatched_of (by decide +kernel), by decide +kernel,
      ok_and [] (by decide +kernel) (by decide +kernel)⟩,
    ⟨mems, pg 4, ctxOf mems .unpin (pg 4) .once, runs_of (by decide +kernel), unwatched_of (by decide +kernel),
      ok_and [] (by decide +kernel) (by decide +kernel)⟩,
    ⟨readOnly, pg 11, ctxOf readOnly .hint (pg 11) .once, runs_of (by decide +kernel), unwatched_of (by decide +kernel), by decide +kernel,
      ok_and [] (by decide +kernel) (by decide +kernel)⟩,
    tracked, pg 10, ctxOf tracked .hint (pg 10) .once, runs_of (by decide +kernel), unwatched_of (by decide +kernel), by decide +kernel,
      ok_and [] (by decide +kernel) (by decide +kernel)⟩

/-- A send descriptor of 2^20 bytes for endpoint 0 of partition 0 of package 1, and a receive descriptor, stand at 0x1000. -/
def sendAt : State :=
  { alu with mem := [(0x1001, 0x18), (0x100D, 0x80), (0x100E, 0x01), (0x1012, 0x10)] }
def postAt : State :=
  onPart (fun p => { p with desc := { p.desc with nep := 1 } }) { alu with mem := [(0x1001, 0x18), (0x100A, 0x10)] }

theorem test_message_inputs :
    (∃ (s : State) (f : Fields) (x : Ctx), Runs s .msend f .once x ∧ Unwatched x ∧ (∃ cq, cqOf x = .ok cq) ∧
      ∃ va, rd1 x .a true = .ok va ∧ ∃ d, readDesc x va.toNat 32 32 = .ok d ∧ (sendDesc d.1).isSome) ∧
    ∃ (s : State) (f : Fields) (x : Ctx) (ep n : Nat) (p : Part), Runs s .mpost f .once x ∧ Unwatched x ∧ (∃ cq, cqOf x = .ok cq) ∧
      num1 x .b = .ok ep ∧ ∃ va, rd1 x .a true = .ok va ∧ ∃ d, readDesc x va.toNat 32 32 = .ok d ∧ x.w.key.part = some n ∧
        getPart d.2 n = some p ∧ field d.1 255 96 = 0 ∧ 1 ≤ field d.1 95 64 ∧ field d.1 95 64 ≤ 2 ^ 20 ∧ ep < p.desc.nep ∧
        (tgetD p.eps ep []).length < 4096 :=
  let f : Fields := fA 0 (.s 0)
  let g : Fields := plain 1 8 .zero (.s 0) (.imm 0) .zero
  ⟨⟨sendAt, f, ctxOf sendAt .msend f .once, runs_of (by decide +kernel), unwatched_of (by decide +kernel), ok_some (by decide +kernel),
      ok_and 0 (by decide +kernel) (ok_and (0, alu) (by decide +kernel) (by decide +kernel))⟩,
    postAt, g, ctxOf postAt .mpost g .once, 0, 0, { loadPart with desc := { loadPart.desc with nep := 1 } }, runs_of (by decide +kernel), unwatched_of (by decide +kernel),
      ok_some (by decide +kernel), ok_eq (by decide +kernel), ok_and 0 (by decide +kernel) (ok_and (0, alu) (by decide +kernel) (by decide +kernel))⟩

end Sys2Proof.Tests
end

