-- ==== Sys2Proof/Tests/Queues.lean ====
section
/-!
SUPPORT. States and operands that meet all hypotheses of the statements about queues, engines' commands and tasks.
-/

set_option Elab.async false
namespace Sys2Proof.Tests

open Machine Safety

/-- Pages 1 to 7 of ASID 0 of partition 0 stand in page tables: one table page at 0x50000 that is its own next level. -/
def withPages (s : State) (pages : List Nat) : State :=
  pages.foldl (fun s n => writeNum s (0x50000 + 8 * n) 8 (2 ^ 18 * n + 0xCE5F))
    (writeNum (writeNum { s with tables := { s.tables with root := 0x40000 } } 0x40000 8 0x50001) 0x50000 8 (2 ^ 18 * 0x50 + 1))

/-- The weft of mems with queues bound to a command queue of each kind, channels, a completion queue and a ready queue. -/
def bound (more : Panel → Panel) : State :=
  onP more (onW (fun w => { w with binds := [(0, ⟨0, 0, 0, false⟩), (1, ⟨1, 0, 0, false⟩), (2, ⟨2, 0, 0, false⟩), (3, ⟨3, 0, 0, false⟩),
    (4, ⟨4, 63, 0, false⟩), (5, ⟨5, 0, 0, false⟩), (6, ⟨6, 1, 0, false⟩), (7, ⟨5, 1, 2, false⟩), (8, ⟨4, 2, 2, false⟩),
    (9, ⟨4, 3, 3, true⟩)] }) mems)

/-- Channel 0 holds two narrow entries, channel 1 one of sixteen lanes, completion queue 0 a record. -/
def filled (p : Panel) : Panel :=
  { p with chans := [(0, ⟨[[5], [6]], false, 1⟩), (1, ⟨[(List.range 16).map (BitVec.ofNat 32)], false, 1⟩)], cqs := [(0, [7])] }

/-- Channel 0 is closed and empty, channel 2 full, channel 3 closed. -/
def shut (p : Panel) : Panel :=
  { p with chans := [(0, ⟨[], true, 1⟩), (2, ⟨(List.range 64).map fun _ => [0], false, 1⟩), (3, ⟨[], true, 1⟩), (63, ⟨[], true, 0⟩)] }

theorem test_binding_inputs :
    (∃ (s : State) (f : Fields) (x : Ctx), Runs s .qbind f .once x ∧ Unwatched x ∧ num1 x .a = .ok 63 ∧
      objectOk x (f.mod.toNat % 8) 63 = true ∧ f.mod.toNat % 8 = 4) ∧
    (∃ (s : State) (f : Fields) (x : Ctx), Runs s .qbind f .once x ∧ Unwatched x ∧ num1 x .a = .ok 0 ∧
      objectOk x (f.mod.toNat % 8) 0 = true ∧ f.mod.toNat % 8 = 0) ∧
    (∃ (s : State) (f : Fields) (x : Ctx), Runs s .qunbind f .once x ∧ Unwatched x ∧
      ∃ b, tget x.w.binds (queueNum f.d) = some b ∧ b.kind = 4) ∧
    (∃ (s : State) (f : Fields) (x : Ctx), Runs s .qstat f .once x ∧ Unwatched x ∧
      CanWrite x none false (splat (BitVec.ofNat 64 (queueWord x (queueNum f.a)))) id) ∧
    (∃ (s : State) (f : Fields) (x : Ctx), Runs s .qclose f .once x ∧ Unwatched x ∧
      ∃ b, tget x.w.binds (queueNum f.a) = some b ∧ b.kind = 4 ∧ (getChan x.p b.obj).closed = false) ∧
    ∃ (s : State) (f : Fields) (x : Ctx), Runs s .qclose f .once x ∧ Unwatched x ∧
      ∃ b, tget x.w.binds (queueNum f.a) = some b ∧ b.kind = 4 ∧ (getChan x.p b.obj).closed = true :=
  ⟨unit_and mems (plain 1 4 (.q 2) (.imm 63) (.imm 1) .zero) (by decide +kernel) ⟨ok_eq (by decide +kernel), by decide +kernel⟩,
    unit_and mems (plain 1 0 (.q 2) (.imm 0) .zero .zero) (by decide +kernel) ⟨ok_eq (by decide +kernel), by decide +kernel⟩,
    unit_and (bound filled) (plain 1 8 (.q 4) .zero .zero .zero) (by decide +kernel) ⟨⟨4, 63, 0, false⟩, by decide +kernel⟩,
    unit_and (bound filled) (plain 1 0 (.s 2) (.q 5) .zero .zero) (by decide +kernel) (ok_some (by decide +kernel)),
    unit_and (bound filled) (plain 1 8 .zero (.q 4) .zero .zero) (by decide +kernel) ⟨⟨4, 63, 0, false⟩, by decide +kernel⟩,
    unit_and (bound shut) (plain 1 8 .zero (.q 4) .zero .zero) (by decide +kernel) ⟨⟨4, 63, 0, false⟩, by decide +kernel⟩⟩

/-- MOV from a channel to a scalar register, from a completion queue to a vector one, and from an empty closed channel. -/
theorem test_pop_inputs :
    (∀ k ∈ [(5 : Nat), 3], ∃ (s : State) (f : Fields) (x : Ctx), Runs s .mov f .auto x ∧ Unwatched x ∧ f.mod.toNat < 10 ∧
      ∃ q nb b, queueOf f.a = some (q, nb) ∧ queueOf f.d = none ∧ tget x.w.binds q = some b ∧ popFits f b = true ∧ b.kind = k ∧
        ∃ e, frontOf x b = some e ∧ CanWrite x none (decide (f.mod.toNat % 2 = 1)) (entryVals (decide (f.mod.toNat % 2 = 1)) e) id) ∧
    ∃ (s : State) (f : Fields) (x : Ctx), Runs s .mov f .auto x ∧ Unwatched x ∧ f.mod.toNat < 10 ∧
      ∃ q b, queueOf f.a = some (q, true) ∧ queueOf f.d = none ∧ tget x.w.binds q = some b ∧ popFits f b = true ∧
        frontOf x b = none ∧ closedQueue x b = true := by
  refine ⟨fun k hk => ?_, unit_and (bound shut) (plain 1 8 (.s 2) (.qnb 5) .zero (.p 3)) (by decide +kernel)
    ⟨by decide +kernel, 5, ⟨5, 0, 0, false⟩, by decide +kernel⟩⟩
  simp only [List.mem_cons, List.not_mem_nil, or_false] at hk
  rcases hk with h | h <;> subst h
  · exact unit_and (bound filled) (plain 1 8 (.s 2) (.q 5) .zero .zero) (by decide +kernel)
      ⟨by decide +kernel, 5, false, ⟨5, 0, 0, false⟩, by decide +kernel, by decide +kernel, by decide +kernel, by decide +kernel,
        by decide +kernel, [5], by decide +kernel, ok_some (by decide +kernel)⟩
  · exact unit_and (bound filled) (plain 1 8 (.v 12) (.qnb 3) .zero (.p 3)) (by decide +kernel)
      ⟨by decide +kernel, 3, true, ⟨3, 0, 0, false⟩, by decide +kernel, by decide +kernel, by decide +kernel, by decide +kernel,
        by decide +kernel, some_and [] (by decide +kernel) (ok_some (by decide +kernel))⟩

/-- MOV to a channel with room, to a full one and to a closed one; and from a channel to a channel. -/
theorem test_push_inputs :
    (∃ (s : State) (f : Fields) (x : Ctx), Runs s .mov f .auto x ∧ Unwatched x ∧ f.mod.toNat < 10 ∧
      ∃ q nb b e, queueOf f.a = none ∧ queueOf f.d = some (q, nb) ∧ tget x.w.binds q = some b ∧ pushFits x b = true ∧
        movEntry x = .ok e ∧ canPush x b.obj = .ok ()) ∧
    (∃ (s : State) (f : Fields) (x : Ctx), Runs s .mov f .auto x ∧ Unwatched x ∧ f.mod.toNat < 10 ∧
      ∃ q b, queueOf f.a = none ∧ queueOf f.d = some (q, true) ∧ tget x.w.binds q = some b ∧ pushFits x b = true ∧
        canPush x b.obj ≠ .ok () ∧ ∃ e, movEntry x = .ok e) ∧
    ∃ (s : State) (f : Fields) (x : Ctx), Runs s .mov f .auto x ∧ Unwatched x ∧ f.mod.toNat < 10 ∧
      ∃ qa qd nb k a d e, queueOf f.a = some (qa, nb) ∧ queueOf f.d = some (qd, k) ∧ tget x.w.binds qa = some a ∧
        tget x.w.binds qd = some d ∧ a.kind = 5 ∧ d.kind = 4 ∧ a.fmt = d.fmt ∧ a.fmt % 2 = f.mod.toNat % 2 ∧
        frontOf x a = some e ∧ canPush x d.obj = .ok () :=
  ⟨unit_and (bound filled) (plain 1 8 (.q 4) (.s 0) .zero .zero) (by decide +kernel)
      ⟨by decide +kernel, 4, false, ⟨4, 63, 0, false⟩, [0x1000], by decide +kernel, by decide +kernel, by decide +kernel, by decide +kernel,
        ok_eq (by decide +kernel), ok_eq (by decide +kernel)⟩,
    unit_and (bound shut) (plain 1 8 (.qnb 8) (.v 20) .zero (.p 3)) (by decide +kernel)
      ⟨by decide +kernel, 8, ⟨4, 2, 2, false⟩, by decide +kernel, by decide +kernel, by decide +kernel, by decide +kernel,
        (fun h => absurd (congrArg okB h) (by decide +kernel)), ok_some (by decide +kernel)⟩,
    unit_and (bound filled) (plain 1 8 (.qnb 8) (.qnb 7) .zero (.p 3)) (by decide +kernel)
      ⟨by decide +kernel, 7, 8, true, true, ⟨5, 1, 2, false⟩, ⟨4, 2, 2, false⟩, (List.range 16).map (BitVec.ofNat 32),
        and4 (by decide +kernel) (and4 (by decide +kernel) ⟨by decide +kernel, ok_eq (by decide +kernel)⟩)⟩⟩

/-- The panel with sixteen scrums of one weft, two accumulator tiles, and a tile owned by the engine. -/
def scrummed (s : State) : State :=
  onP (fun p =>
    let m : Meta := { p.m with scrums := (List.range 16).map fun _ => (0, 1), acc := 64 }
    { p with m := m, parts := p.parts.map fun c => { c with owned := [(0, 9)], absent := [(3, 9)] } }) s

/-- A consistent swatch record in s8 to s11: FP32, 32 rows, K 4, at unit 4,092. -/
def swatchSrc (s : State) : State :=
  onW (fun w => scal 11 0 (scal 10 ((31 * 2 ^ 17 + 3 * 2 ^ 4) % 2 ^ 32) (scal 9 (4092 + 3 * 2 ^ 12 + 1 * 2 ^ 24) (scal 8 0 w)))) s

theorem test_swatch_inputs :
    (∃ (s : State) (f : Fields) (x : Ctx), Runs s .swres f .once x ∧ Unwatched x ∧ ∃ n a b c d, f.b = .s n ∧ scalarAt x n.val = .ok a ∧
      scalarAt x (n.val + 1) = .ok b ∧ scalarAt x (n.val + 2) = .ok c ∧ scalarAt x (n.val + 3) = .ok d ∧
      let u := swatchOf (BitVec.ofNat 128 (a + b * 2 ^ 32 + c * 2 ^ 64 + d * 2 ^ 96) ||| 1)
      swatchOk u = true ∧ ∀ h ∈ heldRanges s x.c.w (modByte f.a) (tget x.w.swatches (modByte f.a)), u.base + u.len < h.1 ∨ h.1 + h.2 ≤ u.base) ∧
    ∃ (s : State) (f : Fields) (x : Ctx), Runs s .swrel f .once x ∧ Unwatched x ∧ ∃ r, tget x.w.swatches (modByte f.a) = some r :=
  ⟨unit_and (swatchSrc mems) (plain 1 0 .zero (.imm 3) (.s 8) .zero) (by decide +kernel)
      ⟨8, 0, 4092 + 3 * 2 ^ 12 + 1 * 2 ^ 24, (31 * 2 ^ 17 + 3 * 2 ^ 4) % 2 ^ 32, 0, by decide +kernel, ok_eq (by decide +kernel),
        ok_eq (by decide +kernel), ok_eq (by decide +kernel), ok_eq (by decide +kernel), by decide +kernel⟩,
    unit_and (onW (fun w => { w with swatches := [(3, 1)] }) mems) (plain 1 8 .zero (.imm 3) .zero .zero) (by decide +kernel)
      ⟨1, by decide +kernel⟩⟩

/-- Slot 15 is pending, slot 2 arrived, slot 0 free. -/
def symSlots : State := onW (fun w => { w with syms := [(15, ⟨1, 0, []⟩), (2, ⟨2, 0, []⟩)] }) mems

theorem test_scrum_and_symbol_inputs :
    (∃ (s : State) (f : Fields) (x : Ctx), Runs s .scrum f .once x ∧ Unwatched x ∧ ∃ k first count, num1 x .a = .ok k ∧
      x.p.m.scrums[k]? = some (first, count) ∧ first ≤ x.w.num ∧ x.w.num < first + count ∧ k ∉ x.p.broken) ∧
    (∃ (s : State) (f : Fields) (x : Ctx), Runs s .scrumLeave f .once x ∧ Unwatched x) ∧
    (∃ (s : State) (f : Fields) (x : Ctx), Runs s .ownq f .once x ∧ Unwatched x ∧ ∃ off, num1 x .a = .ok off ∧
      padOwned x.p (placeOff x.p off 1).1 (placeOff x.p off 1).2 = true ∧ CanWrite x none false (splat 1) id) ∧
    (∃ (s : State) (f : Fields) (x : Ctx), Runs s .ownqW f .once x ∧ Unwatched x ∧ ∃ off, num1 x .a = .ok off ∧
      padOwned x.p (placeOff x.p off 1).1 (placeOff x.p off 1).2 = false ∧ CanWrite x none false (splat 2) id) ∧
    (∃ (s : State) (f : Fields) (x : Ctx), Runs s .symw f .once x ∧ Unwatched x ∧ ∃ k, num1 x .a = .ok k ∧ k ≤ 15 ∧ slotState x.w k = 0) ∧
    (∃ (s : State) (f : Fields) (x : Ctx), Runs s .symwAll f .once x ∧ Unwatched x ∧ ∀ e ∈ x.w.syms, e.2.state ≠ 1) ∧
    ∃ (s : State) (f : Fields) (x : Ctx), Runs s .symq f .once x ∧ Unwatched x ∧ ∃ k, num1 x .a = .ok k ∧ k ≤ 15 ∧
      CanWrite x none false (splat (BitVec.ofNat 64 (symWord x.w k))) id :=
  ⟨unit_and (scrummed mems) (fA 0 (.imm 15)) (by decide +kernel) ⟨15, 0, 1, ok_eq (by decide +kernel), by decide +kernel⟩,
    unit_is mems (fA 1 .zero) (by decide +kernel),
    unit_and (scrummed mems) (fDA 0 (.s 2) (.imm 0)) (by decide +kernel) ⟨0, ok_eq (by decide +kernel), by decide +kernel, ok_some (by decide +kernel)⟩,
    unit_and mems (fDA 1 (.s 2) (.imm 0)) (by decide +kernel) ⟨0, ok_eq (by decide +kernel), by decide +kernel, ok_some (by decide +kernel)⟩,
    unit_and symSlots (fA 0 (.imm 0)) (by decide +kernel) ⟨0, ok_eq (by decide +kernel), by decide +kernel⟩,
    unit_and mems (fA 1 .zero) (by decide +kernel) (by decide +kernel),
    unit_and symSlots (fDA 8 (.s 2) (.imm 15)) (by decide +kernel) ⟨15, ok_eq (by decide +kernel), by decide +kernel, ok_some (by decide +kernel)⟩⟩

end Sys2Proof.Tests
end

