-- ==== Sys2Proof/Tests/Commands.lean ====
section
/-!
SUPPORT. States and operands that meet all hypotheses of the statements about engine commands and task queues.
-/

set_option Elab.async false
namespace Sys2Proof.Tests

open Machine Safety

/-- A state with a number stored at a physical address. -/
def numAt (pa n v : Nat) (s : State) : State := writeNum s pa n v

/-- The weft of bound with 64 tiles; swatches 0 and 1 of FP32, 2 of BF16, each of 32 rows and K 4. -/
def mats : State :=
  onW (fun w => scal 7 (1 + 256 * 31) { w with swatches := [(0, BitVec.ofNat 128 (1 + 3 * 2 ^ 44 + 2 ^ 56 + 3 * 2 ^ 68 + 31 * 2 ^ 81)),
    (1, BitVec.ofNat 128 (1 + 4 * 2 ^ 32 + 3 * 2 ^ 44 + 2 ^ 56 + 3 * 2 ^ 68 + 31 * 2 ^ 81)),
    (2, BitVec.ofNat 128 (1 + 8 * 2 ^ 32 + 2 ^ 44 + 3 * 2 ^ 56 + 3 * 2 ^ 68 + 31 * 2 ^ 81))] })
    (scrummed (bound filled))

/-- What the completion of a command asks beside its own checks. -/
def CanAccept (x : Ctx) (s : State) (c : Cmd) : Prop :=
  engineRoom s x.w.id.core c.engine = true ∧ (taskOf c ≠ 0 → Releases x 4)

def canAcceptB (x : Ctx) (s : State) (c : Cmd) : Bool :=
  engineRoom s x.w.id.core c.engine && (taskOf c == 0 || freeB x 4)

theorem canAccept_of {x : Ctx} {s : State} {c : Cmd} (h : canAcceptB x s c = true) : CanAccept x s c := by
  simp only [canAcceptB, Bool.and_eq_true, Bool.or_eq_true, beq_iff_eq] at h
  exact ⟨h.1, fun ht => free _ _ (h.2.resolve_left ht)⟩

theorem test_product_inputs :
    (∃ (s : State) (f : Fields) (x : Ctx), Runs s .mma f .once x ∧ Unwatched x ∧ bitOf f.mod.toNat 0 = false ∧ modByte f.c < x.p.m.acc ∧
      let op : MatOp := .mma (bitOf f.mod.toNat 1) (tgetD x.w.swatches (modByte f.a) 0) (tgetD x.w.swatches (modByte f.b) 0) (modByte f.c)
      matOk x.p.m.acc op = true ∧ CanAccept x s (matCommand x op)) ∧
    ∃ (s : State) (f : Fields) (x : Ctx), Runs s .mmac f .once x ∧ Unwatched x ∧ bitOf f.mod.toNat 0 = false ∧ modByte f.c < x.p.m.acc ∧
      ∃ g, num1 x .a = .ok g ∧ field g 7 6 = 0 ∧ field g 31 16 = 0 ∧
      let op : MatOp := .mmac (bitOf f.mod.toNat 1) (field g 5 0) (field g 15 8 + 1) (tgetD x.w.swatches (modByte f.b) 0) (modByte f.c)
      matOk x.p.m.acc op = true ∧ CanAccept x s (matCommand x op) :=
  ⟨unit_and mats (plain 1 2 .zero (.imm 0) (.imm 1) (.imm 63)) (by decide +kernel)
      ⟨by decide +kernel, by decide +kernel, by decide +kernel, canAccept_of (by decide +kernel)⟩,
    unit_and mats (plain 1 0 .zero (.s 7) (.imm 2) (.imm 63)) (by decide +kernel)
      ⟨by decide +kernel, by decide +kernel, 7937, ok_eq (by decide +kernel), by decide +kernel, by decide +kernel, by decide +kernel,
        canAccept_of (by decide +kernel)⟩⟩

theorem test_tile_inputs :
    (∃ (s : State) (f : Fields) (x : Ctx), Runs s .aclr f .once x ∧ Unwatched x ∧ ∃ t c, TilesAt x .a t c ∧ CanAccept x s (matCommand x (.aclr t c))) ∧
    (∃ (s : State) (f : Fields) (x : Ctx), Runs s .ald f .once x ∧ Unwatched x ∧ ∃ t c off, TilesAt x .b t c ∧ num1 x .a = .ok off ∧
      CanAccept x s (matCommand x (.ald (BitVec.ofNat 32 off) t c))) ∧
    ∃ (s : State) (f : Fields) (x : Ctx), Runs s .ast f .once x ∧ Unwatched x ∧ ∃ t c off, TilesAt x .b t c ∧ num1 x .a = .ok off ∧
      CanAccept x s (matCommand x (.ast (BitVec.ofNat 32 off) t c)) :=
  ⟨unit_and mats (plain 1 0 .zero (.imm 64) .zero (.imm 0)) (by decide +kernel)
      ⟨0, 64, ⟨by decide +kernel, ok_eq (by decide +kernel), by decide +kernel⟩, canAccept_of (by decide +kernel)⟩,
    unit_and mats (plain 1 4 .zero (.imm 5) (.imm 1) (.imm 63)) (by decide +kernel)
      ⟨63, 1, 5, ⟨by decide +kernel, ok_eq (by decide +kernel), by decide +kernel⟩, ok_eq (by decide +kernel), canAccept_of (by decide +kernel)⟩,
    unit_and mats (plain 1 8 .zero (.imm 0) (.imm 2) (.imm 62)) (by decide +kernel)
      ⟨62, 2, 0, ⟨by decide +kernel, ok_eq (by decide +kernel), by decide +kernel⟩, ok_eq (by decide +kernel), canAccept_of (by decide +kernel)⟩⟩

/-- A drain of one FP32 element to 0x1FFC with a TASK. -/
def drains : State := numAt 0x1000 32 (0x1FFC + 0x1040 * 2 ^ 128) { mats with mem := [] }

theorem test_drain_inputs : ∃ (s : State) (f : Fields) (x : Ctx), Runs s .adrain f .once x ∧ Unwatched x ∧ modByte f.c < x.p.m.acc ∧
    ∃ cq, cqOf x = .ok cq ∧ ∃ va, rd1 x .a true = .ok va ∧ ∃ d, readDesc x va.toNat 32 32 = .ok d ∧
      drainOk (drainOf d.1) (modByte f.c) x.p.m.acc = true ∧
      CanAccept x d.2 (descCommand x .matrix va.toNat 32 d.1 cq (some (.drain (modByte f.c)))) :=
  unit_and drains (plain 1 12 (.q 3) (.s 0) .zero (.imm 63)) (by decide +kernel)
    ⟨by decide +kernel, some 0, ok_eq (by decide +kernel), 0x1000, ok_eq (by decide +kernel),
      ok_and (0, alu) (by decide +kernel) ⟨by decide +kernel, canAccept_of (by decide +kernel)⟩⟩

/-- The weft in scrum 0, alone or with weft 1 that has arrived. -/
def scrums (n : Nat) : State :=
  onP (fun p =>
    let m : Meta := { p.m with scrums := [(0, n)] }
    { p with m := m, latches := if n = 2 then [⟨0, 0x1000, [1]⟩] else [] })
    (onW (fun w => { w with scrum := BitVec.ofNat 32 (2 ^ 20 + n * 2 ^ 10) }) mats)

/-- Two members of scrum 0, the other of which waits at the latch. -/
def scrumPair : State :=
  { scrums 2 with wefts := (scrums 2).wefts ++ [{ launchWeft ⟨0, 1⟩ 1 key 1 1 3 0xFFFF 0x1000 with
      scrum := BitVec.ofNat 32 (2 ^ 20 + 2 * 2 ^ 10), subs := [⟨0x1000, 0xFFFF, some .scrum, .scrum 0⟩] }] }

/-- A latch of three members of which one, or two, have arrived. -/
def scrumOpen : State := onP (fun p =>
    let m : Meta := { p.m with scrums := [(0, 3)] }
    { p with m := m }) scrumPair

theorem test_scrum_product_inputs :
    (∀ y ∈ [(scrums 1, 1), (scrumPair, 2)], ∃ (s : State) (f : Fields) (x : Ctx), Runs s .mma f .once x ∧ Unwatched x ∧
      bitOf f.mod.toNat 0 = true ∧ (∀ c, x.b.hold ≠ .scrumFault c) ∧ scrumOf x.w = some 0 ∧ 0 ∉ x.p.broken ∧
      let latch := (x.p.latches.find? fun l => l.entry == 0).getD ⟨0, x.c.pc, []⟩
      let ms := arrivedMembers x 0
      latch.pc = x.c.pc ∧ x.p.m.scrums[0]? = some (0, y.2) ∧ ¬ (addOnce latch.members x.w.num).length < y.2 ∧ x.p.debug = [] ∧
      (∀ m ∈ ms, m.1.id ≠ x.c.w → getWeft s m.1.id = some m.1 ∧ subAt m.1 (lowest m.2.mask) = some m.2) ∧
      ∃ ops, ((leadMembers ms).mapM fun m => (mmaOp (memberCtx x m.1 m.2)).map fun op => (m.1, op)) = .ok ops ∧
        ∀ o ∈ ops, engineRoom s o.1.id.core .matrix = true) ∧
    ∃ (s : State) (f : Fields) (x : Ctx), Runs s .mmac f .once x ∧ Unwatched x ∧
      bitOf f.mod.toNat 0 = true ∧ (∀ c, x.b.hold ≠ .scrumFault c) ∧ scrumOf x.w = some 0 ∧ 0 ∉ x.p.broken ∧
      let latch := (x.p.latches.find? fun l => l.entry == 0).getD ⟨0, x.c.pc, []⟩
      latch.pc = x.c.pc ∧ x.p.m.scrums[0]? = some (0, 3) ∧ (addOnce latch.members x.w.num).length < 3 := by
  have hold : ∀ {b : Sub}, (match b.hold with | .scrumFault _ => false | _ => true) = true → ∀ c, b.hold ≠ .scrumFault c :=
    fun h c e => by rw [e] at h; cases h
  refine ⟨fun y hy => ?_, unit_and scrumOpen (plain 1 1 .zero (.s 7) (.imm 2) (.imm 63)) (by decide +kernel)
    ⟨by decide +kernel, hold (by decide +kernel), by decide +kernel⟩⟩
  simp only [List.mem_cons, List.not_mem_nil, or_false] at hy
  rcases hy with h | h <;> subst h
  · exact unit_and (scrums 1) (plain 1 1 .zero (.imm 0) (.imm 1) (.imm 63)) (by decide +kernel)
      ⟨by decide +kernel, hold (by decide +kernel), and4 (by decide +kernel) (and3 (by decide +kernel)
        (ok_and [] (by decide +kernel) (by decide +kernel)))⟩
  · exact unit_and scrumPair (plain 1 1 .zero (.imm 0) (.imm 1) (.imm 63)) (by decide +kernel)
      ⟨by decide +kernel, hold (by decide +kernel), and4 (by decide +kernel) (and3 (by decide +kernel)
        (ok_and [] (by decide +kernel) (by decide +kernel)))⟩

/-- A copy of 4 words within the scratchpad with a TASK, a gather of one row of 4 bytes, a broadcast of 4 bytes. -/
def copies : State :=
  numAt 0x1000 256 (0x800 * 2 ^ 64 + 0x1040 * 2 ^ 128 + 1 * 2 ^ 224 + 2 * 2 ^ 228 + 1 * 2 ^ 232 + 1 * 2 ^ 236 +
    (4 + 4 * 2 ^ 32 + 4 * 2 ^ 96 + 4 * 2 ^ 128) * 2 ^ 320) { mats with mem := [] }
def gathers : State :=
  numAt 0x1000 64 (0x1800 + 0x800 * 2 ^ 64 + 1 * 2 ^ 224 + 9 * 2 ^ 256 + 4 * 2 ^ 288 + 4 * 2 ^ 320 + 1 * 2 ^ 448) { mats with mem := [] }
def colls : State := numAt 0x1000 32 (0x800 * 2 ^ 96 + 4 * 2 ^ 128) { mats with mem := [] }

theorem test_descriptor_inputs :
    (∃ (s : State) (f : Fields) (x : Ctx), Runs s .cpy f .once x ∧ Unwatched x ∧ ∃ cq, cqOf x = .ok cq ∧ commandQueue x 0 = .ok () ∧
      ∃ va, rd1 x .a true = .ok va ∧ ∃ d, readDesc x va.toNat 256 64 = .ok d ∧ copyOk (copyOf d.1) = true ∧ copyHeld x (copyOf d.1) = true ∧
        CanAccept x d.2 (descCommand x .copy va.toNat 256 d.1 cq none)) ∧
    (∃ (s : State) (f : Fields) (x : Ctx), Runs s .gath f .once x ∧ Unwatched x ∧ ∃ cq, cqOf x = .ok cq ∧ commandQueue x 1 = .ok () ∧
      ∃ va, rd1 x .a true = .ok va ∧ ∃ d, readDesc x va.toNat 64 64 = .ok d ∧ gathOk (gathOf d.1) = true ∧ gathHeld x (gathOf d.1) = true ∧
        CanAccept x d.2 (descCommand x .gather va.toNat 64 d.1 cq none)) ∧
    ∃ (s : State) (f : Fields) (x : Ctx), Runs s .coll f .once x ∧ Unwatched x ∧ ∃ cq, cqOf x = .ok cq ∧ commandQueue x 2 = .ok () ∧
      ∃ va, rd1 x .a true = .ok va ∧ ∃ d, readDesc x va.toNat 32 32 = .ok d ∧ collOk (collOf d.1) x.p.cores.length = true ∧
        CanAccept x d.2 (descCommand x .coll va.toNat 32 d.1 cq none) :=
  ⟨unit_and copies (plain 1 0 (.q 3) (.s 0) (.q 0) .zero) (by decide +kernel)
      ⟨some 0, ok_eq (by decide +kernel), ok_unit (by decide +kernel), 0x1000, ok_eq (by decide +kernel), ok_and (0, alu) (by decide +kernel)
        ⟨by decide +kernel, by decide +kernel, canAccept_of (by decide +kernel)⟩⟩,
    unit_and gathers (plain 1 0 .zero (.s 0) (.q 1) .zero) (by decide +kernel)
      ⟨none, ok_eq (by decide +kernel), ok_unit (by decide +kernel), 0x1000, ok_eq (by decide +kernel), ok_and (0, alu) (by decide +kernel)
        ⟨by decide +kernel, by decide +kernel, canAccept_of (by decide +kernel)⟩⟩,
    unit_and colls (plain 1 0 .zero (.s 0) (.q 2) .zero) (by decide +kernel)
      ⟨none, ok_eq (by decide +kernel), ok_unit (by decide +kernel), 0x1000, ok_eq (by decide +kernel), ok_and (0, alu) (by decide +kernel)
        ⟨by decide +kernel, canAccept_of (by decide +kernel)⟩⟩⟩

/-- Ready queue 1 with three records of two levels; page 1 stands in the page tables. -/
def queued : State :=
  onPart (fun p => { p with queues := [(1, ⟨0, 7, [⟨0x1000, 2, false, 0, 1, 7, 0x1122334455667788, 0⟩,
    ⟨0x1040, 3, true, 4, 6, 2, 9, 0⟩, ⟨0x1080, 3, false, 0, 1, 0, 5, 0⟩]⟩)] })
    (withPages { bound id with mem := [] } [1])

/-- The same with every weft of the panel, itself and one more, at a `tdeq.panel`. -/
def queuedPair : State :=
  { queued with wefts := queued.wefts ++ [{ launchWeft ⟨0, 1⟩ 1 key 1 1 3 0xFFFF 0x1000 with
      subs := [⟨0x1000, 0xFFFF, some .task, .deqPanel 1 (.s 2) 1⟩] }] }

theorem test_dequeue_inputs :
    (∃ (s : State) (f : Fields) (x : Ctx), Runs s .tdeq f .once x ∧ Unwatched x ∧ readyQueue x = .ok (0, 1) ∧ deqFirst x 0 1 false = true ∧
      ∃ y, takeRec s 0 1 x.p.asid x.w.id.core = some y ∧ CanWriteIn x (leaveLine x y.2 0 1 false) true (splat y.1.arg) (takeTask y.1)) ∧
    (∃ (s : State) (f : Fields) (x : Ctx), Runs s .tdeqNb f .once x ∧ Unwatched x ∧ readyQueue x = .ok (0, 1) ∧ deqLine s 0 1 = [] ∧
      ∃ y, takeRec s 0 1 x.p.asid x.w.id.core = some y ∧ CanWriteIn x y.2 true (splat y.1.arg) (takeTask y.1)) ∧
    (∃ (s : State) (f : Fields) (x : Ctx), Runs s .tdeqNb f .once x ∧ Unwatched x ∧ readyQueue x = .ok (0, 1) ∧
      takeRec s 0 1 x.p.asid x.w.id.core = none) ∧
    ∃ (s : State) (f : Fields) (x : Ctx), Runs s .tdeqPanel f .once x ∧ Unwatched x ∧ readyQueue x = .ok (0, 1) ∧
      (let others := (weftsOf s x.w.key).filter fun w => w.id ≠ x.c.w
       others ≠ [] ∧ ∀ w ∈ others, getWeft s w.id = some w ∧ ∃ b d n, panelDeq w = some (b, 1, d, n)) ∧ deqFirst x 0 1 true = true ∧
      ∃ y, takeRec s 0 1 x.p.asid x.w.id.core = some y ∧ CanWriteIn x y.2 true (splat y.1.arg) (takeTask y.1) :=
  ⟨unit_and queued (fDA 0 (.s 2) (.q 6)) (by decide +kernel) ⟨ok_eq (by decide +kernel), by decide +kernel,
      some_and (⟨0, 0, false, 0, 0, 0, 0, 0⟩, alu) (by decide +kernel) (ok_some (by decide +kernel))⟩,
    unit_and queued (plain 1 2 (.s 2) (.q 6) .zero (.p 3)) (by decide +kernel) ⟨ok_eq (by decide +kernel), by decide +kernel,
      some_and (⟨0, 0, false, 0, 0, 0, 0, 0⟩, alu) (by decide +kernel) (ok_some (by decide +kernel))⟩,
    unit_and (onPart (fun p => { p with queues := [(1, ⟨0, 7, []⟩)] }) queued) (plain 1 2 (.s 2) (.q 6) .zero (.p 3)) (by decide +kernel)
      ⟨ok_eq (by decide +kernel), by decide +kernel⟩,
    unit_and queuedPair (fDA 1 (.s 2) (.q 6)) (by decide +kernel) ⟨ok_eq (by decide +kernel),
      ⟨by decide +kernel, fun w hw => by
        have hs : ((weftsOf queuedPair (ctxOf queuedPair .tdeqPanel (fDA 1 (.s 2) (.q 6)) .once).w.key).filter
          fun w => w.id ≠ (ctxOf queuedPair .tdeqPanel (fDA 1 (.s 2) (.q 6)) .once).c.w) = [{ launchWeft ⟨0, 1⟩ 1 key 1 1 3 0xFFFF 0x1000 with
            subs := [⟨0x1000, 0xFFFF, some .task, .deqPanel 1 (.s 2) 1⟩] }] := by decide +kernel
        rw [hs] at hw
        rw [List.mem_singleton.mp hw]
        exact ⟨by decide +kernel, ⟨0x1000, 0xFFFF, some .task, .deqPanel 1 (.s 2) 1⟩, .s 2, 1, by decide +kernel⟩⟩,
      by decide +kernel, some_and (⟨0, 0, false, 0, 0, 0, 0, 0⟩, alu) (by decide +kernel) (ok_some (by decide +kernel))⟩⟩

/-- A record of queue 1 at 0x1000 with a DEP, and a weft whose task it is with so many indices left. -/
def recordAt (flags dep left : Nat) : State :=
  onW (fun w => { w with task := 0x1000 })
    (numAt 0x1000 64 (0x2000 + 5 * 2 ^ 64 + dep * 2 ^ 192 + flags * 2 ^ 224)
      (onPart (fun p => { p with queues := [(1, ⟨0, 7, []⟩)], comps := [⟨0x1000, 0, left⟩] }) (withPages { bound id with mem := [] } [1])))

/-- The first page of package 5 through the pool window; its record has arrived, and its DEP has been set there. -/
def recordAway : State :=
  let pa := 0x8000000000000
  { onW (fun w => { w with subs := [⟨0x1000, 0xFFFF, none, .remoteDone [(0, 7)]⟩] })
      (numAt 0xA00 8 0x51 (numAt pa 64 (7 * 2 ^ 192 + 0x131 * 2 ^ 224) { bound id with mem := [] })) with
    tables := { start.tables with fabricMap := 0xA00 }, routes := [(5, 2)]
    tlb := [⟨0, 1, 12, 0, loadLeaf + 2 ^ 18 * (2 ^ 39 - 1), 0, none⟩]
    fetches := [⟨3, .unit wid 0, 5, 0, pa, some (wid, 0), 0x1000, some 0, .read, 0, false, true⟩] }

/-- A TENQ, a TDONE and a TARM as far as they share it. -/
def TenqInput (more : Rec → Prop) : Prop :=
  ∃ (s : State) (f : Fields) (x : Ctx), Runs s .tenq f .once x ∧ Unwatched x ∧ Releases x 4 ∧
    ∃ y, ownRec x .read = .ok y ∧ x.w.key.part = some 0 ∧ ∃ p, getPart y.2.2 0 = some p ∧ recOk p y.1.va y.2.1 = true ∧ y.2.1.q = false ∧
      more y.2.1 ∧ queueRoom p y.2.1.qid = true ∧ (placeRec (released x 4 y.2.2) 0 x.p.asid y.1.va y.2.1).1 = none
def TdoneInput (more : State → CompEnt → Prop) : Prop :=
  ∃ (s : State) (f : Fields) (x : Ctx), Runs s .tdone f .once x ∧ Unwatched x ∧ x.w.key.part = some 0 ∧ x.w.task ≠ 0 ∧ x.b.hold ≠ .tdone ∧
    let y := seeRec s 0 x.p.asid x.w.task.toNat
    (∀ e, y.1 = .error e → e ≠ .wait) ∧ Releases x (doneScope y.2 0 x.p.asid y.1) ∧
      ∃ p, getPart (released x (doneScope y.2 0 x.p.asid y.1) y.2) 0 = some p ∧ ∃ c, taskEntry p x.w = some c ∧ heldUp p = false ∧
        more (completeTask (updPart (released x (doneScope y.2 0 x.p.asid y.1) y.2) 0 fun q => { q with comps := q.comps.map fun y =>
          if y.addr = c.addr ∧ y.asid = c.asid then { y with left := y.left - 1 } else y }) 0 x.p.asid c.addr c.asid 0 x.w.id.core) c

/-- The record of a unit, and nothing where it has none. -/
def noRec : LaneAcc × Rec × State := (⟨0, 0, 0, 0⟩, ⟨0, 0, 0, 0, 0, 0, 0, 0, 0, 0, 0⟩, alu)

theorem test_tenq_inputs : TenqInput (fun r => r.dep = 0) ∧ TenqInput fun r => r.dep = 1 :=
  ⟨unit_and (recordAt 0x131 0 1) (fA 0 (.s 0)) (by decide +kernel) ⟨free _ _ (by decide +kernel),
      ok_and noRec (by decide +kernel) ⟨by decide +kernel, some_and loadPart (by decide +kernel) (by decide +kernel)⟩⟩,
    unit_and (recordAt 0x131 1 1) (fA 0 (.s 0)) (by decide +kernel) ⟨free _ _ (by decide +kernel),
      ok_and noRec (by decide +kernel) ⟨by decide +kernel, some_and loadPart (by decide +kernel) (by decide +kernel)⟩⟩⟩

/-- A read that succeeds does not wait. -/
theorem no_wait {α : Type} {r : Except EngStop α} (h : (match r with | .ok _ => true | .error _ => false) = true) :
    ∀ e, r = .error e → e ≠ .wait := fun e he => by rw [he] at h; cases h

theorem test_tdone_inputs : TdoneInput (fun _ c => c.left = 2) ∧ TdoneInput fun s c => c.left = 1 ∧ taskHeld s 0 c.addr = false :=
  ⟨unit_and (recordAt 0x139 0 2) f0 (by decide +kernel) (and3 (by decide +kernel) ⟨no_wait (by decide +kernel),
      free _ _ (by decide +kernel), some_and loadPart (by decide +kernel) (some_and ⟨0, 0, 0⟩ (by decide +kernel) (by decide +kernel))⟩),
    unit_and (recordAt 0x139 0 1) f0 (by decide +kernel) (and3 (by decide +kernel) ⟨no_wait (by decide +kernel),
      free _ _ (by decide +kernel), some_and loadPart (by decide +kernel) (some_and ⟨0, 0, 0⟩ (by decide +kernel) (by decide +kernel))⟩)⟩

theorem test_tarm_inputs :
    (∃ (s : State) (f : Fields) (x : Ctx) (n : Nat), Runs s .tarm f .once x ∧ Unwatched x ∧ num1 x .b = .ok n ∧
      ∃ y, ownRec x .write = .ok y ∧ y.2.1.v = true ∧ y.2.1.q = false ∧ y.2.1.dep + n = 2 ^ 32 - 1 ∧
        placeOf s y.1.pa = .here 0x1000 ∧ (putNum y.2.2 (partNum x.w.key) x.p.asid (y.1.va + 24) 4 (y.2.1.dep + n)).1 = none) ∧
    ∃ (s : State) (f : Fields) (x : Ctx) (n : Nat), Runs s .tarm f .once x ∧ Unwatched x ∧ num1 x .b = .ok n ∧
      ∃ y, ownRec x .write = .ok y ∧ y.2.1.v = true ∧ y.2.1.q = false ∧ y.2.1.dep + n < 2 ^ 32 ∧ placeOf s y.1.pa = .peer 5 0 ∧
        placeOf s (y.1.pa + 24) = .peer 5 24 ∧ x.b.hold = .remoteDone [(0, y.2.1.dep)] :=
  ⟨⟨recordAt 0x131 (2 ^ 32 - 3) 1, plain 1 8 .zero (.s 0) (.imm 2) .zero, _, 2, runs_of (by decide +kernel),
      unwatched_of (by decide +kernel), ok_eq (by decide +kernel), ok_and noRec (by decide +kernel) (by decide +kernel)⟩,
    recordAway, plain 1 8 .zero (.s 0) (.imm 2) .zero, _, 2, runs_of (by decide +kernel),
      unwatched_of (by decide +kernel), ok_eq (by decide +kernel), ok_and noRec (by decide +kernel) (by decide +kernel)⟩

end Sys2Proof.Tests
end

