-- ==== Sys2Proof/Tests/Traps.lean ====
section
/-!
SUPPORT. States and operands that meet all hypotheses of the statements about traps, service calls, control registers,
halted wefts and debugging.
-/

set_option Elab.async false
namespace Sys2Proof.Tests

open Machine Safety

/-- The weft of mems at a level, with a vector at every level, and what else is changed of it. -/
def leveled (l : Nat) (more : Weft → Weft) : State :=
  onPart (fun p => { p with ktvec := 0x4000 }) (onW (fun w => more { w with level := l, ut := ⟨0x3000, 0, 0, 0⟩ })
    { mems with htvec := 0x5000, mtvec := 0x6000 })

def takenB (s : State) (w : Weft) (code l : Nat) : Bool :=
  let first := if classK code = false ∧ w.level = 0 ∧ w.ut.tvec ≠ 0 ∧ tget w.active 0 = none then 0 else max 1 w.level
  decide (first ≤ l ∧ l ≤ 3 ∧ tget w.active l = none ∧ vectorOf s w l ≠ 0) &&
    (List.range 4).all fun k => decide (first ≤ k → k < l → tget w.active k ≠ none ∨ vectorOf s w k = 0)

theorem taken_of {s : State} {w : Weft} {code l : Nat} (h : takenB s w code l = true) : TakenAt s w code l := by
  simp only [takenB, Bool.and_eq_true, decide_eq_true_eq, List.all_eq_true, List.mem_range] at h
  exact ⟨h.1.1, h.1.2.1, h.1.2.2.1, h.1.2.2.2, fun k h1 h2 => h.2 k (by have := h.1.2.1; omega) h1 h2⟩

/-- TRAP at user level with a user handler, BKPT at user level and at monitor level. -/
theorem test_trap_inputs :
    (∃ (s : State) (f : Fields) (x : Ctx), Runs s .trap f .once x ∧ Unwatched x ∧ x.w.region = none ∧ num1 x .a = .ok 31 ∧
      heldWrites s (agentOf x.w) = false ∧ TakenAt s x.w 25 0) ∧
    (∃ (s : State) (f : Fields) (x : Ctx), Runs s .bkpt f .once x ∧ Unwatched x ∧ x.w.region = none ∧ num1 x .a = .ok 31 ∧
      heldWrites s (agentOf x.w) = false ∧ TakenAt s x.w 21 1) ∧
    ∃ (s : State) (f : Fields) (x : Ctx), Runs s .bkpt f .once x ∧ Unwatched x ∧ x.w.region = none ∧ num1 x .a = .ok 31 ∧
      heldWrites s (agentOf x.w) = false ∧ TakenAt s x.w 21 3 :=
  ⟨unit_and (leveled 0 id) (fA 8 (.imm 31)) (by decide +kernel) ⟨by decide +kernel, ok_eq (by decide +kernel), by decide +kernel, taken_of (by decide +kernel)⟩,
    unit_and (leveled 0 id) (fA 0 (.imm 31)) (by decide +kernel) ⟨by decide +kernel, ok_eq (by decide +kernel), by decide +kernel, taken_of (by decide +kernel)⟩,
    unit_and (leveled 3 id) (fA 0 (.imm 31)) (by decide +kernel) ⟨by decide +kernel, ok_eq (by decide +kernel), by decide +kernel, taken_of (by decide +kernel)⟩⟩

/-- HALT at user level, FREEZE at kernel level with the kernel's trap active. -/
theorem test_privilege_inputs :
    (∃ (s : State) (x : Ctx) (i : Instr) (m : Mnem) (f : Fields), viewInstr i = some (m, f) ∧ x.m = m ∧ x.f = f ∧ Issued s x ∧
      x.w.stepping = none ∧ x.w.region = none ∧ (isSup x.w.id.core && spemOnly m) = false ∧ budgetOk x.p x.w m f = true ∧
      boundOk x.w m f = true ∧ x.w.level = 0 ∧ levelOf m f = 1 ∧ heldWrites s (agentOf x.w) = false ∧ TakenAt s x.w 7 1) ∧
    ∃ (s : State) (x : Ctx) (i : Instr) (m : Mnem) (f : Fields), viewInstr i = some (m, f) ∧ x.m = m ∧ x.f = f ∧ Issued s x ∧
      x.w.stepping = none ∧ x.w.region = none ∧ (isSup x.w.id.core && spemOnly m) = false ∧ budgetOk x.p x.w m f = true ∧
      boundOk x.w m f = true ∧ x.w.level = 1 ∧ levelOf m f = 2 ∧ heldWrites s (agentOf x.w) = false ∧
      TakenAt s x.w 7 2 :=
  let f : Fields := plain 1 0 .zero (.s 0) .zero .zero
  let g : Fields := fA 0 (.imm 0)
  let t : State := leveled 1 fun w => { w with active := [(1, ⟨0xFFFF, 0, 0, .none⟩)] }
  ⟨⟨leveled 0 id, ctxOf (leveled 0 id) .halt f .once, .halt f, .halt, f,
      and3 (by decide +kernel) ⟨issued_of (by decide +kernel), and4 (by decide +kernel) (and4 (by decide +kernel) (taken_of (by decide +kernel)))⟩⟩,
    t, ctxOf t .freeze g .once, .freeze g, .freeze, g,
      and3 (by decide +kernel) ⟨issued_of (by decide +kernel), and4 (by decide +kernel) (and4 (by decide +kernel) (taken_of (by decide +kernel)))⟩⟩

/-- A weft in a handler of level 2 that a user-level trap entered, and one in a user interrupt. -/
def inHandler : State := leveled 2 fun w => { w with ht := ⟨0, 0x1238, 0, 0⟩, active := [(2, ⟨0xFFFF, 0, 0x1238, .none⟩)] }
def badReturn : State := leveled 2 fun w => { w with ht := ⟨0, 0x1231, 0, 0⟩, active := [(2, ⟨0xFFFF, 0, 0x1231, .none⟩)] }
def inInterrupt : State := leveled 0 fun w => { w with uivec := 0x7002, uiret := 0x1240, uimaskHeld := 0xFFFF }

theorem test_return_inputs :
    (∃ (s : State) (f : Fields) (x : Ctx), Runs s .tret f .once x ∧ Unwatched x ∧ ∃ a, tget x.w.active x.w.level = some a ∧
      Releases { x with act := liveMask x.w } 1 ∧ (trapRegs x.w x.w.level).epc.extractLsb' 0 3 = 0) ∧
    (∃ (s : State) (f : Fields) (x : Ctx), Runs s .tret f .once x ∧ Unwatched x ∧ (trapActive x.w x.w.level = true ∧ x.w.stepping = none ∧
      x.w.region = none ∧ heldWrites s (agentOf x.w) = false) ∧ TakenAt s x.w 11 3 ∧
      (trapRegs x.w x.w.level).epc.extractLsb' 0 3 ≠ 0) ∧
    (∃ (s : State) (f : Fields) (x : Ctx), Runs s .uiret f .once x ∧ Unwatched x ∧ uiAct x.w = true ∧
      Releases { x with act := liveMask x.w } 1) ∧
    (∃ (s : State) (f : Fields) (x : Ctx), Runs s .uienOn f .once x ∧ Unwatched x) ∧
    (∃ (s : State) (f : Fields) (x : Ctx), Runs s .uienOff f .once x ∧ Unwatched x) ∧
    (∃ (s : State) (f : Fields) (x : Ctx), Runs s .uienPost f .once x ∧ Unwatched x ∧ ∃ n k, num1 x .a = .ok n ∧ num1 x .b = .ok k ∧
      k = 31 ∧ Releases x 2 ∧ weftNum (released x 2 s) x.w.key n = none) ∧
    ∃ (s : State) (f : Fields) (x : Ctx), Runs s .uienPost f .once x ∧ Unwatched x ∧ ∃ n k, num1 x .a = .ok n ∧ num1 x .b = .ok k ∧
      k ≤ 31 ∧ Releases x 2 ∧ ∃ u, weftNum (released x 2 s) x.w.key n = some u :=
  ⟨unit_and inHandler f0 (by decide +kernel) ⟨⟨0xFFFF, 0, 0x1238, .none⟩, by decide +kernel, free _ _ (by decide +kernel),
      by decide +kernel⟩,
    unit_and badReturn f0 (by decide +kernel) ⟨by decide +kernel, taken_of (by decide +kernel), by decide +kernel⟩,
    unit_and inInterrupt (fA 8 .zero) (by decide +kernel) ⟨by decide +kernel, free _ _ (by decide +kernel)⟩,
    unit_is mems (plain 1 1 (.p 1) .zero .zero .zero) (by decide +kernel),
    unit_is mems (plain 1 0 .zero .zero .zero .zero) (by decide +kernel),
    unit_and mems (plain 1 2 (.p 1) (.imm 5) (.imm 31) .zero) (by decide +kernel)
      ⟨5, 31, ok_eq (by decide +kernel), ok_eq (by decide +kernel), by decide +kernel, free _ _ (by decide +kernel), by decide +kernel⟩,
    unit_and mems (plain 1 2 (.p 1) (.imm 0) (.imm 0) .zero) (by decide +kernel)
      ⟨0, 0, ok_eq (by decide +kernel), ok_eq (by decide +kernel), by decide +kernel, free _ _ (by decide +kernel),
        some_and (P := fun _ => True) weft (by decide +kernel) trivial |>.imp fun _ h => h.1⟩⟩

/-- A batch of lane 15 stands open; the batch of all lanes is answered. -/
def openBatch : State := onW (fun w => { w with batch := some ⟨0x8000, [(15, 3)], [(15, 4)]⟩ }) mems
def answeredBatch : State := onW (fun w => { w with
  subs := [⟨0x1000, 0xFFFF, none, .svc 0xFFFF⟩], flight := some (0x2000, 0xFFFF), answered := true,
  results := [(0, 5), (15, 2 ^ 63)] }) mems

theorem test_service_inputs :
    (∃ (s : State) (f : Fields) (x : Ctx), Runs s .svc f .once x ∧ Unwatched x ∧ (∀ m, x.b.hold ≠ .svc m) ∧
      let y := { x with scalar := !svcVector f, act := if svcVector f then x.act else laneBit (lowest x.act) }
      (∃ no, rd y .a false = .ok no) ∧ (∃ arg, rd y .b true = .ok arg) ∧ Releases y 4 ∧ (x.w.batch.getD ⟨0, [], []⟩).mask &&& y.act = 0) ∧
    (∃ (s : State) (f : Fields) (x : Ctx), Runs s .svc f .once x ∧ Unwatched x ∧ (∀ m, x.b.hold ≠ .svc m) ∧ svcVector f = false ∧
      let y := { x with scalar := !svcVector f, act := if svcVector f then x.act else laneBit (lowest x.act) }
      (∃ no, rd y .a false = .ok no) ∧ (∃ arg, rd y .b true = .ok arg) ∧ Releases y 4 ∧ x.w.batch.isSome ∧
        (x.w.batch.getD ⟨0, [], []⟩).mask &&& y.act = 0) ∧
    ∃ (s : State) (f : Fields) (x : Ctx), Runs s .svc f .once x ∧ Unwatched x ∧ x.b.hold = .svc 0xFFFF ∧ svcAnswered x.w 0xFFFF = true ∧
      CanWriteIn { x with scalar := !svcVector f, act := 0xFFFF } s true (lanes16.map fun l => tgetD x.w.results l 0) id :=
  let f : Fields := plain 1 0 (.v 12) (.imm 7) (.v 22) .zero
  let g : Fields := plain 1 0 .zero (.imm 7) (.s 0) .zero
  ⟨unit_and mems f (by decide +kernel) ⟨(fun m h => by
        rw [show (ctxOf mems .svc f .once).b.hold = .none by decide +kernel] at h; cases h),
      ok_some (by decide +kernel), ok_some (by decide +kernel), free _ _ (by decide +kernel), by decide +kernel⟩,
    unit_and openBatch g (by decide +kernel) ⟨(fun m h => by
        rw [show (ctxOf openBatch .svc g .once).b.hold = .none by decide +kernel] at h; cases h), by decide +kernel,
      ok_some (by decide +kernel), ok_some (by decide +kernel), free _ _ (by decide +kernel), by decide +kernel, by decide +kernel⟩,
    unit_and answeredBatch f (by decide +kernel) ⟨by decide +kernel, by decide +kernel, ok_some (by decide +kernel)⟩⟩

/-- A partition whose kernel handler and service queue are set. -/
def csrs : State := onPart (fun p => { p with ktvec := 0x4000, svcq := [(0, [0x2000, 0x2100])] }) mems

theorem test_control_register_inputs :
    (∃ (s : State) (f : Fields) (x : Ctx), Runs s .csrr f .once x ∧ Unwatched x ∧ ∃ n wide v, NamesCsr x n wide ∧ (n, v) ∈ controlRegs s x.w ∧
      wide = true ∧ CanWrite x none wide (splat v) id) ∧
    (∃ (s : State) (f : Fields) (x : Ctx), Runs s .svcpop f .once x ∧ Unwatched x ∧ NamesCsr x 0x26 true ∧
      ∃ pn p a t, x.w.key.part = some pn ∧ getPart s pn = some p ∧ svcQueue p (dieOf x.w.id.core) = a :: t ∧
        CanWriteIn x (updPart s pn fun p => { p with svcq := tset p.svcq (dieOf x.w.id.core) t }) true (splat (BitVec.ofNat 64 a)) id) ∧
    (∃ (s : State) (f : Fields) (x : Ctx), Runs s .svcpop f .once x ∧ Unwatched x ∧ NamesCsr x 0x26 true ∧
      ((x.w.key.part.bind (getPart s)).all fun p => (svcQueue p (dieOf x.w.id.core)).isEmpty) = true ∧ CanWrite x none true (splat 0) id) ∧
    ∀ mod ∈ [(8 : BitVec 4), 9, 10], ∃ (s : State) (f : Fields) (x : Ctx), Runs s .csrw f .once x ∧ Unwatched x ∧ f.mod = mod ∧
      ∃ n wide v b, NamesCsr x n wide ∧ (n, v) ∈ controlRegs s x.w ∧ rd1 x .b wide = .ok b ∧ CanWrite x none wide (splat v) id := by
  refine ⟨unit_and csrs (fDA 0 (.s 2) (.imm 0x20)) (by decide +kernel) ⟨0x20, true, 0x4000,
      ⟨ok_eq (by decide +kernel), ⟨1, by decide +kernel⟩, by decide +kernel, by decide +kernel⟩, by decide +kernel, rfl, ok_some (by decide +kernel)⟩,
    unit_and csrs (fDA 0 (.s 2) (.imm 0x26)) (by decide +kernel)
      ⟨⟨ok_eq (by decide +kernel), ⟨1, by decide +kernel⟩, by decide +kernel, by decide +kernel⟩,
        0, { loadPart with ktvec := 0x4000, svcq := [(0, [0x2000, 0x2100])] }, 0x2000, [0x2100], by decide +kernel, by decide +kernel,
        by decide +kernel, ok_some (by decide +kernel)⟩,
    unit_and mems (fDA 0 (.s 2) (.imm 0x26)) (by decide +kernel)
      ⟨⟨ok_eq (by decide +kernel), ⟨1, by decide +kernel⟩, by decide +kernel, by decide +kernel⟩, by decide +kernel, ok_some (by decide +kernel)⟩,
    fun mod hm => ?_⟩
  simp only [List.mem_cons, List.not_mem_nil, or_false] at hm
  rcases hm with h | h | h <;> subst h
  · exact unit_and csrs (plain 1 8 (.s 2) (.imm 0x20) (.s 0) .zero) (by decide +kernel) ⟨rfl, 0x20, true, 0x4000, 0x1000,
      ⟨ok_eq (by decide +kernel), ⟨1, by decide +kernel⟩, by decide +kernel, by decide +kernel⟩, by decide +kernel, ok_eq (by decide +kernel),
      ok_some (by decide +kernel)⟩
  · exact unit_and csrs (plain 1 9 (.s 2) (.imm 0x52) (.s 0) .zero) (by decide +kernel) ⟨rfl, 0x52, false, 0, 0x1000,
      ⟨ok_eq (by decide +kernel), ⟨2, by decide +kernel⟩, by decide +kernel, by decide +kernel⟩, by decide +kernel, ok_eq (by decide +kernel),
      ok_some (by decide +kernel)⟩
  · exact unit_and csrs (plain 1 10 .zero (.imm 0x71) (.imm 7) .zero) (by decide +kernel) ⟨rfl, 0x71, true, 0, 7,
      ⟨ok_eq (by decide +kernel), ⟨3, by decide +kernel⟩, by decide +kernel, by decide +kernel⟩, by decide +kernel, ok_eq (by decide +kernel),
      ok_some (by decide +kernel)⟩

end Sys2Proof.Tests
end

