-- ==== Sys2Proof/Tests/Privileged.lean ====
section
/-!
SUPPORT. States and operands that meet all hypotheses of the statements about halted wefts, debugging, translations,
partitions, jobs and moves.
-/

set_option Elab.async false
namespace Sys2Proof.Tests

open Machine Safety

/-- A second panel, number 1 of partition 0, with one weft on core 0 that is changed; its handle stands in s12:s13. -/
def otherKey : PKey := ⟨some 0, 1⟩
def other (more : Weft → Weft) : State :=
  let s := onW (fun w => scal 12 0x400 (scal 13 0 w)) mems
  { s with panels := s.panels ++ [loadPanel otherKey], wefts := s.wefts ++ [more (launchWeft ⟨0, 1⟩ 1 otherKey 0 1 0 0xFFFF 0x1000)] }
def otherWeft (more : Weft → Weft) : Weft := more (launchWeft ⟨0, 1⟩ 1 otherKey 0 1 0 0xFFFF 0x1000)
def halts (w : Weft) : Weft := { w with halted := true }

theorem handle_of {x : Ctx} {h : Word64} (h1 : okIs (rd1 x .a true) h = true)
    (h2 : decide (h.extractLsb' 48 16 = 0 ∧ (2 ≤ x.w.level ∨ (h.extractLsb' 42 6).toNat = x.w.key.part.getD 0)) = true) : Handle x h :=
  ⟨ok_eq h1, of_decide_eq_true h2⟩

theorem test_halt_inputs :
    (∀ b ∈ [true, false], ∃ (s : State) (f : Fields) (x : Ctx), Runs s .halt f .once x ∧ Unwatched x ∧ ∃ h w, Handle x h ∧
      named s h = some w ∧ w.halted = b ∧ w.id ≠ x.c.w ∧ w.stepping = none ∧ w.stepped = none) ∧
    (∃ (s : State) (f : Fields) (x : Ctx), Runs s .halt f .once x ∧ Unwatched x ∧ ∃ h, Handle x h ∧ named s h = none) ∧
    (∃ (s : State) (id : WId) (w : Weft), getWeft s id = some w ∧ w.stepping = none ∧ w.region.isSome) ∧
    ∀ b ∈ [true, false], ∃ (s : State) (f : Fields) (x : Ctx), Runs s .wake f .once x ∧ Unwatched x ∧ ∃ h w, Handle x h ∧
      named s h = some w ∧ w.halted = b ∧ w.stepping = none ∧ w.stepped = none := by
  let f : Fields := plain 1 0 (.p 1) (.s 12) .zero .zero
  let g : Fields := plain 1 8 (.p 1) (.s 12) .zero .zero
  refine ⟨fun b hb => ?_, unit_and mems (plain 1 0 .zero (.s 0) .zero .zero) (by decide +kernel) ⟨0x1000,
    handle_of (by decide +kernel) (by decide +kernel), by decide +kernel⟩,
    ⟨inRegion false, wid, (getWeft (inRegion false) wid).getD weft, by decide +kernel⟩, fun b hb => ?_⟩ <;>
    simp only [List.mem_cons, List.not_mem_nil, or_false] at hb <;> rcases hb with h | h <;> subst h
  · exact unit_and (other halts) f (by decide +kernel) ⟨0x400, otherWeft halts, handle_of (by decide +kernel) (by decide +kernel), by decide +kernel⟩
  · exact unit_and (other id) f (by decide +kernel) ⟨0x400, otherWeft id, handle_of (by decide +kernel) (by decide +kernel), by decide +kernel⟩
  · exact unit_and (other halts) g (by decide +kernel) ⟨0x400, otherWeft halts, handle_of (by decide +kernel) (by decide +kernel), by decide +kernel⟩
  · exact unit_and (other id) g (by decide +kernel) ⟨0x400, otherWeft id, handle_of (by decide +kernel) (by decide +kernel), by decide +kernel⟩

theorem test_wake_no_batch_inputs : ∃ (s : State) (f : Fields) (x : Ctx), Runs s .wakeSvc f .once x ∧ Unwatched x ∧ ∃ a,
    rd1 x .a true = .ok a ∧ a.toNat % 256 = 0 ∧ s.wefts.find? (inFlight x.w.key.part a.toNat) = none ∧
      ∀ v ∈ s.saved, ∀ w ∈ v.wefts, inFlight x.w.key.part a.toNat w = false :=
  unit_and (onW (fun w => scal 12 0x1000 w) (other id)) (plain 1 9 (.p 1) (.s 12) .zero .zero) (by decide +kernel)
    ⟨0x1000, ok_eq (by decide +kernel), by decide +kernel⟩

/-- Selectors at the ends of their classes: a lane, a predicate and a debug register. -/
def selects (sel : Nat) (more : Weft → Weft) : State := onW (fun w => scal 14 sel w) (other more)

theorem test_debug_inputs :
    (∀ sel ∈ [(0xFFF : Nat), 0x20000007, 0x80000018, 0x90000000], ∃ (s : State) (f : Fields) (x : Ctx), Runs s .dbgrd f .once x ∧ Unwatched x ∧
      ∃ h, Handle x h ∧ num1 x .b = .ok sel ∧
        let r := (named s h).bind fun w => if w.halted then (getPanel s w.key).bind fun p => debugRead s p w sel else none
        CanWriteIn x s true (splat (BitVec.ofNat 64 (r.getD 0))) id ∧ (r.isSome ↔ sel ≠ 0x90000000) ∧ ((named s h).all fun w => w.stepping.isNone && w.stepped.isNone) = true) ∧
    ∃ (s : State) (f : Fields) (x : Ctx), Runs s .dbgwr f .once x ∧ Unwatched x ∧ ∃ h sel v, Handle x h ∧ num1 x .b = .ok sel ∧
      rd1 x .c true = .ok v ∧
      ((named s h).bind fun w => if w.halted then (getPanel s w.key).bind fun p => debugWrite s p w sel v else none).isSome ∧
      ((named s h).all fun w => w.stepping.isNone && w.stepped.isNone) = true := by
  let f : Fields := plain 1 0 (.s 2) (.s 12) (.s 14) (.p 1)
  refine ⟨fun b hb => ?_, unit_and (selects 0xFFF halts) (plain 1 8 (.p 1) (.s 12) (.s 14) (.s 0)) (by decide +kernel) ⟨0x400, 0xFFF, 0x1000,
    handle_of (by decide +kernel) (by decide +kernel), ok_eq (by decide +kernel), ok_eq (by decide +kernel), by decide +kernel⟩⟩
  simp only [List.mem_cons, List.not_mem_nil, or_false] at hb
  rcases hb with h | h | h | h <;> subst h
  · exact unit_and (selects 0xFFF halts) f (by decide +kernel)
      ⟨0x400, handle_of (by decide +kernel) (by decide +kernel), ok_eq (by decide +kernel), ok_some (by decide +kernel),
        by decide +kernel⟩
  · exact unit_and (selects 0x20000007 halts) f (by decide +kernel)
      ⟨0x400, handle_of (by decide +kernel) (by decide +kernel), ok_eq (by decide +kernel), ok_some (by decide +kernel),
        by decide +kernel⟩
  · exact unit_and (selects 0x80000018 halts) f (by decide +kernel)
      ⟨0x400, handle_of (by decide +kernel) (by decide +kernel), ok_eq (by decide +kernel), ok_some (by decide +kernel),
        by decide +kernel⟩
  · exact unit_and (selects 0x90000000 halts) f (by decide +kernel)
      ⟨0x400, handle_of (by decide +kernel) (by decide +kernel), ok_eq (by decide +kernel), ok_some (by decide +kernel),
        by decide +kernel⟩

/-- The issuer waits for the end of its DSTEP. -/
def stepIssued (n : Nat) : State := onW (fun w => { w with subs := [⟨0x1000, 0xFFFF, none, .stepping⟩] })
  (other fun w => { w with halted := true, stepped := some n })

theorem test_step_inputs :
    (∃ (s : State) (f : Fields) (x : Ctx), Runs s .dstep f .once x ∧ Unwatched x ∧ x.b.hold = .none ∧ ∃ h n w b, Handle x h ∧ num1 x .b = .ok n ∧
      named s h = some w ∧ w.stepping = none ∧ w.stepped = none ∧ w.halted = true ∧ (subsInOrder w)[n]? = some b ∧ b.park = none ∧
      b.mask &&& ~~~handlerLanes w = 0 ∧ w.id ≠ x.c.w) ∧
    (∃ (s : State) (f : Fields) (x : Ctx), Runs s .dstep f .once x ∧ Unwatched x ∧ x.b.hold = .none ∧ ∃ h n w, Handle x h ∧ num1 x .b = .ok n ∧
      named s h = some w ∧ w.halted = false ∧ w.stepping = none ∧ w.stepped = none ∧ CanWriteIn x s false (splat 3) id) ∧
    (∃ (s : State) (f : Fields) (x : Ctx), Runs s .dstep f .once x ∧ Unwatched x ∧ x.b.hold = .none ∧ ∃ h n w b, Handle x h ∧ num1 x .b = .ok n ∧
      named s h = some w ∧ w.stepping = none ∧ w.stepped = none ∧ w.halted = true ∧ (subsInOrder w)[n]? = some b ∧ b.park ≠ none ∧
      CanWriteIn x s false (splat 1) id) ∧
    ∃ (s : State) (f : Fields) (x : Ctx), Runs s .dstep f .once x ∧ Unwatched x ∧ x.b.hold = .stepping ∧ ∃ h n w, Handle x h ∧ num1 x .b = .ok n ∧
      named s h = some w ∧ w.stepped = some 2 ∧ CanWriteIn x (updWeft s w.id fun u => { u with stepped := none }) false (splat 2) id :=
  let f : Fields := plain 1 0 (.s 2) (.s 12) (.imm 0) .zero
  let parked (w : Weft) : Weft := { w with halted := true, subs := [⟨0x1000, 3, some .queue, .none⟩] }
  ⟨unit_and (other halts) f (by decide +kernel) ⟨by decide +kernel, 0x400, 0, otherWeft halts, ⟨0x1000, 0xFFFF, none, .none⟩,
      handle_of (by decide +kernel) (by decide +kernel), ok_eq (by decide +kernel), by decide +kernel⟩,
    unit_and (other id) f (by decide +kernel) ⟨by decide +kernel, 0x400, 0, otherWeft id,
      handle_of (by decide +kernel) (by decide +kernel), ok_eq (by decide +kernel), by decide +kernel, by decide +kernel, by decide +kernel,
      by decide +kernel, ok_some (by decide +kernel)⟩,
    unit_and (other parked) f (by decide +kernel) ⟨by decide +kernel, 0x400, 0, otherWeft parked, ⟨0x1000, 3, some .queue, .none⟩,
      handle_of (by decide +kernel) (by decide +kernel), ok_eq (by decide +kernel), by decide +kernel, by decide +kernel, by decide +kernel,
      by decide +kernel, by decide +kernel, by decide +kernel, ok_some (by decide +kernel)⟩,
    unit_and (stepIssued 2) f (by decide +kernel) ⟨by decide +kernel, 0x400, 0, otherWeft fun w => { w with halted := true, stepped := some 2 },
      handle_of (by decide +kernel) (by decide +kernel), ok_eq (by decide +kernel), by decide +kernel, by decide +kernel, ok_some (by decide +kernel)⟩⟩

theorem ownAsid_of {x : Ctx} {n : Nat} (h1 : okIs (num1 x .b) n = true)
    (h2 : (decide (n ≤ 65535) && (x.w.key.part.bind (getPart x.s)).all fun p => decide (p.desc.asidLo ≤ n ∧ n ≤ p.desc.asidHi)) = true) : OwnAsid x n := by
  simp only [Bool.and_eq_true, decide_eq_true_eq] at h2
  refine ⟨ok_eq h1, h2.1, fun p hp => ?_⟩
  have h3 := h2.2
  rw [hp] at h3
  simpa using h3

/-- Two translations, of which each is named by its page and ASID, and two synonyms. -/
def cachedTwo : State := onW (fun w => scal 12 0x2000 (scal 13 0 (scal 7 65535 w))) { mems with
  tlb := [⟨0, 1, 12, 0, loadLeaf, 0, none⟩, ⟨65535, 2, 12, 0, loadLeaf + 2 ^ 18, 0, none⟩],
  synonyms := [⟨65535, 2, 0, 1, .front 0⟩, ⟨0, 3, 0, 1, .front 0⟩] }

theorem test_translation_inputs :
    (∃ (s : State) (f : Fields) (x : Ctx), Runs s .tlbiPage f .once x ∧ Unwatched x ∧ ∃ va n, rd1 x .a true = .ok va ∧ OwnAsid x n ∧
      (∀ t ∈ s.tlb, entryBusy s t = false) ∧ ∃ t ∈ s.tlb, t.vpage * 4096 / 2 ^ t.bits == va.toNat / 2 ^ t.bits && t.asid == n) ∧
    (∃ (s : State) (f : Fields) (x : Ctx), Runs s .tlbiAsid f .once x ∧ Unwatched x ∧ ∃ n, OwnAsid x n ∧ n = 65535 ∧
      (∀ t ∈ s.tlb, entryBusy s t = false)) ∧
    (∃ (s : State) (f : Fields) (x : Ctx), Runs s .tlbiPart f .once x ∧ Unwatched x ∧ ∀ t ∈ s.tlb, entryBusy s t = false) ∧
    (∃ (s : State) (f : Fields) (x : Ctx), Runs s .rflush f .once x ∧ Unwatched x ∧ ∃ va n, rd1 x .a true = .ok va ∧ OwnAsid x n ∧
      (∀ t ∈ s.tlb, entryBusy s t = false) ∧ s.synonyms.length = 2) ∧
    ∃ (s : State) (f : Fields) (x : Ctx), Runs s .rflushAsid f .once x ∧ Unwatched x ∧ ∃ n, OwnAsid x n ∧
      (∀ t ∈ s.tlb, entryBusy s t = false) ∧ s.synonyms.length = 2 :=
  ⟨unit_and cachedTwo (plain 1 0 .zero (.s 12) (.s 7) .zero) (by decide +kernel)
      ⟨0x2000, 65535, ok_eq (by decide +kernel), ownAsid_of (by decide +kernel) (by decide +kernel), by decide +kernel⟩,
    unit_and cachedTwo (plain 1 1 .zero .zero (.s 7) .zero) (by decide +kernel)
      ⟨65535, ownAsid_of (by decide +kernel) (by decide +kernel), rfl, by decide +kernel⟩,
    unit_and cachedTwo (plain 1 2 .zero .zero .zero .zero) (by decide +kernel) (by decide +kernel),
    unit_and cachedTwo (plain 1 8 .zero (.s 12) (.s 7) .zero) (by decide +kernel)
      ⟨0x2000, 65535, ok_eq (by decide +kernel), ownAsid_of (by decide +kernel) (by decide +kernel), by decide +kernel⟩,
    unit_and cachedTwo (plain 1 9 .zero .zero (.imm 0) .zero) (by decide +kernel)
      ⟨0, ownAsid_of (by decide +kernel) (by decide +kernel), by decide +kernel⟩⟩

/-- A descriptor of a partition at 0x1000: some cores, ASIDs 70,000 less 4,500 up to the same; partition 0 has ASIDs 0 to 9. -/
def describes (cores lo hi : Nat) : State :=
  onPart (fun p => { p with desc := { p.desc with hbmch := 0, lpch := 0, asidHi := 9 } })
    (numAt 0x1000 128 (cores * 2 ^ 768 + hi * 2 ^ 400 + lo * 2 ^ 384) { mems with mem := [] })

theorem test_partition_inputs :
    (∃ (s : State) (f : Fields) (x : Ctx), Runs s .partcfgNew f .once x ∧ Unwatched x ∧ ∃ n va, num1 x .b = .ok n ∧ n = 63 ∧ rd1 x .a true = .ok va ∧
      ∃ d, readDesc x va.toNat 128 128 = .ok d ∧ partDescOk d.1 (partDescOf d.1) = true ∧ getPart d.2 n = none ∧
        partHeld d.2 n (partDescOf d.1) = false) ∧
    (∃ (s : State) (f : Fields) (x : Ctx), Runs s .partcfgNew f .once x ∧ Unwatched x ∧ ∃ n va, num1 x .b = .ok n ∧ n ≤ 63 ∧ rd1 x .a true = .ok va ∧
      ∃ d, readDesc x va.toNat 128 128 = .ok d ∧ partDescOk d.1 (partDescOf d.1) = true ∧ getPart d.2 n = none ∧
        partHeld d.2 n (partDescOf d.1) = true ∧ CanWriteIn x d.2 false (splat 1) id) ∧
    (∃ (s : State) (f : Fields) (x : Ctx), Runs s .partcfgNew f .once x ∧ Unwatched x ∧ ∃ n va, num1 x .b = .ok n ∧ n ≤ 63 ∧ rd1 x .a true = .ok va ∧
      ∃ d, readDesc x va.toNat 128 128 = .ok d ∧ partDescOk d.1 (partDescOf d.1) = true ∧ getPart d.2 n ≠ none) ∧
    (∃ (s : State) (f : Fields) (x : Ctx), Runs s .partcfgMod f .once x ∧ Unwatched x ∧ ∃ n va, num1 x .b = .ok n ∧ n ≤ 63 ∧ rd1 x .a true = .ok va ∧
      ∃ d, readDesc x va.toNat 128 128 = .ok d ∧ partDescOk d.1 (partDescOf d.1) = true ∧ getPart d.2 n ≠ none ∧
        partHeld d.2 n (partDescOf d.1) = false ∧ (panelsOf d.2 n).any (fun q => q.cores.any fun c => !coreOwned (partDescOf d.1) c) = false) ∧
    (∃ (s : State) (f : Fields) (x : Ctx), Runs s .partcfgMod f .once x ∧ Unwatched x ∧ ∃ n va, num1 x .b = .ok n ∧ n ≤ 63 ∧ rd1 x .a true = .ok va ∧
      ∃ d, readDesc x va.toNat 128 128 = .ok d ∧ partDescOk d.1 (partDescOf d.1) = true ∧ getPart d.2 n ≠ none ∧
        partHeld d.2 n (partDescOf d.1) = false ∧ (panelsOf d.2 n).any (fun q => q.cores.any fun c => !coreOwned (partDescOf d.1) c) = true) ∧
    (∃ (s : State) (f : Fields) (x : Ctx), Runs s .partcfgDel f .once x ∧ Unwatched x ∧ ∃ n, num1 x .b = .ok n ∧ n ≤ 63 ∧ getPart s n ≠ none ∧ panelsOf s n ≠ []) ∧
    (∃ (s : State) (f : Fields) (x : Ctx), Runs s .partcfgDel f .once x ∧ Unwatched x ∧ ∃ n, num1 x .b = .ok n ∧ n ≤ 63 ∧ getPart s n ≠ none ∧ panelsOf s n = []) ∧
    (∃ (s : State) (f : Fields) (x : Ctx), Runs s .freeze f .once x ∧ Unwatched x ∧ ∃ n q, num1 x .a = .ok n ∧ getPart s n = some q ∧ q.frozen = false) ∧
    ∃ (s : State) (f : Fields) (x : Ctx), Runs s .thaw f .once x ∧ Unwatched x ∧ ∃ n q, num1 x .a = .ok n ∧ getPart s n = some q ∧ q.frozen = true :=
  let f : Fields := plain 1 0 (.s 2) (.s 0) (.imm 63) .zero
  let g : Fields := plain 1 1 (.s 2) (.s 0) (.imm 0) .zero
  let more (s : State) : State := { s with parts := s.parts ++ [(5, { loadPart with frozen := true })] }
  ⟨unit_and (describes 2 10 65535) f (by decide +kernel) ⟨63, 0x1000, ok_eq (by decide +kernel), rfl, ok_eq (by decide +kernel),
      ok_and (0, alu) (by decide +kernel) (by decide +kernel)⟩,
    unit_and (describes 2 9 9) f (by decide +kernel) ⟨63, 0x1000, ok_eq (by decide +kernel), by decide +kernel, ok_eq (by decide +kernel),
      ok_and (0, alu) (by decide +kernel) ⟨by decide +kernel, by decide +kernel, by decide +kernel, ok_some (by decide +kernel)⟩⟩,
    unit_and (describes 2 9 9) (plain 1 0 (.s 2) (.s 0) (.imm 0) .zero) (by decide +kernel) ⟨0, 0x1000, ok_eq (by decide +kernel), by decide +kernel,
      ok_eq (by decide +kernel), ok_and (0, alu) (by decide +kernel) (by decide +kernel)⟩,
    unit_and (describes 3 0 0) g (by decide +kernel) ⟨0, 0x1000, ok_eq (by decide +kernel), by decide +kernel, ok_eq (by decide +kernel),
      ok_and (0, alu) (by decide +kernel) (by decide +kernel)⟩,
    unit_and (describes 2 0 0) g (by decide +kernel) ⟨0, 0x1000, ok_eq (by decide +kernel), by decide +kernel, ok_eq (by decide +kernel),
      ok_and (0, alu) (by decide +kernel) (by decide +kernel)⟩,
    unit_and mems (plain 1 2 (.s 2) .zero (.imm 0) .zero) (by decide +kernel) ⟨0, ok_eq (by decide +kernel), by decide +kernel⟩,
    unit_and (more mems) (plain 1 2 (.s 2) .zero (.imm 5) .zero) (by decide +kernel) ⟨5, ok_eq (by decide +kernel), by decide +kernel⟩,
    unit_and mems (plain 1 0 (.p 1) (.imm 0) .zero .zero) (by decide +kernel) ⟨0, loadPart, ok_eq (by decide +kernel), by decide +kernel⟩,
    unit_and (more mems) (plain 1 8 (.p 1) (.imm 5) .zero .zero) (by decide +kernel)
      ⟨5, { loadPart with frozen := true }, ok_eq (by decide +kernel), by decide +kernel⟩⟩

/-- The job table names job 3, of partition 1. -/
def jobbed : State := numAt (0x8000 + 64 * 3) 8 2 { mems with mem := [], tables := { mems.tables with jobs := 0x8000 } }

theorem test_job_inputs :
    (∃ (s : State) (f : Fields) (x : Ctx), Runs s .gsub f .once x ∧ Unwatched x ∧ x.b.hold = .gangDone 2 ∧ CanWriteIn x s false (splat 2) id) ∧
    (∃ (s : State) (f : Fields) (x : Ctx), Runs s .gsub f .once x ∧ Unwatched x ∧ x.b.hold = .none ∧ ∃ a job n, rd1 x .a true = .ok a ∧
      a.toNat % 4096 = 0 ∧ num1 x .b = .ok job ∧ job ≠ 0 ∧ num1 x .c = .ok n ∧ jobKnown s job = false ∧ CanWriteIn x s false (splat 3) id) ∧
    (∃ (s : State) (f : Fields) (x : Ctx), Runs s .gsub f .once x ∧ Unwatched x ∧ x.b.hold = .none ∧ ∃ a job n, rd1 x .a true = .ok a ∧
      a.toNat % 4096 = 0 ∧ num1 x .b = .ok job ∧ job ≠ 0 ∧ num1 x .c = .ok n ∧ jobKnown s job = true ∧ jobTaken s job = false) ∧
    ∃ (s : State) (f : Fields) (x : Ctx), Runs s .gres f .once x ∧ Unwatched x ∧ x.b.hold = .none ∧ ∃ a job, rd1 x .a true = .ok a ∧
      a.toNat % 4096 = 0 ∧ num1 x .b = .ok job ∧ job ≠ 0 ∧ (∀ u, getSubst s job = some u → u.stage ≠ 2 ∨ u.save ≠ a.toNat) ∧
      CanWriteIn x s false (splat 3) id :=
  let f : Fields := plain 1 0 (.s 2) (.s 0) (.imm 3) (.imm 1)
  ⟨unit_and (onW (fun w => { w with subs := [⟨0x1000, 0xFFFF, none, .gangDone 2⟩] }) mems) f (by decide +kernel)
      ⟨by decide +kernel, ok_some (by decide +kernel)⟩,
    unit_and mems f (by decide +kernel) ⟨by decide +kernel, 0x1000, 3, 1, ok_eq (by decide +kernel), by decide +kernel, ok_eq (by decide +kernel),
      by decide +kernel, ok_eq (by decide +kernel), by decide +kernel, ok_some (by decide +kernel)⟩,
    unit_and jobbed f (by decide +kernel) ⟨by decide +kernel, 0x1000, 3, 1, ok_eq (by decide +kernel), by decide +kernel, ok_eq (by decide +kernel),
      by decide +kernel, ok_eq (by decide +kernel), by decide +kernel⟩,
    unit_and jobbed (plain 1 8 (.s 2) (.s 0) (.imm 3) .zero) (by decide +kernel) ⟨by decide +kernel, 0x1000, 3, ok_eq (by decide +kernel),
      by decide +kernel, ok_eq (by decide +kernel), by decide +kernel, (fun u h => by
        rw [show getSubst jobbed 3 = none by decide +kernel] at h; cases h), ok_some (by decide +kernel)⟩⟩

/-- In the statement D of a GSUB takes every status. -/
theorem test_gsub_status : ∀ st : Word64, CanWrite (ctxOf jobbed .gsub (plain 1 0 .zero (.s 0) (.imm 3) (.imm 1)) .once) none false (splat st) id := by
  intro st
  exact ⟨_, rfl⟩

theorem test_migrate_inputs :
    (∃ (s : State) (f : Fields) (x : Ctx), Runs s .migr f .once x ∧ Unwatched x ∧ x.b.hold = .none ∧ bitOf f.mod.toNat 2 = false ∧
      ∃ ps, pagesFor x true .none = .ok ps ∧ moveForbidden s ps (f.mod.toNat % 4) = none ∧ ps ≠ []) ∧
    (∃ (s : State) (f : Fields) (x : Ctx), Runs s .migr f .once x ∧ Unwatched x ∧ x.b.hold = .none ∧ bitOf f.mod.toNat 2 = true ∧
      ∃ ps, pagesFor x true .none = .ok ps ∧ moveForbidden s ps (f.mod.toNat % 4) = none ∧ ps ≠ [] ∧ ∀ p ∈ ps, p.tier = f.mod.toNat % 4) ∧
    ∃ (s : State) (f : Fields) (x : Ctx), Runs s .migr f .once x ∧ Unwatched x ∧ x.b.hold = .migrWait [4] ∧ movePending s [4] = false :=
  ⟨unit_and tracked (plain 1 2 .zero (.s 0) (.imm 64) .zero) (by decide +kernel) ⟨by decide +kernel, by decide +kernel,
      ok_and [] (by decide +kernel) (by decide +kernel)⟩,
    unit_and tracked (plain 1 5 .zero (.s 0) (.imm 64) .zero) (by decide +kernel) ⟨by decide +kernel, by decide +kernel,
      ok_and [] (by decide +kernel) (by decide +kernel)⟩,
    unit_and (onW (fun w => { w with subs := [⟨0x1000, 0xFFFF, none, .migrWait [4]⟩] }) tracked) (plain 1 5 .zero (.s 0) (.imm 64) .zero)
      (by decide +kernel) (by decide +kernel)⟩

end Sys2Proof.Tests
end

