-- ==== Sys2Proof/Tests/Saves.lean ====
section
/-!
SUPPORT. States and operands that meet all hypotheses of the statements about context frames and panels.
-/

set_option Elab.async false
namespace Sys2Proof.Tests

open Machine Safety

/-! ### Pages whose tables lie in page 0 -/

/-- Pages 2 to 5 of ASID 0, and page 6 without W, stand in page tables in page 0; other bytes follow. -/
def lowTables : List Host.Cell :=
  [(0, 1), (16, 0x5F), (17, 0xCE), (18, 8), (24, 0x5F), (25, 0xCE), (26, 0xC), (32, 0x5F), (33, 0xCE), (34, 0x10), (40, 0x5F), (41, 0xCE),
    (42, 0x14), (48, 0x5B), (49, 0xCE), (50, 0x18), (0x800, 1)]
def low (more : List Host.Cell) (s : State) : State :=
  { s with mem := lowTables ++ more, tables := { s.tables with root := 0x800 } }

/-- What the walk of such a page rests on. -/
structure Mapped (t : State) : Prop where
  root : t.tables.root = 0x800
  moves : t.moves = []
  parts : ∃ p, getPart t 0 = some p ∧ p.desc.hbmch.testBit 0 = true
  wf : Memory.wf t.mem = true
  top : physNum t 0x800 8 = 1
  self : physNum t 0 8 = 1
  leaf : ∀ n, 2 ≤ n → n ≤ 5 → physNum t (8 * n) 8 = 2 ^ 18 * n + 0xCE5F

theorem walk_mapped {t : State} (h : Mapped t) {a : Nat} (h1 : 0x2000 ≤ a) (h2 : a < 0x6000) :
    walk t 0 (some 0) a = .leaf (2 ^ 18 * (a / 4096) + 0xCE5F) (8 * (a / 4096)) 12 := by
  have h0 : ∀ k, 1 ≤ k → field a (20 + 9 * k) (12 + 9 * k) = 0 := by
    intro k hk
    unfold field
    rw [Nat.shiftRight_eq_div_pow, Nat.div_eq_of_lt, Nat.zero_mod]
    calc a < 2 ^ 21 := by omega
      _ ≤ 2 ^ (12 + 9 * k) := Nat.pow_le_pow_right (by decide) (by omega)
  have hf : field a 20 12 = a / 4096 := by unfold field; rw [Nat.shiftRight_eq_div_pow]; simp only [Nat.reduceSub, Nat.reduceAdd, Nat.reducePow]; omega
  have hl := h.leaf (a / 4096) (by omega) (by omega)
  unfold walk rootEntry
  rw [h.root]
  simp only [Nat.zero_mod, Nat.mul_zero, Nat.add_zero, h.top]
  rw [show (field 1 51 12 * 4096 : Nat) = 0 by decide +kernel]
  have up : ∀ l, walkFrom t a (l + 1) 0 = walkFrom t a l 0 := by
    intro l
    conv => lhs; unfold walkFrom
    rw [h0 (l + 1) (by omega)]
    simp only [Nat.mul_zero, Nat.add_zero, h.self]
    rw [show leafPa 1 = 0 by decide +kernel]
    simp [show leafV 1 = true by decide +kernel, show field 1 63 58 = 0 by decide +kernel, show tierOf 0 = 1 by decide +kernel,
      show leafR 1 = false by decide +kernel, show leafW 1 = false by decide +kernel, show leafX 1 = false by decide +kernel]
  rw [show (4 : Nat) = 3 + 1 from rfl, up, show (3 : Nat) = 2 + 1 from rfl, up, show (2 : Nat) = 1 + 1 from rfl, up,
    show (1 : Nat) = 0 + 1 from rfl, up]
  unfold walkFrom
  simp only [Nat.mul_zero, Nat.add_zero, hf, Nat.zero_add, hl]
  have hc : ∀ n, n = 2 ∨ n = 3 ∨ n = 4 ∨ n = 5 → leafV (2 ^ 18 * n + 0xCE5F) = true ∧ field (2 ^ 18 * n + 0xCE5F) 63 58 = 0 ∧
      tierOf (leafPa (2 ^ 18 * n + 0xCE5F)) ≠ 0 ∧ leafR (2 ^ 18 * n + 0xCE5F) = true ∧ leafW (2 ^ 18 * n + 0xCE5F) = true ∧
      leafCC (2 ^ 18 * n + 0xCE5F) ≠ 3 ∧ leafAff (2 ^ 18 * n + 0xCE5F) ≠ 0 ∧ leafS64 (2 ^ 18 * n + 0xCE5F) = false := by
    intro n hn
    rcases hn with e | e | e | e <;> subst e <;> decide +kernel
  obtain ⟨c1, c2, c3, c4, c5, c6, c7, c8⟩ := hc (a / 4096) (by omega)
  generalize 2 ^ 18 * (a / 4096) + 0xCE5F = leaf at c1 c2 c3 c4 c5 c6 c7 c8 ⊢
  simp [c1, c2, c3, c4, c5, c6, c7, c8, show bitOf 1 0 = true by decide +kernel, show field 1 6 1 = 0 by decide +kernel]

theorem leafPa_mapped {a : Nat} (h1 : 0x2000 ≤ a) (h2 : a < 0x6000) : leafPa (2 ^ 18 * (a / 4096) + 0xCE5F) = a / 4096 * 4096 := by
  have hc : ∀ n, n = 2 ∨ n = 3 ∨ n = 4 ∨ n = 5 → leafPa (2 ^ 18 * n + 0xCE5F) = n * 4096 := by
    intro n hn
    rcases hn with e | e | e | e <;> subst e <;> decide +kernel
  exact hc _ (by omega)

theorem allows_mapped {a : Nat} (h1 : 0x2000 ≤ a) (h2 : a < 0x6000) (k : AccKind) :
    leafAllows (2 ^ 18 * (a / 4096) + 0xCE5F) false k = true ∧ (bitOf (2 ^ 18 * (a / 4096) + 0xCE5F) 14 = true ∧
      bitOf (2 ^ 18 * (a / 4096) + 0xCE5F) 15 = true) := by
  have hc : ∀ n, n = 2 ∨ n = 3 ∨ n = 4 ∨ n = 5 → ∀ k, leafAllows (2 ^ 18 * n + 0xCE5F) false k = true ∧
      (bitOf (2 ^ 18 * n + 0xCE5F) 14 = true ∧ bitOf (2 ^ 18 * n + 0xCE5F) 15 = true) := by
    intro n hn k
    rcases hn with e | e | e | e <;> subst e <;> cases k <;> decide +kernel
  exact hc _ (by omega) k

theorem xlate_mapped {t : State} (h : Mapped t) {a : Nat} (h1 : 0x2000 ≤ a) (h2 : a < 0x6000) (k : AccKind) :
    deviceXlate t 0 (some 0) k a = .ok a (2 ^ 18 * (a / 4096) + 0xCE5F) := by
  have hp : paIn (2 ^ 18 * (a / 4096) + 0xCE5F) 12 a = a := by
    unfold paIn
    rw [if_neg (by decide), leafPa_mapped h1 h2]; omega
  obtain ⟨p, hp1, hp2⟩ := h.parts
  have hch : channelOk t (some 0) a = true := by
    have ht : tierOf a = 1 := by unfold tierOf; rw [if_pos (by omega)]
    simp only [channelOk, Option.bind_some, hp1, ht, if_true]
    rw [Nat.div_eq_of_lt (by omega)]
    exact hp2
  have hr : redirect t a = a := by simp [redirect, moveOf, h.moves]
  unfold deviceXlate
  rw [if_neg (by omega), walk_mapped h h1 h2]
  simp only [hp, (allows_mapped h1 h2 k).1, hch, hr, Bool.not_true, Bool.false_eq_true, if_false]

theorem dirty_mapped {t : State} (h : Mapped t) {a : Nat} (h1 : 0x2000 ≤ a) (h2 : a < 0x6000) : deviceDirty t 0 (some 0) a = t := by
  unfold deviceDirty
  rw [walk_mapped h h1 h2]
  obtain ⟨-, e1, e2⟩ := allows_mapped h1 h2 .read
  generalize 2 ^ 18 * (a / 4096) + 0xCE5F = leaf at e1 e2 ⊢
  simp [e1, e2]

theorem mread_mwrite_above {m : List Host.Cell} (w : Memory.wf m = true) {pa : Nat} {bs : List Byte} :
    ∀ n a, a + n ≤ pa → mread (mwrite m pa bs) a n = mread m a n := by
  intro n
  induction n with
  | zero => intro a _; rfl
  | succ n ih =>
    intro a ha
    unfold mread
    rw [ih (a + 1) (by omega), mget_mwrite_out w (by omega)]

theorem mapped_write {t : State} (h : Mapped t) {a : Nat} (h1 : 0x2000 ≤ a) (bs : List Byte) : Mapped (writePhys t a bs) := by
  have e : ∀ x, x + 8 ≤ 0x2000 → physNum (writePhys t a bs) x 8 = physNum t x 8 := by
    intro x hx
    unfold physNum mnum
    rw [show (writePhys t a bs).mem = mwrite t.mem a bs from rfl, mread_mwrite_above h.wf _ _ (by omega)]
  exact ⟨h.root, h.moves, h.parts, wf_writePhys a bs h.wf, by rw [e _ (by decide)]; exact h.top, by rw [e _ (by decide)]; exact h.self,
    fun n n1 n2 => by rw [e _ (by omega)]; exact h.leaf n n1 n2⟩

/-- A write of the device to such pages succeeds. -/
theorem write_mapped {s : State} (hs : Mapped s) : ∀ (bs : List Byte) (a : Nat) (t : State), Mapped t → 0x2000 ≤ a →
    a + bs.length ≤ 0x6000 → ∃ u, deviceWrite.go s 0 (some 0) a bs t = .ok u := by
  intro bs
  induction bs with
  | nil => intro a t _ _ _; exact ⟨t, rfl⟩
  | cons b bs ih =>
    intro a t h h1 h2
    simp only [List.length_cons] at h2
    unfold deviceWrite.go
    rw [xlate_mapped hs h1 (by omega)]
    dsimp only
    rw [dirty_mapped h h1 (by omega)]
    exact ih (a + 1) _ (mapped_write h h1 [b]) (by omega) (by omega)

def mappedB (t : State) : Bool :=
  decide (t.tables.root = 0x800 ∧ t.moves = []) && (match getPart t 0 with | some p => p.desc.hbmch.testBit 0 | none => false) &&
    decide (Memory.wf t.mem = true ∧ physNum t 0x800 8 = 1 ∧ physNum t 0 8 = 1 ∧ ∀ n ∈ [(2 : Nat), 3, 4, 5], physNum t (8 * n) 8 = 2 ^ 18 * n + 0xCE5F)

theorem mapped_of {t : State} (h : mappedB t = true) : Mapped t := by
  simp only [mappedB, Bool.and_eq_true, decide_eq_true_eq] at h
  obtain ⟨⟨⟨h1, h2⟩, h3⟩, h4, h5, h6, h7⟩ := h
  refine ⟨h1, h2, ?_, h4, h5, h6, fun n n1 n2 => h7 n (by simp; omega)⟩
  cases hp : getPart t 0 with
  | none => simp [hp] at h3
  | some p => simp only [hp] at h3; exact ⟨p, rfl, h3⟩

/-- What a save writes of a panel. -/
def savedBytes (s : State) (p : Panel) (frame cause fva : Nat) : List Byte :=
  let v := packPanel s { p with stopped := false, saveVa := none } frame 0
  frameBytes s { v with wefts := v.wefts.map savedWeft } cause fva

/-- A save of a panel to such pages succeeds. -/
theorem save_mapped {s : State} {k : PKey} {frame cause fva : Nat} (p : Panel) (hk : k.part = some 0) (h0 : (getPanel s k).isSome = true)
    (hp : getPanel (sendBatches s k) k = some p) (hm : mappedB (sendBatches s k) = true) (h1 : 0x2000 ≤ frame)
    (h2 : frame + (savedBytes (sendBatches s k) p frame cause fva).length ≤ 0x6000) :
    ∃ y, savePanel s k frame 0 cause fva = .ok y ∧ y.1 = (savedBytes (sendBatches s k) p frame cause fva).length := by
  obtain ⟨q, hq⟩ := Option.isSome_iff_exists.mp h0
  obtain ⟨u, hu⟩ := write_mapped (mapped_of hm) _ frame _ (mapped_of hm) h1 h2
  unfold savePanel
  simp only [hq, hp, hk]
  unfold deviceWrite
  unfold savedBytes at hu
  simp only [hu]
  exact ⟨_, rfl, rfl⟩

/-! ### CTXSV and CTXLD -/

/-- A small panel beside that of the weft: no scratchpad, no tiles, no scalar registers. -/
def smallPanel : Panel :=
  let p := loadPanel otherKey
  let m : Meta := { p.m with scratch := 0, acc := 0, csregs := 0, psregs := 0 }
  { p with m := m }

/-- Pages 2 and 3 for the weft, whose s12:s13 name page 2; the small panel has a weft or none. -/
def saves (m : List Host.Cell) (ws : List Weft) (ps : List Panel) : State :=
  let s := onW (fun w => scal 12 0x2000 (scal 13 0 (scal 14 2944 (scal 15 2945 w)))) mems
  low m { s with
    tlb := [⟨0, 2, 12, 0, loadLeaf + 2 ^ 18, 16, none⟩, ⟨0, 3, 12, 0, loadLeaf + 2 * 2 ^ 18, 24, none⟩]
    panels := s.panels ++ ps
    wefts := s.wefts ++ ws }

def resident : State := saves [] [] [smallPanel]

theorem frameSize_resident : frameSize (stopPanel resident otherKey) otherKey = 2945 := by decide +kernel

theorem savedBytes_resident : (savedBytes (sendBatches (stopPanel resident otherKey) otherKey) { smallPanel with stopped := true }
    0x2000 0 0).length = 2945 := by decide +kernel

theorem test_save_inputs :
    (∃ (s : State) (f : Fields) (x : Ctx), Runs s .ctxsv f .once x ∧ Unwatched x ∧ ∃ va n cap, rd1 x .a true = .ok va ∧ num1 x .b = .ok n ∧
      num1 x .c = .ok cap ∧ va.toNat % 4096 = 0 ∧ (⟨x.w.key.part, BitVec.ofNat 32 n⟩ : PKey) ≠ x.w.key ∧
      getPanel s ⟨x.w.key.part, BitVec.ofNat 32 n⟩ = none ∧ CanWriteIn x s false (splat (2 ^ 31)) id) ∧
    (∃ (s : State) (f : Fields) (x : Ctx), Runs s .ctxsv f .once x ∧ Unwatched x ∧ ∃ va n cap p, rd1 x .a true = .ok va ∧ num1 x .b = .ok n ∧
      num1 x .c = .ok cap ∧ va.toNat % 4096 = 0 ∧
      let k : PKey := ⟨x.w.key.part, BitVec.ofNat 32 n⟩
      k ≠ x.w.key ∧ getPanel s k = some p ∧ cap = 2944 ∧ cap < frameSize (stopPanel s k) k) ∧
    ∃ (s : State) (f : Fields) (x : Ctx), Runs s .ctxsv f .once x ∧ Unwatched x ∧ ∃ va n cap p, rd1 x .a true = .ok va ∧ num1 x .b = .ok n ∧
      num1 x .c = .ok cap ∧ va.toNat % 4096 = 0 ∧
      let k : PKey := ⟨x.w.key.part, BitVec.ofNat 32 n⟩
      k ≠ x.w.key ∧ getPanel s k = some p ∧ frameSize (stopPanel s k) k = cap ∧ saveBusy (stopPanel s k) k = false ∧
      (∃ accs, checkAll x .write 0 0 ((rangePages va.toNat cap).map fun a => (lowest x.act, max va.toNat a)) = .ok accs) ∧
      ∃ y, savePanel (stopPanel s k) k va.toNat x.p.asid 0 0 = .ok y ∧ y.1 = cap :=
  let f (n : BitVec 8) (c : Nat) : Fields := plain 1 0 (.s 2) (.s 12) (.imm n) (.s (Fin.ofNat 1024 c))
  ⟨unit_and resident (f 5 14) (by decide +kernel) ⟨0x2000, 5, 2944, ok_eq (by decide +kernel), ok_eq (by decide +kernel),
      ok_eq (by decide +kernel), by decide +kernel, by decide +kernel, by decide +kernel, ok_some (by decide +kernel)⟩,
    unit_and resident (f 1 14) (by decide +kernel) ⟨0x2000, 1, 2944, smallPanel, ok_eq (by decide +kernel), ok_eq (by decide +kernel),
      ok_eq (by decide +kernel), by decide +kernel, by decide +kernel, by decide +kernel, rfl,
      lt_of_lt_of_eq (by decide) frameSize_resident.symm⟩,
    unit_and resident (f 1 15) (by decide +kernel) ⟨0x2000, 1, 2945, smallPanel, ok_eq (by decide +kernel), ok_eq (by decide +kernel),
      ok_eq (by decide +kernel), by decide +kernel, by decide +kernel, by decide +kernel, frameSize_resident, by decide +kernel,
      ok_some (by decide +kernel), by
        obtain ⟨y, h1, h2⟩ := save_mapped (s := stopPanel resident otherKey) (k := otherKey) (frame := 0x2000) (cause := 0) (fva := 0)
          { smallPanel with stopped := true } (by decide +kernel) (by decide +kernel) (by decide +kernel) (by decide +kernel) (by decide +kernel)
          (by rw [savedBytes_resident]; decide)
        exact ⟨y, h1, h2.trans savedBytes_resident⟩⟩⟩

/-- A read of the device of such pages gives their bytes. -/
theorem read_mapped {t : State} (h : Mapped t) : ∀ n a, 0x2000 ≤ a → a + n ≤ 0x6000 → deviceRead t 0 (some 0) a n = .ok (mread t.mem a n) := by
  intro n
  induction n with
  | zero => intro a _ _; rfl
  | succ n ih =>
    intro a h1 h2
    unfold deviceRead mread
    rw [xlate_mapped h h1 (by omega) .read, ih (a + 1) (by omega) (by omega)]

/-- The other weft has a batch in flight at page 2, resident or in a saved panel. -/
def flying (w : Weft) : Weft := { w with flight := some (0x2000, 3), subs := [⟨0x1000, 3, some .svc, .svc 3⟩] }
def savedOther : Saved := ⟨otherKey, 0x3000, 0, loadPanel otherKey, [otherWeft flying], [], []⟩
def svcAt (more : Weft → Weft) (vs : List Saved) : State :=
  low [] { onW (fun w => scal 12 0x2000 (scal 13 0 w)) (other more) with saved := vs }

theorem batch_mapped {t : State} {p : Part} (h : mappedB t = true) (hp : getPart t 0 = some p) (ha : p.desc.asidLo = 0) :
    (readBatch t (some 0) 0x2000).isSome = true := by
  simp only [readBatch, Option.bind_some, hp, ha, read_mapped (mapped_of h) 256 0x2000 (by decide) (by decide)]
  rfl

theorem test_wake_service_inputs :
    (∃ (s : State) (f : Fields) (x : Ctx), Runs s .wakeSvc f .once x ∧ Unwatched x ∧ ∃ a w, rd1 x .a true = .ok a ∧
      (a.toNat % 256 = 0 ∧ s.wefts.find? (inFlight x.w.key.part a.toNat) = some w ∧ w.stepping = none ∧ w.stepped = none) ∧
      (readBatch s w.key.part a.toNat).isSome = true) ∧
    ∃ (s : State) (f : Fields) (x : Ctx), Runs s .wakeSvc f .once x ∧ Unwatched x ∧ ∃ a v w, rd1 x .a true = .ok a ∧
      (a.toNat % 256 = 0 ∧ s.wefts.find? (inFlight x.w.key.part a.toNat) = none ∧
        (s.saved.findSome? fun v => (v.wefts.find? (inFlight x.w.key.part a.toNat)).map fun w => (v, w)) = some (v, w)) ∧
      (readBatch s w.key.part a.toNat).isSome = true :=
  let f : Fields := plain 1 9 (.p 1) (.s 12) .zero .zero
  ⟨unit_and (svcAt flying []) f (by decide +kernel) ⟨0x2000, otherWeft flying, ok_eq (by decide +kernel), by decide +kernel,
      batch_mapped (p := loadPart) (by decide +kernel) (by decide +kernel) rfl⟩,
    unit_and (svcAt id [savedOther]) f (by decide +kernel) ⟨0x2000, savedOther, otherWeft flying, ok_eq (by decide +kernel),
      by decide +kernel, batch_mapped (p := loadPart) (by decide +kernel) (by decide +kernel) rfl⟩⟩

/-- The small panel is saved in a frame at 0x2000, whose header stands there. -/
def savedSmall : Saved := ⟨otherKey, 0x2000, 0, smallPanel, [otherWeft id], [], []⟩
def framed : State :=
  { saves [(0x2000, 0x43), (0x2001, 0x46), (0x2002, 0x52), (0x2003, 0x4D), (0x2004, 1), (0x2006, 1), (0x200C, 1), (0x2020, 0x41),
    (0x2021, 0x17), (0x2034, 1), (0x2038, 0x81), (0x2039, 0xB)] [] [] with saved := [savedSmall] }

/-- What CTXLD reads of a frame. -/
def headOf (s : State) (x : Ctx) (va : Nat) : List Byte :=
  match deviceRead s x.p.asid x.w.key.part va 256 with | .ok h => h | .error _ => []

theorem headOf_mapped {s : State} {x : Ctx} {va : Nat} (hm : mappedB s = true) (h1 : x.p.asid = 0) (h2 : x.w.key.part = some 0)
    (h3 : 0x2000 ≤ va) (h4 : va + 256 ≤ 0x6000) : headOf s x va = mread s.mem va 256 := by
  unfold headOf
  rw [h1, h2, read_mapped (mapped_of hm) 256 va h3 h4]

theorem test_restore_inputs :
    (∃ (s : State) (f : Fields) (x : Ctx), Runs s .ctxld f .once x ∧ Unwatched x ∧ ∃ va b, rd1 x .a true = .ok va ∧ num1 x .b = .ok b ∧
      (∃ accs, checkAll x .read 0 0 ((rangePages va.toNat 256).map fun a => (lowest x.act, max va.toNat a)) = .ok accs) ∧
      frameOwner s x.w.key.part (headOf s x va.toNat) = none ∧ CanWriteIn x s false (splat 2) id) ∧
    ∃ (s : State) (f : Fields) (x : Ctx), Runs s .ctxld f .once x ∧ Unwatched x ∧ ∃ va v, rd1 x .a true = .ok va ∧ num1 x .b = .ok 0 ∧
      (∃ accs, checkAll x .read 0 0 ((rangePages va.toNat 256).map fun a => (lowest x.act, max va.toNat a)) = .ok accs) ∧
      frameOwner s x.w.key.part (headOf s x va.toNat) = some v ∧
      restoreSet v 0x200 = none ∧ (restoreSet v 1 = some [1] ∧ restoreFits s v [1] = false) ∧
      restoreSet v 0 = some [0] ∧ restoreFits s v [0] = true ∧ v.key ≠ x.w.key ∧ v.panel.key = v.key ∧ getPanel s v.key = none ∧
      (∃ accs, checkAll x .read 0 0 ((rangePages va.toNat (at8 (headOf s x va.toNat) 32 8)).map fun a => (lowest x.act, max va.toNat a)) = .ok accs) ∧
      (∃ accs, checkAll x .write 0 0 [(lowest x.act, va.toNat)] = .ok accs) ∧ CanWrite x none false (splat 0) id :=
  let f : Fields := plain 1 8 (.s 2) (.s 12) (.imm 0) .zero
  ⟨unit_and (saves [] [] []) f (by decide +kernel) ⟨0x2000, 0, ok_eq (by decide +kernel), ok_eq (by decide +kernel), ok_some (by decide +kernel),
      (by rw [headOf_mapped (by decide +kernel) (by decide +kernel) (by decide +kernel) (by decide +kernel) (by decide +kernel)]; decide +kernel),
      ok_some (by decide +kernel)⟩,
    unit_and framed f (by decide +kernel) ⟨0x2000, savedSmall, ok_eq (by decide +kernel), ok_eq (by decide +kernel), ok_some (by decide +kernel),
      (by rw [headOf_mapped (by decide +kernel) (by decide +kernel) (by decide +kernel) (by decide +kernel) (by decide +kernel)]; decide +kernel),
      and4 (by decide +kernel) (and3 (by decide +kernel) ⟨(by
        rw [headOf_mapped (by decide +kernel) (by decide +kernel) (by decide +kernel) (by decide +kernel) (by decide +kernel)]
        exact ok_some (by decide +kernel)), ok_some (by decide +kernel), ok_some (by decide +kernel)⟩)⟩⟩

/-! ### PANEL_START, PREEMPTION_REQUEST and TRANSLATION_FAULT_SAVE -/

/-- A task record at 0x2000 whose metadata stands at 0x2080: two wefts, the first a producer, entry 0x3000. -/
def startable : State :=
  low [(0x2030, 0x80), (0x2031, 0x20), (0x2080, 1), (0x2084, 1), (0x2085, 0x10), (0x2088, 0x40), (0x208A, 0x40), (0x208D, 1), (0x208F, 1),
    (0x2099, 0x10), (0x20A9, 0x30)] { State.reset with started := true, parts := [(0, loadPart)] }

theorem test_panel_start_inputs : ∃ (s : State) (r : StartArgs), s.started = true ∧ (∀ w ∈ s.wefts, w.key ≠ r.key) ∧
    ∃ p, startPanel s r = some p ∧ shapeWefts p.m = 2 ∧ shapeProd p.m = 1 ∧
      ∀ c ∈ p.cores, (s.wefts.filter fun w => w.id.core == c).length + perCore p ≤ 256 :=
  ⟨startable, ⟨key, 0, 0x2000, 0, false, .user, none⟩, by decide +kernel, by decide +kernel,
    some_and (loadPanel key) (by decide +kernel) (by decide +kernel)⟩

theorem test_preempt_inputs : ∃ (s : State) (k : PKey) (p : Panel) (w : Weft), getPanel s k = some p ∧ getWeft s w.id = some w ∧ w.key = k ∧
    w.region.isSome ∧ highTrap w = false :=
  ⟨inRegion false, key, loadPanel key, (getWeft (inRegion false) wid).getD weft, by decide +kernel⟩

/-- The small panel is to be saved for a fault; the partition's pool holds a frame at 0x4000, or none. -/
def faulted : Panel := { smallPanel with saveVa := some (0x7000, 0, 1) }
def pooled (m : List Host.Cell) : State :=
  onPart (fun p => { p with desc := { p.desc with errq := 0x2000 } })
    (saves ([(0x2011, 0x21), (0x2018, 0x41), (0x2019, 0x17)] ++ m ++ [(0x2111, 0x40)]) [] [faulted])

theorem num_mapped {t : State} (h : Mapped t) (a n : Nat) (h1 : 0x2000 ≤ a) (h2 : a + n ≤ 0x6000) :
    deviceNum t 0 (some 0) a n = .ok (physNum t a n) := by
  unfold deviceNum
  rw [read_mapped h n a h1 h2]; rfl

/-- The pool of such a partition. -/
theorem pool_mapped {t : State} {p : Part} (h : Mapped t) (hp : getPart t 0 = some p) (h2 : p.desc.asidLo = 0) (h3 : p.desc.errq = 0x2000)
    (h4 : physNum t 0x2010 8 = 0x2100) (z : Nat) :
    poolFrame t 0 z = if physNum t 0x2100 4 = 0 ∨ physNum t 0x2108 4 ≠ 0 ∨ physNum t 0x2018 8 < z then none
      else if physNum t 0x2100 4 = 1 then some (physNum t 0x2110 8, 0x2100) else poolFrame t 0 z := by
  unfold poolFrame
  simp only [hp, h2, h3, Nat.reduceAdd]
  rw [num_mapped h 0x2010 8 (by decide) (by decide), num_mapped h 0x2018 8 (by decide) (by decide), h4]
  dsimp only
  rw [num_mapped h 0x2100 4 (by decide) (by decide), num_mapped h (0x2100 + 8) 4 (by decide) (by decide)]
  dsimp only
  by_cases hc : physNum t 0x2100 4 = 0 ∨ physNum t 0x2108 4 ≠ 0 ∨ physNum t 0x2018 8 < z
  · rw [if_pos hc, if_pos hc]
  · rw [if_neg hc, if_neg hc]
    by_cases h1 : physNum t 0x2100 4 = 1
    · rw [if_pos h1, h1]
      simp only [Nat.sub_self, Nat.mul_zero, Nat.add_zero]
      rw [num_mapped h (0x2100 + 16) 8 (by decide) (by decide)]
      rfl
    · rw [if_neg h1]

/-- A save from such a pool. -/
theorem pool_save {t : State} {p : Part} {k : PKey} {z frame va : Nat} (h : Mapped t) (hp : getPart t 0 = some p) (h2 : p.desc.asidLo = 0)
    (h3 : p.desc.errq = 0x2000) (h4 : physNum t 0x2010 8 = 0x2100) (hk : k.part = some 0) (hz : frameSize t k = z)
    (h5 : physNum t 0x2100 4 = 1) (h6 : physNum t 0x2108 4 = 0) (h7 : z ≤ physNum t 0x2018 8) (h8 : physNum t 0x2110 8 = frame)
    (hs : ∃ y, savePanel (writePhys (writePhys (writePhys (writePhys t 0x2100 [0]) 0x2101 [0]) 0x2102 [0]) 0x2103 [0]) k frame 0 1 va = .ok y) :
    ∃ y, savePool t k va = some y := by
  have hf := pool_mapped h hp h2 h3 h4 z
  rw [if_neg (by omega), if_pos h5, h8] at hf
  have one : ∀ (a : Nat) (r : List Byte) (u : State), Mapped u → 0x2000 ≤ a → a < 0x6000 →
      deviceWrite.go t 0 (some 0) a (0 :: r) u = deviceWrite.go t 0 (some 0) (a + 1) r (writePhys u a [0]) := by
    intro a r u hu a1 a2
    conv => lhs; unfold deviceWrite.go
    rw [xlate_mapped h a1 a2]
    dsimp only
    rw [dirty_mapped hu a1 a2]
  have w := fun {u : State} (hu : Mapped u) (a : Nat) (h : 0x2000 ≤ a) => mapped_write hu h [(0 : Byte)]
  have h1 : popPool t 0 0x2100 = .ok (writePhys (writePhys (writePhys (writePhys t 0x2100 [0]) 0x2101 [0]) 0x2102 [0]) 0x2103 [0]) := by
    unfold popPool
    simp only [hp, h2]
    rw [num_mapped h 0x2100 4 (by decide) (by decide), h5]
    dsimp only
    rw [show toBytes 4 (1 - 1) = [0, 0, 0, 0] from rfl]
    unfold deviceWrite
    rw [one _ _ _ h (by decide) (by decide), one _ _ _ (w h _ (by decide)) (by decide) (by decide),
      one _ _ _ (w (w h _ (by decide)) _ (by decide)) (by decide) (by decide),
      one _ _ _ (w (w (w h _ (by decide)) _ (by decide)) _ (by decide)) (by decide) (by decide)]
    unfold deviceWrite.go
    rfl
  obtain ⟨y, hy⟩ := hs
  unfold savePool
  simp only [hk, hz, hp, hf, h1, h2, hy]
  exact ⟨_, rfl⟩

theorem pool_none {t : State} {p : Part} {k : PKey} {va : Nat} (h : Mapped t) (hp : getPart t 0 = some p) (h2 : p.desc.asidLo = 0)
    (h3 : p.desc.errq = 0x2000) (h4 : physNum t 0x2010 8 = 0x2100) (hk : k.part = some 0) (h5 : physNum t 0x2100 4 = 0) :
    savePool t k va = none := by
  have hf := pool_mapped h hp h2 h3 h4 (frameSize t k)
  rw [if_pos (.inl h5)] at hf
  unfold savePool
  simp only [hk, hp, hf]

theorem frameSize_pooled : frameSize (pooled [(0x2100, 1)]) otherKey = 2945 := by decide +kernel

/-- The pool without its entry. -/
def popped : State :=
  writePhys (writePhys (writePhys (writePhys (pooled [(0x2100, 1)]) 0x2100 [0]) 0x2101 [0]) 0x2102 [0]) 0x2103 [0]

theorem savedBytes_popped : (savedBytes (sendBatches popped otherKey) faulted 0x4000 1 0x7000).length = 2945 := by decide +kernel

theorem part_pooled (m : List Host.Cell) : getPart (pooled m) 0 = getPart (pooled []) 0 := rfl

theorem test_fault_save_inputs :
    (∃ (s : State) (k : PKey) (p : Panel) (va core : Nat) (lanes : Mask), getPanel s k = some p ∧ p.saveVa = some (va, core, lanes) ∧
      saveBusy s k = false ∧ ∃ y, savePool s k va = some y) ∧
    ∃ (s : State) (k : PKey) (p : Panel) (va core : Nat) (lanes : Mask), getPanel s k = some p ∧ p.saveVa = some (va, core, lanes) ∧
      saveBusy s k = false ∧ savePool s k va = none := by
  obtain ⟨p, p1, p2, p3⟩ : ∃ p, getPart (pooled []) 0 = some p ∧ p.desc.asidLo = 0 ∧ p.desc.errq = 0x2000 :=
    some_and loadPart (by decide +kernel) (by decide +kernel)
  refine ⟨⟨pooled [(0x2100, 1)], otherKey, faulted, 0x7000, 0, 1, by decide +kernel, by decide +kernel, by decide +kernel, ?_⟩,
    pooled [], otherKey, faulted, 0x7000, 0, 1, by decide +kernel, by decide +kernel, by decide +kernel, ?_⟩
  · refine pool_save (frame := 0x4000) (mapped_of (by decide +kernel)) ((part_pooled _).trans p1) p2 p3 (by decide +kernel) (by decide +kernel)
      frameSize_pooled (by decide +kernel) (by decide +kernel) (by decide +kernel) (by decide +kernel) ?_
    obtain ⟨y, h2, -⟩ := save_mapped (s := popped) (k := otherKey) (frame := 0x4000) (cause := 1) (fva := 0x7000)
      faulted (by decide +kernel) (by decide +kernel) (by decide +kernel) (by decide +kernel) (by decide +kernel) (by rw [savedBytes_popped]; decide)
    exact ⟨y, h2⟩
  · exact pool_none (mapped_of (by decide +kernel)) p1 p2 p3 (by decide +kernel) (by decide +kernel) (by decide +kernel)

end Sys2Proof.Tests
end

