-- ==== Sys2Proof/Tests/Arrive.lean ====
section
/-!
SUPPORT. States that meet all hypotheses of the statements about what arrives for a weft, and about court, bench and bins.
-/

set_option Elab.async false
namespace Sys2Proof.Tests

open Machine Safety

/-- A computation of a state that gives one, or ends with a code. -/
def doneB (r : Except Nat State) : Bool := match r with | .ok _ => true | .error _ => false
def codeIs (r : Except Nat State) (n : Nat) : Bool := match r with | .ok _ => false | .error m => m == n

theorem done_of {r : Except Nat State} (h : doneB r = true) : ∃ s, r = .ok s := by unfold doneB at h; cases r <;> simp_all
theorem code_of {r : Except Nat State} {n : Nat} (h : codeIs r n = true) : r = .error n := by unfold codeIs at h; cases r <;> simp_all

/-- A weft waits for a walk of a page at front 3. -/
def walking (vpage : Nat) : State :=
  { low [] (onW (fun w => { w with subs := [⟨0x1000, 0xFFFF, some .xlate, .none⟩], waits := [(0, .page 0 vpage 3)] }) start) with
    walks := [⟨0, some 0, vpage, false, some wid, 3⟩] }

theorem test_walk_inputs :
    (∃ (s : State) (k : Walk), s.walks = [k] ∧ k.asid = (0 : BitVec 16).toNat ∧ k.vpage = 2 ∧
      ∃ s1, finishAt { s with walks := [] } k.front k.asid k.part (2 * 4096) = .ok s1) ∧
    ∃ (s : State) (k : Walk) (id : WId) (w : Weft) (b : Machine.Sub), s.walks = [k] ∧ k.asid = (0 : BitVec 16).toNat ∧ k.vpage = 9 ∧
      k.w = some id ∧ finishAt { s with walks := [] } k.front k.asid k.part (9 * 4096) = .error cTranslation ∧ getWeft s id = some w ∧
      b ∈ w.subs ∧ b.park = some .xlate ∧ waitOf w b = .page k.asid 9 k.front :=
  ⟨⟨walking 2, ⟨0, some 0, 2, false, some wid, 3⟩, rfl, rfl, rfl, done_of (by decide +kernel)⟩,
    walking 9, ⟨0, some 0, 9, false, some wid, 3⟩, wid, (getWeft (walking 9) wid).getD weft, ⟨0x1000, 0xFFFF, some .xlate, .none⟩,
      rfl, rfl, rfl, rfl, code_of (by decide +kernel), by decide +kernel⟩

/-- A wide result of lanes 0 and 15 on its way, and one value for a scalar pair. -/
def flown : Landing := ⟨4, wid, .v 12, true, 0x8001, (List.range 16).map fun l => BitVec.ofNat 64 (2 ^ 40 + l), 0, 0, false, false, 0x1008, []⟩

theorem test_landing_inputs : ∃ (s : State) (l : Landing) (w : Weft), (s.landings.find? fun y => y.id == l.id) = some l ∧
    mayLand s l = true ∧ l.err = 0 ∧ getWeft s l.w = some w :=
  ⟨{ start with landings := [flown] }, flown, weft, by decide +kernel⟩

/-- Symbol 2 stands in v12:v13, times 3 plus the lane number, and in v14; its value is at hand. -/
def symWeft : Weft :=
  { weft with vregs := [(12, .sym ⟨2, 1, .uni 3, .per ((List.range 16).map (BitVec.ofNat 64)), []⟩),
                (13, .symHi ⟨2, 1, .uni 3, .per ((List.range 16).map (BitVec.ofNat 64)), []⟩), (14, .sym ⟨2, 0, .uni 1, .uni 0, []⟩)]
              syms := [(2, ⟨1, 0, []⟩)] }
def symGot : SymAcc :=
  ⟨key, 0, 2, 0, some ((List.range 16).map fun l => BitVec.ofNat 64 (2 ^ 40 + l)), none, [], 4, false, 0, 3, 0, .ld, f0, [], [], [], []⟩
def symState : State := { start with wefts := [symWeft], symAccs := [symGot] }

theorem test_symbol_inputs : ∃ (s : State) (id : WId) (slot : SlotNo) (w : Weft) (p : Panel) (a : SymAcc) (v : List Word64),
    (getWeft s id = some w ∧ getPanel s w.key = some p) ∧
    ((s.symAccs.find? fun y => y.key == w.key && y.num == w.num && y.slot == slot.val) = some a ∧ symValue s a = some v ∧
      isSup id.core = false) ∧ ∃ n y, regNow w (.v n) = .sym y ∧ y.slot = slot.val ∧ y.kind ≤ 1 ∧ regNow w (.v (n + 1)) = .symHi y ∧ y.kind = 1 :=
  ⟨symState, wid, 2, symWeft, loadPanel key, symGot, (List.range 16).map fun l => BitVec.ofNat 64 (2 ^ 40 + l), by decide +kernel,
    by decide +kernel, 12, _, rfl, rfl, by decide, rfl, rfl⟩

/-- Two faults of symbolic accesses wait; a handler stands at kernel level. -/
def symFaulted : State :=
  onPart (fun p => { p with ktvec := 0x4000 }) (onW (fun w => { w with
    level := 0
    vregs := [(12, .sym ⟨15, 0, .uni 1, .uni 0, []⟩)]
    syms := [(15, ⟨1, 0, []⟩)]
    symFaults := [(15, 8, 2 ^ 63, 0x8001, 0x1000), (1, 7, 0, 1, 0x1008)] }) { start with cur := none })

theorem test_symbol_fault_inputs : ∃ (s : State) (id : WId) (w : Weft) (slot code tval : Nat) (lanes : Mask) (va : Word64)
    (rest : List (Nat × Nat × Nat × Mask × Word64)) (b : Machine.Sub) (l : Nat), s.cur = none ∧ getWeft s id = some w ∧
    w.symFaults = (slot, code, tval, lanes, va) :: rest ∧
    (w.subs.find? fun y => y.mask &&& ~~~handlerLanes w == 0 && !w.halted && holdFree y.hold) = some b ∧ b.mask ≠ 0 ∧
    code < 256 ∧ tval < 2 ^ 64 ∧ slot < 16 ∧ (∀ y ∈ w.subs, y ≠ b → y.mask &&& b.mask = 0) ∧ w.region = none ∧ heldWrites s (agentOf w) = false ∧ TakenAt s w code l ∧
    ∃ n y, regNow w (.v n) = .sym y ∧ y.slot = slot :=
  ⟨symFaulted, wid, (getWeft symFaulted wid).getD weft, 15, 8, 2 ^ 63, 0x8001, 0x1000, [(1, 7, 0, 1, 0x1008)], ⟨0x1000, 0xFFFF, none, .none⟩,
    1, and4 (by decide +kernel) (and4 (by decide +kernel) (and3 (by decide +kernel) ⟨taken_of (by decide +kernel), 12, _, rfl, rfl⟩))⟩

/-- A user interrupt is due to a weft of two sub-wefts. -/
def interrupted : State :=
  onW (fun w => { w with
    subs := [⟨0x1000, 0xFF, none, .none⟩, ⟨0x2000, 0xFF00, none, .none⟩], uivec := 0x7001, uimask := 6, uistat := 4 }) { start with cur := none }

theorem test_interrupt_inputs : ∃ (s : State) (id : WId) (w : Weft) (l : Nat) (b : Machine.Sub), getWeft s id = some w ∧
    uiSub s w = some l ∧ subAt w l = some b ∧ w.region = none ∧ heldWrites s (agentOf w) = false :=
  ⟨interrupted, wid, (getWeft interrupted wid).getD weft, 0, ⟨0x1000, 0xFF, none, .none⟩, by decide +kernel⟩

/-- The wefts 0 to n - 1 of core 0 in its quarter 0: those below k at the court, the others ready on the bench. -/
def quartered (n k busy : Nat) (more : Weft → Weft) : State :=
  { start with
    cur := none
    cores := [⟨0, [], [], [], [], 100, 0, [(0, busy)]⟩]
    wefts := (List.range n).map fun i =>
      more { launchWeft ⟨0, i⟩ 0 key i 1 3 0xFFFF 0x1000 with onCourt := decide (i < k), prio := i % 2, courtSince := 20 - i, benchSince := 20 - i } }

theorem test_court_inputs :
    (∃ (s : State) (id : WId) (w : Weft), getWeft s id = some w ∧ w.onCourt = true ∧ w.subs ≠ [] ∧ ∀ b ∈ w.subs, b.park ≠ none) ∧
    (∃ (s : State) (core q : Nat), readyBench s core q ≠ [] ∧ 0 < freeCourt s core q ∧ (s.wefts.map (·.id)).Nodup) ∧
    ∃ (s : State) (core q : Nat), rotationDue s core q = true ∧ (∃ a ∈ quarterWefts s core q, a.onCourt = true) ∧
      (s.wefts.map (·.id)).Nodup :=
  ⟨⟨quartered 2 1 0 fun w => { w with subs := [⟨0x1000, 0xFF, some .queue, .none⟩, ⟨0x2000, 0xFF00, some .owner, .none⟩] }, wid,
      { launchWeft ⟨0, 0⟩ 0 key 0 1 3 0xFFFF 0x1000 with
        onCourt := true, prio := 0, courtSince := 20, benchSince := 20
        subs := [⟨0x1000, 0xFF, some .queue, .none⟩, ⟨0x2000, 0xFF00, some .owner, .none⟩] }, by decide +kernel⟩,
    ⟨quartered 4 1 0 id, 0, 0, by decide +kernel⟩,
    quartered (Config.courtSlots + 2) Config.courtSlots 8 id, 0, 0, by decide +kernel, by decide +kernel, by decide +kernel⟩

/-- A bin of core 0 that holds eighteen threads with falling `$tid` and is due, and a younger one of the same panel; the
clock of the core stands at a cycle. -/
def binned (now : Nat) : State :=
  { start with
    cur := none
    wefts := [{ weft with key := ⟨some 0, 1⟩ }]
    cores := [⟨0, [], [], [], [⟨3, key, 0x2000, 0, (List.range 18).map fun i => ⟨40 - i, BitVec.ofNat 7 i, [], [(5, BitVec.ofNat 32 i)], 0⟩,
      [⟨0, 0, 0, 0, 0, 0, [], 8⟩], 10, true⟩, ⟨4, key, 0x2008, 0, [⟨50, 0, [], [], 0⟩], [⟨0, 0, 0, 0, 0, 0, [], 8⟩], 11, true⟩], now, 0, []⟩] }

theorem test_bin_inputs : ∀ late ∈ [true, false], ∃ (s : State) (core bin : Nat) (b : Bin) (p : Panel) (num slot : Nat),
    getBin s core bin = some b ∧ getPanel s b.key = some p ∧ freeNum s p core = some num ∧ freeResident s core = some slot ∧
    (b.threads.map (·.tid)).Nodup ∧ b.threads ≠ [] ∧
    (∀ y ∈ (getCore s core).bins, y.key = b.key → binDue y = true → y = b ∨ b.since < y.since) ∧
    (if late then b.since + 256 ≤ coreNow s core else binDue b = true ∧ coreNow s core < b.since + 256) := by
  intro late h
  simp only [List.mem_cons, List.not_mem_nil, or_false] at h
  rcases h with h | h <;> subst h
  · exact ⟨binned 266, 0, 3, (getBin (binned 266) 0 3).getD ⟨0, key, 0, 0, [], [], 0, false⟩, loadPanel key, 0, 1, by decide +kernel⟩
  · exact ⟨binned 265, 0, 3, (getBin (binned 265) 0 3).getD ⟨0, key, 0, 0, [], [], 0, false⟩, loadPanel key, 0, 1, by decide +kernel⟩

end Sys2Proof.Tests
end

