-- ==== Sys2Proof/Tests/Works.lean ====
section
/-!
SUPPORT. States that meet all hypotheses of the statements about the queue engine.
-/

set_option Elab.async false
namespace Sys2Proof.Tests

open Machine Safety

def fine {ε α : Type} (r : Except ε α) : Bool := match r with | .ok _ => true | .error _ => false
def fineVal {ε α : Type} (r : Except ε α) (d : α) : α := match r with | .ok a => a | .error _ => d

theorem fine_and {ε α : Type} {r : Except ε α} {P : α → Prop} (d : α) (h : fine r = true) (hp : P (fineVal r d)) : ∃ a, r = .ok a ∧ P a := by
  unfold fine at h; unfold fineVal at hp; cases r <;> simp_all

/-- A computation that succeeds in the first component of a pair. -/
theorem fine_pair {ε α β : Type} {r : Except ε α × β} {P : α → β → Prop} (d : α) (h : fine r.1 = true) (hp : P (fineVal r.1 d) r.2) :
    ∃ a t, r = (.ok a, t) ∧ P a t := by
  obtain ⟨a, t⟩ := r
  obtain ⟨v, rfl, hv⟩ := fine_and (P := fun a => P a t) d h hp
  exact ⟨v, t, rfl, hv⟩

theorem none_pair {α β : Type} {r : Option α × β} (h : r.1.isNone = true) : ∃ t, r = (none, t) := by
  obtain ⟨a, b⟩ := r; cases a <;> simp_all

theorem true_pair {β : Type} {r : Bool × β} (h : r.1 = true) : ∃ t, r = (true, t) := ⟨r.2, by rw [← h]⟩

/-- Pages 2 to 6 are cached at every front. -/
def cachedPages (s : State) : State := { s with tlb := [2, 3, 4, 5, 6].map fun n => ⟨0, n, 12, 0, 2 ^ 18 * n + (if n = 6 then 0xCE5B else 0xCE5F), 8 * n, none⟩ }

/-- A record at 0x2000 for queue 1 with a DEP and flags; partition 0 with an empty queue 1 and more. -/
def recBytes (dep fl : Nat) : List Host.Cell :=
  [(0x2001, 0x30), (0x2008, 5)] ++ (if dep = 0 then [] else [(0x2018, BitVec.ofNat 8 dep)]) ++ [(0x201C, BitVec.ofNat 8 fl), (0x201D, 1)]
def tasked (dep fl : Nat) (more : Part → Part) : State :=
  onPart (fun p => more { p with queues := [(1, ⟨0, 2, []⟩)] }) (cachedPages (low (recBytes dep fl) start))
def rec0 : Rec := ⟨0, 0, 0, 0, 0, 0, 0, 0, 0, 0, 0⟩

theorem test_window_inputs :
    (∃ (s : State) (p : Part) (q : ReadyQueue) (r : Rec), getPart s 0 = some p ∧ tget p.queues r.qid = some q ∧
      ∃ t, placeRec s 0 0 0x2000 r = (none, t)) ∧
    (∀ dep ∈ [(0 : Nat), 1], ∃ (s : State) (p : Part), getPart s 0 = some p ∧ 1 < 64 ∧ p.frozen = false ∧ (∀ h ∈ p.heldStores, h.port ≠ 1) ∧
      ∃ r s1, seeRec s 0 p.desc.asidLo (0x2000 : Word64).toNat = (.ok r, s1) ∧ recOk p 0x2000 r = true ∧ r.q = false ∧ r.qid = 1 ∧ r.dep = dep ∧
        queueRoom p 1 = true ∧ (placeRec s1 0 p.desc.asidLo 0x2000 r).1 = none) ∧
    (∃ (s : State) (p : Part), getPart s 0 = some p ∧ 63 < 64 ∧ p.frozen = false ∧ (∀ h ∈ p.heldStores, h.port ≠ 1) ∧
      ∃ r s1, seeRec s 0 p.desc.asidLo (0x2000 : Word64).toNat = (.ok r, s1) ∧ ¬(recOk p 0x2000 r = true ∧ r.q = false ∧ r.qid = 63)) ∧
    (∃ (s : State) (p : Part) (h : HeldStore) (rest : List HeldStore), getPart s 0 = some p ∧ p.heldStores = h :: rest ∧
      ∃ s1, windowStore s 0 h.port h.q h.va = (true, s1)) ∧
    (∃ (s : State) (p : Part) (rest : List (Nat × Nat × Nat)), getPart s 0 = some p ∧ p.overflow = (0x2000, 0, 1) :: rest ∧
      ∃ r s1, seeRec s 0 0 0x2000 = (.ok r, s1) ∧ queueRoom p r.qid = true ∧ (placeRec s1 0 0 0x2000 r).1 = none) ∧
    ∃ (s : State) (p : Part), getPart s 0 = some p ∧ p.work = [.complete 0x2000 0 9 0 3] ∧
      ∃ r s1, seeRec (updPart s 0 fun u => { u with work := [] }) 0 0 0x2000 = (.ok r, s1) ∧ r.nsucc ≤ 0 ∧ r.done = 0 ∧
        (putNum s1 0 0 (0x2000 + 28) 4 (setField r.flags 3 3 0)).1 = none := by
  refine ⟨?_, fun dep hd => ?_, ?_, ?_, ?_, ?_⟩
  · exact ⟨tasked 0 0x31 id, _, ⟨0, 2, []⟩, { rec0 with flags := 0x131 }, rfl, by decide +kernel, none_pair (by decide +kernel)⟩
  · simp only [List.mem_cons, List.not_mem_nil, or_false] at hd
    rcases hd with h | h <;> subst h
    · exact ⟨tasked 0 0x31 id, _, rfl, by decide, rfl, by decide +kernel, fine_pair rec0 (by decide +kernel) (by decide +kernel)⟩
    · exact ⟨tasked 1 0x31 id, _, rfl, by decide, rfl, by decide +kernel, fine_pair rec0 (by decide +kernel) (by decide +kernel)⟩
  · exact ⟨tasked 0 0x31 id, _, rfl, by decide, rfl, by decide +kernel, fine_pair rec0 (by decide +kernel) (by decide +kernel)⟩
  · exact ⟨tasked 0 0x31 fun p => { p with heldStores := [⟨1, 1, 0x2000⟩, ⟨1, 0, 0x2040⟩] }, _, _, _, rfl, rfl, true_pair (by decide +kernel)⟩
  · exact ⟨tasked 0 0x31 fun p => { p with overflow := [(0x2000, 0, 1), (0x2040, 0, 1)], ovfHeld := some 1 }, _, _, rfl, rfl,
      fine_pair rec0 (by decide +kernel) (by decide +kernel)⟩
  · exact ⟨tasked 0 0x39 fun p => { p with work := [.complete 0x2000 0 9 0 3], comps := [⟨0x2000, 9, 0⟩] }, _, rfl, rfl,
      fine_pair rec0 (by decide +kernel) (by decide +kernel)⟩

/-- An overflow append waits for its area; a batch of lanes 0 and 15 is old. -/
def areas : State :=
  onPart (fun p =>
    let d : PartDesc := { p.desc with ovfl := 0x2000, ovfcap := 8, svcbase := 0x3000 }
    { p with desc := d, areaWork := [.ovfl 0x5000], areaNoted := [0x2000] })
    (low [] (onW (fun w => { w with batch := some ⟨0x8001, [(0, 1), (15, 2)], [(0, 3), (15, 4)]⟩, batchAge := 64 }) start))

theorem test_area_inputs :
    (∃ (s : State) (p : Part) (w : AreaWork), getPart s 0 = some p ∧ p.areaWork = [w] ∧
      ∃ s1, doArea (updPart s 0 fun u => { u with areaWork := [] }) 0 w = some s1) ∧
    ∃ (s : State) (id : WId) (w : Weft) (b : Batch) (p : Part), getWeft s id = some w ∧ w.batch = some b ∧ 64 ≤ w.batchAge ∧ batchDue w = true ∧
      w.key.part = some 0 ∧ getPart s 0 = some p ∧ w.flight = none ∧ (svcQueue p (dieOf id.core)).length < 16384 ∧ isSup id.core = false ∧
      ∃ s1, deviceWrite s p.desc.asidLo (some 0) (p.desc.svcbase + 256 * (256 * id.core + id.slot)) (batchBytes w b) = .ok s1 := by
  have hm : Mapped areas := mapped_of (by decide +kernel)
  refine ⟨⟨areas, _, _, rfl, rfl, (some_and (P := fun _ => True) start (by decide +kernel) trivial).imp fun _ h => h.1⟩,
    areas, wid, _, _, _, rfl, rfl, by decide +kernel, by decide +kernel, rfl, rfl, rfl, by decide +kernel, by decide +kernel, ?_⟩
  exact write_mapped hm _ 0x3000 _ hm (by decide) (by decide +kernel)

end Sys2Proof.Tests
end

