-- ==== Sys2Proof/Tests/Events.lean ====
section
/-!
SUPPORT. States that meet all hypotheses of the statements about regions' events and messages.
-/

set_option Elab.async false
namespace Sys2Proof.Tests

open Machine Safety

/-! ### Regions -/

/-- Wefts 0 and 1 of core 0 with open regions of a class and a domain; the first has written or read line 32, the second reads it. -/
def fid : WId := ⟨0, 0⟩
def eid : WId := ⟨0, 1⟩
def openOf (elastic serial : Bool) (dom : Nat) (reads writes : List Nat) : Region := ⟨elastic, serial, dom, 3, 0x1800, reads, writes, [], [], [], 0⟩
def mine (r : Region) (lo hi : Word64) : Weft := { weft with region := some r, rlo := lo, rhi := hi }
def theirs (r : Region) (lo hi : Word64) : Weft := { launchWeft eid 1 key 1 1 3 0xFFFF 0x1000 with region := some r, rlo := lo, rhi := hi }
def clash (f e : Weft) : State := { start with cur := none, wefts := [f, e] }

def conflictB (s : State) (f e : WId) (line : Nat) (write : Bool) (wf we : Weft) (rf re : Region) : Bool :=
  decide (getWeft s f = some wf ∧ getWeft s e = some we ∧ wf.region = some rf ∧ we.region = some re ∧ f ≠ e ∧
    (if write then line ∈ rf.writes else line ∈ rf.reads) ∧ (line ∈ re.writes ∨ write = true ∧ line ∈ re.reads)) &&
  s.wefts.all fun w => match w.region with | none => true | some r => decide (f ∉ r.deps ∧ e ∉ r.deps)

theorem conflict_of {s : State} {f e : WId} {line : Nat} {write : Bool} {wf we : Weft} {rf re : Region}
    (h : conflictB s f e line write wf we rf re = true) : Conflict s f e line write wf we rf re := by
  simp only [conflictB, Bool.and_eq_true, decide_eq_true_eq, List.all_eq_true] at h
  obtain ⟨⟨h1, h2, h3, h4, h5, h6, h7⟩, h8⟩ := h
  refine ⟨⟨h1, h2⟩, ⟨h3, h4⟩, h5, h6, h7, fun w hw r hr => ?_⟩
  have := h8 w hw
  simp only [hr, decide_eq_true_eq] at this
  exact this

theorem clash_and (write : Bool) (rf re : Region) (flo fhi elo ehi : Word64) {P : WId → WId → Nat → Weft → Weft → Region → Region → Prop}
    (h : conflictB (clash (mine rf flo fhi) (theirs re elo ehi)) fid eid 32 write (mine rf flo fhi) (theirs re elo ehi) rf re = true)
    (hp : P fid eid 32 (mine rf flo fhi) (theirs re elo ehi) rf re) :
    ∃ s f e line wf we rf re, Conflict s f e line write wf we rf re ∧ P f e line wf we rf re :=
  ⟨_, _, _, _, _, _, _, _, conflict_of h, hp⟩

/-- Regions of two domains, and a rigid one of one domain. -/
theorem test_conflict_inputs :
    (∃ s f e line wf we rf re, Conflict s f e line true wf we rf re ∧ rf.dom ≠ re.dom ∧ rf.serial = false) ∧
    (∃ s f e line wf we rf re, Conflict s f e line true wf we rf re ∧ rf.dom ≠ re.dom ∧ rf.serial = true) ∧
    (∃ s f e line wf we rf re, Conflict s f e line true wf we rf re ∧ partNum wf.key = partNum we.key ∧ rf.dom = re.dom ∧
      (rf.elastic = false ∧ rf.serial = false) ∧ re.elastic = true) ∧
    ∃ s f e line wf we rf re, Conflict s f e line true wf we rf re ∧ partNum wf.key = partNum we.key ∧ rf.dom = re.dom ∧
      rf.elastic = true ∧ re.elastic = false ∧ re.serial = false :=
  ⟨clash_and true (openOf true false 1 [] [32]) (openOf true false 2 [32] []) 0 9 0 9 (by decide +kernel) (by decide +kernel),
    clash_and true (openOf true true 1 [] [32]) (openOf true false 2 [32] []) 0 9 0 9 (by decide +kernel) (by decide +kernel),
    clash_and true (openOf false false 1 [] [32]) (openOf true false 1 [32] []) 0 9 0 9 (by decide +kernel) (by decide +kernel),
    clash_and true (openOf true false 1 [] [32]) (openOf false false 1 [32] []) 0 9 0 9 (by decide +kernel) (by decide +kernel)⟩

theorem fits_of {wx wy : Weft} {rx : Region} (h : decide (wx.rlo < wy.rhi ∧ wy.rlo ≤ wy.rhi ∧ wx.rlo ≤ wx.rhi ∧
    (rx.serial = false → wx.rlo.toNat ≤ wy.rhi.toNat - 1)) = true) : Fits wx wy rx := by
  have h := of_decide_eq_true h
  exact h

/-- The later of two of one domain: after a serial region, before or after an elastic one, or nowhere. -/
theorem test_placed_conflict_inputs :
    (∃ s f e line wf we rf re, Conflict s f e line true wf we rf re ∧ partNum wf.key = partNum we.key ∧ rf.dom = re.dom ∧
      rf.serial = true ∧ line ∈ re.reads ∧ re.elastic = true) ∧
    (∃ s f e line wf we rf re, Conflict s f e line false wf we rf re ∧ partNum wf.key = partNum we.key ∧ rf.dom = re.dom ∧
      rf.serial = true ∧ re.elastic = true ∧ Fits wf we rf) ∧
    (∃ s f e line wf we rf re, Conflict s f e line true wf we rf re ∧ partNum wf.key = partNum we.key ∧ rf.dom = re.dom ∧
      rf.elastic = true ∧ rf.serial = false ∧ re.elastic = true ∧ line ∈ re.reads ∧ Fits we wf re) ∧
    (∃ s f e line wf we rf re, Conflict s f e line true wf we rf re ∧ (partNum wf.key = partNum we.key ∧ rf.dom = re.dom ∧
      rf.elastic = true ∧ rf.serial = false ∧ re.elastic = true ∧ re.serial = false ∧ line ∉ re.reads ∧ ¬ we.rlo < wf.rlo ∧
      ¬(we.rlo = wf.rlo ∧ 256 * e.core + e.slot < 256 * f.core + f.slot)) ∧ Fits wf we rf) ∧
    (∃ s f e line wf we rf re, Conflict s f e line true wf we rf re ∧ partNum wf.key = partNum we.key ∧ rf.dom = re.dom ∧
      rf.elastic = true ∧ rf.serial = false ∧ re.elastic = true ∧ line ∈ re.reads ∧ wf.rhi ≤ we.rlo) ∧
    ∃ s f e line wf we rf re, Conflict s f e line true wf we rf re ∧ partNum wf.key = partNum we.key ∧ rf.dom = re.dom ∧
      rf.elastic = true ∧ rf.serial = false ∧ re.elastic = true ∧ re.serial = false ∧ line ∉ re.reads ∧ ¬ we.rlo < wf.rlo ∧
      ¬(we.rlo = wf.rlo ∧ 256 * e.core + e.slot < 256 * f.core + f.slot) ∧ we.rhi ≤ wf.rlo :=
  ⟨clash_and true (openOf true true 1 [] [32]) (openOf true false 1 [32] []) 0 9 0 9 (by decide +kernel) (by decide +kernel),
    clash_and false (openOf true true 1 [32] []) (openOf true false 1 [] [32]) 0 9 0 9 (by decide +kernel)
      ⟨rfl, rfl, rfl, rfl, fits_of (by decide +kernel)⟩,
    clash_and true (openOf true false 1 [] [32]) (openOf true false 1 [32] []) 0 9 8 8 (by decide +kernel)
      ⟨rfl, rfl, rfl, rfl, rfl, by decide +kernel, fits_of (by decide +kernel)⟩,
    clash_and true (openOf true false 1 [] [32]) (openOf true false 1 [] [32]) 4 9 4 5 (by decide +kernel)
      ⟨by decide +kernel, fits_of (by decide +kernel)⟩,
    clash_and true (openOf true false 1 [] [32]) (openOf true false 1 [32] []) 0 4 4 9 (by decide +kernel) (by decide +kernel),
    clash_and true (openOf true false 1 [] [32]) (openOf true false 1 [] [32]) 4 9 4 4 (by decide +kernel) (by decide +kernel)⟩

/-- A region whose sub-wefts wait at AREND; a weft that waits for a serial slot. -/
def atArend : State := { onW (fun w => { w with subs := [⟨0x1000, 0xFF, none, .arend⟩, ⟨0x1000, 0xFF00, none, .arend⟩] }) (inRegion false) with cur := none }
def waitsSlot : State :=
  { onPart (fun p => { p with doms := [(1, ⟨7, none, [wid]⟩)] })
      (onW (fun w => { w with subs := [⟨0x1000, 0xFFFF, some .owner, .serialWait⟩] }) start) with cur := none }

theorem test_region_event_inputs :
    (∃ (s : State) (id : WId) (w : Weft) (r : Region) (p : Part), getWeft s id = some w ∧ w.region = some r ∧ (∃ b ∈ w.subs, b.hold = .arend) ∧
      commitReady s r = true ∧ r.versions = [] ∧ MemOk s ∧ getPart s (partNum w.key) = some p ∧ w.rlo ≠ BitVec.allOnes 64 ∧
      (∀ c ∈ r.buf, tierOf c.1 ≠ 3 ∧ dupOf s (c.1 / 4096) = none) ∧
      ∀ l ∈ r.writes, (getLine s l).shadows = [] ∧ (getLine s l).gather = []) ∧
    ∃ (s : State) (part dom : Nat) (p : Part), getPart s part = some p ∧ (getDom s part dom).slot = none ∧ serialWaiters s part dom ≠ [] :=
  ⟨⟨atArend, wid, _, region false [], loadPart, rfl, rfl, by decide +kernel, by decide +kernel, rfl, by decide +kernel, rfl, by decide +kernel,
      by decide +kernel, by decide +kernel⟩,
    waitsSlot, 0, 1, _, rfl, by decide +kernel, by decide +kernel⟩

/-! ### Messages -/

/-- A message of 4 bytes at 0x2000 to an endpoint of a target; partition 0 has endpoints 0 to 7. -/
def sends (asid target ep : Nat) (more : State → State) : State :=
  more (onPart (fun p =>
    let d : PartDesc := { p.desc with nep := 8 }
    { p with desc := d })
    { cachedPages (low [(0x2000, 1), (0x2003, 9)] start) with
      msgs := [⟨6, key, some 0, 0x2100, 0x2000, 4, target * 2 ^ 48 + ep, asid, none, 0, 0, false, 0, false, false⟩]
      routes := [(5, 2)], ports := [⟨1, [(4, 1)], 0, 0⟩, ⟨3, [(5, 1)], 0, 0⟩], groups := [(0xF00, (10, 3))] })
def msgOf (asid target ep : Nat) : Msg := ⟨6, key, some 0, 0x2100, 0x2000, 4, target * 2 ^ 48 + ep, asid, none, 0, 0, false, 0, false, false⟩
def sourceOf (s : State) (m : Msg) : Except EngStop (List Byte × State) := engRead s ⟨m.asid, m.key.part, m.user, m.core, m.unc⟩ m.src m.len

theorem send_and {P : State → Msg → Prop} (asid target ep : Nat) (more : State → State)
    (h : (decide (∀ y ∈ (sends asid target ep more).inMsgs, y.id ≠ 6) &&
      decide (((sends asid target ep more).msgs.find? fun y => y.id == 6) = some (msgOf asid target ep))) = true)
    (hp : P (sends asid target ep more) (msgOf asid target ep)) : ∃ s m, (∀ y ∈ s.inMsgs, y.id ≠ m.id) ∧
      (s.msgs.find? fun y => y.id == m.id) = some m ∧ m.data = none ∧ m.done = false ∧ P s m := by
  rw [Bool.and_eq_true, decide_eq_true_eq, decide_eq_true_eq] at h
  exact ⟨_, _, h.1, h.2, rfl, rfl, hp⟩

def deniedB {α : Type} (r : Except EngStop α) (va : Nat) : Bool := match r with | .error (.denied a) => a == va | _ => false
theorem denied_of {α : Type} {r : Except EngStop α} {va : Nat} (h : deniedB r va = true) : r = .error (.denied va) := by
  unfold deniedB at h; split at h <;> simp_all

theorem test_send_inputs :
    (∃ s m, (∀ y ∈ s.inMsgs, y.id ≠ m.id) ∧ (s.msgs.find? fun y => y.id == m.id) = some m ∧ m.data = none ∧ m.done = false ∧
      sourceAsks s m = none ∧ sourceOf s m = .error (.denied 0x2000)) ∧
    (∃ s m, (∀ y ∈ s.inMsgs, y.id ≠ m.id) ∧ (s.msgs.find? fun y => y.id == m.id) = some m ∧ m.data = none ∧ m.done = false ∧
      sourceAsks s m = none ∧ ∃ y, sourceOf s m = .ok y ∧ field m.dst 59 48 = s.pkgid.toNat ∧ ∃ p, getPart y.2 (field m.dst 13 8) = some p ∧ field m.dst 7 0 < p.desc.nep) ∧
    (∃ s m, (∀ y ∈ s.inMsgs, y.id ≠ m.id) ∧ (s.msgs.find? fun y => y.id == m.id) = some m ∧ m.data = none ∧ m.done = false ∧
      sourceAsks s m = none ∧ ∃ y, sourceOf s m = .ok y ∧ field m.dst 59 48 = s.pkgid.toNat ∧ ∀ p, getPart y.2 (field m.dst 13 8) = some p → p.desc.nep ≤ field m.dst 7 0) ∧
    (∃ s m, (∀ y ∈ s.inMsgs, y.id ≠ m.id) ∧ (s.msgs.find? fun y => y.id == m.id) = some m ∧ m.data = none ∧ m.done = false ∧
      sourceAsks s m = none ∧ ∃ y, sourceOf s m = .ok y ∧ field m.dst 59 48 ≠ s.pkgid.toNat ∧ field m.dst 59 48 < 0xF00 ∧ tgetD s.routes (field m.dst 59 48) 0 = 0) ∧
    (∃ s m, (∀ y ∈ s.inMsgs, y.id ≠ m.id) ∧ (s.msgs.find? fun y => y.id == m.id) = some m ∧ m.data = none ∧ m.done = false ∧
      sourceAsks s m = none ∧ ∃ y, sourceOf s m = .ok y ∧ field m.dst 59 48 ≠ s.pkgid.toNat ∧ field m.dst 59 48 < 0xF00 ∧ tgetD s.routes (field m.dst 59 48) 0 ≠ 0 ∧
        (y.2.postedW.all fun w => w.sent) = true) ∧
    ∃ s m, (∀ y ∈ s.inMsgs, y.id ≠ m.id) ∧ (s.msgs.find? fun y => y.id == m.id) = some m ∧ m.data = none ∧ m.done = false ∧
      sourceAsks s m = none ∧ ∃ y, sourceOf s m = .ok y ∧ field m.dst 59 48 ≠ s.pkgid.toNat ∧ 0xF00 ≤ field m.dst 59 48 ∧
        frozenTag y.2 (jobTag y.2 m.key.part) = false ∧ y.2.retained = [] ∧ (y.2.postedW.all fun w => w.sent) = true ∧
        ∃ b ∈ (List.range 16).filter fun b => bitOf (tgetD y.2.groups (field m.dst 59 48) (0, 0)).1 b, creditsOf y.2 b 5 = 0 :=
  ⟨send_and 1 0 0 id (by decide +kernel) ⟨by decide +kernel, denied_of (by decide +kernel)⟩,
    send_and 0 0 7 id (by decide +kernel) ⟨by decide +kernel, fine_and ([], start) (by decide +kernel) ⟨by decide +kernel, some_and loadPart (by decide +kernel) (by decide +kernel)⟩⟩,
    send_and 0 0 8 id (by decide +kernel) ⟨by decide +kernel, fine_and ([], start) (by decide +kernel) ⟨by decide +kernel, fun p h => by
      have h2 : ((getPart (fineVal (sourceOf (sends 0 0 8 id) (msgOf 0 0 8)) ([], start)).2 (field (msgOf 0 0 8).dst 13 8)).all
        fun p => decide (p.desc.nep ≤ field (msgOf 0 0 8).dst 7 0)) = true := by decide +kernel
      rw [h] at h2
      exact of_decide_eq_true h2⟩⟩,
    send_and 0 0xEFF 7 id (by decide +kernel) ⟨by decide +kernel, fine_and ([], start) (by decide +kernel) (by decide +kernel)⟩,
    send_and 0 5 7 id (by decide +kernel) ⟨by decide +kernel, fine_and ([], start) (by decide +kernel) (by decide +kernel)⟩,
    send_and 0 0xF00 7 id (by decide +kernel) ⟨by decide +kernel, fine_and ([], start) (by decide +kernel) (by decide +kernel)⟩⟩

/-- A message of 4 bytes at endpoint 7; a buffer of a page. -/
def inMsg (part : Nat) (buf : Option PostedBuf) : InMsg := ⟨6, 3, part, 7, [1, 2, 3, 4], 4, 0, buf⟩
def postedAt (a : Nat) : PostedBuf := ⟨0x2180, a, 4, key, some 0, 0⟩
def arrived (m : InMsg) (eps : List PostedBuf) : State := onPart (fun p => { p with eps := [(7, eps)] }) { cachedPages (low [] start) with inMsgs := [m] }

/-- The three cases of a buffer: its page may be written, is denied or is absent. -/
def bufferCase (s : State) (m : InMsg) (b : PostedBuf) : Nat :=
  match engCanWrite s ⟨b.asid, some m.part, false, 323, false⟩ b.buf (m.data.take b.cap).length with
  | none => if (engWrite s ⟨b.asid, some m.part, false, 323, false⟩ b.buf (m.data.take b.cap)).1.isNone then 0 else 3
  | some (.denied _) => 1
  | some (.absent _) => 2
  | some .wait => 3

theorem test_receive_inputs :
    (∀ e ∈ [((0x2FFC : Nat), 0), (0x6000, 1), (0x7000, 2)], ∃ (s : State) (m : InMsg) (p : Part),
      (s.inMsgs.find? fun y => y.id == m.id) = some m ∧ m.buf = none ∧ getPart s m.part = some p ∧ p.frozen = false ∧
      ∃ b rest, tgetD p.eps m.ep [] = b :: rest ∧ cqRoom s b.key b.cq = true ∧
        bufferCase (wakeFor (updPart s m.part fun q => { q with eps := tset q.eps m.ep rest }) .queue fun w _ y =>
          w.key.part == some m.part && y == .endpoint m.ep) m b = e.2) ∧
    (∃ (s : State) (m : InMsg), (s.inMsgs.find? fun y => y.id == m.id) = some m ∧ m.buf = none ∧ getPart s m.part = none) ∧
    (∀ e ∈ [((0x2FFC : Nat), 0), (0x6000, 1), (0x7000, 2)], ∃ (s : State) (m : InMsg) (b : PostedBuf),
      (s.inMsgs.find? fun y => y.id == m.id) = some m ∧ m.buf = some b ∧ cqRoom s b.key b.cq = true ∧ bufferCase s m b = e.2 ∧
        limitsHeld s m.part = false) ∧
    (∃ (s : State) (m : InMsg), (s.inMsgs.find? fun y => y.id == m.id) = some m ∧ m.buf = none ∧ limitsHeld s m.part = false) ∧
    ∀ done ∈ [true, false], ∃ (s : State) (m : Msg), (s.msgs.find? fun y => y.id == m.id) = some m ∧ cqRoom s m.key m.cq = true ∧ m.done = done ∧
      m.data ≠ none ∧ field m.dst 59 48 ≠ s.pkgid.toNat := by
  refine ⟨fun e h => ?_, ⟨{ arrived (inMsg 1 none) [] with parts := [] }, inMsg 1 none, by decide +kernel⟩, fun e h => ?_,
    ⟨arrived (inMsg 0 none) [], inMsg 0 none, by decide +kernel⟩, fun d h => ?_⟩
  · simp only [List.mem_cons, List.not_mem_nil, or_false] at h
    rcases h with h | h | h <;> subst h
    · exact ⟨arrived (inMsg 0 none) [postedAt 0x2FFC, postedAt 0x3000], inMsg 0 none, { loadPart with eps := [(7, [postedAt 0x2FFC, postedAt 0x3000])] },
        by decide +kernel, rfl, by decide +kernel, rfl, postedAt 0x2FFC, [postedAt 0x3000], by decide +kernel⟩
    · exact ⟨arrived (inMsg 0 none) [postedAt 0x6000], inMsg 0 none, { loadPart with eps := [(7, [postedAt 0x6000])] },
        by decide +kernel, rfl, by decide +kernel, rfl, postedAt 0x6000, [], by decide +kernel⟩
    · exact ⟨arrived (inMsg 0 none) [postedAt 0x7000], inMsg 0 none, { loadPart with eps := [(7, [postedAt 0x7000])] },
        by decide +kernel, rfl, by decide +kernel, rfl, postedAt 0x7000, [], by decide +kernel⟩
  · simp only [List.mem_cons, List.not_mem_nil, or_false] at h
    rcases h with h | h | h <;> subst h
    · exact ⟨arrived (inMsg 0 (some (postedAt 0x2FFC))) [], inMsg 0 (some (postedAt 0x2FFC)), postedAt 0x2FFC, by decide +kernel⟩
    · exact ⟨arrived (inMsg 0 (some (postedAt 0x6000))) [], inMsg 0 (some (postedAt 0x6000)), postedAt 0x6000, by decide +kernel⟩
    · exact ⟨arrived (inMsg 0 (some (postedAt 0x7000))) [], inMsg 0 (some (postedAt 0x7000)), postedAt 0x7000, by decide +kernel⟩
  · exact ⟨{ start with msgs := [{ msgOf 0 5 7 with data := some [1, 0, 0, 9], done := d, outcome := 1 }] },
      { msgOf 0 5 7 with data := some [1, 0, 0, 9], done := d, outcome := 1 },
      by cases d <;> decide +kernel, by cases d <;> decide +kernel, rfl, by cases d <;> decide +kernel, by cases d <;> decide +kernel⟩

/-- A retained copy that owes two branches, or one. -/
def packet (vc : Nat) (op : PktOp) : Packet := ⟨0xF00, 0, 0, 4, op, 0, 0, 0, 0, vc⟩
def retains (branches : List Nat) : State :=
  { start with ports := [⟨3, [(5, 1)], 0, 0⟩], retained := [⟨2, packet 5 (.msg 0 7 [1] 6), branches⟩] }

theorem test_multicast_inputs : ∀ bs ∈ [[(3 : Nat)], [1, 3]], ∃ (s : State) (r : Retained), (s.retained.find? fun y => y.slot == r.slot) = some r ∧
    3 ∈ r.branches ∧ 0 < creditsOf s 3 5 ∧ r.p.vc = 5 ∧ frozenTag s r.p.tag = false ∧ s.mcWait = [] ∧ r.branches = bs := by
  intro bs h
  simp only [List.mem_cons, List.not_mem_nil, or_false] at h
  rcases h with h | h <;> subst h
  · exact ⟨retains [3], ⟨2, packet 5 (.msg 0 7 [1] 6), [3]⟩, by decide +kernel⟩
  · exact ⟨retains [1, 3], ⟨2, packet 5 (.msg 0 7 [1] 6), [1, 3]⟩, by decide +kernel⟩

end Sys2Proof.Tests
end

