-- ==== Sys2Proof/Tests/Homes.lean ====
section
/-!
SUPPORT. States that meet all hypotheses of the statements about the directory and about page moves.
-/

set_option Elab.async false
namespace Sys2Proof.Tests

open Machine Safety

def owns : CState → Bool
  | .m => true | .o => true | .e => true | _ => false

theorem held_in : ∀ {l : Tab Nat CState} {a : Nat}, owns (tgetD l a .i) = true → (a, tgetD l a .i) ∈ l
  | [], _, h => by simp [tgetD, tget, owns] at h
  | (k, c) :: t, a, h => by
    unfold tgetD tget at h ⊢
    by_cases hk : k = a
    · simp [hk]
    · rw [if_neg hk] at h ⊢
      exact .tail _ (held_in h)

theorem held_mem {r : LineRec} {a : Nat} (h : owns (heldAs r a) = true) : (a, heldAs r a) ∈ r.l1 := held_in h

/-- The lines that the open regions of the package mark. -/
def markedLines (s : State) : List Nat := s.wefts.flatMap fun w => match w.region with | some r => r.reads ++ r.writes | none => []

theorem marked_le (core : Nat) : ∀ ws : List Weft, (ws.flatMap fun w => if w.id.core = core then
    (match w.region with | some r => r.reads ++ r.writes | none => []) else []).length ≤
    (ws.flatMap fun w => match w.region with | some r => r.reads ++ r.writes | none => []).length
  | [] => Nat.le_refl _
  | w :: ws => by
    have h := marked_le core ws
    simp only [List.flatMap_cons, List.length_append]
    split
    · exact Nat.add_le_add_left h _
    · simp only [List.length_nil, Nat.zero_add]; omega

theorem eraseDups_le (n : Nat) : ∀ l : List Nat, l.length ≤ n → l.eraseDups.length ≤ l.length := by
  induction n with
  | zero => intro l h; rw [List.length_eq_zero_iff.mp (Nat.le_zero.mp h)]; exact Nat.le_refl _
  | succ n ih =>
    intro l h
    cases l with
    | nil => exact Nat.le_refl _
    | cons a t =>
      have ht : t.length ≤ n := Nat.le_of_succ_le_succ h
      rw [List.eraseDups_cons, List.length_cons, List.length_cons]
      have h1 : (t.filter fun b => !b == a).length ≤ t.length := List.length_filter_le ..
      have h2 := ih (t.filter fun b => !b == a) (Nat.le_trans h1 ht)
      omega

/-- Every L1 has room where the package has few lines. -/
theorem room_of {s : State} (h : s.lines.length + (markedLines s).length < 2048) (a line : Nat) : l1Room s a line = true := by
  have h1 := marked_le a s.wefts
  have h2 : ((s.lines.filter fun r => tgetD r.l1 a .i != .i).map (·.line)).length ≤ s.lines.length := by
    rw [List.length_map]; exact List.length_filter_le ..
  have h3 : (l1Lines s a).length < 2048 := by
    refine Nat.lt_of_le_of_lt (eraseDups_le _ _ (Nat.le_refl _)) ?_
    rw [List.length_append]
    exact Nat.lt_of_le_of_lt (Nat.add_le_add h2 h1) h
  simp [l1Room, h3]
def lineIsB (s : State) (line : Nat) (r : LineRec) (h : HState) : Bool :=
  decide (getLine s line = r ∧ r.line = line ∧ r.home = h ∧ r.waiting = [] ∧ (r.shadows = [] ∧ r.gather = [] ∧ r.pend = []) ∧
    (r.remotes = [] ∧ r.overflow = false ∧ ∀ a ∈ r.sharers, a < 320) ∧ (r.l1.map (·.1)).Nodup ∧ classOfLine s line ≠ 0 ∧
    s.lines.length + (markedLines s).length < 2048) &&
  ((match r.owner with | some a => owns (heldAs r a) | none => true) && r.l1.all fun e => !owns e.2 || decide (r.owner = some e.1)) &&
  s.wefts.all fun w => match w.region with | none => true | some g => decide (line ∉ g.reads ∧ line ∉ g.writes)

theorem lineIs_of {s : State} {line : Nat} {r : LineRec} {h : HState} (hb : lineIsB s line r h = true) : LineIs s line r h := by
  simp only [lineIsB, Bool.and_eq_true, decide_eq_true_eq, List.all_eq_true] at hb
  obtain ⟨⟨⟨h1, h2, h3, h4, h5, h6, h7, h8, hr⟩, h9, h10⟩, h11⟩ := hb
  have ho : ∀ c, owns c = true ↔ (c = .m ∨ c = .o ∨ c = .e) := by intro c; cases c <;> simp [owns]
  refine ⟨h1, h2, h3, h4, h5, h6, ⟨h7, fun a => ⟨fun e => ?_, fun e => ?_⟩⟩, fun w hw g hg => ?_, h8,
    fun a => room_of hr a line, Nat.lt_of_le_of_lt (List.length_filter_le ..) (by omega)⟩
  · rw [e] at h9; exact (ho _).mp h9
  · have := h10 _ (held_mem ((ho _).mpr e))
    simpa [(ho _).mpr e] using this
  · have := h11 w hw
    simpa [hg] using this

/-- Line 32 of page 1, of class DC or SC, with copies, masks and a transaction. -/
def homed (leaf : Nat) (r : LineRec) : State := { start with cur := none, lines := [r], tlb := [⟨0, 1, 12, 0, leaf, 0, none⟩] }

theorem home_and (leaf : Nat) (h : HState) (r : LineRec) {P : State → LineRec → Prop} (hb : lineIsB (homed leaf r) 32 r h = true)
    (hp : P (homed leaf r) r) : ∃ s r, LineIs s 32 r h ∧ P s r := ⟨_, _, lineIs_of hb, hp⟩

/-- Copies of a line: none, an owner, sharers, a privatised one. -/
def alone : LineRec := lineRec 32 [] .m none
def owned (c : CState) : LineRec := lineRec 32 [(5, c)] .i (some 5)
def shared : LineRec := { lineRec 32 [(5, .s), (7, .s)] .s none with sharers := [5, 7] }
def privatised : LineRec := { lineRec 32 [(5, .p)] .i none with masks := [(5, [0, 127])] }

theorem test_read_request_inputs :
    (∃ s r, LineIs s 32 r .stb ∧ r.open_ = none ∧ heldAs r 7 = .i ∧ r.masks ≠ []) ∧
    (∃ s r, LineIs s 32 r .stb ∧ r.open_ = none ∧ heldAs r 7 = .i ∧ r.masks = [] ∧ r.owner = some 5) ∧
    (∃ s r, LineIs s 32 r .stb ∧ r.open_ = none ∧ heldAs r 7 = .i ∧ r.masks = [] ∧ r.owner = none) ∧
    ∃ s r, LineIs s 32 r .stb ∧ r.open_ = none ∧ classOfLine s 32 = 2 ∧ heldAs r 321 = .i ∧ r.masks = [] ∧ r.owner = none :=
  ⟨home_and loadLeaf .stb privatised (by decide +kernel) (by decide +kernel), home_and loadLeaf .stb (owned .m) (by decide +kernel) (by decide +kernel),
    home_and loadLeaf .stb alone (by decide +kernel) (by decide +kernel), home_and (loadLeaf + 64) .stb alone (by decide +kernel) (by decide +kernel)⟩

theorem test_write_request_inputs :
    (∃ s r, LineIs s 32 r .stb ∧ r.open_ = none ∧ r.masks ≠ [] ∧ heldAs r 7 ≠ .s ∧ heldAs r 7 ≠ .o) ∧
    (∃ s r, LineIs s 32 r .stb ∧ r.open_ = none ∧ r.masks = [] ∧ r.owner = some 5 ∧ heldAs r 5 ≠ .o) ∧
    (∃ s r, LineIs s 32 r .stb ∧ r.open_ = none ∧ r.masks = [] ∧ (∀ o, r.owner = some o → o = 5 ∨ heldAs r o = .o) ∧ otherHolders r 5 = []) ∧
    (∃ s r, LineIs s 32 r .stb ∧ r.open_ = none ∧ r.masks = [] ∧ (∀ o, r.owner = some o → o = 7 ∨ heldAs r o = .o) ∧ otherHolders r 7 ≠ []) ∧
    (∃ s r, LineIs s 32 r .stb ∧ r.open_ = none ∧ heldAs r 5 = .o ∧ otherHolders r 5 = []) ∧
    (∃ s r, LineIs s 32 r .stb ∧ r.open_ = none ∧ heldAs r 5 = .s ∧ otherHolders r 5 ≠ []) ∧
    (∃ s r, LineIs s 32 r .stb ∧ r.open_ = none ∧ privOk s r 7 [1, 126] (orderedPart s (linePart s 32)) = true ∧
      ((otherHolders r 7).filter fun o => heldAs r o != .p) = []) ∧
    (∃ s r, LineIs s 32 r .stb ∧ r.open_ = none ∧ privOk s r 9 [1, 126] (orderedPart s (linePart s 32)) = true ∧
      ((otherHolders r 9).filter fun o => heldAs r o != .p) ≠ []) ∧
    (∃ s r, LineIs s 32 r .stb ∧ r.open_ = none ∧ privOk s r 7 [127] (orderedPart s (linePart s 32)) = false) ∧
    (∃ s r, LineIs s 32 r .stb ∧ r.open_ = none ∧ r.masks = [] ∧ otherHolders r 512 = []) ∧
    ∃ s r, LineIs s 32 r .stb ∧ r.open_ = none ∧ r.masks = [] ∧ otherHolders r 512 ≠ [] := by
  have own : ∀ (c : CState) (a o : Nat), (owned c).owner = some o → (5 = a ∨ c = .o) → o = a ∨ heldAs (owned c) o = .o := by
    intro c a o h hc
    cases h
    exact hc
  exact ⟨home_and loadLeaf .stb privatised (by decide +kernel) (by decide +kernel), home_and loadLeaf .stb (owned .e) (by decide +kernel) (by decide +kernel),
    home_and loadLeaf .stb (owned .m) (by decide +kernel) ⟨rfl, rfl, fun o h => own _ _ o h (.inl rfl), by decide +kernel⟩,
    home_and loadLeaf .stb (owned .o) (by decide +kernel) ⟨rfl, rfl, fun o h => own _ _ o h (.inr rfl), by decide +kernel⟩,
    home_and loadLeaf .stb (owned .o) (by decide +kernel) (by decide +kernel), home_and loadLeaf .stb shared (by decide +kernel) (by decide +kernel),
    home_and loadLeaf .stb privatised (by decide +kernel) (by decide +kernel), home_and loadLeaf .stb shared (by decide +kernel) (by decide +kernel),
    home_and loadLeaf .stb privatised (by decide +kernel) (by decide +kernel), home_and loadLeaf .stb alone (by decide +kernel) (by decide +kernel),
    home_and loadLeaf .stb shared (by decide +kernel) (by decide +kernel)⟩

/-- A transaction for agent 7 is open. -/
def opened (r : LineRec) (h : HState) (k : ReqKind) (pending : List Nat) : LineRec := { r with home := h, open_ := some (7, k), pending := pending }

theorem test_write_back_inputs :
    (∃ s r, LineIs s 32 r .stb ∧ heldAs r 5 = .m) ∧ (∃ s r, LineIs s 32 r .stb ∧ heldAs r 5 = .p) ∧
    (∀ k ∈ [ReqKind.rds, .rdx], ∃ s r, LineIs s 32 r .fwd ∧ heldAs r 5 ≠ .i ∧ r.open_ = some (7, k) ∧ r.pending = [5] ∧ r.masks = [] ∧
      (k = .rds → heldAs r 7 = .i ∧ ∀ o, o ≠ 5 → heldAs r o ≠ .m ∧ heldAs r o ≠ .e)) ∧
    ∀ k ∈ [ReqKind.rdx, .upg], ∃ s r, LineIs s 32 r .inv ∧ heldAs r 5 ≠ .i ∧ r.open_ = some (7, k) ∧ r.pending = [5] ∧ r.masks = [] := by
  refine ⟨home_and loadLeaf .stb (owned .m) (by decide +kernel) (by decide +kernel), home_and loadLeaf .stb privatised (by decide +kernel) (by decide +kernel),
    fun k h => ?_, fun k h => ?_⟩ <;> simp only [List.mem_cons, List.not_mem_nil, or_false] at h <;> rcases h with h | h <;> subst h
  · refine home_and loadLeaf .fwd (opened (owned .m) .fwd .rds [5]) (by decide +kernel) ⟨by decide +kernel, rfl, rfl, rfl, fun _ => ⟨by decide +kernel, fun o h => ?_⟩⟩
    simp [opened, owned, lineRec, heldAs, tgetD, tget, Ne.symm h]
  · exact home_and loadLeaf .fwd (opened (owned .m) .fwd .rdx [5]) (by decide +kernel) ⟨by decide +kernel, rfl, rfl, rfl, fun h => by cases h⟩
  · exact home_and loadLeaf .inv (opened (owned .o) .inv .rdx [5]) (by decide +kernel) (by decide +kernel)
  · exact home_and loadLeaf .inv (opened shared .inv .upg [5]) (by decide +kernel) (by decide +kernel)

theorem test_transaction_inputs :
    (∀ k ∈ [ReqKind.rds, .rdx], ∃ s r, LineIs s 32 r .fwd ∧ r.pending = [5] ∧ r.open_ = some (7, k) ∧ heldAs r 5 = .m) ∧
    (∀ k ∈ [ReqKind.rds, .rdx], ∃ s r, LineIs s 32 r .fwd ∧ r.pending = [] ∧ r.open_ = some (7, k) ∧ r.masks = [] ∧
      (k = .rds → heldAs r 7 = .i ∧ ∀ o, o ≠ 7 → heldAs r o ≠ .m ∧ heldAs r o ≠ .e)) ∧
    (∃ s r, LineIs s 32 r .inv ∧ 5 ∈ r.pending) ∧
    (∃ s r, LineIs s 32 r .inv ∧ 9 ∈ r.pending ∧ heldAs r 9 = .i ∧ ∃ o ∈ r.pending, o ≠ 9) ∧
    (∃ s r, LineIs s 32 r .inv ∧ 9 ∈ r.pending ∧ heldAs r 9 = .i ∧ (∀ o ∈ r.pending, o = 9) ∧ r.open_ = some (7, .rdx) ∧
      ∀ o, o ≠ 7 → heldAs r o = .i ∨ heldAs r o = .p) ∧
    (∃ s r, LineIs s 32 r .mrg ∧ 5 ∈ r.pending) ∧
    (∃ s r, LineIs s 32 r .mrg ∧ (∀ o ∈ r.pending, o = 5) ∧ 5 ∈ r.pending ∧ heldAs r 5 = .i ∧ r.owner = none ∧ r.open_ = none) ∧
    (∃ s r, LineIs s 32 r .mrg ∧ (∀ o ∈ r.pending, o = 5) ∧ 5 ∈ r.pending ∧ heldAs r 5 = .i ∧ r.owner = none ∧ r.open_ = some (7, .rds) ∧
      heldAs r 7 = .i) ∧
    (∃ s r, LineIs s 32 r .stb ∧ r.masks = [] ∧ heldAs r 5 ≠ .i) ∧
    (∃ s r, LineIs s 32 r .rcl ∧ 5 ∈ r.pending ∧ heldAs r 5 = .i ∧ r.lost = none ∧ r.open_ = none ∧ ∃ o ∈ r.pending, o ≠ 5) ∧
    ∃ s r, LineIs s 32 r .rcl ∧ 5 ∈ r.pending ∧ heldAs r 5 = .i ∧ r.lost = none ∧ r.open_ = none ∧ ∀ o ∈ r.pending, o = 5 := by
  have some5 : ∀ (c : CState) o, o ≠ 5 → heldAs (opened (owned c) .fwd .rds []) o = .i := fun c o h => by
    simp [opened, owned, lineRec, heldAs, tgetD, tget, Ne.symm h]
  have only7 : ∀ o, o ≠ 7 → heldAs (opened { lineRec 32 [(7, .s)] .i none with sharers := [7] } .inv .rdx [9]) o = .i := fun o h => by
    simp [opened, lineRec, heldAs, tgetD, tget, Ne.symm h]
  refine ⟨fun k h => ?_, fun k h => ?_, home_and loadLeaf .inv (opened shared .inv .rdx [5]) (by decide +kernel) (by decide +kernel),
    home_and loadLeaf .inv (opened shared .inv .rdx [9, 5]) (by decide +kernel) (by decide +kernel),
    home_and loadLeaf .inv (opened { lineRec 32 [(7, .s)] .i none with sharers := [7] } .inv .rdx [9]) (by decide +kernel)
      ⟨by decide +kernel, by decide +kernel, by decide +kernel, rfl, fun o h => .inl (only7 o h)⟩,
    home_and loadLeaf .mrg (opened privatised .mrg .rds [5]) (by decide +kernel) (by decide +kernel),
    home_and loadLeaf .mrg { alone with home := .mrg, pending := [5], masks := [(5, [0])] } (by decide +kernel) (by decide +kernel),
    home_and loadLeaf .mrg (opened { alone with masks := [(5, [0])] } .mrg .rds [5]) (by decide +kernel) (by decide +kernel),
    home_and loadLeaf .stb shared (by decide +kernel) (by decide +kernel),
    home_and loadLeaf .rcl { shared with home := .rcl, pending := [5, 7], l1 := [(7, .s)] } (by decide +kernel) (by decide +kernel),
    home_and loadLeaf .rcl { alone with home := .rcl, pending := [5] } (by decide +kernel) (by decide +kernel)⟩ <;>
    simp only [List.mem_cons, List.not_mem_nil, or_false] at h <;> rcases h with h | h <;> subst h
  · exact home_and loadLeaf .fwd (opened (owned .m) .fwd .rds [5]) (by decide +kernel) (by decide +kernel)
  · exact home_and loadLeaf .fwd (opened (owned .m) .fwd .rdx [5]) (by decide +kernel) (by decide +kernel)
  · exact home_and loadLeaf .fwd (opened (owned .o) .fwd .rds []) (by decide +kernel) ⟨rfl, rfl, rfl, fun _ => ⟨by decide +kernel, fun o _ => by
      by_cases h5 : o = 5
      · subst h5; decide +kernel
      · simp [some5 .o o h5]⟩⟩
  · exact home_and loadLeaf .fwd (opened alone .fwd .rdx []) (by decide +kernel) ⟨rfl, rfl, rfl, fun h => by cases h⟩

theorem test_lost_message_inputs :
    (∃ s r, LineIs s 32 r .inv ∧ r.masks = [] ∧ holders r ≠ []) ∧
    (∃ s r, LineIs s 32 r .stb ∧ r.masks = [] ∧ heldAs r 5 = .m ∧ holders r = [5] ∧ r.open_ = none ∧ s.tables.mcLog = 0) ∧
    ∃ (s : State) (r : LineRec) (w : Weft), LineIs s 32 r .stb ∧ getWeft s wid = some w ∧ w.lose = none :=
  ⟨home_and loadLeaf .inv (opened shared .inv .rdx [5]) (by decide +kernel) (by decide +kernel),
    home_and loadLeaf .stb (owned .m) (by decide +kernel) (by decide +kernel),
    homed loadLeaf alone, alone, weft, lineIs_of (by decide +kernel), by decide +kernel, rfl⟩

/-! ### Moves -/

/-- Page 2, tracked, in page tables; the frame stacks of partition 0 at 0xA00 and 0xB00, its move log at 0xC00. -/
def tracks (leaf1 : Byte) : State :=
  { start with
    cur := none
    mem := [(0, 1), (16, 0x5F), (17, leaf1), (18, 8), (0x800, 1), (0x901, 0xA), (0x909, 0xB), (0x919, 0xC), (0xA04, 4), (0xB00, 1), (0xB04, 4),
      (0xB11, 0x20), (0xB15, 1), (0xC04, 4), (0x2F80, 5), (0x2FFF, 6)]
    tables := { start.tables with root := 0x800, migration := 0x900 } }
def request (vpage : Nat) : MoveReq := ⟨3, 0, 0, vpage, 2, 1, 0, false⟩
def requests (vpage : Nat) : State := { tracks 0xCF with moveReqs := [request vpage] }

theorem test_move_start_inputs :
    (∃ (s : State) (q : MoveReq) (leaf at_ : Nat), s.moves.length < 64 ∧ nextReq s s.moveReqs = some (q, .accept leaf at_) ∧
      dupOf s (leafPa leaf / 4096) = none ∧ ∃ y, popFrame s (stackOf s q.part q.tier) = some y) ∧
    ∃ (s : State) (q : MoveReq), s.moves.length < 64 ∧ nextReq s s.moveReqs = some (q, .drop) :=
  ⟨⟨requests 2, request 2, 2 ^ 19 + 0xCF5F, 16, by decide +kernel, by decide +kernel, by decide +kernel,
      (some_and (P := fun _ => True) (0, start) (by decide +kernel) trivial).imp fun _ h => h.1⟩,
    requests 9, request 9, by decide +kernel, by decide +kernel⟩

/-- A move of page 2 from frame 2 to frame 9 at line c. -/
def move (expect c : Nat) (stage : MoveStage) (dup : Bool) (held : List WinWrite) : Move := ⟨3, 0, 0, 2, 16, expect, 2, 9, 1, 0, c, stage, dup, held⟩
def moves (m : Move) (r : List LineRec) (g : Option Region) : State :=
  { tracks 0xCF with moves := [m], lines := r, wefts := [{ weft with region := g }] }
def heldWrite (pa : Nat) : WinWrite := ⟨.scalar key 0 0, pa, [1, 2], none, 0, none⟩

theorem test_line_copy_inputs :
    (∃ s m r, moveAt s (0 : BitVec 16).toNat 2 = some m ∧ r.masks = [] ∧ m.c = 31 ∧ m.stage = .waitMarks ∧ LineIs s (m.oldF * 32 + m.c) r .stb) ∧
    (∃ s m, moveAt s (0 : BitVec 16).toNat 2 = some m ∧ m.c = 31 ∧ m.stage = .copy ∧ (getLine s (m.oldF * 32 + m.c)).home = .stb ∧
      ownedAway s (m.oldF * 32 + m.c) = false ∧ ∃ w ∈ s.wefts, getWeft s w.id = some w ∧ ∃ g, w.region = some g ∧ (m.oldF * 32 + m.c ∈ g.reads ∨ m.oldF * 32 + m.c ∈ g.writes)) ∧
    (∃ s m r, moveAt s (0 : BitVec 16).toNat 2 = some m ∧ r.masks = [] ∧ m.stage = .copying ∧ m.dup = false ∧ m.c = 31 ∧
      LineIs s (m.oldF * 32 + m.c) r .mig ∧ moveAsks s m (m.oldF * 32 + m.c) = none ∧ m.held = []) ∧
    (∃ s m r h, moveAt s (0 : BitVec 16).toNat 2 = some m ∧ r.masks = [] ∧ m.stage = .copying ∧ m.dup = false ∧ m.c = 31 ∧
      LineIs s (m.oldF * 32 + m.c) r .mig ∧ moveAsks s m (m.oldF * 32 + m.c) = none ∧ m.held = [h] ∧ h.op = none ∧
      lineOf h.pa = m.oldF * 32 + m.c ∧ h.pa % 128 + h.data.length = 128) ∧
    (∀ c ∈ [(30 : Nat), 31], ∃ s m r, moveAt s (0 : BitVec 16).toNat 2 = some m ∧ r.masks = [] ∧ m.stage = .copying ∧ m.dup = true ∧ m.c = c ∧
      LineIs s (m.oldF * 32 + m.c) r .mig ∧ moveAsks s m (m.oldF * 32 + m.c) = none) ∧
    (∃ s m r, moveAt s (0 : BitVec 16).toNat 2 = some m ∧ r.masks = [] ∧ m.stage = .back ∧ m.c = 31 ∧ LineIs s (m.newF * 32 + m.c) r .stb ∧ moveAsks s m (m.newF * 32 + m.c) = none) ∧
    ∃ s m r, moveAt s (0 : BitVec 16).toNat 2 = some m ∧ LineRec.masks r = [] ∧ m.stage = .back ∧ m.c = 32 ∧
      stackLocked s (stackOf s m.part (tierOf (m.newF * 4096))) = false := by
  have mig : ∀ line, LineRec.masks { lineRec line [] .i none with home := .mig } = [] := fun _ => rfl
  refine ⟨⟨moves (move 0 31 .waitMarks false []) [lineRec 95 [(5, .m)] .i (some 5)] none, _, lineRec 95 [(5, .m)] .i (some 5), rfl, rfl, rfl, rfl,
      lineIs_of (by decide +kernel)⟩,
    ⟨moves (move 0 31 .copy false []) [] (some (openOf false false 1 [95] [])), _, rfl, rfl, rfl, by decide +kernel, by decide +kernel, _, .head _, by decide +kernel, _, rfl, by decide +kernel⟩,
    ⟨moves (move 0 31 .copying false []) [{ lineRec 95 [] .i none with home := .mig }] none, _, _, rfl, mig 95, rfl, rfl, rfl, lineIs_of (by decide +kernel), by decide +kernel, rfl⟩,
    ⟨moves (move 0 31 .copying false [heldWrite 0x2FFE]) [{ lineRec 95 [] .i none with home := .mig }] none, _, _, _, rfl, mig 95, rfl, rfl, rfl,
      lineIs_of (by decide +kernel), by decide +kernel, rfl, rfl, by decide +kernel, by decide +kernel⟩,
    fun c h => ?_,
    ⟨moves (move 0 31 .back false []) [] none, _, lineRec 319 [] .i none, rfl, rfl, rfl, rfl, lineIs_of (by decide +kernel), by decide +kernel⟩,
    moves (move 0 32 .back false []) [] none, _, lineRec 319 [] .i none, rfl, rfl, rfl, rfl, by decide +kernel⟩
  simp only [List.mem_cons, List.not_mem_nil, or_false] at h
  rcases h with h | h <;> subst h
  · exact ⟨moves (move 0 30 .copying true []) [{ lineRec 94 [] .i none with home := .mig }] none, _, _, rfl, mig 94, rfl, rfl, rfl, lineIs_of (by decide +kernel), by decide +kernel⟩
  · exact ⟨moves (move 0 31 .copying true []) [{ lineRec 95 [] .i none with home := .mig }] none, _, _, rfl, mig 95, rfl, rfl, rfl, lineIs_of (by decide +kernel), by decide +kernel⟩

theorem test_move_end_inputs :
    (∃ s m, moveAt s (0 : BitVec 16).toNat 2 = some m ∧ m.stage = .waitMarks ∧ (s.wefts.map (·.id)).Nodup ∧ ∃ w ∈ s.wefts, ∃ g, w.region = some g ∧
      g.serial = false ∧ (m.oldF * 32 + m.c ∈ g.reads ∨ m.oldF * 32 + m.c ∈ g.writes)) ∧
    ∀ d ∈ [(0 : Nat), 2], ∃ s m, moveAt s (0 : BitVec 16).toNat 2 = some m ∧ switchReady s m = true ∧ m.oldF ≠ m.newF ∧
      (setField (physNum s m.leafPa 8) 15 14 0 = setField m.expect 15 14 0 ↔ d = 0) := by
  refine ⟨⟨moves (move 0 31 .waitMarks false []) [] (some (openOf false false 1 [95] [])), _, rfl, rfl, by decide +kernel, _, .head _, _, rfl, rfl, by decide +kernel⟩,
    fun d h => ?_⟩
  simp only [List.mem_cons, List.not_mem_nil, or_false] at h
  rcases h with h | h <;> subst h
  · exact ⟨moves (move (2 ^ 19 + 0xF5F) 32 .copy false []) [] none, _, rfl, by decide +kernel, by decide +kernel, by decide +kernel⟩
  · exact ⟨moves (move (2 ^ 19 + 0xCF5D) 32 .copy false []) [] none, _, rfl, by decide +kernel, by decide +kernel, by decide +kernel⟩

end Sys2Proof.Tests
end

