-- ==== Sys2Proof/Tests/Ports.lean ====
section
/-!
SUPPORT. States that meet all hypotheses of the statements about host clients, the pool and the fabric.
-/

set_option Elab.async false
namespace Sys2Proof.Tests

open Machine Safety

/-! ### Host clients and memory nodes -/

/-- Partition 0 with its mailbox at 0x3000; bytes at the end of page 2. -/
def hosted : State :=
  onPart (fun p =>
    let d : PartDesc := { p.desc with mbox := 0x3000 }
    { p with desc := d }) { cachedPages (low [(0x2FFF, 7), (0x3FF8, 9)] start) with cur := none }
def hostFor (p : Part) : EngFor := ⟨p.desc.asidLo, some 0, true, 321, false⟩

theorem hosted_and {P : State → Part → Prop} (hp : P hosted ((getPart hosted 0).getD loadPart)) :
    ∃ s p, getPart s 0 = some p ∧ (1 : Nat) ≤ 1 ∧
    (∀ y ∈ s.atPorts, portOf y ≠ some (256 + 1)) ∧ P s p := ⟨hosted, _, rfl, by decide, by decide, hp⟩

theorem none_and {α β : Type} {r : Option α × β} {P : β → Prop} (h : r.1.isNone = true) (hp : P r.2) : ∃ t, r = (none, t) ∧ P t := by
  obtain ⟨a, b⟩ := r; cases a <;> simp_all

theorem test_host_inputs :
    (∃ s p, getPart s 0 = some p ∧ (1 : Nat) ≤ 1 ∧ (∀ y ∈ s.atPorts, portOf y ≠ some (256 + 1)) ∧
      (∃ y, engRead s (hostFor p) (0x2FFC : Word64).toNat 4 = .ok y ∧ (y.2.postedW.all fun w => w.sent) = true) ∧ hostAsks s 1 0 p (0x2FFC : Word64).toNat (.read 4) = none) ∧
    (∃ s p, getPart s 0 = some p ∧ (1 : Nat) ≤ 1 ∧ (∀ y ∈ s.atPorts, portOf y ≠ some (256 + 1)) ∧
      engRead s (hostFor p) (0x6FFC : Word64).toNat 8 = .error (.absent 0x7000) ∧
      hostAsks s 1 0 p (0x6FFC : Word64).toNat (.read 8) = none) ∧
    (∃ s p, getPart s 0 = some p ∧ (1 : Nat) ≤ 1 ∧ (∀ y ∈ s.atPorts, portOf y ≠ some (256 + 1)) ∧
      engCanWrite s (hostFor p) (0x5FFE : Word64).toNat [(1 : Byte), 2].length = none ∧
      ∃ s1, engWrite s (hostFor p) (0x5FFE : Word64).toNat [1, 2] = (none, s1) ∧ (s1.postedW.all fun w => w.sent) = true) ∧
    (∃ s p, getPart s 0 = some p ∧ (1 : Nat) ≤ 1 ∧ (∀ y ∈ s.atPorts, portOf y ≠ some (256 + 1)) ∧
      engCanWrite s (hostFor p) (0x5FFF : Word64).toNat [(1 : Byte), 2].length = some (.denied 0x6000)) ∧
    (∃ s p, getPart s 0 = some p ∧ (1 : Nat) ≤ 1 ∧ (∀ y ∈ s.atPorts, portOf y ≠ some (256 + 1)) ∧
      ∃ bs, deviceRead s p.desc.asidLo (some 0) (p.desc.mbox + (0x1FF8 - 0x1000)) 8 = .ok bs) ∧
    ∃ s p, getPart s 0 = some p ∧ (1 : Nat) ≤ 1 ∧ (∀ y ∈ s.atPorts, portOf y ≠ some (256 + 1)) ∧
      ∃ s1, deviceWrite s p.desc.asidLo (some 0) (p.desc.mbox + (0x1FFE - 0x1000)) [1, 2] = .ok s1 := by
  have ab : ∀ {r : Except EngStop (List Byte × State)}, (match r with | .error (.absent a) => a == 0x7000 | _ => false) = true →
      r = .error (.absent 0x7000) := by
    intro r h
    split at h <;> simp_all
  exact ⟨hosted_and ⟨fine_and ([], start) (by decide +kernel) (by decide +kernel), by decide +kernel⟩,
    hosted_and ⟨ab (by decide +kernel), by decide +kernel⟩,
    hosted_and ⟨by decide +kernel, none_and (by decide +kernel) (by decide +kernel)⟩, hosted_and (by decide +kernel),
    hosted_and ((fine_and (P := fun _ => True) [] (by decide +kernel) trivial).imp fun _ h => h.1),
    hosted_and ((fine_and (P := fun _ => True) start (by decide +kernel) trivial).imp fun _ h => h.1)⟩

/-- The first line of the pool, shared by two cores and by the memory node's side. -/
def poolLine : LineRec := { lineRec 0x100000000000 [(5, .s), (7, .s)] .s none with sharers := [5, 7] }

theorem test_back_invalidation_inputs : ∃ (s : State) (line : Nat) (data : List Byte) (r : LineRec), tierOf (line * 128) = 3 ∧ LineIs s line r .stb ∧
    homeAwake s line = true ∧ data.length = 128 ∧ ∀ y ∈ s.atPorts, portOf y ≠ some 512 :=
  ⟨{ start with cur := none, lines := [poolLine] }, 0x100000000000, zeros 128, poolLine, by decide +kernel, lineIs_of (by decide +kernel),
    by decide +kernel, by decide +kernel, by decide +kernel⟩

/-! ### The fabric -/

/-- Package 0 with an MMU of one entry, two ports, a route to package 5 by port 1. -/
def linked (cells : List Host.Cell) : State :=
  { start with
    cur := none
    mem := [(0x900, 7), (0x901, 2), (0x908, 0xFF), (0x909, 0xF)] ++ cells
    tables := { start.tables with fabricMmu := 0x900, mmuEntries := 1 }
    ports := [⟨1, [(1, 1), (4, 1)], 0, 0⟩, ⟨15, [(1, 1)], 2, 3⟩], routes := [(5, 2)], peers := [(5, 3)] }
def from5 (op : PktOp) (off bytes vc : Nat) : Packet := ⟨0, 5, off, bytes, op, 3, 0, 0, 9, vc⟩

def servedB (s : State) (pa n cc : Nat) : Bool :=
  (moveOf s pa).isNone && (linesOf pa n).all fun l => lineServes s l cc && !serialMarks s l && (moveOf s (l * 128)).isNone && (dupOf s (l / 32)).isNone &&
    (getLine s l).shadows.isEmpty && (getLine s l).gather.isEmpty && (getLine s l).pend.isEmpty

theorem served_of {s : State} {pa n cc : Nat} (h : servedB s pa n cc = true) : ServedAt s pa n cc := by
  simp only [servedB, Bool.and_eq_true, List.all_eq_true, Option.isNone_iff_eq_none, Bool.not_eq_true', List.isEmpty_iff] at h
  exact ⟨h.1, fun l hl => by obtain ⟨⟨⟨⟨⟨⟨a, b⟩, c⟩, d⟩, e⟩, f⟩, g⟩ := h.2 l hl; exact ⟨a, b, c, d, e, f, g⟩⟩

/-- Whether a packet is of an old incarnation. -/
def Stale (s : State) (p : Packet) : Prop := p.dinc ≠ s.incarn ∨ p.sinc ≠ if p.src = s.pkgid then s.incarn else tgetD s.peers p.src.toNat 0
theorem fresh_of {s : State} {p : Packet} (h : decide (p.dinc = s.incarn ∧ p.sinc = if p.src = s.pkgid then s.incarn else tgetD s.peers p.src.toNat 0) = true) :
    ¬ Stale s p := by
  have h := of_decide_eq_true h
  exact fun hs => hs.elim (fun a => a h.1) fun a => a h.2

theorem test_arrival_at_port_inputs :
    (∃ (s : State) (p : Packet) (x : Port), (15 : Nat) ≤ 15 ∧ (s.ports.find? fun y => y.num == 15) = some x ∧ Stale s p) ∧
    (∃ (s : State) (p : Packet) (x : Port), (15 : Nat) ≤ 15 ∧ (s.ports.find? fun y => y.num == 15) = some x ∧ ¬ Stale s p ∧ p.tag = 0 ∧
      (∀ y ∈ s.atPorts, portOf y ≠ some 15) ∧ ∃ part ep data sid, p.op = .msg part ep data sid ∧ ∃ q, getPart s part = some q ∧ ep < q.desc.nep) ∧
    (∃ (s : State) (p : Packet) (x : Port), (15 : Nat) ≤ 15 ∧ (s.ports.find? fun y => y.num == 15) = some x ∧ ¬ Stale s p ∧ p.tag = 0 ∧
      (∀ y ∈ s.atPorts, portOf y ≠ some 15) ∧ ∃ part ep data sid, p.op = .msg part ep data sid ∧ getPart s part = none ∧ p.src ≠ s.pkgid) ∧
    (∃ (s : State) (p : Packet) (x : Port), (15 : Nat) ≤ 15 ∧ (s.ports.find? fun y => y.num == 15) = some x ∧ ¬ Stale s p ∧ p.tag = 0 ∧
      (∀ y ∈ s.atPorts, portOf y ≠ some 15) ∧ p.op = .read ∧ p.vc ≠ 2 ∧ p.src ≠ s.pkgid ∧ mmuFrame s p.offset p.src.toNat false = none) ∧
    (∀ op ∈ [PktOp.read, .own, .write (zeros 4), .atom 0 1 1, .cas false 0 1, .red 6 1 1 none, .atom 10 1 1, .red 10 1 1 (some (0, 0, 3, 0, 5))], ∃ (s : State) (p : Packet) (x : Port), (15 : Nat) ≤ 15 ∧
      (s.ports.find? fun y => y.num == 15) = some x ∧ ¬ Stale s p ∧ p.tag = 0 ∧ (∀ y ∈ s.atPorts, portOf y ≠ some 15) ∧ p.op = op ∧ p.vc ≠ 2 ∧ p.src ≠ s.pkgid ∧
      mmuFrame s p.offset p.src.toNat (match op with | .read => false | _ => true) = some (0x2FFC, 1, 0) ∧ p.bytes = 4 ∧ ServedAt s 0x2FFC 4 1 ∧
      fullGatherSlice s (lineOf 0x2FFC) = none ∧ ∃ y, mmuFrame s p.offset p.src.toNat false = some y) ∧
    ∃ (s : State) (p : Packet) (x : Port), (15 : Nat) ≤ 15 ∧ (s.ports.find? fun y => y.num == 15) = some x ∧ ¬ Stale s p ∧ p.tag = 0 ∧
      (∀ y ∈ s.atPorts, portOf y ≠ some 15) ∧ ∃ d r w, p.op = .write d ∧ p.vc = 2 ∧ d.length ≤ 128 - p.offset % 128 ∧
        s.outReqs.find? (answers p) = some r ∧ asksAtom r = false ∧ getWeft s r.w = some w ∧
        (∀ y ∈ s.outReqs.erase r, y.id ≠ r.id) ∧ Unposted s (r.pa / 128) ∧ NoneHeld s r.id ∧ ∃ b ∈ w.subs, ∃ l, b.hold = .remote r.id l := by
  let w : Weft := { weft with subs := [⟨0x1000, 0xFFFF, none, .remote 4 []⟩] }
  let s : State := { linked [] with wefts := [w], outReqs := [⟨4, 5, wid, 0, 0x1000, 5 * 2 ^ 48 + 0x2FFC, 0x8000000002FFC, .read⟩] }
  refine ⟨⟨linked [], { from5 .read 0x2FFC 4 0 with dinc := 1 }, _, by decide, rfl, .inl (by decide +kernel)⟩,
    ⟨onPart (fun p =>
      let d : PartDesc := { p.desc with nep := 8 }
      { p with desc := d }) (linked []), from5 (.msg 0 7 [1] 6) 7 1 4, _, by decide, rfl, fresh_of (by decide +kernel), rfl, by decide +kernel, _, _, _, _, rfl,
      _, rfl, by decide +kernel⟩,
    ⟨linked [], from5 (.msg 1 7 [1] 6) 263 1 4, _, by decide, rfl, fresh_of (by decide +kernel), rfl, by decide +kernel, _, _, _, _, rfl, rfl, by decide +kernel⟩,
    ⟨linked [], from5 .read (2 ^ 21) 4 0, _, by decide, rfl, fresh_of (by decide +kernel), rfl, by decide +kernel, rfl, by decide, by decide, by decide +kernel⟩,
    fun op h => ?_,
    s, from5 (.write (zeros 4)) 0x2FFC 4 2, _, by decide, rfl, fresh_of (by decide +kernel), rfl, by decide +kernel, _, _, _, rfl, rfl, by decide +kernel, rfl, rfl, rfl,
    by decide +kernel, (fun _ h => nomatch h), (fun _ h => nomatch h), _, .head _, _, rfl⟩
  simp only [List.mem_cons, List.not_mem_nil, or_false] at h
  rcases h with h | h | h | h | h | h | h | h <;> subst h
  · exact ⟨linked [], from5 (.read) 0x2FFC 4 0, _, by decide, rfl, fresh_of (by decide +kernel), rfl, by decide +kernel, rfl, by decide, by decide,
      by decide +kernel, rfl, served_of (by decide +kernel), by decide +kernel, (0x2FFC, 1, 0), by decide +kernel⟩
  · exact ⟨linked [], from5 .own 0x2FFC 4 0, _, by decide, rfl, fresh_of (by decide +kernel), rfl, by decide +kernel, rfl, by decide, by decide,
      by decide +kernel, rfl, served_of (by decide +kernel), by decide +kernel, (0x2FFC, 1, 0), by decide +kernel⟩
  · exact ⟨linked [], from5 (.write (zeros 4)) 0x2FFC 4 1, _, by decide, rfl, fresh_of (by decide +kernel), rfl, by decide +kernel, rfl, by decide, by decide,
      by decide +kernel, rfl, served_of (by decide +kernel), by decide +kernel, (0x2FFC, 1, 0), by decide +kernel⟩
  · exact ⟨linked [], from5 (.atom 0 1 1) 0x2FFC 4 0, _, by decide, rfl, fresh_of (by decide +kernel), rfl, by decide +kernel, rfl, by decide, by decide,
      by decide +kernel, rfl, served_of (by decide +kernel), by decide +kernel, (0x2FFC, 1, 0), by decide +kernel⟩
  · exact ⟨linked [], from5 (.cas false 0 1) 0x2FFC 4 0, _, by decide, rfl, fresh_of (by decide +kernel), rfl, by decide +kernel, rfl, by decide, by decide,
      by decide +kernel, rfl, served_of (by decide +kernel), by decide +kernel, (0x2FFC, 1, 0), by decide +kernel⟩
  · exact ⟨linked [], from5 (.red 6 1 1 none) 0x2FFC 4 1, _, by decide, rfl, fresh_of (by decide +kernel), rfl, by decide +kernel, rfl, by decide, by decide,
      by decide +kernel, rfl, served_of (by decide +kernel), by decide +kernel, (0x2FFC, 1, 0), by decide +kernel⟩
  · exact ⟨linked [], from5 (.atom 10 1 1) 0x2FFC 4 0, _, by decide, rfl, fresh_of (by decide +kernel), rfl, by decide +kernel, rfl, by decide, by decide,
      by decide +kernel, rfl, served_of (by decide +kernel), by decide +kernel, (0x2FFC, 1, 0), by decide +kernel⟩
  · exact ⟨linked [], from5 (.red 10 1 1 (some (0, 0, 3, 0, 5))) 0x2FFC 4 1, _, by decide, rfl, fresh_of (by decide +kernel), rfl, by decide +kernel, rfl, by decide, by decide,
      by decide +kernel, rfl, served_of (by decide +kernel), by decide +kernel, (0x2FFC, 1, 0), by decide +kernel⟩

/-- A core's instruction cache, or a queue engine, has asked package 5. -/
def fetched (op : PktOp) (off : Nat) (unit : Option (WId × Nat)) : Fetch :=
  ⟨4, if op = .read then .code 0 0 else .queue 0, 5, off, 0x8000000000000 + off, unit, 0x1000, none, op, 0, false, false⟩

/-- The answer to the fetch of a line, or to an atomic of the queue engine; reads for ownership that the fabric MMU refuses. -/
theorem test_fetch_answer_inputs :
    (∃ (s : State) (p : Packet) (x : Port) (d : List Byte) (f : Fetch), (15 : Nat) ≤ 15 ∧ (s.ports.find? fun y => y.num == 15) = some x ∧
      ¬ Stale s p ∧ p.tag = 0 ∧ (∀ y ∈ s.atPorts, portOf y ≠ some 15) ∧ p.op = .write d ∧ p.vc = 2 ∧ d.length = 128 - p.offset % 128 ∧
      s.outReqs.find? (answers p) = none ∧ s.fetches.find? (feeds p) = some f ∧ f.op = .read ∧ Unposted s (f.pa / 128)) ∧
    (∃ (s : State) (p : Packet) (x : Port) (d : List Byte) (f : Fetch), (15 : Nat) ≤ 15 ∧ (s.ports.find? fun y => y.num == 15) = some x ∧
      ¬ Stale s p ∧ p.tag = 0 ∧ (∀ y ∈ s.atPorts, portOf y ≠ some 15) ∧ p.op = .write d ∧ p.vc = 2 ∧ d.length ≤ 128 - p.offset % 128 ∧
      s.outReqs.find? (answers p) = none ∧ s.fetches.find? (feeds p) = some f ∧ f.op ≠ .read) ∧
    ∃ (s : State) (p : Packet) (x : Port), (15 : Nat) ≤ 15 ∧ (s.ports.find? fun y => y.num == 15) = some x ∧ ¬ Stale s p ∧ p.tag = 0 ∧
      (∀ y ∈ s.atPorts, portOf y ≠ some 15) ∧ p.op = .own ∧ p.vc ≠ 2 ∧ p.src ≠ s.pkgid ∧ mmuFrame s p.offset p.src.toNat false = none :=
  ⟨⟨{ linked [] with fetches := [fetched .read 0x2F80 none] }, from5 (.write (zeros 4)) 0x2FFC 4 2, _, _, _, by decide,
      rfl, fresh_of (by decide +kernel), rfl, by decide +kernel, rfl, rfl, by decide +kernel, by decide +kernel, rfl, rfl, fun _ h => nomatch h⟩,
    ⟨{ linked [] with fetches := [fetched (.atom 0 1 7) 0x2FFC none] }, from5 (.write [7, 0, 0, 0]) 0x2FFC 4 2, _, _, _, by decide,
      rfl, fresh_of (by decide +kernel), rfl, by decide +kernel, rfl, rfl, by decide +kernel, by decide +kernel, rfl, by decide⟩,
    linked [], from5 .own (2 ^ 21) 4 0, _, by decide, rfl, fresh_of (by decide +kernel), rfl, by decide +kernel, rfl, by decide, by decide, by decide +kernel⟩

/-- The answer to a lane's atomic. -/
theorem test_atomic_answer_inputs :
    ∃ (s : State) (p : Packet) (x : Port) (d : List Byte) (r : OutReq) (w : Weft), (15 : Nat) ≤ 15 ∧ (s.ports.find? fun y => y.num == 15) = some x ∧
      ¬ Stale s p ∧ p.tag = 0 ∧ (∀ y ∈ s.atPorts, portOf y ≠ some 15) ∧ p.op = .write d ∧ p.vc = 2 ∧ s.outReqs.find? (answers p) = some r ∧
      asksAtom r = true ∧ getWeft s r.w = some w ∧ NoneHeld s r.id ∧ ∃ b ∈ w.subs, ∃ l, b.hold = .remote r.id l :=
  let w : Weft := { weft with subs := [⟨0x1000, 0xFFFF, none, .remote 4 [(0, 7)]⟩] }
  let r (l : Nat) : OutReq := ⟨4, 5, wid, l, 0x1000, 5 * 2 ^ 48 + 0x2FFC, 0x8000000002FFC, .atom 0 1 7⟩
  ⟨{ linked [] with wefts := [w], outReqs := [r 1, r 2] }, from5 (.write [7, 0, 0, 0]) 0x2FFC 4 2, _, _, r 1, w, by decide, rfl, fresh_of (by decide +kernel),
    rfl, by decide +kernel, rfl, rfl, by decide +kernel, rfl, rfl, (fun _ h => nomatch h), _, .head _, _, rfl⟩

theorem test_fetch_end_inputs : ∃ (s : State) (f : Fetch) (w : WId) (lane : Nat) (v : Weft) (b : Sub), (∀ y ∈ s.outReqs, y.id ≠ f.id) ∧
    (∀ y ∈ s.postedW, y.id ≠ f.id) ∧ (∀ y ∈ s.msgs, y.id ≠ f.id) ∧ (s.fetches.find? fun y => y.id == f.id) = some f ∧ f.done = false ∧
    f.unit = some (w, lane) ∧ (∀ n, f.who ≠ .device n) ∧ (∀ k n q, f.who ≠ .symbol k n q) ∧ (∀ n, f.who ≠ .queue n) ∧ getWeft s w = some v ∧ subAt v lane = some b ∧ b.hold = .none ∧
    waitsHeld s f.part = false :=
  let f : Fetch := fetched .read 0x2F80 (some (wid, 15))
  ⟨{ linked [] with fetches := [f] }, f, wid, 15, _, _,
    by decide +kernel, by decide +kernel, by decide +kernel, rfl, rfl, rfl, (fun _ h => nomatch h), (fun _ _ _ h => nomatch h), (fun _ h => nomatch h),
    rfl, rfl, rfl, by decide +kernel⟩

/-- A request to package 5 without a response; two posted writes to one line; a message on its way; a wait at a release. -/
def sent (id : Nat) (s : Bool) : PostedWrite := ⟨id, 0x100000000000, 5, 0x2000, .write [1, 2], s, 0, 0, none, some (.scalar key 0 0), []⟩
def waiting (h : Hold) : State :=
  { linked [] with
    wefts := [{ weft with subs := [⟨0x1000, 0xFFFF, none, h⟩] }]
    outReqs := [⟨3, 5, wid, 0, 0x1000, 5 * 2 ^ 48 + 0x2FFC, 0x8000000002FFC, .read⟩]
    postedW := [sent 4 true, sent 6 false]
    msgs := [{ msgOf 0 5 7 with id := 7, data := some [1, 0, 0, 9] }]
    buffers := [⟨some 15, packet 1 (.write [1])⟩] }

theorem test_fabric_end_inputs :
    (∃ (s : State) (r : OutReq), (s.outReqs.find? fun y => y.id == r.id) = some r ∧ waitsHeld s ((getWeft s r.w).bind fun w => w.key.part) = false) ∧
    (∃ (s : State) (w : PostedWrite), (s.postedW.find? fun y => y.id == w.id) = some w ∧ w.sent = true ∧ (∀ y ∈ s.outReqs, y.id ≠ w.id) ∧
      ∃ l y r, (s.postedW.filter fun y => y.id ≠ w.id) = l ++ y :: r ∧ y.sent = false ∧ BitVec.ofNat 12 y.target ≠ s.pkgid ∧
        ∀ k ∈ postLines y, readsOut s k = false ∧ ∀ z ∈ l, k ∉ postLines z) ∧
    (∃ (s : State) (m : Msg), (s.msgs.find? fun y => y.id == m.id) = some m ∧ m.done = false ∧ m.data ≠ none ∧ (∀ y ∈ s.outReqs, y.id ≠ m.id) ∧
      (∀ y ∈ s.postedW, y.id ≠ m.id) ∧ field m.dst 59 48 ≠ s.pkgid.toNat ∧ waitsHeld s m.key.part = false) ∧
    (∃ (s : State) (id : WId) (w : Weft), getWeft s id = some w ∧ w.subs.findSome? sysLanes = some 0x8001 ∧ waitsHeld s w.key.part = false) ∧
    (∃ (s : State) (src : BitVec 12) (inc : Word32), tget s.peers src.toNat ≠ some inc ∧ s.substs = [] ∧
      (∃ y ∈ s.postedW, y.target = src.toNat ∧ y.sent = true) ∧ ∃ m ∈ s.msgs, m.data ≠ none ∧ m.done = false ∧ field m.dst 59 48 = src.toNat) ∧
    (∃ (s : State) (src : BitVec 12) (inc : Word32), tget s.peers src.toNat = some inc) ∧
    ∃ (s : State) (x : Port) (b : BufPkt), (s.ports.find? fun y => y.num == 15) = some x ∧
      (s.buffers.find? fun b => b.port == some 15 && b.p.vc == 1 && !frozenTag s b.p.tag) = some b :=
  ⟨⟨waiting (.remote 3 []), ⟨3, 5, wid, 0, 0x1000, 5 * 2 ^ 48 + 0x2FFC, 0x8000000002FFC, .read⟩, by decide +kernel⟩,
    ⟨waiting (.sysWait 0x8001), sent 4 true, by decide +kernel, rfl, by decide +kernel, [], sent 6 false, [], by decide +kernel⟩,
    ⟨waiting (.sysWait 0x8001), { msgOf 0 5 7 with id := 7, data := some [1, 0, 0, 9] }, by decide +kernel⟩,
    ⟨waiting (.sysWait 0x8001), wid, _, rfl, by decide +kernel, by decide +kernel⟩,
    ⟨waiting (.sysWait 0x8001), 5, 4, by decide +kernel⟩, ⟨waiting (.sysWait 0x8001), 5, 3, by decide +kernel⟩,
    waiting (.sysWait 0x8001), _, ⟨some 15, packet 1 (.write [1])⟩, rfl, by decide +kernel⟩

end Sys2Proof.Tests
end

