-- ==== Sys2Proof/Tests/Package.lean ====
section
/-!
SUPPORT. States that meet all hypotheses of the statements about gang substitution, dies, the security processor and the step.
-/

set_option Elab.async false
namespace Sys2Proof.Tests

open Machine Safety

/-! ### Gang substitution -/

/-- Job 3 has partition 0, its save area at 0x2000 of one page; one route by port 1 or none. -/
def gangJob (routes : Tab Nat Nat) (xs : List Subst) : State :=
  { start with
    cur := none, mem := [(0x80C0, 1), (0x80D1, 0x20), (0x80D8, 1)], tables := { start.tables with jobs := 0x8000 }, routes := routes, substs := xs }
/-- A substitution that package 9 asked for, at a stage. -/
def substAt (stage cap : Nat) (ports : List Nat) (swept : List (Nat × Nat × Packet)) : Subst :=
  ⟨3, 0x2000, cap, none, stage, 0, 0, ports, [], [], swept, some 9⟩
def tagged (port : Option Nat) : BufPkt := ⟨port, { packet 1 (.write [1]) with tag := 3 }⟩

theorem sweptRecord_length : (sweptRecord (2, 1, (tagged none).p)).length = 64 := by
  have h : ∀ h : List Byte, (h.take 16).length + (16 - (h.take 16).length) = 16 := by
    intro h
    rw [List.length_take]
    omega
  have hz : ∀ n, (zeros n).length = n := fun n => List.length_replicate
  have ht : ∀ n v, (toBytes n v).length = n := by
    intro n
    induction n with
    | zero => intro v; rfl
    | succ n ih => intro v; simp [toBytes, ih]
  simp only [sweptRecord, List.length_append, hz, ht, h, show (payload (tagged none).p.op).length = 1 from rfl]

theorem test_substitution_inputs :
    (∃ (s : State) (job : Nat), jobKnown s job = false) ∧
    (∃ (s : State) (job : Nat), jobKnown s job = true ∧ jobTaken s job = true) ∧
    (∃ (s : State) (job : Nat), jobKnown s job = true ∧ s.substs = [] ∧ (∀ b ∈ s.buffers ++ s.mcWait, b.p.tag ≠ job) ∧
      (∀ r ∈ s.retained, r.p.tag ≠ job) ∧ (∃ w ∈ s.wefts, getWeft s w.id = some w ∧ inJob s job w = true) ∧
      ∀ n, n < 16 → ∀ y ∈ s.routes.filter (fun e => e.2 ≠ 0), bitOf y.2 n = false) ∧
    (∃ (s : State) (job : Nat), jobKnown s job = true ∧ s.substs = [] ∧ (∀ b ∈ s.buffers ++ s.mcWait, b.p.tag ≠ job) ∧
      (∀ r ∈ s.retained, r.p.tag ≠ job) ∧ (∃ w ∈ s.wefts, getWeft s w.id = some w ∧ inJob s job w = true) ∧
      ∃ n, n < 16 ∧ ∃ y ∈ s.routes.filter (fun e => e.2 ≠ 0), bitOf y.2 n = true) ∧
    (∀ cap ∈ [4096, (64 : Nat)], ∃ (s : State) (job : Nat) (x : Subst) (p : Packet), getSubst s job = some x ∧ x.stage = 1 ∧ p.tag = job ∧
      x.remoteIssuer = some 9 ∧ (if cap = 4096 then 64 + x.used + (sweptRecord (2, 1, p)).length ≤ x.cap
        else x.cap < 64 + x.used + (sweptRecord (2, 1, p)).length)) ∧
    (∀ ports ∈ [[(1 : Nat), 4], [1]], ∃ (s : State) (job : Nat) (x : Subst), getSubst s job = some x ∧ x.stage = 1 ∧ x.awaitPorts = ports ∧
      1 ∈ x.awaitPorts ∧ if ports = [1] then ∀ n ∈ x.awaitPorts, n = 1 else ∃ n ∈ x.awaitPorts, n ≠ 1) ∧
    (∀ members ∈ [[(5 : Nat), 6], [5]], ∃ (s : State) (job : Nat) (x : Subst) (member : BitVec 12), getSubst s job = some x ∧ member.toNat ∈ x.members ∧
      (∀ r ∈ x.reports, r.1 ≠ member.toNat) ∧ ∃ id lane w, x.issuer = some (id, lane) ∧ getWeft s id = some w ∧
        (∃ b ∈ w.subs, b.hold = .gang job) ∧ ((∃ k ∈ s.pkgid.toNat :: x.members, ∀ r ∈ x.reports ++ [(member.toNat, 0)], r.1 ≠ k) ↔ members = [5, 6])) ∧
    ∀ swept ∈ [[], [((1 : Nat), (1 : Nat), { packet 1 (.write [1]) with tag := 3 })]], ∃ (s : State) (job : Nat) (x : Subst), getSubst s job = some x ∧ x.stage = 2 ∧
      x.remoteIssuer = some 9 ∧ (∀ b ∈ s.buffers, b.p.tag = job → b.port ≠ none) ∧ x.swept = swept ∧ ∀ e ∈ x.swept, 0 < creditsOf s e.2.1 e.2.2.vc := by
  refine ⟨⟨gangJob [] [], 4, by decide +kernel⟩, ⟨gangJob [] [substAt 2 4096 [] []], 3, by decide +kernel⟩, ⟨gangJob [] [], 3, by decide +kernel⟩,
    ⟨gangJob [(5, 2)] [], 3, by decide +kernel, rfl, by decide +kernel, by decide +kernel, by decide +kernel, 1, by decide +kernel⟩, fun cap h => ?_,
    fun ports h => ?_, fun members h => ?_, fun swept h => ?_⟩ <;>
    (simp only [List.mem_cons, List.not_mem_nil, or_false] at h; rcases h with h | h <;> subst h)
  · exact ⟨gangJob [] [substAt 1 4096 [] []], 3, substAt 1 4096 [] [], (tagged none).p, rfl, rfl, rfl, rfl, by rw [sweptRecord_length]; decide +kernel⟩
  · exact ⟨gangJob [] [substAt 1 64 [] []], 3, substAt 1 64 [] [], (tagged none).p, rfl, rfl, rfl, rfl, by rw [sweptRecord_length]; decide +kernel⟩
  · exact ⟨gangJob [] [substAt 1 4096 [1, 4] []], 3, substAt 1 4096 [1, 4] [], by decide +kernel⟩
  · exact ⟨gangJob [] [substAt 1 4096 [1] []], 3, substAt 1 4096 [1] [], by decide +kernel⟩
  · let x : Subst := { substAt 2 4096 [] [] with issuer := some (wid, 0), remoteIssuer := none, members := [5, 6], reports := [(0, 0)] }
    exact ⟨onW (fun w => { w with subs := [⟨0x1000, 0xFFFF, none, .gang 3⟩] }) (gangJob [] [x]), 3, x, 5, by decide +kernel, by decide +kernel, by decide +kernel,
      wid, 0, _, rfl, rfl, ⟨_, .head _, rfl⟩, by decide +kernel⟩
  · let x : Subst := { substAt 2 4096 [] [] with issuer := some (wid, 0), remoteIssuer := none, members := [5], reports := [(0, 0)] }
    exact ⟨onW (fun w => { w with subs := [⟨0x1000, 0xFFFF, none, .gang 3⟩] }) (gangJob [] [x]), 3, x, 5, by decide +kernel, by decide +kernel, by decide +kernel,
      wid, 0, _, rfl, rfl, ⟨_, .head _, rfl⟩, by decide +kernel⟩
  · exact ⟨{ gangJob [] [substAt 2 4096 [] []] with buffers := [tagged (some 1)] }, 3, substAt 2 4096 [] [], by decide +kernel⟩
  · exact ⟨{ gangJob [] [substAt 2 4096 [] [(1, 1, (tagged none).p)]] with ports := [⟨1, [(1, 1)], 0, 0⟩] }, 3, substAt 2 4096 [] [(1, 1, (tagged none).p)],
      by decide +kernel⟩

/-- A packet of a sealed job. -/
def lateAt : State := { gangJob [] [substAt 2 4096 [] []] with ports := [⟨15, [(1, 1)], 2, 3⟩], peers := [(5, 3)] }
theorem test_late_packet_inputs : ∃ (s : State) (p : Packet) (x : Port), (15 : Nat) ≤ 15 ∧ (s.ports.find? fun y => y.num == 15) = some x ∧ ¬ Stale s p ∧
    p.tag ≠ 0 ∧ (∃ y ∈ s.substs, y.job = p.tag ∧ y.stage = 2) ∧ ∃ k, k < 64 ∧ bitOf (jobParts s p.tag) k = true :=
  ⟨lateAt, { from5 .read 0x2FFC 4 0 with tag := 3 }, _, by decide, rfl, fresh_of (by decide +kernel), by decide, ⟨_, .head _, rfl, rfl⟩, 0, by decide +kernel⟩

/-! ### Dies and power levels -/

/-- One line that a core holds modified. -/
def heldLine : LineRec := { lineRec 32 [(255, .m)] .i (some 255) with home := .stb }
def dieAt (more : State → State) : State := more { start with cur := none, lines := [heldLine] }

theorem test_die_inputs :
    (∃ (s : State) (die : Nat), die ≤ 3 ∧ (s.lines.map (·.line)).Nodup ∧
      (∀ r ∈ s.lines, r.home = .stb ∧ r.pending = [] ∧ r.open_ = none ∧ r.waiting = []) ∧ (∃ r ∈ s.lines, ∃ a, a < 320 ∧ dieOf a = die ∧ heldAs r a = .m) ∧
      ∃ p ∈ s.panels, ∃ c ∈ p.cores, dieOf c = 0) ∧
    (∃ (s : State) (die : Nat), die ≤ 3 ∧ die ∈ s.quiescing ∧ (s.lines.map (·.line)).Nodup ∧ ∃ c ∈ s.cores, dieOf c.num = die) ∧
    (∃ (s : State) (die : Nat) (r : LineRec) (a : Nat), die ≤ 3 ∧ die ∈ s.quiescing ∧ s.lines = [r] ∧ s.tables.mcLog = 0 ∧ r.home = .stb ∧ r.open_ = none ∧
      r.waiting = [] ∧ (r.shadows = [] ∧ r.gather = [] ∧ r.pend = []) ∧ r.masks = [] ∧ r.l1 = [(a, .m)] ∧ a < 320 ∧ dieOf a = die) ∧
    (∃ (s : State) (die level : Nat), 4 ≤ level ∧ level ≤ 5 ∧ die ≤ 3 ∧ ∃ p ∈ s.panels, ∃ c ∈ p.cores, if die ≤ 3 then dieOf c = die else c < 256) ∧
    (∃ (s : State) (die level : Nat), die ∈ s.hot ∧ powerOf s die = 3 ∧ level ≠ 3 ∧ die ≤ 7 ∧ level ≤ 5) ∧
    (∃ (s : State) (die level : Nat), die ≤ 3 ∧ level = 3 ∧ powerOf s die ≤ 2 ∧ die ∉ s.hot ∧
      ∃ w ∈ s.wefts, getWeft s w.id = some w ∧ dieOf w.id.core = die ∧ w.plHeld = false ∧ w.region ≠ none) ∧
    (∃ (s : State) (die level : Nat), die ≤ 3 ∧ level = 0 ∧ powerOf s die = 3 ∧ die ∉ s.hot ∧
      ∃ w ∈ s.wefts, getWeft s w.id = some w ∧ dieOf w.id.core = die ∧ w.plHeld = true) ∧
    (∃ (s : State) (die level : Nat), die ≤ 3 ∧ level = 4 ∧ powerOf s die < 4 ∧ die ∉ s.hot ∧ (∃ c ∈ s.cores, dieOf c.num = die) ∧
      ¬ ∃ p ∈ s.panels, ∃ c ∈ p.cores, if die ≤ 3 then dieOf c = die else c < 256) ∧
    ∃ (s : State) (die : Nat), die ≤ 3 ∧ powerOf s die < 3 ∧ ∃ w ∈ s.wefts, getWeft s w.id = some w ∧ dieOf w.id.core = die ∧ w.plHeld = false := by
  refine ⟨⟨dieAt id, 3, by decide +kernel, by decide +kernel, by decide +kernel, ⟨_, .head _, 255, by decide +kernel⟩, by decide +kernel⟩,
    ⟨dieAt fun s => updCore { s with quiescing := [3] } 255 fun c => { c with cycle := 9 }, 3, by decide +kernel⟩,
    ⟨dieAt fun s => { s with quiescing := [3] }, 3, heldLine, 255, by decide +kernel⟩, ⟨start, 0, 5, by decide +kernel⟩,
    ⟨{ start with hot := [7], power := [(7, 3)] }, 7, 5, by decide +kernel⟩,
    ⟨{ inRegion false with cur := none }, 0, 3, by decide +kernel, rfl, by decide +kernel, by decide +kernel, _, .head _, rfl, by decide +kernel, rfl, by decide +kernel⟩,
    ⟨onW (fun w => { w with plHeld := true }) { start with power := [(0, 3)] }, 0, 0, by decide +kernel⟩,
    ⟨dieAt fun s => updCore s 255 fun c => { c with cycle := 9 }, 3, 4, by decide +kernel⟩, ⟨start, 0, by decide +kernel⟩⟩

/-! ### The security processor -/

def signed (n session : Nat) : State := { State.reset with sec := { State.reset.sec with index := n, session := session } }

theorem test_security_inputs : (∃ s : State, s.sec.index < 2 ^ 20 ∧ s.sec.session = 0) ∧ (∃ s : State, 2 ^ 20 ≤ s.sec.index ∧ s.sec.session ≠ 0) ∧
    (∃ n, n < 67 ∧ (match (none : Option Nat) with | none => n < 67 | some p => n < 3 ∨ n = 3 + p) ∧ n = 66) ∧
    (∃ n, n < 254 ∧ ¬ (match (none : Option Nat) with | none => n < 67 | some p => n < 3 ∨ n = 3 + p)) ∧
    (∃ n, n < 67 ∧ (match (some 63 : Option Nat) with | none => n < 67 | some p => n < 3 ∨ n = 3 + p) ∧ 3 ≤ n) ∧
    ∃ n, n < 254 ∧ ¬ (match (some 63 : Option Nat) with | none => n < 67 | some p => n < 3 ∨ n = 3 + p) :=
  ⟨⟨signed 1048575 0, by decide, rfl⟩, ⟨signed 1048576 1, by decide, by decide⟩, ⟨66, by decide⟩, ⟨67, by decide⟩, ⟨66, by decide⟩, ⟨3, by decide⟩⟩

/-! ### The step -/

/-- The weft of the tests with words at its program counter, and an issue on the agenda or the device's own choice. -/
def cellsOf (ws : List Word64) : List Host.Cell :=
  ((List.range (8 * ws.length)).map fun n => (0x1000 + n, (ws.getD (n / 8) 0).extractLsb' (8 * (n % 8)) 8)).filter fun c => c.2 ≠ 0
def holds (ws : List Word64) (agenda : List Action) : State :=
  onW (fun w => { w with onCourt := true }) { start with
    cur := none, tick := 1, mem := cellsOf ws, agenda := agenda, htvec := 0x5000, mtvec := 0x6000 }

def wantsB (s : State) (wid : WId) (ws : List Word64) : Bool :=
  match getWeft s wid with
  | none => false
  | some w => match getPanel s w.key, subAt w 0 with
    | some p, some b => !takesUi w 0 && (divAt w b.pc b.mask).isNone && !w.freshShape && decide (s.wefts.map (·.id)).Nodup &&
        (List.range ws.length).all fun k => match fetchWord s w p b ((b.pc.toNat + 8 * k) % 2 ^ 64) with | .ok v => v == ws.getD k 0 | .error _ => false
    | _, _ => false

/-- A state whose step issues the sub-weft of lane 0 of the weft of the tests, at these words. -/
def Wants (s : State) (ws : List Word64) (P : State → Weft → Prop) : Prop :=
  ∃ r id lane w p b, Issues s r id lane ∧ let t := passTime r id
    getWeft t id = some w ∧ (t.wefts.map (·.id)).Nodup ∧ subAt w lane = some b ∧ getPanel t w.key = some p ∧ takesUi w lane = false ∧ divAt w b.pc b.mask = none ∧ w.freshShape = false ∧
    (∀ k, k < ws.length → fetchWord t w p b ((b.pc.toNat + 8 * k) % 2 ^ 64) = .ok (ws.getD k 0)) ∧ P t w

theorem wants_of {s r : State} {ws : List Word64} {P : State → Weft → Prop} (hi : Issues s r wid 0) (hb : wantsB (passTime r wid) wid ws = true)
    (hp : P (passTime r wid) ((getWeft (passTime r wid) wid).getD weft)) : Wants s ws P := by
  generalize ht : passTime r wid = t at hb hp
  unfold wantsB at hb
  cases hw : getWeft t wid with
  | none => simp [hw] at hb
  | some w =>
    simp only [hw] at hb
    cases hq : getPanel t w.key with
    | none => simp [hq] at hb
    | some p =>
      cases hs : subAt w 0 with
      | none => simp [hq, hs] at hb
      | some b =>
        simp only [hq, hs, Bool.and_eq_true, Bool.not_eq_true', Option.isNone_iff_eq_none, decide_eq_true_eq, List.all_eq_true, List.mem_range] at hb
        obtain ⟨⟨⟨⟨h1, h2⟩, h3⟩, h4⟩, h5⟩ := hb
        rw [hw] at hp
        subst ht
        refine ⟨r, wid, 0, w, p, b, hi, hw, h4, hs, hq, h1, h2, h3, fun k hk => ?_, hp⟩
        have h := h5 k hk
        split at h
        · rename_i v hv
          rw [hv, eq_of_beq h]
        · exact absurd h (by decide)

theorem issues_agenda {ws : List Word64} (h : claim (holds ws []) wid 0 = some 0) : Issues (holds ws [.issue wid 0]) (holds ws []) wid 0 :=
  .inl ⟨[], 0, rfl, h, rfl⟩
theorem issues_turn {ws : List Word64} (h : autoEvent (holds ws []) = none ∧ pickIssuer (holds ws []) = some (wid, 0)) :
    Issues (holds ws []) (holds ws []) wid 0 := .inr ⟨rfl, h.1, h.2, rfl⟩

/-- `add.i32 v4, v1, v2`, alone and under EXT. -/
theorem test_decoded_step_inputs : ∀ ws ∈ [[(0x0174080900601509 : Word64)], [0x7E70012345678000, 0x0170000400F00509]], ∃ i, decodeUnit ws = .ok (i, ws.length) ∧
    Wants (holds ws [.issue wid 0]) ws (fun _ _ => True) ∧ Wants (holds ws []) ws fun _ _ => True := by
  intro ws h
  simp only [List.mem_cons, List.not_mem_nil, or_false] at h
  rcases h with h | h <;> subst h
  · exact ⟨_, rfl, wants_of (issues_agenda (by decide +kernel)) (by decide +kernel) trivial, wants_of (issues_turn (by decide +kernel)) (by decide +kernel) trivial⟩
  · exact ⟨_, rfl, wants_of (issues_agenda (by decide +kernel)) (by decide +kernel) trivial, wants_of (issues_turn (by decide +kernel)) (by decide +kernel) trivial⟩

/-- Words that are no instruction: OP 0x0F, an operand out of its class, EXT twice, two slots with one destination. -/
theorem test_fetch_fault_inputs : ∀ y ∈ [([(0x0F74080900601509 : Word64)], Reject.illegalOp, 1), ([0x017408090060150A], .illegalOperand, 2),
    ([0x7E70012345678000, 0x7E70012345678000], .illegalPrefix, 3), ([0xa01c100212411030], .pairing, 4)],
    decodeUnit y.1 = .error y.2.1 ∧ Wants (holds y.1 []) y.1 fun t w => (0 : Nat) < 256 ∧ w.region = none ∧ w.stepping = none ∧
      heldWrites t (agentOf w) = false ∧ TakenAt t w y.2.2 3 := by
  intro y h
  simp only [List.mem_cons, List.not_mem_nil, or_false] at h
  rcases h with h | h | h | h <;> subst h <;>
    exact ⟨rfl, wants_of (issues_turn (by decide +kernel)) (by decide +kernel) ⟨by decide, rfl, rfl, by decide +kernel, taken_of (by decide +kernel)⟩⟩

theorem test_event_inputs : (∃ (s : State) (i : Instr) (rest : List Action), s.agenda = .event i :: rest) ∧
    ∃ (s : State) (i : Instr), s.agenda = [] ∧ (∀ y ∈ s.atPorts, portOf y ≠ none) ∧ autoEvent s = some i :=
  ⟨⟨holds [] [.event (.dieReset 3)], .dieReset 3, [], rfl⟩, { holds [] [] with tick := 2, quiescing := [3] }, .dieReset 3, rfl, by decide, rfl⟩

/-- Reset makes a step from a memory in its form, and instructions of each shape are well formed. -/
theorem test_memory_inputs : ∃ s t, MemOk s ∧ step s = .next t := ⟨State.reset, _, rfl, rfl⟩

theorem test_encode_inputs : ∃ i : Instr, i.isWord = true ∧ i.wellFormed = true :=
  ⟨.paired 4 ⟨.addI32, 7, 4, .v 1⟩ ⟨.fmulF32, 2, 5, .imm 3⟩, by decide +kernel⟩

end Sys2Proof.Tests
end

