-- ==== Sys2Proof/Tests/Slice0.lean ====
section
/-!
SUPPORT. The model's own tests: terms that are no instruction, words of the encoding tables, and single steps whose results the
manual or IEEE arithmetic gives.
-/

set_option Elab.async false
namespace Sys2Proof.Tests

open Machine Safety

/-! ### Ill-formed terms, one for each check (R117, R118, R120, R130) -/

/-- The unit that every line below breaks in one place. -/
def good : Fields := plain 4 0 (.v 4) (.v 1) (.v 2) .zero
theorem test_wf_good : Instr.wellFormed (.add good) = true := by decide +kernel
theorem test_wf_guard : Instr.wellFormed (.add { good with guard := ⟨true, 7⟩ }) = false := by decide +kernel
theorem test_wf_type : Instr.wellFormed (.add { good with mod := 12 }) = false := by decide +kernel
theorem test_wf_modifier : Instr.wellFormed (.cmp (plain 4 0 (.p 1) (.v 1) (.v 2) (.imm 6))) = false := by decide +kernel
theorem test_wf_class : Instr.wellFormed (.add { good with d := .p 4 }) = false := by decide +kernel
theorem test_wf_unused : Instr.wellFormed (.add { good with c := .v 3 }) = false := by decide +kernel
theorem test_wf_pair : Instr.wellFormed (.add { good with mod := 2, d := .v 5 }) = false := by decide +kernel
theorem test_wf_scalar : Instr.wellFormed (.add { good with d := .s 4 }) = false := by decide +kernel
theorem test_wf_ext_place : Instr.wellFormed (.add { good with ext := some 5 }) = false := by decide +kernel
theorem test_wf_ext_field : Instr.wellFormed (.add { good with b := .imm 1, ext := some 5 }) = false := by decide +kernel
theorem test_wf_attr : Instr.wellFormed (.add { good with attr := some ⟨0, 0, false⟩ }) = false := by decide +kernel
theorem test_wf_order : Instr.wellFormed (.add { good with extFirst := true }) = false := by decide +kernel
theorem test_wf_narrow : Instr.wellFormed (.wred (plain 0 2 (.v 1) (.v 2) .zero (.imm 8))) = false := by decide +kernel
theorem test_wf_svcpop : Instr.wellFormed (.csrr (plain 0 0 (.s 8) (.imm 0x26) .zero .zero)) = false := by decide +kernel
theorem test_wf_banks : Instr.wellFormed (.paired 4 ⟨.addI32, 7, 4, .imm 1⟩ ⟨.fmulF32, 2, 8, .imm 3⟩) = false := by decide +kernel
theorem test_wf_sources : Instr.wellFormed (.paired 4 ⟨.addI32, 7, 4, .v 1⟩ ⟨.fmulF32, 2, 5, .v 9⟩) = false := by decide +kernel

/-! ### Words (R107, R109, R126, R127); more stand in WordsDecode -/

/-- OP 0x13 with a signed type in MOD is SAR. -/
theorem test_word_sar : decodeUnit [0x1374080900701D09] = .ok (.sar (plain 4 0 (.v 4) (.v 1) (.imm 3) .zero), 1) := rfl
/-- OP 0x13 with an unsigned type in MOD is SHR. -/
theorem test_word_shr : decodeUnit [0x1374180900701D09] = .ok (.shr (plain 4 1 (.v 4) (.v 1) (.imm 3) .zero), 1) := rfl
/-- A negative target. -/
theorem test_word_loop : decodeUnit [0x24710013BFA84D09] = .ok (.loop (plain 1 0 (.s 9) (.imm 254) .zero .zero), 1) := rfl
theorem test_word_frcp : decodeUnit [0x3A7C1A0F42284E08] = .ok (.frcp (plain 12 1 (.o 7) .lat .zero (.imm 8)), 1) := rfl
theorem test_word_shfl : decodeUnit [0x497089FF00702E03] = .ok (.shfl (plain 0 8 (.v 255) (.v 1) (.imm 5) (.imm 3)), 1) := rfl
theorem test_word_vote : decodeUnit [0x4A700E07C1E84E01] = .ok (.vote (plain 0 0 (.p 3) (.p 7) .zero (.imm 1)), 1) := rfl
/-- OP 0x54 with MOD[3] set is STT. -/
theorem test_word_stt : decodeUnit [0x5470AA1201284C08] = .ok (.stt (plain 0 10 .zero (.s 4) .zero (.v 8)), 1) := rfl
theorem test_word_atom : decodeUnit [0x5770000601B00E30] = .ok (.atom (plain 0 0 (.s 3) (.s 6) (.imm 1) (.imm 48)), 1) := rfl
/-- OP 0x5B with MOD[3:2] = 2 is BARW. -/
theorem test_word_barw : decodeUnit [0x5B708A1380E84D09] = .ok (.barw (plain 0 8 .zero (.imm 3) .zero .zero), 1) := rfl
/-- OP 0x5C with MOD[3:2] = 1 is AREND. -/
theorem test_word_arend : decodeUnit [0x5C704A1342684D09] = .ok (.arend (plain 0 4 .zero .zero .zero .zero), 1) := rfl
/-- OP 0x5D with MOD[3:2] = 2 is HINT. -/
theorem test_word_hint : decodeUnit [0x5D708A1200B00D09] = .ok (.hint (plain 0 8 .zero (.s 2) (.imm 1) .zero), 1) := rfl
theorem test_word_mpost : decodeUnit [0x5E708ABE01303D09] = .ok (.mpost (plain 0 8 (.q 31) (.s 4) (.imm 7) .zero), 1) := rfl
theorem test_word_qunbind : decodeUnit [0x60708A8B42684D09] = .ok (.qunbind (plain 0 8 (.q 5) .zero .zero .zero), 1) := rfl
theorem test_word_scrum : decodeUnit [0x62700A1380A84D09] = .ok (.scrum (plain 0 0 .zero (.imm 2) .zero .zero), 1) := rfl
theorem test_word_swrel : decodeUnit [0x63708A1383E84D09] = .ok (.swrel (plain 0 8 .zero (.imm 15) .zero .zero), 1) := rfl
/-- OP 0x66 with MOD[3:2] = 1 is ALD. -/
theorem test_word_ald : decodeUnit [0x66704A1380701683] = .ok (.ald (plain 0 4 .zero (.imm 1) (.imm 2) (.imm 131)), 1) := rfl
theorem test_word_tarm : decodeUnit [0x6D708A1201304D09] = .ok (.tarm (plain 0 8 .zero (.s 4) (.imm 9) .zero), 1) := rfl
theorem test_word_symq : decodeUnit [0x6E70800B81A84D09] = .ok (.symq (plain 0 8 (.s 5) (.imm 6) .zero .zero), 1) := rfl
theorem test_word_uiret : decodeUnit [0x71708A1342684D09] = .ok (.uiret (plain 0 8 .zero .zero .zero .zero), 1) := rfl
theorem test_word_csrw : decodeUnit [0x73708A1389003509] = .ok (.csrw (plain 0 8 .zero (.imm 36) (.s 6) .zero), 1) := rfl
theorem test_word_halt : decodeUnit [0x75700E0201284D09] = .ok (.halt (plain 0 0 (.p 1) (.s 4) .zero .zero), 1) := rfl
theorem test_word_dbgwr : decodeUnit [0x77708E0401301806] = .ok (.dbgwr (plain 0 8 (.p 2) (.s 4) (.imm 3) (.s 6)), 1) := rfl
theorem test_word_thaw : decodeUnit [0x7B708A138FE84D09] = .ok (.thaw (plain 0 8 .zero (.imm 63) .zero .zero), 1) := rfl
theorem test_word_gres : decodeUnit [0x7C70800201301D09] = .ok (.gres (plain 0 8 (.s 1) (.s 4) (.imm 3) .zero), 1) := rfl

/-! ### Words that are no instruction (R130) -/

theorem test_no_op : decodeUnit [0] = .error .illegalOp := rfl
theorem test_reserved_operand : decodeUnit [0x017408090060150A] = .error .illegalOperand := rfl
theorem test_attr_on_add : decodeUnit [0x7F70000000000000, 0x0174080900601509] = .error .illegalPrefix := rfl
theorem test_pair_banks : decodeUnit [0xA01C100212411030] = .error .pairing := rfl

/-! ### Single steps -/

/-- Lane 0 of register q after an instruction, at the state of the arithmetic tests with other scalars and vectors. -/
def after (i : Instr) (g : Weft → Weft) (q : RegId) : Nat :=
  match exec i (onW g alu) with
  | .next t => match getWeft t wid with | some w => (laneOf w q 0).toNat | none => 0
  | _ => 0
/-- `s4 = a op b` of type T, with a and b in scalar pairs. -/
def two (op : Fields → Instr) (mod : BitVec 4) (a b : Nat) (c : Operand) : Nat :=
  after (op (plain 1 mod (.s 4) (.s 6) (.s 8) c)) (fun w => scal 6 a (scal 7 (a / 2 ^ 32) (scal 8 b (scal 9 (b / 2 ^ 32) w)))) (.s 4)
def one (op : Fields → Instr) (mod : BitVec 4) (a : Nat) (b c : Operand) : Nat :=
  after (op (plain 1 mod (.s 4) (.s 6) b c)) (fun w => scal 6 a (scal 7 (a / 2 ^ 32) w)) (.s 4)

theorem test_add_wraps : two .add 0 0xFFFFFFFF 1 .zero = 0 := by decide +kernel
theorem test_sub_order : two .sub 0 5 7 .zero = 0xFFFFFFFE := by decide +kernel
theorem test_mulh_signed : two .mulh 0 0xFFFFFFFF 0xFFFFFFFF .zero = 0 := by decide +kernel
theorem test_mulh_plain : two .mulh 1 0xFFFFFFFF 0xFFFFFFFF .zero = 0xFFFFFFFE := by decide +kernel
theorem test_min_signed : two .min 0 0xFFFFFFFF 1 .zero = 0xFFFFFFFF := by decide +kernel
theorem test_max_plain : two .max 1 0xFFFFFFFF 1 .zero = 0xFFFFFFFF := by decide +kernel
theorem test_andn_order : two .andn 8 0xFF 0x0F .zero = 0xF0 := by decide +kernel
theorem test_sar_sign : two .sar 0 0x80000000 4 .zero = 0xF8000000 := by decide +kernel
theorem test_shr_zero_fill : two .shr 1 0x80000000 4 .zero = 0x08000000 := by decide +kernel
theorem test_shl_count_wraps : two .shl 8 1 33 .zero = 2 := by decide +kernel
theorem test_bfx_signed : two .bfx 0 0xF0 0x404 .zero = 0xFFFFFFFF := by decide +kernel
theorem test_clz_zero : one .clz 1 0 .zero .zero = 32 := by decide +kernel
theorem test_brev : one .brev 8 1 .zero .zero = 0x80000000 := by decide +kernel
theorem test_neg : one .neg 0 1 .zero .zero = 0xFFFFFFFF := by decide +kernel
theorem test_rem_sign : two .rem 0 0xFFFFFFF9 2 .zero = 0xFFFFFFFF := by decide +kernel
theorem test_fadd : two .fadd 1 0x3FC00000 0x40100000 (.imm 0) = 0x40700000 := by decide +kernel
theorem test_fmul_rounds : two .fmul 1 0x3F800001 0x3F800001 (.imm 0) = 0x3F800002 := by decide +kernel
theorem test_fdiv : two .fdiv 1 0x3F800000 0x40400000 (.imm 0) = 0x3EAAAAAB := by decide +kernel
theorem test_fsqrt : one .fsqrt 1 0x40000000 .zero (.imm 0) = 0x3FB504F3 := by decide +kernel
theorem test_fmin_minus_zero : two .fmin 1 0 0x80000000 (.imm 0) = 0x80000000 := by decide +kernel
theorem test_frcp : one .frcp 1 0x40000000 .zero (.imm 0) = 0x3F000000 := by decide +kernel

/-- A word stored is read back byte by byte, the least significant at the lowest address (R2). -/
theorem test_store_bytes : (match exec (.st (plain 1 1 .zero (.s 4) (.imm 0) (.s 6))) (onW (fun w => scal 4 0x1100 (scal 5 0 (scal 6 0x04030201 w))) mems) with
    | .next t => mread t.mem 0x1100 4 | _ => []) = [1, 2, 3, 4] := by decide +kernel

/-- The branch of the manual's worked word goes 40 bytes on where p1 holds and to the next word elsewhere; the parts meet 72 bytes on (R180 to R182). -/
theorem test_branch : (match exec (.bra { plain 0 0 .zero (.imm 5) .zero (.imm 9) with guard := ⟨false, 1⟩ }) (onW (fun w => { w with preds := [0, 0x00FF, 0, 0, 0, 0, 0] }) alu) with
    | .next t => match getWeft t wid with | some w => (subAt w 0).map (·.pc) == some 0x1028 && (subAt w 15).map (·.pc) == some 0x1008 && w.divs.map (·.point) == [some 0x1048] | none => false
    | _ => false) = true := by decide +kernel

/-- The host's way to run a word: stored where the next step fetches, it is what the step runs. -/
theorem test_fetch_word : (match step (State.reset.withFetchWord 64 0x01700003F8300509) with | .next t => t.cur == none && t.agenda == [] | _ => false) = true := by
  decide +kernel

end Sys2Proof.Tests
end

