-- ==== Sys2Proof/Tests/Steps.lean ====
section
/-!
SUPPORT. States that meet all hypotheses of the statement about the engines' steps.
-/

set_option Elab.async false
namespace Sys2Proof.Tests

open Machine Safety

/-- An engine command at the head of its engine on core 0; the panel has 64 tiles. -/
def cmd0 (e : Engine) (n desc : Nat) (mat : Option MatOp) : Cmd :=
  ⟨5, e, key, 0, none, 0x2000, toBytes n desc, some 0, false, mat, 0, 0, 0, 0, 0, 0⟩
def engine (c : Cmd) (cells : List Host.Cell) : State :=
  onP (fun p =>
    let m : Meta := { p.m with acc := 64 }
    { p with m := m }) { cachedPages (low cells start) with cores := [⟨0, [(3, 9), (129, 7)], [], [c], [], 0, 0, []⟩] }

/-- A copy of four words of a kind of source to a place of a kind. -/
def copy4 (dk sk dst src : Nat) : Cmd :=
  cmd0 .copy 256 (src + dst * 2 ^ 64 + 0x77 * 2 ^ 192 + 1 * 2 ^ 224 + 2 * 2 ^ 228 + sk * 2 ^ 232 + dk * 2 ^ 236 +
    (4 + 3 * 2 ^ 32 + 4 * 2 ^ 64 + 4 * 2 ^ 96) * 2 ^ 320) none

def noHead : Panel × Cmd × Plan := (loadPanel key, copy4 0 0 0 0, ⟨[], [], [], 0⟩)

theorem test_copy_step_inputs :
    (∃ (s : State) (core : Nat) (y : Panel × Cmd × Plan), chunkHead s core .copy = some y ∧
      chunkAsks s (engFor y.1 core y.2.1.unc) y.2.1 = none ∧
      (copyChunk s (engFor y.1 core y.2.1.unc) y.2.1).stop = none) ∧
    (∃ (s : State) (core : Nat) (y : Panel × Cmd × Plan), chunkHead s core .copy = some y ∧
      chunkAsks s (engFor y.1 core y.2.1.unc) y.2.1 = none ∧
      ∃ va wr, (copyChunk s (engFor y.1 core y.2.1.unc) y.2.1).stop = some (.denied va, wr)) ∧
    ∃ (s : State) (core : Nat) (y : Panel × Cmd × Plan), chunkHead s core .copy = some y ∧
      chunkAsks s (engFor y.1 core y.2.1.unc) y.2.1 = none ∧
      let d := copyOf (ofBytes y.2.1.bytes)
      d.dk = 2 ∧ d.sk = 1 ∧ 3 < min (4096 / 2 ^ d.es) (copyTotal d - y.2.1.prog) := by
  refine ⟨⟨engine (copy4 0 1 0x2010 0x800) [], 0, some_and noHead (by decide +kernel) (by decide +kernel)⟩,
    ⟨engine (copy4 0 1 0x5FF8 0x800) [], 0, some_and noHead (by decide +kernel) ⟨by decide +kernel, 0x6000, true, by decide +kernel⟩⟩,
    engine (copy4 2 1 0x10000 0x800) [], 0, some_and noHead (by decide +kernel) (by decide +kernel)⟩

/-- A gather of two rows of 8 bytes to the scratchpad or the operand buffer, from a table of a limit. -/
def gath2 (dk base limit : Nat) : Cmd :=
  cmd0 .gather 64 (base + 0x800 * 2 ^ 64 + 2 * 2 ^ 224 + limit * 2 ^ 256 + 8 * 2 ^ 288 + 8 * 2 ^ 320 + 8 * 2 ^ 384 + 0x77 * 2 ^ 416 +
    dk * 2 ^ 448) none

theorem test_gather_step_inputs :
    (∃ (s : State) (core : Nat) (y : Panel × Cmd × Plan), chunkHead s core .gather = some y ∧
      chunkAsks s (engFor y.1 core y.2.1.unc) y.2.1 = none ∧
      (gathChunk s (engFor y.1 core y.2.1.unc) y.2.1).stop = none) ∧
    (∃ (s : State) (core : Nat) (y : Panel × Cmd × Plan), chunkHead s core .gather = some y ∧
      chunkAsks s (engFor y.1 core y.2.1.unc) y.2.1 = none ∧
      ∃ va wr, (gathChunk s (engFor y.1 core y.2.1.unc) y.2.1).stop = some (.absent va, wr)) ∧
    ∃ (s : State) (core : Nat) (y : Panel × Cmd × Plan), chunkHead s core .gather = some y ∧
      chunkAsks s (engFor y.1 core y.2.1.unc) y.2.1 = none ∧
      let d := gathOf (ofBytes y.2.1.bytes)
      ((d.limit : Int) ≤ gathIndex s (engFor y.1 core y.2.1.unc) y.2.1 y.2.1.prog) ∧ d.dk = 2 ∧ 1 < d.rowBytes / 4 := by
  exact ⟨⟨engine (gath2 1 0x2000 9) [(0x2000, 5)], 0, some_and noHead (by decide +kernel) (by decide +kernel)⟩,
    ⟨engine (gath2 1 0x7000 9) [], 0, some_and noHead (by decide +kernel) ⟨by decide +kernel, 0x7000, false, by decide +kernel⟩⟩,
    engine (gath2 2 0x2000 0) [], 0, some_and noHead (by decide +kernel) (by decide +kernel)⟩

theorem test_matrix_step_inputs :
    ∀ op ∈ [MatOp.aclr 62 2, .ald 0x100 63 1, .ast 0 63 1, .mma true (BitVec.ofNat 128 (1 + 3 * 2 ^ 44 + 2 ^ 56 + 3 * 2 ^ 68 + 31 * 2 ^ 81))
        (BitVec.ofNat 128 (1 + 4 * 2 ^ 32 + 3 * 2 ^ 44 + 2 ^ 56 + 3 * 2 ^ 68 + 31 * 2 ^ 81)) 63],
      ∃ (s : State) (core : Nat) (y : Panel × Cmd × Plan), chunkHead s core .matrix = some y ∧ y.2.1.mat = some op ∧ core ∈ y.1.cores ∧
        HasCores y.1 ∧ ((∃ z a b n, op = .mma z a b n) → (matGeo op).isSome) := by
  have hc : ∀ p : Panel, decide (p.cores.all fun k => p.parts.any fun y => y.core == k) = true → HasCores p := by
    intro p h k hk
    simp only [decide_eq_true_eq, List.all_eq_true, List.any_eq_true, beq_iff_eq] at h
    exact h k hk
  intro op h
  simp only [List.mem_cons, List.not_mem_nil, or_false] at h
  rcases h with h | h | h | h <;> subst h
  · exact ⟨engine (cmd0 .matrix 0 0 (some (.aclr 62 2))) [], 0, some_and noHead (by decide +kernel)
      ⟨by decide +kernel, by decide +kernel, hc _ (by decide +kernel), fun ⟨_, _, _, _, h⟩ => by cases h⟩⟩
  · exact ⟨engine (cmd0 .matrix 0 0 (some (.ald 0x100 63 1))) [], 0, some_and noHead (by decide +kernel)
      ⟨by decide +kernel, by decide +kernel, hc _ (by decide +kernel), fun ⟨_, _, _, _, h⟩ => by cases h⟩⟩
  · exact ⟨engine (cmd0 .matrix 0 0 (some (.ast 0 63 1))) [], 0, some_and noHead (by decide +kernel)
      ⟨by decide +kernel, by decide +kernel, hc _ (by decide +kernel), fun ⟨_, _, _, _, h⟩ => by cases h⟩⟩
  · exact ⟨engine (cmd0 .matrix 0 0 (some (.mma true (BitVec.ofNat 128 (1 + 3 * 2 ^ 44 + 2 ^ 56 + 3 * 2 ^ 68 + 31 * 2 ^ 81))
        (BitVec.ofNat 128 (1 + 4 * 2 ^ 32 + 3 * 2 ^ 44 + 2 ^ 56 + 3 * 2 ^ 68 + 31 * 2 ^ 81)) 63))) [], 0, some_and noHead (by decide +kernel)
      ⟨by decide +kernel, by decide +kernel, hc _ (by decide +kernel), fun _ => rfl⟩⟩

/-- Cores 0 and 1 of a panel with a sum of one word each at the head; the second may ask for another type. -/
def coll1 (ty : Nat) : Cmd := cmd0 .coll 32 (0x100 * 2 ^ 64 + 0x800 * 2 ^ 96 + 4 * 2 ^ 128 + 2 * 2 ^ 152 + ty * 2 ^ 154 + 1 * 2 ^ 156) none
def party (ty : Nat) : State :=
  onP (fun p => { p with cores := [0, 1], parts := [⟨0, 0, [(0x100, 3)], [], [], []⟩, ⟨1, 0, [(0x100, 4)], [], [], []⟩] })
    { start with cores := [⟨0, [], [], [coll1 2], [], 0, 0, []⟩, ⟨1, [], [], [{ coll1 ty with id := 6 }], [], 0, 0, []⟩] }

theorem test_collective_step_inputs : ∀ ty ∈ [(2 : Nat), 0], ∃ (s : State) (core : Nat) (y : Panel × Cmd × Plan),
    chunkHead s core .coll = some y ∧ ∃ l, collParty s y.2.1 = some l ∧ partyReady s y.1 l = true ∧ core ∈ y.1.cores ∧
      (∀ k ∈ y.1.cores, ∃ z ∈ y.1.parts, z.core = k) ∧
      let d := collOf (ofBytes y.2.1.bytes)
      let desc (e : Nat × Cmd) : CollDesc := collOf (ofBytes e.2.bytes)
      ((∀ e ∈ l, (desc e).op = d.op ∧ (desc e).ty = d.ty ∧ (desc e).root = d.root ∧ (desc e).bytes = d.bytes) ↔ ty = 2) ∧
      d.root < l.length ∧ d.bytes % 4 = 0 ∧ ∃ e ∈ l, collWrites d (partyPos y.1 e.1) = true ∧
        (desc e).dst % 2 ^ 20 + d.bytes ≤ min (padBytes y.1) (2 ^ 20) := by
  intro ty h
  simp only [List.mem_cons, List.not_mem_nil, or_false] at h
  rcases h with h | h <;> subst h
  · exact ⟨party 2, 0, some_and noHead (by decide +kernel) (some_and [] (by decide +kernel) (by decide +kernel))⟩
  · exact ⟨party 0, 0, some_and noHead (by decide +kernel) (some_and [] (by decide +kernel) (by decide +kernel))⟩

/-- An ended command whose queue has room, or is full; and one with a task of DEP 2. -/
def ended (c : Cmd) (n : Nat) : State :=
  let s := engine { c with prog := 4, written := 16 } (recBytes 2 0x31)
  onP (fun p => { p with cqs := [(0, (List.range n).map (BitVec.ofNat 128))], parts := p.parts.map fun k => { k with owned := [(0, 5)] } }) s
def copyTask : Cmd :=
  { cmd0 .copy 256 (0x800 + 0x2010 * 2 ^ 64 + 0x2000 * 2 ^ 128 + 1 * 2 ^ 224 + 2 * 2 ^ 228 + 1 * 2 ^ 232 +
    (4 + 3 * 2 ^ 32 + 4 * 2 ^ 64 + 4 * 2 ^ 96) * 2 ^ 320) none with stage := 1 }

/-- Whether the completion queue of a command, where it names one, has room. -/
def queueFits (o : Option Panel) (cq : Option Nat) : Bool :=
  match o, cq with
  | some p, some n => decide ((tgetD p.cqs n []).length < 256)
  | _, _ => true

theorem queueFits_room {o : Option Panel} {cq : Option Nat} (h : queueFits o cq = true) :
    ∀ p n, o = some p → cq = some n → (tgetD p.cqs n []).length < 256 := by
  rintro p n rfl rfl
  simpa [queueFits] using h

theorem test_completion_inputs :
    (∃ (s : State) (core : Nat) (e : Engine) (c : Cmd), endedHead s core e = some c ∧ c.stage = 0 ∧ taskOf c = 0 ∧
      (pushesRecord c = true → cqRoom s c.key c.cq = true ∧
        ∀ p n, getPanel s c.key = some p → c.cq = some n → (tgetD p.cqs n []).length < 256)) ∧
    (∃ (s : State) (core : Nat) (e : Engine) (c : Cmd), endedHead s core e = some c ∧ c.stage = 0 ∧ taskOf c = 0 ∧
      pushesRecord c = true ∧ cqRoom s c.key c.cq = false) ∧
    (∃ (s : State) (core : Nat) (e : Engine) (c : Cmd), endedHead s core e = some c ∧ c.stage = 0 ∧ taskOf c = 0 ∧
      (∃ p, getPanel s c.key = some p ∧ c.cq = some 0 ∧ 256 ≤ (tgetD p.cqs 0 []).length) ∧ cqRead s c.key = false ∧
      ∀ k ∈ s.cores, ∀ y ∈ k.cmds, y.key = c.key → k.num = core ∧ y.id = c.id) ∧
    ∃ (s : State) (core : Nat) (e : Engine) (c : Cmd) (p : Panel), endedHead s core e = some c ∧ c.stage = 1 ∧ taskOf c ≠ 0 ∧ c.status = 0 ∧
      (pushesRecord c = true → cqRoom s c.key c.cq = true ∧
        ∀ p n, getPanel s c.key = some p → c.cq = some n → (tgetD p.cqs n []).length < 256) ∧
      c.key.part = some 0 ∧ getPanel s c.key = some p ∧ ∃ s1, decRec s 0 p.asid (taskOf c) c.desc core = (true, s1) := by
  let c : Cmd := { copy4 0 1 0x2010 0x800 with prog := 4, written := 16 }
  exact ⟨⟨ended (copy4 0 1 0x2010 0x800) 255, 0, .copy, c, by decide +kernel, rfl, by decide +kernel,
      fun _ => ⟨by decide +kernel, queueFits_room (by decide +kernel)⟩⟩,
    ⟨ended (copy4 0 1 0x2010 0x800) 256, 0, .copy, c, by decide +kernel⟩,
    ⟨{ ended (copy4 0 1 0x2010 0x800) 256 with wefts := [] }, 0, .copy, c, by decide +kernel, rfl, by decide +kernel,
      ⟨_, rfl, rfl, by decide +kernel⟩, by decide +kernel⟩,
    ⟨ended copyTask 0, 0, .copy, { copyTask with prog := 4, written := 16 }, _, by decide +kernel, rfl, by decide +kernel, rfl,
      fun _ => ⟨by decide +kernel, queueFits_room (by decide +kernel)⟩, rfl, rfl, true_pair (by decide +kernel)⟩⟩

end Sys2Proof.Tests
end

section
/-!
SUPPORT. Bits of a number after one of its fields is replaced, and the fields of `$rstat` that an abort writes (R240, R246).
-/
namespace Sys2Proof.Machine

/-! ### Fields of numbers (R2) -/

theorem testBit_field (x hi lo i : Nat) : (field x hi lo).testBit i = (decide (i < hi + 1 - lo) && x.testBit (lo + i)) := by
  simp [field, Nat.testBit_mod_two_pow, Nat.testBit_shiftRight]

/-- A replaced field stands between the bits above it and the bits below it. -/
theorem setField_eq (x hi lo v : Nat) :
    setField x hi lo v =
      2 ^ lo * (2 ^ (hi + 1 - lo) * (x / 2 ^ lo / 2 ^ (hi + 1 - lo)) + v % 2 ^ (hi + 1 - lo)) + x % 2 ^ lo := by
  have hx : 2 ^ lo * (x / 2 ^ lo) + x % 2 ^ lo = x := Nat.div_add_mod ..
  have hq : 2 ^ (hi + 1 - lo) * (x / 2 ^ lo / 2 ^ (hi + 1 - lo)) + x / 2 ^ lo % 2 ^ (hi + 1 - lo) = x / 2 ^ lo :=
    Nat.div_add_mod ..
  unfold setField field
  rw [Nat.shiftRight_eq_div_pow]
  generalize x / 2 ^ lo / 2 ^ (hi + 1 - lo) = q at *
  generalize x / 2 ^ lo % 2 ^ (hi + 1 - lo) = r at *
  rw [← hq] at hx
  have e : 2 ^ lo * (2 ^ (hi + 1 - lo) * q + r) = 2 ^ lo * (2 ^ (hi + 1 - lo) * q) + r * 2 ^ lo :=
    (Nat.mul_add ..).trans (congrArg _ (Nat.mul_comm ..))
  rw [Nat.mul_add, Nat.mul_comm (2 ^ lo) (v % _)]
  omega

theorem testBit_setField (x hi lo v i : Nat) :
    (setField x hi lo v).testBit i = if lo ≤ i ∧ i ≤ hi then v.testBit (i - lo) else x.testBit i := by
  rw [setField_eq, Nat.testBit_two_pow_mul_add _ (Nat.mod_lt _ (Nat.two_pow_pos lo))]
  by_cases below : i < lo
  · simp [below, Nat.testBit_mod_two_pow, show ¬ lo ≤ i by omega]
  rw [if_neg below, Nat.testBit_two_pow_mul_add _ (Nat.mod_lt _ (Nat.two_pow_pos _))]
  by_cases inside : i ≤ hi
  · rw [if_pos (by omega), if_pos (by omega), Nat.testBit_mod_two_pow]
    simp [show i - lo < hi + 1 - lo by omega]
  · rw [if_neg (by omega), if_neg (by omega), Nat.testBit_div_two_pow, Nat.testBit_div_two_pow]
    congr 1
    omega

theorem field_setField_same (x hi lo v : Nat) : field (setField x hi lo v) hi lo = v % 2 ^ (hi + 1 - lo) := by
  refine Nat.eq_of_testBit_eq fun i => ?_
  rw [testBit_field, testBit_setField, Nat.testBit_mod_two_pow]
  by_cases h : i < hi + 1 - lo
  · rw [if_pos (by omega), Nat.add_sub_cancel_left]
  · simp [h]

theorem field_setField_disjoint (x v : Nat) {hi lo hi' lo' : Nat} (h : hi' < lo ∨ hi < lo') :
    field (setField x hi lo v) hi' lo' = field x hi' lo' := by
  refine Nat.eq_of_testBit_eq fun i => ?_
  rw [testBit_field, testBit_field, testBit_setField]
  by_cases hi : i < hi' + 1 - lo'
  · rw [if_neg (by omega)]
  · simp [hi]

theorem field_ofNat32 (x lo : Nat) {hi : Nat} (h : hi < 32) : field (BitVec.ofNat 32 x).toNat hi lo = field x hi lo := by
  refine Nat.eq_of_testBit_eq fun i => ?_
  rw [testBit_field, testBit_field, BitVec.toNat_ofNat, Nat.testBit_mod_two_pow]
  by_cases hi : i < hi + 1 - lo
  · simp [show lo + i < 32 by omega]
  · simp [hi]

/-! ### `$rstat` after an abort (R246) -/

/-- FCODE and UCODE, which an abort writes with CAUSE 5 and 4, lie above the fields that it always writes. -/
theorem field_rstatAbort_low (r : Word32) (cause fcode ucode lo : Nat) {hi : Nat} (h : hi < 16) :
    field (rstatAbort r cause fcode ucode).toNat hi lo =
      field (setField (setField (setField r.toNat 3 0 cause) 5 5 0) 12 8 (min 16 (field r.toNat 12 8 + 1))) hi lo := by
  unfold rstatAbort
  rw [field_ofNat32 _ _ (by omega)]
  have belowF : hi < 16 ∨ 23 < lo := .inl h
  have belowU : hi < 24 ∨ 31 < lo := .inl (by omega)
  split <;> split <;> simp only [field_setField_disjoint _ _ belowU, field_setField_disjoint _ _ belowF]

theorem rstatAbort_low (r : Word32) {cause : Nat} (fcode ucode : Nat) (h : cause < 16) :
    field (rstatAbort r cause fcode ucode).toNat 3 0 = cause ∧ field (rstatAbort r cause fcode ucode).toNat 5 5 = 0 ∧
      field (rstatAbort r cause fcode ucode).toNat 12 8 = min 16 (field r.toNat 12 8 + 1) := by
  refine ⟨?_, ?_, ?_⟩ <;> rw [field_rstatAbort_low _ _ _ _ _ (by omega)]
  · rw [field_setField_disjoint _ _ (.inl (by omega)), field_setField_disjoint _ _ (.inl (by omega)), field_setField_same]
    exact Nat.mod_eq_of_lt h
  · exact ((field_setField_disjoint _ _ (.inl (by omega))).trans (field_setField_same ..)).trans (Nat.zero_mod _)
  · rw [field_setField_same]
    exact Nat.mod_eq_of_lt (by omega)

theorem rstatAbort_ucode (r : Word32) (fcode ucode : Nat) :
    field (rstatAbort r 4 fcode ucode).toNat 31 24 = ucode % 256 := by
  unfold rstatAbort
  rw [field_ofNat32 _ _ (by omega)]
  exact field_setField_same ..

end Sys2Proof.Machine
end

section
/-!
SUPPORT. What an abort does to the aborted weft, whatever regions depend on it, and how the unit that brings it about ends
(R134, R246).
-/
namespace Sys2Proof.Machine

open Safety

/-! ### Aborted regions (R246) -/

/-- What an abort leaves of a weft whose region r was open. -/
def abortedWeft (r : Region) (cause fcode ucode : Nat) (w : Weft) : Weft :=
  { w with region := none, rstat := rstatAbort w.rstat cause fcode ucode, divs := [], subs := [⟨r.target, liveMask w, none, .none⟩] }

@[simp] theorem freeSerial_wefts (s : State) (w : Weft) (r : Region) : (freeSerial s w r).wefts = s.wefts := by
  unfold freeSerial setDom
  simp only
  split
  · rw [updPart_wefts]
  · rfl

theorem getWeft_congr {s t : State} (h : s.wefts = t.wefts) (k : WId) : getWeft s k = getWeft t k := by
  unfold getWeft
  rw [h]

theorem abortOne_closed {s : State} {id : WId} {w : Weft} (hw : getWeft s id = some w) (hr : w.region = none)
    (cause fcode ucode : Nat) : abortOne s id cause fcode ucode = s := by
  unfold abortOne
  simp only [hw, hr]

theorem getWeft_abortOne_open {s : State} {id : WId} {w : Weft} {r : Region} (hw : getWeft s id = some w)
    (hr : w.region = some r) (cause fcode ucode : Nat) (k : WId) :
    getWeft (abortOne s id cause fcode ucode) k =
      if k = id then some (abortedWeft r cause fcode ucode w) else getWeft s k := by
  have e : abortOne s id cause fcode ucode = updWeft (freeSerial s w r) id (abortedWeft r cause fcode ucode) := by
    unfold abortOne
    simp only [hw, hr]
    rfl
  rw [e, getWeft_updWeft _ _ (abortedWeft r cause fcode ucode) fun _ => rfl, getWeft_congr (freeSerial_wefts s w r)]
  by_cases hk : k = id
  · subst hk
    simp [hw]
  · simp [hk]

/-- An abort touches no weft that has no region open. -/
theorem getWeft_abortOne_closed {s : State} {k : WId} {w : Weft} (hw : getWeft s k = some w) (hr : w.region = none)
    (id : WId) (cause fcode ucode : Nat) : getWeft (abortOne s id cause fcode ucode) k = some w := by
  by_cases hk : k = id
  · subst hk
    rw [abortOne_closed hw hr, hw]
  cases hv : getWeft s id with
  | none => simpa [abortOne, hv] using hw
  | some v =>
    cases hq : v.region with
    | none => rw [abortOne_closed hv hq, hw]
    | some q => rw [getWeft_abortOne_open hv hq, if_neg hk, hw]

theorem getWeft_abortAll_closed {k : WId} {w : Weft} (hr : w.region = none) (n : Nat) (ids : List WId) (s : State)
    (hw : getWeft s k = some w) : getWeft (abortAll n ids s) k = some w := by
  induction n generalizing ids s with
  | zero => exact hw
  | succ n ih =>
    cases ids with
    | nil => exact hw
    | cons id ids => exact ih _ _ (getWeft_abortOne_closed hw hr ..)

/-- The aborted weft itself: aborting the regions that depend on it leaves it as its own abort has made it. -/
theorem getWeft_abortRegion {s : State} {id : WId} {w : Weft} {r : Region} (hw : getWeft s id = some w)
    (hr : w.region = some r) (cause fcode ucode : Nat) :
    getWeft (abortRegion s id cause fcode ucode) id = some (abortedWeft r cause fcode ucode w) := by
  unfold abortRegion
  simp only [hw, hr, Option.bind_some, getWeft_progress]
  refine getWeft_abortAll_closed rfl _ _ _ ?_
  rw [getWeft_abortOne_open hw hr, if_pos rfl]

/-! ### Units whose body has set the program counters -/

/-- The weft with its stall window aged by the unit (R123). -/
def agedWeft (x : Ctx) (w : Weft) : Weft := ageWindow w x.b.mask (x.c.words - 1) (max x.f.stl.toNat 1)

theorem debugMatch_unwatched {x : Ctx} (q : Unwatched x) (pc : Word64) (act : Mask) (ts : List Touch) :
    debugMatch x.p x.w pc act ts = none := by
  unfold debugMatch
  rcases q.watch with h | h <;> simp [h]

theorem endStep_unstepped {s : State} {id : WId} {w : Weft} (hw : getWeft s id = some w) (h : w.stepping = none)
    (status : Nat) : endStep s id status = s := by
  unfold endStep
  simp only [hw, h, Option.isSome_none, Bool.false_eq_true, if_false]

theorem settle_id (w : Weft) : (settle w).id = w.id := by
  obtain ⟨u, d, h⟩ := settle_bare w
  rw [h]

/-- The unit's weft after a unit that has set the program counters and that no debugger touches. -/
theorem finishUnit_jumped {x : Ctx} (q : Unwatched x) {s' : State} {ts : List Touch} {w' : Weft}
    (hw : getWeft s' x.c.w = some w') (hs : w'.stepping = none) :
    (finishUnit x.s x.c x.w x.p x.b x.f.stl x.act (.ok ⟨s', .jumped, ts⟩)).cur = none ∧
      getWeft (finishUnit x.s x.c x.w x.p x.b x.f.stl x.act (.ok ⟨s', .jumped, ts⟩)) x.c.w = some (settle (agedWeft x w')) := by
  have aged : getWeft (updWeft s' x.c.w (agedWeft x)) x.c.w = some (agedWeft x w') := by
    rw [getWeft_updWeft _ _ (agedWeft x) fun _ => rfl, if_pos rfl, hw]
    rfl
  have e : finishUnit x.s x.c x.w x.p x.b x.f.stl x.act (.ok ⟨s', .jumped, ts⟩) =
      progress { updWeft (endStep (updWeft s' x.c.w (agedWeft x)) x.c.w 0) x.c.w settle with cur := none } := by
    unfold finishUnit
    simp only [debugMatch_unwatched q]
    rfl
  rw [e, endStep_unstepped aged hs]
  refine ⟨rfl, ?_⟩
  rw [getWeft_progress, getWeft_cur, getWeft_updWeft _ _ _ settle_id, if_pos rfl, aged]
  rfl

/-- Where the only sub-weft is not parked, no wait under JOIN is to be settled. -/
theorem settle_single {w : Weft} {b : Sub} (hs : w.subs = [b]) (hp : b.park = none) : settle w = w := by
  have hm : w.subs.map (freeJoin w) = w.subs := by rw [hs, List.map_singleton, freeJoin_ready hp]
  unfold settle
  simp only [hm]
  rw [if_neg (by simp [hs, hp])]

/-- A unit whose body aborts its weft's region ends with the weft as the abort has made it. -/
theorem exec_abortRegion {s s' : State} {i : Instr} {m : Mnem} {f : Fields} {g : GuardKind} {x : Ctx} {body : Ctx → R Out}
    {ts : List Touch} {w : Weft} {r : Region} {cause fcode ucode : Nat} (he : ∀ s, exec i s = onWeft m f g body s)
    (hr : Runs s m f g x) (hq : Unwatched x)
    (hb : body x = .ok ⟨abortRegion s' x.c.w cause fcode ucode, .jumped, ts⟩) (hw : getWeft s' x.c.w = some w)
    (hs : w.stepping = none) (hreg : w.region = some r) :
    ∃ t, exec i s = .next t ∧ t.cur = none ∧
      getWeft t x.c.w = some (agedWeft x (abortedWeft r cause fcode ucode w)) := by
  obtain ⟨hcur, hweft⟩ := finishUnit_jumped (ts := ts) hq (getWeft_abortRegion hw hreg cause fcode ucode) hs
  refine ⟨_, ?_, hcur, hweft.trans (congrArg some (settle_single rfl rfl))⟩
  rw [he, onWeft_runs hr, hb, hr.state, hr.fields]

end Sys2Proof.Machine
end

section
/-!
SUPPORT. ARABORT and ARBND (R245).
-/
namespace Sys2Proof.Machine

open Safety

/-! ### The bounds of a region -/

/-- A weft with the bounds of its interval replaced. -/
def withBounds (lo hi : Word64) (w : Weft) : Weft := { w with rlo := lo, rhi := hi }

/-- An abort of the unit's weft, whose bounds may have been narrowed before it, is the abort of R246, and the weft's
`$rstat` is the one that it writes. -/
theorem aborts_of_exec {i : Instr} {x : Ctx} {t : State} {r : Region} {cause fcode ucode : Nat} {lo hi : Word64}
    (hc : cause < 16) (ht : exec i x.s = .next t) (hcur : t.cur = none)
    (hw : getWeft t x.c.w = some (agedWeft x (abortedWeft r cause fcode ucode (withBounds lo hi x.w)))) :
    Aborts i x r cause := by
  obtain ⟨hcause, hopen, hnabort⟩ := rstatAbort_low x.w.rstat fcode ucode hc
  exact ⟨t, _, ht, hcur, hw, rfl, rfl, ⟨hcause, hopen, hnabort⟩, fun q => by cases q <;> rfl⟩

/-- A body's effect may be given by any state with the same wefts and otherwise the same fields. -/
theorem endsWith_congr {i : Instr} {x : Ctx} {s s' : State} (h : EndsWith i x s) (hs : s = { s' with wefts := s.wefts })
    (hw : ∀ k, getWeft s k = getWeft s' k) : EndsWith i x s' := by
  obtain ⟨t, hexec, hend, ht, hown, hother⟩ := h
  refine ⟨t, hexec, hend, ?_, (hw x.c.w) ▸ hown, fun k hk => (hother k hk).trans (hw k)⟩
  rw [ht, hs]

/-! ### ARABORT -/

theorem exec_arabort (f : Fields) (s : State) : exec (.arabort f) s = onWeft .arabort f .once arabortBody s := rfl

theorem arabortBody_closed {x : Ctx} {c : Nat} (hc : num1 x .a = .ok c) (hr : x.w.region = none) :
    arabortBody x = Out.step x.s := by
  simp [arabortBody, bind, Except.bind, hc, hr]

theorem arabortBody_open {x : Ctx} {c : Nat} {r : Region} (hc : num1 x .a = .ok c) (hr : x.w.region = some r) :
    arabortBody x = .ok ⟨abortRegion x.s x.w.id 4 0 (c % 256), .jumped, []⟩ := by
  simp [arabortBody, bind, Except.bind, hc, hr]

theorem exec_arabort_open {s : State} {f : Fields} {x : Ctx} {c : Nat} {r : Region} (hx : Runs s .arabort f .once x)
    (hq : Unwatched x) (hc : num1 x .a = .ok c) (hr : x.w.region = some r) :
    ∃ t, exec (.arabort f) s = .next t ∧ t.cur = none ∧
      getWeft t x.c.w = some (agedWeft x (abortedWeft r 4 0 (c % 256) x.w)) := by
  have hb := arabortBody_open hc hr
  rw [getWeft_id hx.weft, hx.state] at hb
  exact exec_abortRegion (exec_arabort f) hx hq hb hx.weft hq.stepping hr

/-- ARABORT in an open region: an abort with CAUSE 4 and A[7:0] in UCODE. -/
theorem arabort_open {s : State} {f : Fields} {x : Ctx} {c : Nat} {r : Region} (hx : Runs s .arabort f .once x)
    (hq : Unwatched x) (hc : num1 x .a = .ok c) (hr : x.w.region = some r) :
    Aborts (.arabort f) x r 4 ∧ ∀ t w, exec (.arabort f) s = .next t → getWeft t x.c.w = some w →
      field w.rstat.toNat 31 24 = c % 256 := by
  obtain ⟨t, ht, hcur, hw⟩ := exec_arabort_open hx hq hc hr
  refine ⟨aborts_of_exec (by omega) (hx.state ▸ ht) hcur hw, fun t' w' ht' hw' => ?_⟩
  cases ht.symm.trans ht'
  cases hw.symm.trans hw'
  exact (rstatAbort_ucode ..).trans (Nat.mod_mod ..)

/-! ### ARBND -/

theorem exec_arbnd (f : Fields) (s : State) : exec (.arbnd f) s = onWeft .arbnd f .once arbndBody s := rfl

/-- `$rlo` after an ARBND by the unit with source a. -/
def newLo (x : Ctx) (a : Word64) : Word64 := if bitOf x.f.mod.toNat 0 = false ∧ x.w.rlo < a then a else x.w.rlo

/-- `$rhi` after an ARBND by the unit with source a, where the region is not serial. -/
def newHi (x : Ctx) (a : Word64) : Word64 := if bitOf x.f.mod.toNat 0 = true ∧ a < x.w.rhi then a else x.w.rhi

/-- What ARBND does to the bounds of a weft in region r before it looks whether the interval is empty (R245, R248). -/
def narrow (x : Ctx) (r : Region) (a : Word64) (w : Weft) : Weft :=
  if !bitOf x.f.mod.toNat 0 then { w with rlo := if a > w.rlo then a else w.rlo }
  else if r.serial then w
  else { w with rhi := if a < w.rhi then a else w.rhi }

theorem narrow_id (x : Ctx) (r : Region) (a : Word64) (w : Weft) : (narrow x r a w).id = w.id := by
  unfold narrow
  split
  · rfl
  · split <;> rfl

theorem narrow_own {x : Ctx} {r : Region} (a : Word64) (h : bitOf x.f.mod.toNat 0 = true → r.serial = false) :
    narrow x r a x.w = withBounds (newLo x a) (newHi x a) x.w := by
  unfold narrow withBounds newLo newHi
  cases hb : bitOf x.f.mod.toNat 0 with
  | false => simp
  | true => simp [h hb]

/-- Each weft after ARBND has narrowed the bounds of the unit's. -/
theorem getWeft_narrow {s : State} {m : Mnem} {f : Fields} {g : GuardKind} {x : Ctx} {r : Region} (hx : Runs s m f g x)
    (a : Word64) (h : bitOf x.f.mod.toNat 0 = true → r.serial = false) (k : WId) :
    getWeft (updWeft s x.c.w (narrow x r a)) k =
      if k = x.c.w then some (withBounds (newLo x a) (newHi x a) x.w) else getWeft s k := by
  rw [getWeft_updWeft _ _ _ (narrow_id x r a)]
  by_cases hk : k = x.c.w
  · subst hk
    rw [if_pos rfl, if_pos rfl, hx.weft, Option.map_some, narrow_own a h]
  · rw [if_neg hk, if_neg hk]

theorem arbndBody_closed {x : Ctx} {a : Word64} (ha : rd1 x .a true = .ok a) (hr : x.w.region = none) :
    arbndBody x = Out.step x.s := by
  simp [arbndBody, bind, Except.bind, ha, hr]

theorem arbndBody_open {x : Ctx} {a : Word64} {r : Region} (ha : rd1 x .a true = .ok a) (hr : x.w.region = some r) :
    arbndBody x =
      if regionLost (checkEmpty (updWeft x.s x.w.id (narrow x r a)) x.w.id) x then
        .ok ⟨checkEmpty (updWeft x.s x.w.id (narrow x r a)) x.w.id, .jumped, []⟩
      else Out.step (checkEmpty (updWeft x.s x.w.id (narrow x r a)) x.w.id) := by
  simp only [arbndBody, bind, Except.bind, ha, hr]
  rfl

theorem checkEmpty_of_le {s : State} {id : WId} {w : Weft} (hw : getWeft s id = some w) (h : w.rlo ≤ w.rhi) :
    checkEmpty s id = s := by
  unfold checkEmpty
  simp [hw, BitVec.not_lt.mpr h]

theorem checkEmpty_of_lt {s : State} {id : WId} {w : Weft} (hw : getWeft s id = some w) (hr : w.region.isSome)
    (h : w.rhi < w.rlo) : checkEmpty s id = abortRegion s id 1 0 0 := by
  unfold checkEmpty
  simp [hw, hr, h]

theorem regionLost_eq {s : State} {x : Ctx} {r : Region} {id : WId} {w : Weft} (hr : x.w.region = some r)
    (hid : x.w.id = id) (hw : getWeft s id = some w) : regionLost s x = w.region.isNone := by
  simp [regionLost, hr, hid, hw]

/-- ARBND that leaves an interval: the bounds are narrowed and nothing else happens. -/
theorem arbnd_nonempty {s : State} {f : Fields} {x : Ctx} {a : Word64} {r : Region} (hx : Runs s .arbnd f .once x)
    (hq : Unwatched x) (ha : rd1 x .a true = .ok a) (hr : x.w.region = some r)
    (hser : bitOf x.f.mod.toNat 0 = true → r.serial = false) (hle : newLo x a ≤ newHi x a) :
    EndsWith (.arbnd f) x (updWeft s x.c.w (withBounds (newLo x a) (newHi x a))) := by
  have hw := getWeft_narrow hx a hser
  have own : getWeft (updWeft s x.c.w (narrow x r a)) x.c.w = some _ := (hw x.c.w).trans (if_pos rfl)
  have hid := getWeft_id hx.weft
  have hb : arbndBody x = Out.step (updWeft s x.c.w (narrow x r a)) := by
    rw [arbndBody_open ha hr, hid, hx.state, checkEmpty_of_le own hle, regionLost_eq hr hid own]
    simp [withBounds, hr]
  have narrowed : EndsWith (.arbnd f) x (updWeft s x.c.w (narrow x r a)) :=
    endsWith_of (exec_arbnd f) hx hq hb own hq.stepping hx.sub rfl
  refine endsWith_congr narrowed rfl fun k => ?_
  rw [hw, getWeft_updWeft _ _ (withBounds (newLo x a) (newHi x a)) fun _ => rfl]
  by_cases hk : k = x.c.w
  · subst hk
    rw [if_pos rfl, if_pos rfl, hx.weft]
    rfl
  · rw [if_neg hk, if_neg hk]

/-- ARBND that empties the interval: an abort with CAUSE 1. -/
theorem arbnd_emptied {s : State} {f : Fields} {x : Ctx} {a : Word64} {r : Region} (hx : Runs s .arbnd f .once x)
    (hq : Unwatched x) (ha : rd1 x .a true = .ok a) (hr : x.w.region = some r)
    (hser : bitOf x.f.mod.toNat 0 = true → r.serial = false) (hlt : newHi x a < newLo x a) :
    Aborts (.arbnd f) x r 1 := by
  have own : getWeft (updWeft s x.c.w (narrow x r a)) x.c.w = some _ :=
    (getWeft_narrow hx a hser x.c.w).trans (if_pos rfl)
  have hid := getWeft_id hx.weft
  have hb : arbndBody x = .ok ⟨abortRegion (updWeft s x.c.w (narrow x r a)) x.c.w 1 0 0, .jumped, []⟩ := by
    rw [arbndBody_open ha hr, hid, hx.state, checkEmpty_of_lt own (by simp [withBounds, hr]) hlt,
      regionLost_eq hr hid (getWeft_abortRegion own hr 1 0 0)]
    rfl
  obtain ⟨t, ht, hcur, hw⟩ := exec_abortRegion (exec_arbnd f) hx hq hb own hq.stepping hr
  exact aborts_of_exec (by omega) (hx.state ▸ ht) hcur hw

/-- Settles O19: without a region the body leaves the state as it is; in one ARABORT's body aborts it, and ARBND's narrows
the bounds and aborts the region where they cross. -/
theorem regionInstructions : Obligations.RegionInstructions := by
  unfold Obligations.RegionInstructions
  refine ⟨fun s f x c hx hq hc => ⟨fun hr => ?_, fun r hr => arabort_open hx hq hc hr⟩,
    fun s f x a hx hq ha => ⟨fun hr => ?_, fun r hr hser => ?_⟩⟩
  · have hb := arabortBody_closed hc hr
    exact endsWith_wefts (exec_arabort f) hx hq (hx.state ▸ hb) rfl
  · have hb := arbndBody_closed ha hr
    exact endsWith_wefts (exec_arbnd f) hx hq (hx.state ▸ hb) rfl
  · have hf : x.f = f := hx.fields
    subst hf
    exact ⟨arbnd_nonempty hx hq ha hr hser, arbnd_emptied hx hq ha hr hser⟩

end Sys2Proof.Machine
end

section
/-!
SUPPORT. The resident panels stay as they are through every access and record of the queue engine, so that a decrement leaves
the completion queues alone (R60, R259).
-/
namespace Sys2Proof.Machine

/-- A fold of operations that leave the panels alone leaves them alone. -/
theorem foldl_panels {α : Type} {f : State → α → State} (h : ∀ s x, (f s x).panels = s.panels) (l : List α) (s : State) :
    (l.foldl f s).panels = s.panels := by
  induction l generalizing s with
  | nil => rfl
  | cons x xs ih => exact (ih _).trans (h s x)

/-! ### Memory, pages and lines -/

@[simp] theorem writeNum_panels (s : State) (pa n v : Nat) : (writeNum s pa n v).panels = s.panels := rfl
@[simp] theorem orLeaf_panels (s : State) (a bits : Nat) : (orLeaf s a bits).panels = s.panels := rfl
@[simp] theorem freshId_panels (s : State) : (freshId s).2.panels = s.panels := rfl
@[simp] theorem progress_panels (s : State) : (progress s).panels = s.panels := rfl
@[simp] theorem wakeFor_panels (s : State) (r : Park) (hit : Weft → Sub → Wait → Bool) :
    (wakeFor s r hit).panels = s.panels := rfl
@[simp] theorem countForced_panels (s : State) (part : Nat) : (countForced s part).panels = s.panels :=
  updPart_panels ..

@[simp] theorem roundShadows_panels (s : State) (line : Nat) (forced : Bool) :
    (roundShadows s line forced).panels = s.panels := by
  have rounded := foldl_panels (f := fun s h => writeNum s h.pa (h.fmt.width / 8) (shadowCode h)) fun _ _ => rfl
  simp only [roundShadows, apply_ite State.panels, countForced_panels, setLine_panels, rounded, ite_self]

@[simp] theorem applyAdd_panels (s : State) (pa : Nat) (f : Fmt) (code : Nat) (wide : Bool) (part : Nat) :
    (applyAdd s pa f code wide part).2.panels = s.panels := by
  unfold applyAdd
  dsimp only
  split
  · cases (getLine s (lineOf pa)).shadows.find? fun h => h.pa == pa with
    | some h => simp [apply_ite Prod.snd, apply_ite State.panels]
    | none => cases fullShadowSlice s (lineOf pa) <;> simp [apply_ite Prod.snd, apply_ite State.panels]
  · rfl

@[simp] theorem closeGather_panels (s : State) (line : Nat) (forced : Bool) :
    (closeGather s line forced).panels = s.panels := by
  have added := foldl_panels (f := fun s (c : Contribution) => (applyAdd s c.pa c.fmt c.val false c.part).2) fun _ _ =>
    applyAdd_panels ..
  simp only [closeGather, apply_ite State.panels, countForced_panels, setLine_panels, added, ite_self]

@[simp] theorem applyPending_panels (s : State) (line : Nat) : (applyPending s line).panels = s.panels := by
  have added := foldl_panels (f := fun s (c : PendAdd) => (applyAdd s c.pa c.fmt c.code c.wide c.part).2) fun _ _ =>
    applyAdd_panels ..
  simp only [applyPending, apply_ite State.panels, closeGather_panels, setLine_panels, added, ite_self]

@[simp] theorem quietLine_panels (s : State) (line : Nat) : (quietLine s line).panels = s.panels := by simp [quietLine]

@[simp] theorem mergeLine_panels (s : State) (line : Nat) : (mergeLine s line).panels = s.panels := by
  simp [mergeLine, apply_ite State.panels]

@[simp] theorem backInvalidate_panels (s : State) (line : Nat) : (backInvalidate s line).panels = s.panels := by
  simp [backInvalidate, apply_ite State.panels]

@[simp] theorem coAtomic_panels (s : State) (line cc : Nat) (how : Alloc) : (coAtomic s line cc how).panels = s.panels := by
  simp [coAtomic, apply_ite State.panels]

@[simp] theorem moveRecord_panels (s : State) (part count cause asid vpage newF oldF : Nat) :
    (moveRecord s part count cause asid vpage newF oldF).panels = s.panels := by
  simp [moveRecord, apply_ite State.panels]

@[simp] theorem pushFrame_panels (s : State) (part asid vpage frame : Nat) :
    (pushFrame s part asid vpage frame).panels = s.panels := by
  simp [pushFrame, apply_ite State.panels]

@[simp] theorem collapsePage_panels (s : State) (frame : Nat) : (collapsePage s frame).panels = s.panels := by
  unfold collapsePage
  cases dupOf s frame with
  | none => rfl
  | some d => cases s.moves.find? fun m => m.dup && m.oldF == frame with
    | none => simp
    | some m => simp

/-! ### Regions -/

@[simp] theorem freeSerial_panels (s : State) (w : Weft) (r : Region) : (freeSerial s w r).panels = s.panels := by
  simp [freeSerial, setDom, apply_ite State.panels]

@[simp] theorem abortOne_panels (s : State) (id : WId) (cause fcode ucode : Nat) :
    (abortOne s id cause fcode ucode).panels = s.panels := by
  unfold abortOne
  split
  · rfl
  · split <;> simp

@[simp] theorem abortAll_panels (n : Nat) (ids : List WId) (s : State) : (abortAll n ids s).panels = s.panels := by
  induction n generalizing ids s with
  | zero => rfl
  | succ n ih => cases ids with
    | nil => rfl
    | cons id t => exact (ih _ _).trans (abortOne_panels ..)

@[simp] theorem abortRegion_panels (s : State) (id : WId) (cause fcode ucode : Nat) :
    (abortRegion s id cause fcode ucode).panels = s.panels := by
  unfold abortRegion
  split <;> simp

@[simp] theorem strayWrite_panels (s : State) (line : Nat) (own : Option WId) : (strayWrite s line own).panels = s.panels := by
  refine foldl_panels (fun s e => ?_) _ s
  split
  · split <;> simp
  · rfl

/-! ### Translation -/

theorem finishAt_panels {s t : State} {front asid va : Nat} {part : Option Nat} (h : finishAt s front asid part va = .ok t) :
    t.panels = s.panels := by
  unfold finishAt at h
  split at h
  · cases h
  · cases h
  · cases h
  · dsimp only at h
    split at h
    · cases h
    · split at h
      · cases h
      · cases h
        simp [apply_ite State.panels]

@[simp] theorem markDirty_panels (s : State) (asid : Nat) (part : Option Nat) (va : Nat) :
    (markDirty s asid part va).panels = s.panels := by
  unfold markDirty
  split
  · rfl
  · split <;> simp

@[simp] theorem warmFront_panels (s : State) (asid : Nat) (part : Option Nat) (write : Bool) (va : Nat) :
    (warmFront s asid part write va).panels = s.panels := by
  unfold warmFront
  cases tlbFind s asid part va with
  | some _ => simp [apply_ite State.panels]
  | none => cases h : finishWalk s asid part va with
    | ok t => simp [apply_ite State.panels, finishAt_panels h]
    | error _ => simp [apply_ite State.panels]

@[simp] theorem unnote_panels (s : State) (part : Option Nat) (va : Nat) : (unnote s part va).panels = s.panels := by
  unfold unnote
  split
  · rfl
  · split
    · rfl
    · split <;> simp

theorem engAt_panels {s t : State} {m : EngFor} {write : Bool} {va pa cc : Nat} (h : engAt s m write va = .ok (pa, cc, t)) :
    t.panels = s.panels := by
  unfold engAt at h
  split at h
  · cases h
  · split at h
    · cases h
    · cases h
    · cases h
    · dsimp only at h
      split at h
      · cases h
      · split at h
        · cases h
        · split at h
          · cases h
          · cases h
            simp
        · split at h
          · cases h
          · cases h
            simp

/-! ### Packets and posted writes -/

@[simp] theorem leavePort_panels (s : State) (port : Nat) (p : Packet) : (leavePort s port p).panels = s.panels := rfl

@[simp] theorem injectPacket_panels (s : State) (p : Packet) : (injectPacket s p).panels = s.panels := by
  unfold injectPacket
  dsimp only
  split
  · rfl
  · split
    · rfl
    · split <;> rfl

@[simp] theorem makePacket_panels (s : State) (target off bytes : Nat) (op : PktOp) (vc : Nat) (part : Option Nat) :
    (makePacket s target off bytes op vc part).2.panels = s.panels := rfl

@[simp] theorem sendPosts_panels (s : State) : (sendPosts s).panels = s.panels := by
  refine foldl_panels (fun s i => ?_) _ s
  split
  · rfl
  · dsimp only
    split <;> simp

@[simp] theorem postAt_panels (s : State) (core : Nat) (cmd : Option Nat) (owner : Option AgentId) (part : Option Nat)
    (target off pa : Nat) (op : PktOp) (also : List (Nat × List Byte)) :
    (postAt s core cmd owner part target off pa op also).2.panels = s.panels := by
  simp [postAt]

@[simp] theorem roomCode_panels (s : State) (who : Fetcher) : (roomCode s who).panels = s.panels := by
  unfold roomCode
  split
  · dsimp only
    split
    · split <;> rfl
    · rfl
  · rfl

@[simp] theorem askLine_panels (who : Fetcher) (unit : Option (WId × Nat)) (part : Option Nat) (s : State) (va pa : Nat) :
    (askLine who unit part s va pa).panels = s.panels := by
  unfold askLine
  cases placeOf s pa with
  | peer t off => simp [apply_ite State.panels]
  | _ => rfl

@[simp] theorem askAtomic_panels (who : Fetcher) (part : Option Nat) (s : State) (va pa : Nat) (op : PktOp) :
    (askAtomic who part s va pa op).panels = s.panels := by
  unfold askAtomic
  split
  · dsimp only
    split <;> simp
  · rfl

@[simp] theorem served_panels (s : State) (part va n : Nat) : (served s part va n).panels = s.panels := rfl

/-! ### Accesses of the engines -/

theorem engGet_panels {s t : State} {m : EngFor} {va : Nat} {b : Byte} (h : engGet s m va = .ok (b, t)) :
    t.panels = s.panels := by
  unfold engGet at h
  split at h
  · cases h
  · next hat =>
    cases h
    simp [engAt_panels hat]

theorem engBytes_panels {m : EngFor} {va n : Nat} {s t : State} {bs : List Byte} (h : engBytes m va n s = .ok (bs, t)) :
    t.panels = s.panels := by
  induction n generalizing va s bs with
  | zero => cases h; rfl
  | succ n ih =>
    unfold engBytes at h
    split at h
    · cases h
    · next hget =>
      split at h
      · cases h
      · next hrest =>
        cases h
        exact (ih hrest).trans (engGet_panels hget)

theorem engPut_panels {s t : State} {m : EngFor} {va : Nat} {b : Byte} (h : engPut s m va b = .ok t) :
    t.panels = s.panels := by
  unfold engPut at h
  split at h
  · cases h
  · next hat =>
    cases h
    simp [engAt_panels hat]

@[simp] theorem engPuts_panels (m : EngFor) (va : Nat) (bs : List Byte) (s : State) :
    (engPuts m va bs s).2.panels = s.panels := by
  induction bs generalizing va s with
  | nil => rfl
  | cons b bs ih =>
    unfold engPuts
    split
    · rfl
    · next hput => exact (ih _ _).trans (engPut_panels hput)

@[simp] theorem engPost_panels (s : State) (m : EngFor) (cmd : Option Nat) (vas : List Nat) :
    (engPost s m cmd vas).panels = s.panels := by
  refine foldl_panels (fun s r => ?_) _ s
  split
  · exact postAt_panels ..
  · rfl

theorem engFetch_panels {s t : State} {m : EngFor} {who : Fetcher} {vas : List Nat} (h : engFetch s m who vas = some t) :
    t.panels = s.panels := by
  unfold engFetch at h
  dsimp only at h
  split at h
  · cases h
  · cases h
    exact foldl_panels (fun _ _ => askLine_panels ..) _ s

/-! ### Accesses of the queue engine -/

@[simp] theorem reach_panels (s : State) (part asid va n : Nat) : (reach s part asid va n).2.panels = s.panels := by
  unfold reach
  dsimp only
  split
  · rfl
  · split
    · next h => exact engFetch_panels h
    · rfl

@[simp] theorem seeNum_panels (s : State) (part asid va n : Nat) : (seeNum s part asid va n).2.panels = s.panels := by
  have reached := reach_panels s part asid va n
  unfold seeNum
  split
  · next h => simpa [h] using reached
  · next h =>
    rw [h] at reached
    split
    · next hb => exact (engBytes_panels hb).trans reached
    · exact reached

@[simp] theorem seeRec_panels (s : State) (part asid addr : Nat) : (seeRec s part asid addr).2.panels = s.panels := by
  have seen := seeNum_panels s part asid addr 64
  unfold seeRec
  split <;> (next h => simpa [h] using seen)

@[simp] theorem putNum_panels (s : State) (part asid va n v : Nat) : (putNum s part asid va n v).2.panels = s.panels := by
  have put := engPuts_panels (queueFor part asid) va (toBytes n v) s
  unfold putNum
  split
  · next h => simpa [h] using put
  · exact put

@[simp] theorem lowerDep_panels (s : State) (part asid addr dep : Nat) :
    (lowerDep s part asid addr dep).2.panels = s.panels := by
  unfold lowerDep
  dsimp only
  split
  · simp
  · split
    · split
      · next h => simp [engAt_panels h]
      · rfl
    · split
      · rfl
      · split
        · rfl
        · split <;> rfl

/-! ### Records of errors and device areas -/

@[simp] theorem machineCheck_panels (s : State) (code agent addr addr2 aux : Nat) :
    (machineCheck s code agent addr addr2 aux).panels = s.panels := by
  simp [machineCheck, apply_ite State.panels]

@[simp] theorem noteArea_panels (s : State) (p va : Nat) : (noteArea s p va).panels = s.panels := by
  unfold noteArea
  split
  · rfl
  · split <;> simp

@[simp] theorem deferArea_panels (s : State) (p va : Nat) (w : AreaWork) : (deferArea s p va w).panels = s.panels := by
  simp [deferArea]

@[simp] theorem deviceDirty_panels (s : State) (asid : Nat) (part : Option Nat) (va : Nat) :
    (deviceDirty s asid part va).panels = s.panels := by
  unfold deviceDirty
  split
  · split <;> simp
  · rfl

theorem deviceWrite_go_panels {s : State} {asid : Nat} {part : Option Nat} {a : Nat} {bs : List Byte} {t u : State}
    (h : deviceWrite.go s asid part a bs t = .ok u) : u.panels = t.panels := by
  induction bs generalizing a t with
  | nil => cases h; rfl
  | cons b bs ih =>
    unfold deviceWrite.go at h
    split at h
    · simpa using ih h
    · cases h
    · cases h

theorem deviceWrite_panels {s t : State} {asid : Nat} {part : Option Nat} {va : Nat} {bs : List Byte}
    (h : deviceWrite s asid part va bs = .ok t) : t.panels = s.panels := deviceWrite_go_panels h

theorem putErr_panels {s t : State} {p : Nat} {bytes : List Byte} (h : putErr s p bytes = .ok t) : t.panels = s.panels := by
  unfold putErr at h
  split at h
  · cases h; rfl
  · dsimp only at h
    split at h
    · split at h
      · exact deviceWrite_panels h
      · split at h
        · next hw => exact (deviceWrite_panels h).trans (deviceWrite_panels hw)
        · cases h
    all_goals cases h

@[simp] theorem errRecord_panels (s : State) (part : Option Nat) (kind code lanes agent aux addr addr2 : Nat) :
    (errRecord s part kind code lanes agent aux addr addr2).panels = s.panels := by
  unfold errRecord
  split
  · rfl
  · dsimp only
    split
    · rfl
    · split
      · simp
      · split
        · next h => exact putErr_panels h
        · simp

@[simp] theorem orphan_panels (s : State) (part agent addr desc dep : Nat) :
    (orphan s part agent addr desc dep).panels = s.panels := errRecord_panels ..

@[simp] theorem dropRec_panels (s : State) (part agent addr way : Nat) : (dropRec s part agent addr way).panels = s.panels :=
  errRecord_panels ..

@[simp] theorem refusedAt_panels (s : State) (part agent va addr what : Nat) :
    (refusedAt s part agent va addr what).panels = s.panels := errRecord_panels ..

@[simp] theorem engAlias_panels (s : State) (m : EngFor) (va : Nat) : (engAlias s m va).panels = s.panels := by
  unfold engAlias
  split
  · dsimp only
    split <;> simp
  · rfl

@[simp] theorem noteAbsent_panels (s : State) (part : Option Nat) (agent va addr2 engine : Nat) :
    (noteAbsent s part agent va addr2 engine).panels = s.panels := by
  unfold noteAbsent
  split
  · rfl
  · split
    · rfl
    · dsimp only
      split <;> simp

/-! ### Placement and decrements -/

@[simp] theorem wakeDeq_panels (s : State) (part q : Nat) : (wakeDeq s part q).panels = s.panels := by
  unfold wakeDeq
  split
  · split <;> simp
  · rfl

@[simp] theorem placeRec_panels (s : State) (part asid addr : Nat) (r : Rec) :
    (placeRec s part asid addr r).2.panels = s.panels := by
  have put := putNum_panels s part asid (addr + 28) 4 (r.flags ||| 12)
  unfold placeRec
  split <;> (next h => simpa [h] using put)

theorem ovflAppend_panels {s t : State} {part : Nat} {p : Part} {addr : Nat} (h : ovflAppend s part p addr = .ok t) :
    t.panels = s.panels := by
  unfold ovflAppend at h
  dsimp only at h
  split at h
  · cases h
  · split at h
    · cases h
    · next hw => exact (deviceWrite_panels h).trans (deviceWrite_panels hw)

@[simp] theorem overflowRec_panels (s : State) (part addr asid qid : Nat) :
    (overflowRec s part addr asid qid).panels = s.panels := by
  unfold overflowRec
  split
  · rfl
  · rw [updPart_panels]
    unfold ovflWork
    dsimp only
    split
    · next h => exact ovflAppend_panels h
    · simp

/-- A decrement leaves every resident panel as it is (R60). -/
@[simp] theorem decRec_panels (s : State) (part asid addr desc agent : Nat) :
    (decRec s part asid addr desc agent).2.panels = s.panels := by
  unfold decRec
  split
  · rfl
  · next p _ =>
    have begun : (if p.ovfHeld.isNone then s else updPart s part fun p => { p with ovfHeld := none }).panels = s.panels := by
      simp [apply_ite State.panels]
    split
    · rfl
    · dsimp only
      rw [← begun]
      generalize (if p.ovfHeld.isNone then s else updPart s part fun p => { p with ovfHeld := none }) = s1
      cases hseen : seeRec s1 part asid addr with
      | mk o u =>
        have seen : u.panels = s1.panels := (congrArg (·.2.panels) hseen).symm.trans (seeRec_panels ..)
        cases o with
        | error e => cases e <;> simp [seen]
        | ok r =>
          cases hlow : lowerDep u part asid addr r.dep with
          | mk o v =>
            have lowered : v.panels = s1.panels :=
              (congrArg (·.2.panels) hlow).symm.trans ((lowerDep_panels ..).trans seen)
            cases o with
            | some e => cases e <;> simp [apply_ite Prod.snd, apply_ite State.panels, hlow, seen, lowered]
            | none =>
              cases hplace : placeRec v part asid addr { r with dep := 0 } with
              | mk o w =>
                have placed : w.panels = s1.panels :=
                  (congrArg (·.2.panels) hplace).symm.trans ((placeRec_panels ..).trans lowered)
                cases o <;> simp [apply_ite Prod.snd, apply_ite State.panels, hlow, hplace, seen, lowered, placed]

end Sys2Proof.Machine
end

section
/-!
SUPPORT. What the completion of an engine command does (R256 item 7, R257): it returns the tiles, applies the decrement, pushes
the record and removes the command, or leaves the command waiting in stage 2.
-/
namespace Sys2Proof.Machine

/-! ### Cores -/

/-- No two records of the state have the number of one core. -/
def DistinctCores (s : State) : Prop := (s.cores.map (·.num)).Nodup

@[simp] theorem getCore_num (s : State) (n : Nat) : (getCore s n).num = n := by
  unfold getCore
  cases h : s.cores.find? fun c => c.num == n with
  | none => rfl
  | some c => simpa using List.find?_some h

/-- In a list of cores of distinct numbers a core is found by its number. -/
theorem find?_num_of_nodup {l : List CoreSt} (hd : (l.map (·.num)).Nodup) {c : CoreSt} (hc : c ∈ l) :
    (l.find? fun x => x.num == c.num) = some c := by
  induction l with
  | nil => cases hc
  | cons x xs ih =>
    obtain ⟨fresh, rest⟩ := List.nodup_cons.mp hd
    cases hc with
    | head => exact List.find?_cons_of_pos (beq_self_eq_true _)
    | tail _ hc =>
      have other : x.num ≠ c.num := fun e => fresh (List.mem_map.mpr ⟨c, hc, e.symm⟩)
      rw [List.find?_cons_of_neg (by simpa using other)]
      exact ih rest hc

theorem getCore_of_mem {s : State} {c : CoreSt} (hd : DistinctCores s) (hc : c ∈ s.cores) : getCore s c.num = c := by
  rw [getCore, find?_num_of_nodup hd hc, Option.getD_some]

@[simp] theorem getCore_wakeFor (s : State) (r : Park) (hit : Weft → Sub → Wait → Bool) (n : Nat) :
    getCore (wakeFor s r hit) n = getCore s n := rfl

/-- A core's record replaced where it is listed. -/
theorem updCore_listed {s : State} {n : Nat} (h : ∃ x ∈ s.cores, x.num = n) (f : CoreSt → CoreSt) :
    updCore s n f = { s with cores := s.cores.map fun x => if x.num = n then f (getCore s n) else x } := by
  unfold updCore
  dsimp only
  rw [if_pos]
  simpa using h

/-- A core's record added where none is listed. -/
theorem updCore_unlisted {s : State} {n : Nat} (h : ∀ x ∈ s.cores, x.num ≠ n) (f : CoreSt → CoreSt) :
    updCore s n f = { s with cores := s.cores ++ [f (freshCore n)] } := by
  have absent : getCore s n = freshCore n := by
    unfold getCore
    rw [List.find?_eq_none.mpr (by simpa using h)]
    rfl
  unfold updCore
  dsimp only
  rw [if_neg (by simpa using h), absent]

theorem getCore_updCore (s : State) (n : Nat) {f : CoreSt → CoreSt} (hf : ∀ c, (f c).num = c.num) (k : Nat) :
    getCore (updCore s n f) k = if k = n then f (getCore s n) else getCore s k := by
  by_cases listed : ∃ x ∈ s.cores, x.num = n
  · rw [updCore_listed listed]
    have named : (f (getCore s n)).num = n := (hf _).trans (getCore_num s n)
    generalize f (getCore s n) = g at named
    have kept : (fun c => c.num == k) ∘ (fun x : CoreSt => if x.num = n then g else x) = fun c => c.num == k := by
      funext x
      by_cases e : x.num = n <;> simp [e, named]
    unfold getCore
    dsimp only
    rw [List.find?_map, kept]
    cases h : s.cores.find? fun c => c.num == k with
    | none =>
      obtain ⟨x, hx, hn⟩ := listed
      have : k ≠ n := fun e => by simpa [hn, e] using List.find?_eq_none.mp h x hx
      simp [this]
    | some x =>
      have hk : x.num = k := by simpa using List.find?_some h
      subst hk
      rfl
  · have unlisted : ∀ x ∈ s.cores, x.num ≠ n := by simpa using listed
    rw [updCore_unlisted unlisted]
    unfold getCore
    dsimp only
    rw [List.find?_append]
    by_cases e : k = n
    · subst e
      rw [List.find?_eq_none.mpr (by simpa using unlisted)]
      simp [hf, freshCore]
    · have : (n == k) = false := by simpa using Ne.symm e
      simp [hf, freshCore, e, this]

/-! ### What reads a completion queue (R259) -/

/-- Binned threads of a panel are still there after a core has changed otherwise, where no core stands twice. -/
theorem cqRead_updCore {s : State} (hd : DistinctCores s) (n : Nat) {f : CoreSt → CoreSt} (hb : ∀ c, (f c).bins = c.bins)
    (k : PKey) : cqRead (updCore s n f) k = cqRead s k := by
  have by_bins : ∀ l : List CoreSt, (l.any fun c => c.bins.any fun b => b.key == k) =
      (l.map (·.bins)).any fun bs => bs.any fun b => b.key == k := by
    simp [List.any_map, Function.comp_def]
  unfold cqRead
  rw [updCore_wefts, by_bins, by_bins s.cores]
  by_cases listed : ∃ x ∈ s.cores, x.num = n
  · have same : (s.cores.map fun x => if x.num = n then f (getCore s n) else x).map (·.bins) = s.cores.map (·.bins) := by
      rw [List.map_map]
      refine List.map_congr_left fun c hc => ?_
      by_cases e : c.num = n
      · have own : getCore s n = c := e ▸ getCore_of_mem hd hc
        simp [e, own, hb]
      · simp [e]
    rw [updCore_listed listed, same]
  · have unlisted : ∀ x ∈ s.cores, x.num ≠ n := by simpa using listed
    rw [updCore_unlisted unlisted]
    simp [hb, freshCore]

theorem distinctCores_updCore {s : State} (hd : DistinctCores s) (n : Nat) {f : CoreSt → CoreSt}
    (hn : ∀ c, (f c).num = c.num) : DistinctCores (updCore s n f) := by
  unfold DistinctCores at hd ⊢
  by_cases listed : ∃ x ∈ s.cores, x.num = n
  · have kept : (·.num) ∘ (fun x : CoreSt => if x.num = n then f (getCore s n) else x) = (·.num) := by
      funext x
      by_cases e : x.num = n <;> simp [e, hn]
    rw [updCore_listed listed]
    dsimp only
    rwa [List.map_map, kept]
  · have unlisted : ∀ x ∈ s.cores, x.num ≠ n := by simpa using listed
    rw [updCore_unlisted unlisted]
    simp only [List.map_append, List.map_cons, List.map_nil, hn]
    refine List.nodup_append.mpr ⟨hd, List.nodup_cons.mpr ⟨List.not_mem_nil, List.nodup_nil⟩, ?_⟩
    simpa [freshCore] using unlisted

/-- An operation leaves every panel its completion queues; and where no core stands twice, what reads them. -/
structure QueuesKept (s t : State) : Prop where
  cqs : ∀ k, (getPanel t k).map (·.cqs) = (getPanel s k).map (·.cqs)
  saved : t.saved = s.saved
  read : DistinctCores s → DistinctCores t ∧ ∀ k, cqRead t k = cqRead s k

theorem QueuesKept.refl (s : State) : QueuesKept s s := ⟨fun _ => rfl, rfl, fun hd => ⟨hd, fun _ => rfl⟩⟩

theorem QueuesKept.trans {s t u : State} (h : QueuesKept s t) (h' : QueuesKept t u) : QueuesKept s u := by
  refine ⟨fun k => (h'.cqs k).trans (h.cqs k), h'.saved.trans h.saved, fun hd => ?_⟩
  obtain ⟨dt, rt⟩ := h.read hd
  obtain ⟨du, ru⟩ := h'.read dt
  exact ⟨du, fun k => (ru k).trans (rt k)⟩

theorem queuesKept_foldl {α : Type} {f : State → α → State} (h : ∀ s x, QueuesKept s (f s x)) (l : List α) (s : State) :
    QueuesKept s (l.foldl f s) := by
  induction l generalizing s with
  | nil => exact QueuesKept.refl s
  | cons x xs ih => exact (h s x).trans (ih _)

theorem queuesKept_updCore (s : State) (n : Nat) {f : CoreSt → CoreSt} (hn : ∀ c, (f c).num = c.num)
    (hb : ∀ c, (f c).bins = c.bins) : QueuesKept s (updCore s n f) :=
  ⟨fun k => by simp [getPanel], updCore_saved .., fun hd => ⟨distinctCores_updCore hd n hn, cqRead_updCore hd n hb⟩⟩

theorem queuesKept_updPanel (s : State) (k : PKey) {f : Panel → Panel} (hk : ∀ p, (f p).key = p.key)
    (hq : ∀ p, (f p).cqs = p.cqs) : QueuesKept s (updPanel s k f) := by
  refine ⟨fun j => ?_, rfl, fun hd => ⟨hd, fun _ => rfl⟩⟩
  rw [getPanel_updPanel s k f hk]
  split
  · simp [Function.comp_def, hq]
  · rfl

theorem wokeAt_key (n : Nat) (w : Weft) (l : List Sub) : (wokeAt n w l).key = w.key := by
  unfold wokeAt
  split <;> rfl

theorem queuesKept_wakeFor (s : State) (r : Park) (hit : Weft → Sub → Wait → Bool) : QueuesKept s (wakeFor s r hit) :=
  ⟨fun _ => rfl, rfl, fun hd => ⟨hd, fun k => by simp [cqRead, wakeFor, List.any_map, Function.comp_def, wokeAt_key]⟩⟩

theorem queuesKept_givePads (s : State) (k : PKey) : QueuesKept s (givePads s k) := by
  unfold givePads
  split
  · exact QueuesKept.refl s
  · exact ⟨fun _ => rfl, rfl, fun hd => ⟨hd, fun _ => rfl⟩⟩

theorem queuesKept_setSpots (s : State) (key : PKey) (id : Nat) (l : List Spot) : QueuesKept s (setSpots s key id l) := by
  unfold setSpots
  dsimp only
  refine ((queuesKept_foldl (fun s x => ?_) l s).trans (queuesKept_givePads ..)).trans (queuesKept_wakeFor ..)
  split
  · exact queuesKept_updCore _ _ (fun _ => rfl) fun _ => rfl
  · exact queuesKept_updPanel _ _ (fun _ => rfl) fun _ => rfl

theorem queuesKept_freeTiles (s : State) (key : PKey) (id : Nat) : QueuesKept s (freeTiles s key id) := by
  unfold freeTiles
  dsimp only
  refine (queuesKept_updPanel _ _ ?_ ?_).trans (queuesKept_wakeFor ..) <;> exact fun _ => rfl

theorem queuesKept_updCmd (s : State) (core id : Nat) (f : Cmd → Cmd) : QueuesKept s (updCmd s core id f) :=
  queuesKept_updCore _ _ (fun _ => rfl) fun _ => rfl

theorem queuesKept_returnTiles (s : State) (core : Nat) (c : Cmd) : QueuesKept s (returnTiles s core c) := by
  unfold returnTiles
  split
  · exact QueuesKept.refl s
  · exact ((queuesKept_setSpots ..).trans (queuesKept_freeTiles ..)).trans (queuesKept_updCmd ..)

/-! ### Room for a record -/

/-- The completion queue of a command that pushes a record has a place for it. -/
def RecordFits (s : State) (c : Cmd) : Prop :=
  pushesRecord c = true → cqRoom s c.key c.cq = true ∧
    ∀ p n, getPanel s c.key = some p → c.cq = some n → (tgetD p.cqs n []).length < 256

theorem RecordFits.of_kept {s t : State} {c : Cmd} (h : RecordFits s c) (hk : QueuesKept s t) : RecordFits t c := by
  intro hp
  obtain ⟨room, short⟩ := h hp
  have cqs := hk.cqs c.key
  have fits : ∀ p n, getPanel t c.key = some p → c.cq = some n → (tgetD p.cqs n []).length < 256 := by
    intro p n hpt hn
    cases hps : getPanel s c.key with
    | none => simp [hpt, hps] at cqs
    | some p' =>
      have same : p.cqs = p'.cqs := by simpa [hpt, hps] using cqs
      exact same ▸ short p' n hps hn
  refine ⟨?_, fits⟩
  unfold cqRoom at room ⊢
  split
  · next n p hn hpt => simp [fits p n hpt hn]
  · next n hn hpt =>
    rw [hpt, Option.map_none] at cqs
    have hps : getPanel s c.key = none := Option.map_eq_none_iff.mp cqs.symm
    rw [hk.saved]
    simpa [hn, hps] using room
  · rfl

theorem cqRoom_of_kept {s t : State} {k : PKey} {cq : Option Nat} (hd : DistinctCores s) (hk : QueuesKept s t) :
    cqRoom t k cq = cqRoom s k cq := by
  have cqs := hk.cqs k
  have read := (hk.read hd).2 k
  cases cq with
  | none => simp [cqRoom]
  | some n =>
    cases hps : getPanel s k with
    | none =>
      have hpt : getPanel t k = none := by simpa [hps] using cqs
      simp [cqRoom, hps, hpt, hk.saved]
    | some p =>
      rw [hps] at cqs
      obtain ⟨q, hq, same⟩ := Option.map_eq_some_iff.mp cqs
      simp [cqRoom, hps, hq, same, read]

/-! ### Panels -/

@[simp] theorem getPanel_wakeFor (s : State) (r : Park) (hit : Weft → Sub → Wait → Bool) (k : PKey) :
    getPanel (wakeFor s r hit) k = getPanel s k := rfl

@[simp] theorem getPanel_updCore (s : State) (n : Nat) (f : CoreSt → CoreSt) (k : PKey) :
    getPanel (updCore s n f) k = getPanel s k := by simp [getPanel]

/-- A panel that is still resident after a panel may have ended was so before, as it is (R73). -/
theorem getPanel_of_endPanel {s : State} {k : PKey} {q : Panel} (h : getPanel (endPanel s k) k = some q) :
    getPanel s k = some q := by
  unfold endPanel at h
  split at h
  · exact h
  · have held := List.mem_of_find?_eq_some h
    have key : q.key = k := getPanel_key h
    simp [key] at held

/-- A record pushed to a completion queue with room stands at its end (R257, R259). -/
theorem getPanel_of_pushCq {s : State} {k : PKey} {cq : Option Nat} {r : BitVec 128} {q : Panel}
    (h : getPanel (pushCq s k cq r) k = some q) : ∃ p, getPanel s k = some p ∧ q.parts = p.parts ∧
      ∀ n, cq = some n → (tgetD p.cqs n []).length < 256 → tgetD q.cqs n [] = tgetD p.cqs n [] ++ [r] := by
  cases cq with
  | none => exact ⟨q, h, rfl, fun n hn => by cases hn⟩
  | some n =>
    unfold pushCq wakeIn at h
    dsimp only at h
    rw [getPanel_wakeFor, getPanel_updPanel _ _ _ (fun p => by split <;> rfl), if_pos rfl] at h
    obtain ⟨p, hp, hq⟩ := Option.map_eq_some_iff.mp h
    refine ⟨p, hp, ?_, fun m hm hlen => ?_⟩
    · subst hq
      split <;> rfl
    · cases hm
      rw [if_pos hlen] at hq
      subst hq
      exact tgetD_tset_self ..

/-! ### The commands of an engine -/

theorem endedHead_mem {s : State} {core : Nat} {e : Engine} {c : Cmd} (h : endedHead s core e = some c) :
    c ∈ engineCmds s core e := by
  unfold endedHead at h
  split at h
  · cases h
  · next d l hl =>
    have hd : d = c := by
      split at h
      · simpa using h
      · split at h
        · cases h
        · simpa using h
    simp [hl, hd]

theorem mem_engineCmds {s : State} {core : Nat} {e : Engine} {c : Cmd} :
    c ∈ engineCmds s core e ↔ c ∈ (getCore s core).cmds ∧ c.engine = e := by
  simp [engineCmds]

theorem cmds_updCmd (s : State) (core id : Nat) (f : Cmd → Cmd) :
    (getCore (updCmd s core id f) core).cmds = (getCore s core).cmds.map fun c => if c.id = id then f c else c := by
  unfold updCmd
  rw [getCore_updCore, if_pos rfl]
  exact fun _ => rfl

/-- A command that is replaced under its own number is still one of its engine's. -/
theorem updCmd_mem_engineCmds {s : State} {core : Nat} {e : Engine} {c : Cmd} (h : c ∈ engineCmds s core e) (f : Cmd → Cmd)
    (hf : (f c).engine = c.engine) : f c ∈ engineCmds (updCmd s core c.id f) core e := by
  obtain ⟨hc, he⟩ := mem_engineCmds.mp h
  refine mem_engineCmds.mpr ⟨?_, hf.trans he⟩
  rw [cmds_updCmd]
  exact List.mem_map.mpr ⟨c, hc, if_pos rfl⟩

theorem cmds_dropCmd (s : State) (core id : Nat) :
    (getCore (dropCmd s core id) core).cmds = (getCore s core).cmds.filter fun c => c.id ≠ id := by
  unfold dropCmd
  rw [getCore_updCore, if_pos rfl]
  exact fun _ => rfl

theorem cmds_setSpots (s : State) (key : PKey) (id : Nat) (l : List Spot) (k : Nat) :
    (getCore (setSpots s key id l) k).cmds = (getCore s k).cmds := by
  have given : ∀ u : State, getCore (givePads u key) k = getCore u k := by
    intro u
    unfold givePads
    split <;> rfl
  unfold setSpots
  dsimp only
  rw [getCore_wakeFor, given]
  induction l generalizing s with
  | nil => rfl
  | cons x xs ih =>
    rw [List.foldl_cons, ih]
    split
    · rw [getCore_updCore]
      · split
        · next h => rw [h]
        · rfl
      · exact fun _ => rfl
    · rfl

theorem getCore_freeTiles (s : State) (key : PKey) (id : Nat) (k : Nat) : getCore (freeTiles s key id) k = getCore s k := rfl

/-- A command whose tiles return stays in its engine. -/
theorem returnTiles_mem_engineCmds {s : State} {core : Nat} {e : Engine} {c : Cmd} (h : c ∈ engineCmds s core e) :
    ∃ d ∈ engineCmds (returnTiles s core c) core e, d.id = c.id := by
  unfold returnTiles
  split
  · exact ⟨c, h, rfl⟩
  · next p _ =>
    refine ⟨{ c with stage := 1 }, updCmd_mem_engineCmds ?_ (fun c => { c with stage := 1 }) rfl, rfl⟩
    unfold engineCmds at h ⊢
    rwa [getCore_freeTiles, cmds_setSpots]

theorem getPanel_freeTiles (s : State) (key : PKey) (id : Nat) :
    getPanel (freeTiles s key id) key = (getPanel s key).map fun p =>
      { p with parts := p.parts.map fun c => { c with owned := c.owned.filter fun e => e.2 ≠ id } } := by
  unfold freeTiles
  dsimp only
  rw [getPanel_wakeFor, getPanel_updPanel, if_pos rfl]
  exact fun _ => rfl

/-- Once a command's tiles have returned, its panel has none on the engine side under the command's number (R98). -/
theorem owned_returnTiles {s : State} {core : Nat} {c : Cmd} {p : Panel} (h : getPanel (returnTiles s core c) c.key = some p) :
    ∀ k ∈ p.parts, ∀ o ∈ k.owned, o.2 ≠ c.id := by
  unfold returnTiles at h
  split at h
  · next hn => rw [hn] at h; cases h
  · unfold updCmd at h
    dsimp only at h
    rw [getPanel_updCore, getPanel_freeTiles] at h
    obtain ⟨q, -, rfl⟩ := Option.map_eq_some_iff.mp h
    intro k hk o ho
    obtain ⟨k', -, rfl⟩ := List.mem_map.mp hk
    simpa using (List.mem_filter.mp ho).2

/-! ### The record and the command's end -/

/-- The 16 bytes of Table 1 of R257: descriptor address, engine, status and length. -/
theorem cmdRecord_layout (c : Cmd) : cmdRecord c = BitVec.ofNat 128
    (2 ^ 64 * c.desc + 2 ^ 48 * engineEp c.engine + 2 ^ 32 * (c.status % 256) + min (2 ^ 32 - 1) c.written) := by
  have ep : engineEp c.engine % 256 = engineEp c.engine := by cases c.engine <;> rfl
  apply BitVec.eq_of_toNat_eq
  simp only [cmdRecord, mkCompletion, BitVec.toNat_ofNat, ep]
  omega

/-- The end of a completion: the record is pushed, the command leaves, and the waits for its engine end. -/
def finishCmd (s : State) (core : Nat) (c : Cmd) : State :=
  endPanel (wakeFor (dropCmd (if pushesRecord c then pushCq s c.key c.cq (cmdRecord c) else s) core c.id) .queue
    fun w _ x => w.id.core == core && x == .engine c.engine) c.key

theorem pushCq_mem_parts (s : State) (k : PKey) (cq : Option Nat) (r : BitVec 128) :
    (pushCq s k cq r).mem = s.mem ∧ (pushCq s k cq r).parts = s.parts := by
  cases cq <;> exact ⟨rfl, rfl⟩

theorem endPanel_rest (s : State) (k : PKey) :
    (endPanel s k).mem = s.mem ∧ (endPanel s k).parts = s.parts ∧ (endPanel s k).cores = s.cores := by
  unfold endPanel
  split <;> exact ⟨rfl, rfl, rfl⟩

theorem getCore_endPanel (s : State) (k : PKey) (n : Nat) : getCore (endPanel s k) n = getCore s n := by
  obtain ⟨-, -, cores⟩ := endPanel_rest s k
  rw [getCore, cores, getCore]

/-- The end of a completion leaves memory and partitions as they are. -/
theorem finishCmd_mem_parts (s : State) (core : Nat) (c : Cmd) :
    (finishCmd s core c).mem = s.mem ∧ (finishCmd s core c).parts = s.parts := by
  obtain ⟨mem, parts, -⟩ := endPanel_rest (wakeFor (dropCmd (if pushesRecord c then pushCq s c.key c.cq (cmdRecord c) else s)
    core c.id) .queue fun w _ x => w.id.core == core && x == .engine c.engine) c.key
  obtain ⟨pushedMem, pushedParts⟩ := pushCq_mem_parts s c.key c.cq (cmdRecord c)
  constructor
  · refine mem.trans ((updCore_mem ..).trans ?_)
    split
    · exact pushedMem
    · rfl
  · refine parts.trans ((updCore_parts ..).trans ?_)
    split
    · exact pushedParts
    · rfl

theorem cmds_finishCmd (s : State) (core : Nat) (c : Cmd) :
    ∀ y ∈ (getCore (finishCmd s core c) core).cmds, y.id ≠ c.id := by
  intro y hy
  rw [finishCmd, getCore_endPanel, getCore_wakeFor, cmds_dropCmd] at hy
  simpa using (List.mem_filter.mp hy).2

theorem getPanel_of_finishCmd {s : State} {core : Nat} {c : Cmd} {q : Panel}
    (h : getPanel (finishCmd s core c) c.key = some q) : ∃ p, getPanel s c.key = some p ∧ q.parts = p.parts ∧
      ∀ n, pushesRecord c = true → c.cq = some n → (tgetD p.cqs n []).length < 256 →
        tgetD q.cqs n [] = tgetD p.cqs n [] ++ [cmdRecord c] := by
  replace h := getPanel_of_endPanel h
  rw [getPanel_wakeFor, dropCmd, getPanel_updCore] at h
  split at h
  · obtain ⟨p, hp, hparts, pushed⟩ := getPanel_of_pushCq h
    exact ⟨p, hp, hparts, fun n _ => pushed n⟩
  · next hn => exact ⟨q, h, rfl, fun n hp => absurd hp hn⟩

/-- A command has left its engine, and its record, where it pushes one, stands at the end of its queue. -/
structure Left (s t : State) (core : Nat) (c : Cmd) : Prop where
  cmds : ∀ y ∈ (getCore t core).cmds, y.id ≠ c.id
  record : ∀ p q n, getPanel s c.key = some p → getPanel t c.key = some q → pushesRecord c = true → c.cq = some n →
    (tgetD p.cqs n []).length < 256 → tgetD q.cqs n [] = tgetD p.cqs n [] ++ [BitVec.ofNat 128
      (2 ^ 64 * c.desc + 2 ^ 48 * engineEp c.engine + 2 ^ 32 * (c.status % 256) + min (2 ^ 32 - 1) c.written)]

theorem left_finishCmd {s u : State} {core : Nat} {c : Cmd}
    (h : (getPanel u c.key).map (·.cqs) = (getPanel s c.key).map (·.cqs)) : Left s (finishCmd u core c) core c := by
  refine ⟨cmds_finishCmd _ _ _, fun p q n hp hq push hn hlen => ?_⟩
  obtain ⟨p', hp', -, pushed⟩ := getPanel_of_finishCmd hq
  have same : p'.cqs = p.cqs := by simpa [hp, hp'] using h
  rw [← same] at hlen ⊢
  rw [← cmdRecord_layout]
  exact pushed n push hn hlen

/-! ### ENGINE_COMPLETION -/

theorem exec_engineCompletion (core : Nat) (e : Engine) (s : State) :
    exec (.engineCompletion core e) s = execEngineCompletion core e s := rfl

section
variable {s u : State} {core : Nat} {e : Engine} {c : Cmd}

/-- A command whose decrement is done and whose record has room leaves. -/
theorem engineCompletion_of_room (h : endedHead s core e = some c) (hs : c.stage ≤ 1)
    (hd : decrementTask (if c.stage = 0 then returnTiles s core c else s) core c = (true, u))
    (room : pushesRecord c = true → cqRoom u c.key c.cq = true) :
    exec (.engineCompletion core e) s = .next (finishCmd u core c) := by
  have stays : (pushesRecord c && !cqRoom u c.key c.cq) = false := by
    cases hp : pushesRecord c <;> simp_all
  rw [exec_engineCompletion, execEngineCompletion, h]
  simp only [hs, if_true, hd, stays]
  rfl

/-- A command whose decrement is done and whose record has no room stays. -/
theorem engineCompletion_of_full (h : endedHead s core e = some c) (hs : c.stage ≤ 1)
    (hd : decrementTask (if c.stage = 0 then returnTiles s core c else s) core c = (true, u))
    (push : pushesRecord c = true) (full : cqRoom u c.key c.cq = false) :
    exec (.engineCompletion core e) s = .next u := by
  rw [exec_engineCompletion, execEngineCompletion, h]
  simp [hs, hd, push, full]

theorem decrementTask_none (h : taskOf c = 0) :
    decrementTask s core c = (true, updCmd s core c.id fun c => { c with stage := 2 }) := by
  simp [decrementTask, h]

theorem decrementTask_done {part : Nat} {p : Panel} (ht : taskOf c ≠ 0) (hst : c.status = 0) (hk : c.key.part = some part)
    (hp : getPanel s c.key = some p) (hd : decRec s part p.asid (taskOf c) c.desc core = (true, u)) :
    decrementTask s core c = (true, updCmd u core c.id fun c => { c with stage := 2 }) := by
  simp [decrementTask, ht, hst, hk, hp, hd]

/-- An ended command of no task returns its tiles, pushes its record where that has room, and leaves (R256 item 7, R257). -/
theorem engineCompletion_leaves (h : endedHead s core e = some c) (hs : c.stage = 0) (ht : taskOf c = 0)
    (fits : RecordFits s c) : ∃ t, exec (.engineCompletion core e) s = .next t ∧ Left s t core c ∧
      ∀ q, getPanel t c.key = some q → ∀ k ∈ q.parts, ∀ o ∈ k.owned, o.2 ≠ c.id := by
  have kept := (queuesKept_returnTiles s core c).trans (queuesKept_updCmd _ core c.id fun c => { c with stage := 2 })
  refine ⟨_, engineCompletion_of_room h (by omega) (by rw [if_pos hs]; exact decrementTask_none ht)
    (fun push => (fits.of_kept kept push).1), left_finishCmd (kept.cqs _), fun q hq => ?_⟩
  obtain ⟨p, hp, hparts, -⟩ := getPanel_of_finishCmd hq
  rw [updCmd, getPanel_updCore] at hp
  rw [hparts]
  exact owned_returnTiles hp

/-- An ended command of no task whose record has no room waits in stage 2, where no core stands twice (R259). -/
theorem engineCompletion_waits (distinct : DistinctCores s) (h : endedHead s core e = some c) (hs : c.stage = 0)
    (ht : taskOf c = 0) (push : pushesRecord c = true) (full : cqRoom s c.key c.cq = false) :
    ∃ t y, exec (.engineCompletion core e) s = .next t ∧ y ∈ engineCmds t core e ∧ y.id = c.id ∧ y.stage = 2 := by
  have kept := (queuesKept_returnTiles s core c).trans (queuesKept_updCmd _ core c.id fun c => { c with stage := 2 })
  obtain ⟨d, hd, hid⟩ := returnTiles_mem_engineCmds (endedHead_mem h)
  refine ⟨_, { d with stage := 2 }, engineCompletion_of_full h (by omega) (by rw [if_pos hs]; exact decrementTask_none ht)
    push ((cqRoom_of_kept distinct kept).trans full), ?_, hid, rfl⟩
  rw [← hid]
  exact updCmd_mem_engineCmds hd (fun c => { c with stage := 2 }) rfl

/-- A command in stage 1 with a task applies its decrement, pushes its record where that has room, and leaves (R256 item 7,
R257). -/
theorem engineCompletion_decrements {part : Nat} {p : Panel} (h : endedHead s core e = some c) (hs : c.stage = 1)
    (ht : taskOf c ≠ 0) (hst : c.status = 0) (fits : RecordFits s c) (hk : c.key.part = some part)
    (hp : getPanel s c.key = some p) (hd : decRec s part p.asid (taskOf c) c.desc core = (true, u)) :
    ∃ t, exec (.engineCompletion core e) s = .next t ∧ Left s t core c ∧ t.mem = u.mem ∧ t.parts = u.parts := by
  have panels : u.panels = s.panels := (congrArg (·.2.panels) hd).symm.trans (decRec_panels ..)
  have resident : getPanel (updCmd u core c.id fun c => { c with stage := 2 }) c.key = some p := by
    rw [updCmd, getPanel_updCore, ← hp]
    exact congrArg (List.find? _) panels
  have room : pushesRecord c = true → cqRoom (updCmd u core c.id fun c => { c with stage := 2 }) c.key c.cq = true := by
    intro push
    cases hcq : c.cq with
    | none => simp [cqRoom]
    | some n => simp [cqRoom, resident, (fits push).2 p n hp hcq]
  obtain ⟨mem, parts⟩ := finishCmd_mem_parts (updCmd u core c.id fun c => { c with stage := 2 }) core c
  refine ⟨_, engineCompletion_of_room h (by omega) ?_ room, left_finishCmd (by rw [resident, hp]),
    mem.trans (updCore_mem ..), parts.trans (updCore_parts ..)⟩
  rw [if_neg (by omega)]
  exact decrementTask_done ht hst hk hp hd

end

end Sys2Proof.Machine
end

section
/-!
SUPPORT. The completion of an engine command whose core stands twice in the state, so that `engineCompletion_waits` does not
apply (R257).
-/
namespace Sys2Proof.Machine

/-- A panel whose completion queue 0 holds its 256 records. -/
def fullPanel : Panel := { loadPanel ⟨some 0, 0⟩ with cqs := [(0, List.replicate 256 0)] }

/-- A gather of no rows and of no task, which has ended and pushes its record to completion queue 0. -/
def emptyGather : Cmd :=
  { id := 5, engine := .gather, key := ⟨some 0, 0⟩, num := 0, lane := none, desc := 0x2000, bytes := [], cq := some 0,
    unc := false, mat := none, word := 0, ext := 0, prog := 0, written := 0, status := 0, stage := 0 }

/-- A reform bin of the panel: with it the panel's completion queues are still read. -/
def readingBin : Bin :=
  { id := 0, key := ⟨some 0, 0⟩, pc := 0, role := 0, threads := [], sources := [], since := 0, due := false }

/-- Two records of core 0: the first runs the command, the second holds the bin. -/
def twinCores : State :=
  { State.reset with
    panels := [fullPanel]
    cores := [{ freshCore 0 with cmds := [emptyGather] }, { freshCore 0 with bins := [readingBin] }] }

/-- The state that an event leaves holds no command of an engine on a core. -/
def leavesIdle (i : Instr) (s : State) (core : Nat) (e : Engine) : Bool :=
  match exec i s with
  | .next t => (engineCmds t core e).isEmpty
  | _ => false

theorem engineCmds_of_leavesIdle {i : Instr} {s t : State} {core : Nat} {e : Engine} (h : leavesIdle i s core e = true)
    (ht : exec i s = .next t) : engineCmds t core e = [] := by
  simpa [leavesIdle, ht] using h

theorem endedHead_twinCores : endedHead twinCores 0 .gather = some emptyGather := by decide +kernel

theorem cqRoom_twinCores : cqRoom twinCores emptyGather.key emptyGather.cq = false := by decide +kernel

theorem leavesIdle_twinCores : leavesIdle (.engineCompletion 0 .gather) twinCores 0 .gather = true := by decide +kernel

/-- Refutes O44, by its clause on a record without room in a state where core 0 stands twice. The panel's queue is full and
still read, by a bin that the second record of the core holds. The command's step to stage 2 replaces both records by the
first (`updCore`), so that nothing reads the queue when its room is looked at: the record is dropped and the command leaves,
where it should wait. Where no core stands twice the clause holds (`engineCompletion_waits`); the others hold in every state
(`engineCompletion_leaves`, `engineCompletion_decrements`). -/
theorem not_engineCompletions : ¬ Obligations.EngineCompletions := by
  unfold Obligations.EngineCompletions
  intro h
  obtain ⟨running, -⟩ := h twinCores 0 .gather emptyGather endedHead_twinCores
  obtain ⟨-, waits⟩ := running rfl (by decide +kernel)
  obtain ⟨t, y, ht, hy, -⟩ := waits rfl cqRoom_twinCores
  rw [engineCmds_of_leavesIdle leavesIdle_twinCores ht] at hy
  cases hy

end Sys2Proof.Machine
end

section
/-!
SUPPORT. A record in a partition's error queue is written by the device (R412, R439): it reaches no weft and no fabric port.
With it, what a packet of a sealed job does at the port where it arrives (R397).
-/
namespace Sys2Proof.Machine

/-! ### Records of errors: wefts and ports stay (R412, R414, R439) -/

/-- An operation leaves every weft and every fabric port as it was. -/
structure WeftsPortsKept (s t : State) : Prop where
  wefts : t.wefts = s.wefts
  ports : t.ports = s.ports

theorem WeftsPortsKept.refl (s : State) : WeftsPortsKept s s := ⟨rfl, rfl⟩

theorem WeftsPortsKept.trans {s t u : State} (h : WeftsPortsKept s t) (h' : WeftsPortsKept t u) : WeftsPortsKept s u :=
  ⟨h'.wefts.trans h.wefts, h'.ports.trans h.ports⟩

theorem weftsPortsKept_foldl {α : Type} {f : State → α → State} (h : ∀ s x, WeftsPortsKept s (f s x)) (l : List α)
    (s : State) : WeftsPortsKept s (l.foldl f s) := by
  induction l generalizing s with
  | nil => exact .refl s
  | cons x xs ih => exact (h s x).trans (ih _)

theorem weftsPortsKept_updPart (s : State) (p : Nat) (f : Part → Part) : WeftsPortsKept s (updPart s p f) :=
  ⟨updPart_wefts .., updPart_ports ..⟩

theorem weftsPortsKept_writePhys (s : State) (pa : Nat) (bs : List Byte) : WeftsPortsKept s (writePhys s pa bs) :=
  ⟨writePhys_wefts .., writePhys_ports ..⟩

theorem weftsPortsKept_writeNum (s : State) (pa n v : Nat) : WeftsPortsKept s (writeNum s pa n v) :=
  weftsPortsKept_writePhys ..

theorem weftsPortsKept_machineCheck (s : State) (code agent addr addr2 aux : Nat) :
    WeftsPortsKept s (machineCheck s code agent addr addr2 aux) := by
  unfold machineCheck
  dsimp only
  split
  · exact .refl s
  · split
    · exact weftsPortsKept_writeNum ..
    · exact (weftsPortsKept_writePhys ..).trans (weftsPortsKept_writeNum ..)

theorem weftsPortsKept_noteArea (s : State) (p va : Nat) : WeftsPortsKept s (noteArea s p va) := by
  unfold noteArea
  split
  · exact .refl s
  · split
    · exact .refl s
    · exact (weftsPortsKept_machineCheck ..).trans (weftsPortsKept_updPart ..)

theorem weftsPortsKept_deferArea (s : State) (p va : Nat) (w : AreaWork) : WeftsPortsKept s (deferArea s p va w) :=
  (weftsPortsKept_noteArea ..).trans (weftsPortsKept_updPart ..)

theorem weftsPortsKept_deviceDirty (s : State) (asid : Nat) (part : Option Nat) (va : Nat) :
    WeftsPortsKept s (deviceDirty s asid part va) := by
  unfold deviceDirty
  split
  · split
    · exact .refl s
    · exact weftsPortsKept_writeNum ..
  · exact .refl s

theorem weftsPortsKept_of_deviceWrite_go {s t u : State} {asid va : Nat} {part : Option Nat} {bs : List Byte}
    (h : deviceWrite.go s asid part va bs t = .ok u) : WeftsPortsKept t u := by
  induction bs generalizing va t with
  | nil => cases h; exact .refl _
  | cons b bs ih =>
    unfold deviceWrite.go at h
    split at h
    · exact ((weftsPortsKept_deviceDirty ..).trans (weftsPortsKept_writePhys ..)).trans (ih h)
    · cases h
    · cases h

theorem weftsPortsKept_of_deviceWrite {s t : State} {asid va : Nat} {part : Option Nat} {bs : List Byte}
    (h : deviceWrite s asid part va bs = .ok t) : WeftsPortsKept s t := weftsPortsKept_of_deviceWrite_go h

theorem weftsPortsKept_of_putErr {s t : State} {p : Nat} {bytes : List Byte} (h : putErr s p bytes = .ok t) :
    WeftsPortsKept s t := by
  unfold putErr at h
  split at h
  · cases h; exact .refl s
  · dsimp only at h
    split at h
    · split at h
      · exact weftsPortsKept_of_deviceWrite h
      · split at h
        · next hw => exact (weftsPortsKept_of_deviceWrite hw).trans (weftsPortsKept_of_deviceWrite h)
        · cases h
    all_goals cases h

theorem weftsPortsKept_errRecord (s : State) (part : Option Nat) (kind code lanes agent aux addr addr2 : Nat) :
    WeftsPortsKept s (errRecord s part kind code lanes agent aux addr addr2) := by
  unfold errRecord
  split
  · exact .refl s
  · dsimp only
    split
    · exact .refl s
    · split
      · exact weftsPortsKept_deferArea ..
      · split
        · next h => exact weftsPortsKept_of_putErr h
        · exact weftsPortsKept_deferArea ..

/-! ### A packet of a sealed job (R388, R397) -/

theorem recordedInc_src (s : State) (p : Packet) :
    recordedInc s p.src.toNat = if p.src = s.pkgid then s.incarn else tgetD s.peers p.src.toNat 0 := by
  simp [recordedInc, BitVec.toNat_inj]

/-- The port that drops a packet counts it, and counts no refusal. -/
theorem mem_ports_dropPacket {s : State} {port : Nat} {x : Port} (h : (s.ports.find? fun y => y.num == port) = some x) :
    ∃ y ∈ (dropPacket s port).ports, y.num = port ∧ y.drops = x.drops + 1 ∧ y.refusals = x.refusals := by
  have hnum : x.num = port := by simpa using List.find?_some h
  refine ⟨{ x with drops := x.drops + 1 }, ?_, hnum, rfl, rfl⟩
  exact List.mem_map.mpr ⟨x, List.mem_of_find?_eq_some h, if_pos hnum⟩

/-- Beside the drop counter of the port, the records of a late packet touch no weft and no port. -/
theorem weftsPortsKept_latePacket (s : State) (port tag : Nat) :
    WeftsPortsKept (dropPacket s port) (latePacket s port tag) :=
  weftsPortsKept_foldl (fun _ _ => weftsPortsKept_errRecord ..) _ _

theorem exec_fabricMemoryAccess (port : Nat) (p : Packet) (s : State) :
    exec (.fabricMemoryAccess port p) s = execFabricMemoryAccess port p s := rfl

/-- A packet with current incarnations whose job the member has sealed is late, whatever it asks for. -/
theorem fabricMemoryAccess_late {s : State} {port : Nat} {p : Packet} (hport : port ≤ 15) (htag : p.tag ≠ 0)
    (hdst : p.dinc = s.incarn) (hsrc : p.sinc = recordedInc s p.src.toNat)
    (sealed : ∃ y ∈ s.substs, y.job = p.tag ∧ y.stage = 2) :
    exec (.fabricMemoryAccess port p) s = .next (unhold (latePacket s port p.tag) (.fabricMemoryAccess port p)) := by
  have late : p.tag ≠ 0 ∧ s.substs.any (fun y => y.job == p.tag && y.stage == 2) := by simpa [htag] using sealed
  have fresh : ¬ (p.dinc ≠ s.incarn ∨ p.sinc ≠ recordedInc s p.src.toNat) := by simp [hdst, hsrc]
  rw [exec_fabricMemoryAccess, execFabricMemoryAccess, if_neg (by omega), if_neg fresh, if_pos late]

/-- Settles O52: the arrival of a late packet is the drop at the port and then the records, which leave the wefts and the
counters of the ports as they are. -/
theorem latePackets : Obligations.LatePackets := by
  unfold Obligations.LatePackets
  intro s port p x hport hx htag hdst hsrc sealed
  obtain ⟨wefts, ports⟩ := weftsPortsKept_latePacket s port p.tag
  refine ⟨_, fabricMemoryAccess_late hport htag hdst (hsrc.trans (recordedInc_src s p).symm) sealed, wefts, ?_, ?_⟩
  · obtain ⟨y, hy, counted⟩ := mem_ports_dropPacket hx
    exact ⟨y, ports ▸ hy, counted⟩
  · have dropped : { s with ports := (latePacket s port p.tag).ports } = dropPacket s port := by rw [ports]; rfl
    simp only [unhold, dropped]
    rfl

end Sys2Proof.Machine
end
